-- ==== Sys2Proof/Word.lean ====
section
/-! DEFINITION. Bytes and words (00_scope.md R7: `ADDR_W = WORD_W = 32`, `FRAME_BITS = 8`). -/

namespace Sys2Proof

/-- One SPI frame or one byte of system memory (00_scope.md R7, R9). -/
abbrev Byte := BitVec 8

/-- An address, a count, a handle or a result slot (00_scope.md R7). -/
abbrev Word := BitVec 32

end Sys2Proof
end

