-- ==== Sys2Proof/Machine/Crc.lean ====
section
/-! DEFINITION. CRC-7 and CRC-16 of 43_sd_framing.md R260 and R261, and the register check of R262. -/

namespace Sys2Proof.Machine

/-- One bit into the CRC-7 register (43_sd_framing.md R260). -/
def crc7Bit (c : BitVec 7) (bit : Bool) : BitVec 7 :=
  let fb := xor (c.getLsbD 6) bit
  let c1 := c <<< 1
  if fb then c1 ^^^ 0b0001001 else c1

/-- One byte into the CRC-7 register, most significant bit first (43_sd_framing.md R260). -/
def crc7Byte (c : BitVec 7) (v : Byte) : BitVec 7 :=
  [7, 6, 5, 4, 3, 2, 1, 0].foldl (fun c j => crc7Bit c (v.getLsbD j)) c

/-- `CRC7(v[0..n-1])` (43_sd_framing.md R260). -/
def crc7 (v : List Byte) : BitVec 7 := v.foldl crc7Byte 0

/-- One shift of the CRC-16 register (43_sd_framing.md R261). -/
def crc16Shift (c : BitVec 16) : BitVec 16 :=
  if c.getLsbD 15 then (c <<< 1) ^^^ 0x1021 else c <<< 1

/-- One byte into the CRC-16 register (43_sd_framing.md R261). -/
def crc16Byte (c : BitVec 16) (v : Byte) : BitVec 16 :=
  let c0 := c ^^^ ((v.setWidth 16) <<< 8)
  crc16Shift (crc16Shift (crc16Shift (crc16Shift (crc16Shift (crc16Shift (crc16Shift (crc16Shift c0)))))))

/-- `CRC16(v[0..n-1])` (43_sd_framing.md R261). -/
def crc16 (v : List Byte) : BitVec 16 := v.foldl crc16Byte 0

/-- `regok(w)`: the CRC-7 of the first 15 bytes against bits 7:1 of the last (43_sd_framing.md R262). -/
def registerOk (w : List Byte) : Bool :=
  crc7 (w.take 15) == (w.getD 15 0).extractLsb' 1 7

/-- The six bytes of a command frame (43_sd_framing.md R263, 30_encoding.md R120). -/
def commandFrame (index : BitVec 6) (arg : Word) : List Byte :=
  let f0 : Byte := 0x40 ||| index.setWidth 8
  let f1 : Byte := arg.extractLsb' 24 8
  let f2 : Byte := arg.extractLsb' 16 8
  let f3 : Byte := arg.extractLsb' 8 8
  let f4 : Byte := arg.extractLsb' 0 8
  let f5 : Byte := (((crc7 [f0, f1, f2, f3, f4]).setWidth 8) <<< 1) ||| 1
  [f0, f1, f2, f3, f4, f5]

end Sys2Proof.Machine
end

