-- ==== Sys2Proof/Syntax.lean ====
section
/-! DEFINITION. The 56 operations of the interface (30_encoding.md R111), one constructor a row of the opcode
table, each operand at the width R111 and R133 give it. -/

namespace Sys2Proof

/-- The SPI clock rate of BUS.SETSPEED: `A1[0]`, 0 LOW and 1 HIGH (30_encoding.md R133). -/
inductive Speed where
  | low | high
  deriving DecidableEq, Repr, Inhabited

/-- The reply shape of SDI.CMD: 0 R1, 1 R1b, 2 R2, 3 R3, 4 R7 (30_encoding.md R133). -/
inductive Shape where
  | r1 | r1b | r2 | r3 | r7
  deriving DecidableEq, Repr, Inhabited

/-- The result codes (60_exceptions.md R400); their numbers are `Machine.codeNum`. -/
inductive Code where
  | noError | nullPointer | invalidValue | outOfRange | busy | ioError | crc | timeout | state
  | sdParameter | sdAddress | sdEraseSeq | sdIllegalCmd | sdEraseReset | sdInIdle | sdOutOfRange | sdEraseParam
  | sdWpViolation | sdEccFailed | sdCcError | sdError | sdWpEraseSkip | sdLocked | sdInvalidCard
  deriving DecidableEq, Repr, Inhabited

/-- The operations (30_encoding.md R111). `f`, `b`, `c`, `s` and `a` are the handles of a future, a bus, a DMA
channel, an SD session and an adapter; `op` is the handle of a host-held operation record. -/
inductive Instr where
  -- unit 0b000: FUT
  | futInit (f : Word)
  | futStart (f : Word)
  | futFinish (f : Word) (result : Word)
  | futRunning (f : Word)
  | futDone (f : Word)
  | futResult (f : Word)
  | futWait (f : Word)
  | futSetResult (f : Word) (result : Word)
  -- unit 0b001: BUS
  | busInit (b : Word)
  | busSetId (b : Word) (id : Byte)
  | busId (b : Word)
  | busXfer (b : Word) (messages : Word) (count : Word)
  | busXmit (b : Word) (tx : Byte) (rxaddr : Word)
  | busWait (b : Word)
  | busStatus (b : Word)
  | busErrors (b : Word)
  | busBusy (b : Word)
  | busSetCb (b : Word) (callback : Word)
  | busSetTxDef (b : Word) (value : Byte)
  | busSetSpeed (b : Word) (speed : Speed)
  -- unit 0b010: IRQ
  | irqSpi (b : Word)
  | irqDmaRx (b : Word)
  | irqDmaTx (b : Word)
  -- unit 0b011: DMA
  | dmaTryLock (c : Word)
  | dmaUnlock (c : Word)
  -- unit 0b100: SD
  | sdInit (s : Word)
  | sdRead1 (s : Word) (sector : Word) (dst : Word)
  | sdReadN (s : Word) (sector : Word) (count : Word) (dst : Word)
  | sdWrite1 (s : Word) (sector : Word) (src : Word)
  | sdWriteN (s : Word) (sector : Word) (count : Word) (src : Word)
  | sdSetCrc (s : Word) (en : Bool)
  | sdSectors (s : Word)
  | sdType (s : Word)
  | sdInited (s : Word)
  | sdBlkLen (s : Word)
  | sdEraseSz (s : Word)
  | sdCid (s : Word) (dst : Word)
  | sdCsd (s : Word) (dst : Word)
  | sdCrcEn (s : Word)
  -- unit 0b101: SDI
  | sdiCrc7 (addr : Word) (n : Word)
  | sdiCrc16 (addr : Word) (n : Word)
  | sdiFrame (index : BitVec 6) (arg : Word)
  | sdiCmd (s : Word) (index : BitVec 6) (arg : Word) (shape : Shape) (allowIdle : Bool)
  | sdiR1Poll (s : Word)
  | sdiBusyWait (s : Word)
  | sdiRdBlk (s : Word) (dst : Word) (n : Word) (check : Bool)
  | sdiWrBlk (s : Word) (src : Word) (token : Byte)
  | sdiStopR (s : Word)
  | sdiStopW (s : Word)
  | sdiDecode (r1 : Byte) (r2 : Byte) (allowIdle : Bool)
  | sdiErrTok (token : Byte)
  | sdiRdReg (s : Word) (index : BitVec 6) (dst : Word)
  -- unit 0b110: ADP
  | adpBegin (a : Word) (op : Word)
  | adpSync (a : Word) (op : Word)
  | adpComplete (a : Word)
  | adpDispatch (b : Word)
  deriving DecidableEq, Repr, Inhabited

end Sys2Proof
end

