-- ==== Sys2Proof/Config.lean ====
section
/-! DEFINITION. The parameters of 00_scope.md R7 (fixed values, and the OPEN ones as the fields of a plain record
that State holds), the acts of the host and the turns of the agents as data, and the free values. -/

namespace Sys2Proof

/-! ## Fixed parameters (00_scope.md R7) -/

/-- `MAX_MSG_SIZE` (00_scope.md R7). -/
def Config.maxMsgSize : Nat := 65535

/-- `CALLBACK_ON_LAST` (00_scope.md R7, 90_conflicts.md C7). -/
def Config.callbackOnLast : Bool := true

/-- `R1_POLL_BUDGET` (00_scope.md R7). -/
def Config.r1PollBudget : Nat := 8

/-- `DRESP_POLL_BUDGET` (00_scope.md R7). -/
def Config.drespPollBudget : Nat := 8

/-- `INIT_DUMMY_BYTES` (00_scope.md R7). -/
def Config.initDummyBytes : Nat := 10

/-- `SD_BLOCK_LEN` (00_scope.md R7). -/
def Config.sdBlockLen : Word := 512

/-- `CMD8_ARG` (00_scope.md R7). -/
def Config.cmd8Arg : Word := 0x000001AA

/-- `ACMD41_HCS_ARG` (00_scope.md R7). -/
def Config.acmd41HcsArg : Word := 0x40000000

/-- `SD_FILLER` (00_scope.md R7, 30_encoding.md R131). -/
def Config.sdFiller : Byte := 0xFF

/-! ## Configuration records -/

/-- The duplex configuration of a bus: encodings 0, 1, 2 (10_state.md R35). -/
inductive Mode where
  | fullDuplex | halfDuplexRx | halfDuplexTx
  deriving DecidableEq, Repr, Inhabited

/-- The SPI frame width the wire interface allows; 16 is refused (00_scope.md R8). -/
inductive FrameBits where
  | eight | sixteen
  deriving DecidableEq, Repr, Inhabited

/-- The bit order of a bus's frames (00_scope.md R8, 20_memory.md R86). -/
inductive BitOrder where
  | msbFirst | lsbFirst
  deriving DecidableEq, Repr, Inhabited

/-- `STOP_STATUS_MODE` (00_scope.md R7, 44_sd_protocol.md R316). -/
inductive StopStatusMode where
  | r1bOnly | r1bThenCmd13
  deriving DecidableEq, Repr, Inhabited

/-- Bus configuration (10_state.md R35), with the frame width and bit order of 00_scope.md R8 and the list
`adapters(b)` in dispatch order (45_adapter_contract.md R386; any list of the bus's adapters, log 43). Each bus has the
SPI peripheral state of its own, whatever `periph` is (log 40). -/
structure BusCfg where
  periph : Nat
  rxCh : Nat
  txCh : Nat
  mode : Mode
  frameBits : FrameBits
  bitOrder : BitOrder
  adapters : List Nat
  deriving DecidableEq, Repr, Inhabited

/-- Session configuration (10_state.md R52); `cs` names the chip-select line. Two sessions, or a session and an adapter,
may name one chip-select line, scratch buffer or descriptor list (log 44). -/
structure SdCfg where
  bus : Nat
  sdId : Byte
  cs : Nat
  timeoutBegin : Word
  timeoutEnd : Word
  crcbuf : Word
  regbuf : Word
  msgs : Word
  deriving DecidableEq, Repr, Inhabited

/-- Adapter configuration (45_adapter_contract.md R380); `fut` is the handle of the adapter's own future, which the
model lets two adapters share (log 42), as it does chip-select lines, scratch buffers and descriptor lists (log 44). -/
structure AdpCfg where
  bus : Nat
  id : Byte
  cs : Nat
  buf : Word
  bufSize : Nat
  msgs : Word
  maxMsgs : Nat
  fut : Nat
  deriving DecidableEq, Repr, Inhabited

/-- A region of system memory that the platform backs (20_memory.md R81). -/
structure Region where
  base : Nat
  size : Nat
  deriving DecidableEq, Repr, Inhabited

/-- The OPEN parameters (00_scope.md R7, 92_eei_decisions.md). `NUM_BUSES` is the length of `buses`; the SD
sessions and adapters are those listed. -/
structure Config where
  buses : List BusCfg
  numDmaCh : Nat
  sessions : List SdCfg
  adapters : List AdpCfg
  ocrVoltageMask : Word
  stopStatusMode : StopStatusMode
  timeoutInit : Word
  timeoutToken : Word
  timeoutBusy : Word
  backed : List Region
  deriving DecidableEq, Repr, Inhabited

/-! ## Host data and acts -/

/-- A message descriptor (10_state.md R44); `dir` is 1 READ, 2 WRITE, 3 READ_WRITE, and 0 is not a direction. -/
structure Msg where
  dir : BitVec 2
  tx : Word
  rx : Word
  size : Word
  callback : Word
  senderData : Word
  deriving DecidableEq, Repr, Inhabited

/-- A host-held operation record (30_encoding.md R133, 45_adapter_contract.md R382): the M95x read the spec gives in
full, or a driver's own kind, given by what its Build returns: descriptors with scratch bytes, or a result code
(log 31). -/
inductive OpRec where
  | m95xRead (addr : Word) (dst : Word) (size : Word)
  | driver (msgs : List Msg) (scratch : List Byte)
  | rejected (c : Code)
  deriving DecidableEq, Repr, Inhabited

/-- An access of the host's own code (20_memory.md R83, R84, R96): a byte of system memory stored or loaded, a
descriptor or an operation record written. -/
inductive Access where
  | store (a : Word) (v : Byte)
  | load (a : Word)
  | desc (p : Word) (i : Word) (m : Msg)
  | opRec (op : Word) (r : OpRec)
  deriving DecidableEq, Repr, Inhabited

/-- One act of a host callback: an operation of the interface, an access, or never returning (60_exceptions.md R417;
R415, 93_implementation_defined.md U4). -/
inductive Act where
  | op (i : Instr)
  | access (x : Access)
  | hang
  deriving DecidableEq, Repr, Inhabited

/-- A host callback (60_exceptions.md R417): the same acts at every invocation, or a tape that gives the acts of each
successive invocation and none after its end (log 12). One whose acts reach `hang` does not return (log 39). -/
inductive Callback where
  | always (acts : List Act)
  | tape (runs : List (List Act))
  deriving DecidableEq, Repr, Inhabited

/-- The argument a callback is invoked with (42_spi_events.md R228, R230, R231; 44_sd_protocol.md R311). -/
inductive CbArg where
  | msg (m : Msg)
  | bus (b : Nat)
  | word (w : Word)
  deriving DecidableEq, Repr, Inhabited

/-- Whose step is next (00_scope.md R3): FG's, a host access by FG, a handler of a bus, the datapath of a bus, or an
event of ENV (42_spi_events.md R221; 10_state.md R48, R62). -/
inductive Turn where
  | fg
  | host (x : Access)
  | irqSpi (b : Nat)
  | irqDmaRx (b : Nat)
  | irqDmaTx (b : Nat)
  | dp (b : Nat)
  | envOvr (b : Nat)
  | envModf (b : Nat)
  | envCrcErr (b : Nat)
  | envTe (c : Nat)
  | envExpire (s : Nat)
  | envLock (c : Nat)
  | envUnlock (c : Nat)
  deriving DecidableEq, Repr, Inhabited

/-! ## Free values (log 9) -/

/-- The free bytes: DEV's answers where none is queued (log 6), the draws of 20_memory.md R96 and
70_reset_and_hazards.md R460 (log 11) and reply bytes the spec leaves open (log 23). -/
opaque Config.freeByte : Nat → Byte

/-- The free words: the reply payload the spec leaves open (log 23). -/
opaque Config.freeWord : Nat → Word

/-- The free turns: who moves when no turn is queued (log 5). -/
opaque Config.freeTurn : Nat → Turn

end Sys2Proof
end

