-- ==== Sys2Proof/WellFormed.lean ====
section
/-! DEFINITION. The operand values for which the spec states an operation, where that is less than the operand's
width: the widths themselves are the types' (30_encoding.md R133). The decoder accepts the other values too and
the machine runs the rule's pseudocode on them (log 26). -/

namespace Sys2Proof

/-- SDI.ERRTOK: "token (8 bits, with token[7:4] = 0)" (43_sd_framing.md R274). -/
def errTokenOk (token : Byte) : Bool := token.extractLsb' 4 4 == 0

/-- SDI.WRBLK: "token (8 bits: 0xFE single block, 0xFC multiple block)" (44_sd_protocol.md R315). -/
def startTokenOk (token : Byte) : Bool := token == 0xFE || token == 0xFC

/-- SDI.RDREG: "index (9 CSD or 10 CID)" (44_sd_protocol.md R318). -/
def registerIndexOk (index : BitVec 6) : Bool := index == 9 || index == 10

/-- The well-formed operations. -/
def Instr.wellFormed : Instr → Bool
  | .sdiErrTok token => errTokenOk token
  | .sdiWrBlk _ _ token => startTokenOk token
  | .sdiRdReg _ index _ => registerIndexOk index
  | .futInit _ | .futStart _ | .futFinish _ _ | .futRunning _ | .futDone _ | .futResult _ | .futWait _
  | .futSetResult _ _ => true
  | .busInit _ | .busSetId _ _ | .busId _ | .busXfer _ _ _ | .busXmit _ _ _ | .busWait _ | .busStatus _
  | .busErrors _ | .busBusy _ | .busSetCb _ _ | .busSetTxDef _ _ | .busSetSpeed _ _ => true
  | .irqSpi _ | .irqDmaRx _ | .irqDmaTx _ | .dmaTryLock _ | .dmaUnlock _ => true
  | .sdInit _ | .sdRead1 _ _ _ | .sdReadN _ _ _ _ | .sdWrite1 _ _ _ | .sdWriteN _ _ _ _ | .sdSetCrc _ _
  | .sdSectors _ | .sdType _ | .sdInited _ | .sdBlkLen _ | .sdEraseSz _ | .sdCid _ _ | .sdCsd _ _
  | .sdCrcEn _ => true
  | .sdiCrc7 _ _ | .sdiCrc16 _ _ | .sdiFrame _ _ | .sdiCmd _ _ _ _ _ | .sdiR1Poll _ | .sdiBusyWait _
  | .sdiRdBlk _ _ _ _ | .sdiStopR _ | .sdiStopW _ | .sdiDecode _ _ _ => true
  | .adpBegin _ _ | .adpSync _ _ | .adpComplete _ | .adpDispatch _ => true

end Sys2Proof
end

