-- ==== Sys2Proof/Decode.lean ====
section
/-! DEFINITION. The operation word of 30_encoding.md R110: one opcode byte, then 0 to 4 operand slots of 32 bits.
The decoder is total on any list of bytes and refuses by name (R132); the encoder is written from the same rows of
R111. A slot's bytes stand least significant first in the operation stream (log 7). -/

namespace Sys2Proof

/-- Why the decoder refuses (30_encoding.md R132; `truncated`: the bytes end inside the operation, log 8). -/
inductive Reject where
  | reservedOpcode | operandTooWide | truncated
  deriving DecidableEq, Repr

/-- The names of the opcode map's rows (30_encoding.md R111). -/
inductive Op where
  | futInit | futStart | futFinish | futRunning | futDone | futResult | futWait | futSetResult
  | busInit | busSetId | busId | busXfer | busXmit | busWait | busStatus | busErrors | busBusy | busSetCb
  | busSetTxDef | busSetSpeed
  | irqSpi | irqDmaRx | irqDmaTx
  | dmaTryLock | dmaUnlock
  | sdInit | sdRead1 | sdReadN | sdWrite1 | sdWriteN | sdSetCrc | sdSectors | sdType | sdInited | sdBlkLen
  | sdEraseSz | sdCid | sdCsd | sdCrcEn
  | sdiCrc7 | sdiCrc16 | sdiFrame | sdiCmd | sdiR1Poll | sdiBusyWait | sdiRdBlk | sdiWrBlk | sdiStopR | sdiStopW
  | sdiDecode | sdiErrTok | sdiRdReg
  | adpBegin | adpSync | adpComplete | adpDispatch
  deriving DecidableEq, Repr

/-- A row of the opcode map: the opcode byte, the operation and how many operand slots follow. -/
structure OpRow where
  code : Byte
  op : Op
  slots : Nat
  deriving DecidableEq, Repr

/-- Unit 0b000 (30_encoding.md R111). -/
def futRows : List OpRow :=
  [⟨0x00, .futInit, 1⟩, ⟨0x01, .futStart, 1⟩, ⟨0x02, .futFinish, 2⟩, ⟨0x03, .futRunning, 1⟩, ⟨0x04, .futDone, 1⟩,
   ⟨0x05, .futResult, 1⟩, ⟨0x06, .futWait, 1⟩, ⟨0x07, .futSetResult, 2⟩]

/-- Unit 0b001 (30_encoding.md R111). -/
def busRows : List OpRow :=
  [⟨0x20, .busInit, 1⟩, ⟨0x21, .busSetId, 2⟩, ⟨0x22, .busId, 1⟩, ⟨0x23, .busXfer, 3⟩, ⟨0x24, .busXmit, 3⟩,
   ⟨0x25, .busWait, 1⟩, ⟨0x26, .busStatus, 1⟩, ⟨0x27, .busErrors, 1⟩, ⟨0x28, .busBusy, 1⟩, ⟨0x29, .busSetCb, 2⟩,
   ⟨0x2A, .busSetTxDef, 2⟩, ⟨0x2B, .busSetSpeed, 2⟩]

/-- Units 0b010 and 0b011 (30_encoding.md R111). -/
def irqDmaRows : List OpRow :=
  [⟨0x40, .irqSpi, 1⟩, ⟨0x41, .irqDmaRx, 1⟩, ⟨0x42, .irqDmaTx, 1⟩, ⟨0x60, .dmaTryLock, 1⟩, ⟨0x61, .dmaUnlock, 1⟩]

/-- Unit 0b100 (30_encoding.md R111). -/
def sdRows : List OpRow :=
  [⟨0x80, .sdInit, 1⟩, ⟨0x81, .sdRead1, 3⟩, ⟨0x82, .sdReadN, 4⟩, ⟨0x83, .sdWrite1, 3⟩, ⟨0x84, .sdWriteN, 4⟩,
   ⟨0x85, .sdSetCrc, 2⟩, ⟨0x86, .sdSectors, 1⟩, ⟨0x87, .sdType, 1⟩, ⟨0x88, .sdInited, 1⟩, ⟨0x89, .sdBlkLen, 1⟩,
   ⟨0x8A, .sdEraseSz, 1⟩, ⟨0x8B, .sdCid, 2⟩, ⟨0x8C, .sdCsd, 2⟩, ⟨0x8D, .sdCrcEn, 1⟩]

/-- Unit 0b101 (30_encoding.md R111). -/
def sdiRows : List OpRow :=
  [⟨0xA0, .sdiCrc7, 2⟩, ⟨0xA1, .sdiCrc16, 2⟩, ⟨0xA2, .sdiFrame, 2⟩, ⟨0xA3, .sdiCmd, 4⟩, ⟨0xA4, .sdiR1Poll, 1⟩,
   ⟨0xA5, .sdiBusyWait, 1⟩, ⟨0xA6, .sdiRdBlk, 4⟩, ⟨0xA7, .sdiWrBlk, 3⟩, ⟨0xA8, .sdiStopR, 1⟩,
   ⟨0xA9, .sdiStopW, 1⟩, ⟨0xAA, .sdiDecode, 3⟩, ⟨0xAB, .sdiErrTok, 1⟩, ⟨0xAC, .sdiRdReg, 3⟩]

/-- Unit 0b110 (30_encoding.md R111). -/
def adpRows : List OpRow :=
  [⟨0xC0, .adpBegin, 2⟩, ⟨0xC1, .adpSync, 2⟩, ⟨0xC2, .adpComplete, 1⟩, ⟨0xC3, .adpDispatch, 1⟩]

/-- The opcode map (30_encoding.md R111). -/
def opRows : List OpRow := futRows ++ busRows ++ irqDmaRows ++ sdRows ++ sdiRows ++ adpRows

/-- The row of an opcode byte; none for a reserved opcode (30_encoding.md R132 (a)). -/
def rowOfByte (code : Byte) : Option OpRow := opRows.find? (fun r => r.code == code)

/-- The row of an operation. -/
def rowOfOp (op : Op) : Option OpRow := opRows.find? (fun r => r.op == op)

/-- The opcode byte of an operation. -/
def Op.code (op : Op) : Byte := ((rowOfOp op).map OpRow.code).getD 0

/-- The four bytes of a slot, least significant first (log 7). -/
def wordBytes (w : Word) : List Byte :=
  [w.extractLsb' 0 8, w.extractLsb' 8 8, w.extractLsb' 16 8, w.extractLsb' 24 8]

/-- The slot that four bytes make, least significant first (log 7). -/
def wordOfBytes (b0 b1 b2 b3 : Byte) : Word := b3 ++ b2 ++ b1 ++ b0

/-- Reads `n` operand slots; none when the bytes run out. -/
def takeSlots : Nat → List Byte → Option (List Word × List Byte)
  | 0, rest => some ([], rest)
  | n + 1, b0 :: b1 :: b2 :: b3 :: rest =>
    match takeSlots n rest with
    | some (ws, rest') => some (wordOfBytes b0 b1 b2 b3 :: ws, rest')
    | none => none
  | _ + 1, _ => none

/-- Slot `i` of the operation, 0 where the operation has fewer (A0 is slot 0). -/
def slot (ws : List Word) (i : Nat) : Word := ws.getD i 0

/-- The operand of `w` bits in a slot; the bits above it must be 0 (30_encoding.md R132 (b), R133). -/
def narrow (w : Nat) (x : Word) : Option (BitVec w) :=
  if x.toNat < 2 ^ w then some (BitVec.ofNat w x.toNat) else none

/-- A one-bit operand (30_encoding.md R133). -/
def narrowBit (x : Word) : Option Bool :=
  if x = 0 then some false else if x = 1 then some true else none

/-- The speed operand, 0 LOW and 1 HIGH (30_encoding.md R133). -/
def narrowSpeed (x : Word) : Option Speed :=
  if x = 0 then some .low else if x = 1 then some .high else none

/-- The reply shape in bits 2:0; 5 to 7 are refused (30_encoding.md R133). -/
def shapeOfBits (x : BitVec 3) : Option Shape :=
  if x = 0 then some .r1 else if x = 1 then some .r1b else if x = 2 then some .r2
  else if x = 3 then some .r3 else if x = 4 then some .r7 else none

/-- SDI.CMD's operand A3: the shape in bits 2:0 and allow_idle in bit 3 (30_encoding.md R133). -/
def narrowShape (x : Word) : Option (Shape × Bool) :=
  if x.toNat < 16 then (shapeOfBits (x.extractLsb' 0 3)).map (fun sh => (sh, x.getLsbD 3)) else none

/-- The operation of an opcode with its operand slots; none where an operand is too wide (30_encoding.md R132 (b)). -/
def assemble (op : Op) (ws : List Word) : Option Instr :=
  let a0 := slot ws 0
  let a1 := slot ws 1
  let a2 := slot ws 2
  let a3 := slot ws 3
  match op with
  | .futInit => some (.futInit a0)
  | .futStart => some (.futStart a0)
  | .futFinish => some (.futFinish a0 a1)
  | .futRunning => some (.futRunning a0)
  | .futDone => some (.futDone a0)
  | .futResult => some (.futResult a0)
  | .futWait => some (.futWait a0)
  | .futSetResult => some (.futSetResult a0 a1)
  | .busInit => some (.busInit a0)
  | .busSetId => (narrow 8 a1).map (.busSetId a0)
  | .busId => some (.busId a0)
  | .busXfer => some (.busXfer a0 a1 a2)
  | .busXmit => (narrow 8 a1).map (fun t => .busXmit a0 t a2)
  | .busWait => some (.busWait a0)
  | .busStatus => some (.busStatus a0)
  | .busErrors => some (.busErrors a0)
  | .busBusy => some (.busBusy a0)
  | .busSetCb => some (.busSetCb a0 a1)
  | .busSetTxDef => (narrow 8 a1).map (.busSetTxDef a0)
  | .busSetSpeed => (narrowSpeed a1).map (.busSetSpeed a0)
  | .irqSpi => some (.irqSpi a0)
  | .irqDmaRx => some (.irqDmaRx a0)
  | .irqDmaTx => some (.irqDmaTx a0)
  | .dmaTryLock => some (.dmaTryLock a0)
  | .dmaUnlock => some (.dmaUnlock a0)
  | .sdInit => some (.sdInit a0)
  | .sdRead1 => some (.sdRead1 a0 a1 a2)
  | .sdReadN => some (.sdReadN a0 a1 a2 a3)
  | .sdWrite1 => some (.sdWrite1 a0 a1 a2)
  | .sdWriteN => some (.sdWriteN a0 a1 a2 a3)
  | .sdSetCrc => (narrowBit a1).map (.sdSetCrc a0)
  | .sdSectors => some (.sdSectors a0)
  | .sdType => some (.sdType a0)
  | .sdInited => some (.sdInited a0)
  | .sdBlkLen => some (.sdBlkLen a0)
  | .sdEraseSz => some (.sdEraseSz a0)
  | .sdCid => some (.sdCid a0 a1)
  | .sdCsd => some (.sdCsd a0 a1)
  | .sdCrcEn => some (.sdCrcEn a0)
  | .sdiCrc7 => some (.sdiCrc7 a0 a1)
  | .sdiCrc16 => some (.sdiCrc16 a0 a1)
  | .sdiFrame => (narrow 6 a0).map (fun x => .sdiFrame x a1)
  | .sdiCmd => (narrow 6 a1).bind (fun x => (narrowShape a3).map (fun p => .sdiCmd a0 x a2 p.1 p.2))
  | .sdiR1Poll => some (.sdiR1Poll a0)
  | .sdiBusyWait => some (.sdiBusyWait a0)
  | .sdiRdBlk => (narrowBit a3).map (.sdiRdBlk a0 a1 a2)
  | .sdiWrBlk => (narrow 8 a2).map (.sdiWrBlk a0 a1)
  | .sdiStopR => some (.sdiStopR a0)
  | .sdiStopW => some (.sdiStopW a0)
  | .sdiDecode =>
    (narrow 8 a0).bind (fun r1 => (narrow 8 a1).bind (fun r2 => (narrowBit a2).map (.sdiDecode r1 r2)))
  | .sdiErrTok => (narrow 8 a0).map .sdiErrTok
  | .sdiRdReg => (narrow 6 a1).map (fun x => .sdiRdReg a0 x a2)
  | .adpBegin => some (.adpBegin a0 a1)
  | .adpSync => some (.adpSync a0 a1)
  | .adpComplete => some (.adpComplete a0)
  | .adpDispatch => some (.adpDispatch a0)

/-- Reads one operation from the front of the bytes and answers it with the bytes left
(30_encoding.md R110, R132 to R134). -/
def decode : List Byte → Except Reject (Instr × List Byte)
  | [] => .error .truncated
  | code :: rest =>
    match rowOfByte code with
    | none => .error .reservedOpcode
    | some row =>
      match takeSlots row.slots rest with
      | none => .error .truncated
      | some (ws, rest') =>
        match assemble row.op ws with
        | none => .error .operandTooWide
        | some i => .ok (i, rest')

/-! ## The encoder -/

/-- A one-bit operand in its slot. -/
def bitSlot (b : Bool) : Word := if b then 1 else 0

/-- The speed operand in its slot. -/
def speedSlot : Speed → Word
  | .low => 0
  | .high => 1

/-- The reply shape's number (30_encoding.md R133). -/
def shapeBits : Shape → BitVec 3
  | .r1 => 0
  | .r1b => 1
  | .r2 => 2
  | .r3 => 3
  | .r7 => 4

/-- SDI.CMD's operand A3 in its slot. -/
def shapeSlot (sh : Shape) (allowIdle : Bool) : Word :=
  (shapeBits sh).setWidth 32 ||| (if allowIdle then 8 else 0)

/-- The opcode map's row of an operation and its operand slots A0, A1, ... in order (30_encoding.md R111, R133). -/
def Instr.word : Instr → Op × List Word
  | .futInit f => (.futInit, [f])
  | .futStart f => (.futStart, [f])
  | .futFinish f r => (.futFinish, [f, r])
  | .futRunning f => (.futRunning, [f])
  | .futDone f => (.futDone, [f])
  | .futResult f => (.futResult, [f])
  | .futWait f => (.futWait, [f])
  | .futSetResult f r => (.futSetResult, [f, r])
  | .busInit b => (.busInit, [b])
  | .busSetId b id => (.busSetId, [b, id.setWidth 32])
  | .busId b => (.busId, [b])
  | .busXfer b p n => (.busXfer, [b, p, n])
  | .busXmit b t ra => (.busXmit, [b, t.setWidth 32, ra])
  | .busWait b => (.busWait, [b])
  | .busStatus b => (.busStatus, [b])
  | .busErrors b => (.busErrors, [b])
  | .busBusy b => (.busBusy, [b])
  | .busSetCb b cb => (.busSetCb, [b, cb])
  | .busSetTxDef b v => (.busSetTxDef, [b, v.setWidth 32])
  | .busSetSpeed b sp => (.busSetSpeed, [b, speedSlot sp])
  | .irqSpi b => (.irqSpi, [b])
  | .irqDmaRx b => (.irqDmaRx, [b])
  | .irqDmaTx b => (.irqDmaTx, [b])
  | .dmaTryLock c => (.dmaTryLock, [c])
  | .dmaUnlock c => (.dmaUnlock, [c])
  | .sdInit s => (.sdInit, [s])
  | .sdRead1 s sec dst => (.sdRead1, [s, sec, dst])
  | .sdReadN s sec n dst => (.sdReadN, [s, sec, n, dst])
  | .sdWrite1 s sec src => (.sdWrite1, [s, sec, src])
  | .sdWriteN s sec n src => (.sdWriteN, [s, sec, n, src])
  | .sdSetCrc s en => (.sdSetCrc, [s, bitSlot en])
  | .sdSectors s => (.sdSectors, [s])
  | .sdType s => (.sdType, [s])
  | .sdInited s => (.sdInited, [s])
  | .sdBlkLen s => (.sdBlkLen, [s])
  | .sdEraseSz s => (.sdEraseSz, [s])
  | .sdCid s dst => (.sdCid, [s, dst])
  | .sdCsd s dst => (.sdCsd, [s, dst])
  | .sdCrcEn s => (.sdCrcEn, [s])
  | .sdiCrc7 a n => (.sdiCrc7, [a, n])
  | .sdiCrc16 a n => (.sdiCrc16, [a, n])
  | .sdiFrame x arg => (.sdiFrame, [x.setWidth 32, arg])
  | .sdiCmd s x arg sh ai => (.sdiCmd, [s, x.setWidth 32, arg, shapeSlot sh ai])
  | .sdiR1Poll s => (.sdiR1Poll, [s])
  | .sdiBusyWait s => (.sdiBusyWait, [s])
  | .sdiRdBlk s dst n check => (.sdiRdBlk, [s, dst, n, bitSlot check])
  | .sdiWrBlk s src token => (.sdiWrBlk, [s, src, token.setWidth 32])
  | .sdiStopR s => (.sdiStopR, [s])
  | .sdiStopW s => (.sdiStopW, [s])
  | .sdiDecode r1 r2 ai => (.sdiDecode, [r1.setWidth 32, r2.setWidth 32, bitSlot ai])
  | .sdiErrTok token => (.sdiErrTok, [token.setWidth 32])
  | .sdiRdReg s x dst => (.sdiRdReg, [s, x.setWidth 32, dst])
  | .adpBegin a op => (.adpBegin, [a, op])
  | .adpSync a op => (.adpSync, [a, op])
  | .adpComplete a => (.adpComplete, [a])
  | .adpDispatch b => (.adpDispatch, [b])

/-- The bytes of an operation: its opcode, then its slots (30_encoding.md R110). -/
def encode (i : Instr) : List Byte := i.word.1.code :: i.word.2.flatMap wordBytes

/-! ## The host's numbering of an operation word -/

/-- `n` bytes of `w`, bit 0 of `w` being the least significant bit of the first. -/
def bytesOfNat : Nat → Nat → List Byte
  | 0, _ => []
  | n + 1, w => BitVec.ofNat 8 w :: bytesOfNat n (w / 256)

/-- The longest operation has one opcode byte and four slots (30_encoding.md R110). -/
def longestOp : Nat := 17

/-- The bytes of an operation whose bits are `w`, numbered as the opcode table numbers them; every bit above
`nbits` is 0. -/
def tableBytes (nbits w : Nat) : List Byte := bytesOfNat longestOp (w % 2 ^ nbits)

/-- The operation the decoder reads from a word of the opcode table. -/
def decodeTableWord (nbits w : Nat) : Option Instr :=
  match decode (tableBytes nbits w) with
  | .ok (i, _) => some i
  | .error _ => none

end Sys2Proof
end

