-- ==== Sys2Proof/Machine/Table.lean ====
section
/-! DEFINITION. Sparse data by key: a list of (key, value) pairs in one canonical form, keys strictly rising and no
entry equal to what an unlisted key reads as. Every memory and record file of the machine is held in it. -/

namespace Sys2Proof.Machine

/-- Values by key; a key that is not listed has the table's default value. -/
abbrev Table (α : Type) := List (Nat × α)

/-- The value at key `n`, `d` where it is not listed. -/
def Table.get {α : Type} (d : α) : Table α → Nat → α
  | [], _ => d
  | (k, v) :: t, n => if k = n then v else Table.get d t n

/-- The table without key `n`. -/
def Table.erase {α : Type} : Table α → Nat → Table α
  | [], _ => []
  | (k, v) :: t, n => if k = n then Table.erase t n else (k, v) :: Table.erase t n

/-- Places an entry before the first greater key. -/
def Table.place {α : Type} (n : Nat) (v : α) : Table α → Table α
  | [] => [(n, v)]
  | (k, w) :: t => if n < k then (n, v) :: (k, w) :: t else (k, w) :: Table.place n v t

/-- The table with value `v` at key `n`; the default value is not listed. -/
def Table.put {α : Type} [DecidableEq α] (d : α) (t : Table α) (n : Nat) (v : α) : Table α :=
  if v = d then Table.erase t n else Table.place n v (Table.erase t n)

/-- Every listed key is at least `lo`, keys rise strictly, and no entry is the default value `d`. -/
def Table.wfFrom {α : Type} [DecidableEq α] (d : α) : Nat → Table α → Bool
  | _, [] => true
  | lo, (k, v) :: t => decide (lo ≤ k) && decide (v ≠ d) && Table.wfFrom d (k + 1) t

/-- The canonical form. -/
def Table.wf {α : Type} [DecidableEq α] (d : α) (t : Table α) : Bool := Table.wfFrom d 0 t

end Sys2Proof.Machine
end

