-- ==== Sys2Proof/Machine/State.lean ====
section
/-! DEFINITION. The machine's state as plain data (10_state.md), the reasons a step can stop, and the state after
reset (70_reset_and_hazards.md R450). -/

namespace Sys2Proof.Machine

/-! ## Bus state (10_state.md R36 to R43, R50, R51) -/

/-- The bus engine's `state`: 0 IDLE, 1 READING, 2 WRITING, 3 READING_WRITING (10_state.md R36). -/
inductive Phase where
  | idle | reading | writing | readingWriting
  deriving DecidableEq, Repr, Inhabited

/-- The bus `status`: 0 IDLE, 1 TRANSFERRING, 2 TRANSFERRED, 3 ERROR (10_state.md R37). -/
inductive Status where
  | idle | transferring | transferred | error
  deriving DecidableEq, Repr, Inhabited

/-- One bus with its SPI peripheral. `inited` says that BUS.INIT has run (41_spi_bus.md R190). -/
structure Bus where
  inited : Bool
  phase : Phase
  status : Status
  transferId : Byte
  errors : BitVec 4
  messages : Word
  count : Word
  index : Word
  txDefault : Byte
  callback : Word
  heldRx : Bool
  heldTx : Bool
  pos : Word
  ovr : Bool
  modf : Bool
  crcerr : Bool
  errie : Bool
  rxdmaen : Bool
  txdmaen : Bool
  speed : Speed
  deriving DecidableEq, Repr, Inhabited

/-- A bus at power-on (70_reset_and_hazards.md R450); the unspecified fields hold the values of log 2. -/
def Bus.powerOn : Bus where
  inited := false
  phase := .idle
  status := .idle
  transferId := 0
  errors := 0
  messages := 0
  count := 0
  index := 0
  txDefault := 0
  callback := 0
  heldRx := false
  heldTx := false
  pos := 0
  ovr := false
  modf := false
  crcerr := false
  errie := false
  rxdmaen := false
  txdmaen := false
  speed := .low

/-! ## DMA channels (10_state.md R49) -/

/-- The direction of a channel: memory to peripheral, or peripheral to memory (10_state.md R49). -/
inductive ChanDir where
  | m2p | p2m
  deriving DecidableEq, Repr, Inhabited

/-- A DMA channel's registers and flags (10_state.md R49). -/
structure Chan where
  en : Bool
  dir : ChanDir
  maddr : Word
  minc : Bool
  cnt : BitVec 16
  tcie : Bool
  teie : Bool
  tc : Bool
  te : Bool
  deriving DecidableEq, Repr, Inhabited

/-- A channel at power-on (70_reset_and_hazards.md R450); the unspecified fields hold the values of log 2. -/
def Chan.powerOn : Chan where
  en := false
  dir := .m2p
  maddr := 0
  minc := false
  cnt := 0
  tcie := false
  teie := false
  tc := false
  te := false

/-! ## Futures, sessions and adapters -/

/-- A future (10_state.md R32). -/
structure Future where
  result : Word
  done : Bool
  running : Bool
  deriving DecidableEq, Repr, Inhabited

/-- A future at power-on and after FUT.INIT (10_state.md R32). -/
def Future.zero : Future where
  result := 0
  done := false
  running := false

/-- The card types: 0 UNKNOWN, 1 MMC, 2 SDSCv1, 3 SDSCv2, 4 SDHC_SDXC (10_state.md R53). -/
inductive CardType where
  | unknown | mmc | sdscV1 | sdscV2 | sdhcSdxc
  deriving DecidableEq, Repr, Inhabited

/-- An SD session (10_state.md R53 to R59, R62). `cid` and `csd` hold register bit i at bit i (20_memory.md R88). -/
structure Session where
  cardType : CardType
  cid : BitVec 128
  csd : BitVec 128
  blockLen : BitVec 16
  eraseSize : Word
  csAsserted : Bool
  crcEnabled : Bool
  initialized : Bool
  winOpen : Bool
  expired : Bool
  deriving DecidableEq, Repr, Inhabited

/-- A session at power-on (70_reset_and_hazards.md R450). -/
def Session.powerOn : Session where
  cardType := .unknown
  cid := 0
  csd := 0
  blockLen := 0
  eraseSize := 0
  csAsserted := false
  crcEnabled := false
  initialized := false
  winOpen := false
  expired := false

/-- An adapter's own state beside its future (45_adapter_contract.md R380). -/
structure Adapter where
  csAsserted : Bool
  deriving DecidableEq, Repr, Inhabited

/-- An adapter at power-on (45_adapter_contract.md R380). -/
def Adapter.powerOn : Adapter where
  csAsserted := false

/-- A descriptor nobody has written: all zero, so no direction (log 4). -/
def Msg.blank : Msg where
  dir := 0
  tx := 0
  rx := 0
  size := 0
  callback := 0
  senderData := 0

/-! ## Results and FG's control state -/

/-- The result of an operation (30_encoding.md R111): none, a code, a value zero-extended to 32 bits, the six bytes of
a frame, a code with a byte, or a code with the reply's R1 and payload. -/
inductive Result where
  | none
  | code (c : Code)
  | value (v : Word)
  | frame (bytes : List Byte)
  | codeByte (c : Code) (r : Byte)
  | reply (c : Code) (r1 : Byte) (payload : Word)
  deriving DecidableEq, Repr, Inhabited

/-- What a procedure of the SD engine hands back to its caller: a code, a byte (R1, a received byte or a response
status) and a 32-bit value. -/
structure Ret where
  code : Code
  byte : Byte
  val : Word
  deriving DecidableEq, Repr, Inhabited

/-- What FG does at its next step inside a waiting or SD operation (00_scope.md R12): one frame exchange, a BUS.XFER,
one poll of BUS.WAIT or of FUT.WAIT, the entry of an operation that a callback in FG context issued (log 12), or staying
in a callback that does not return (log 39). -/
inductive Pending where
  | xchg (b : Nat) (t : Byte)
  | xfer (b : Nat) (p : Word) (n : Word)
  | busWait (b : Nat)
  | futWait (f : Nat)
  | enter (i : Instr)
  | hang
  deriving DecidableEq, Repr, Inhabited

/-- Which form the finished operation's result has. -/
inductive Finish where
  | none | code | value | codeByte | reply | wordCode
  deriving DecidableEq, Repr, Inhabited

/-- A position in the pseudocode of a waiting or SD operation, with the values it still needs: the place a procedure
returns to (10_state.md R31). Each constructor names the rule it stands in. -/
inductive Frame where
  -- callbacks in FG context, window ends, the end of an operation
  | script (rest : List Act)
  | windowEnd (ses : Nat) (v : Ret)
  | finish (k : Finish)
  -- 43_sd_framing.md R264, R265, R271
  | r1Poll (ses : Nat) (k : Nat)
  | cmdSend (ses : Nat) (index : BitVec 6) (arg : Word) (shape : Shape) (ai : Bool) (k : Nat)
  | cmdStuff (ses : Nat) (shape : Shape) (ai : Bool)
  | cmdR1 (ses : Nat) (shape : Shape) (ai : Bool)
  | cmdBusy (r1 : Byte) (ai : Bool)
  | cmdStatus (r1 : Byte) (ai : Bool)
  | cmdPayload (ses : Nat) (r1 : Byte) (ai : Bool) (got : List Byte)
  | busyStart (ses : Nat)
  | busyPoll (ses : Nat)
  -- 44_sd_protocol.md R312, R313
  | tokenStart (ses : Nat)
  | tokenPoll (ses : Nat)
  | rdToken (ses : Nat) (dst : Word) (n : Word) (check : Bool)
  | rdXfer (ses : Nat) (dst : Word) (n : Word) (check : Bool)
  | rdWait (ses : Nat) (dst : Word) (n : Word) (check : Bool)
  -- 44_sd_protocol.md R314, R315
  | dataResp (ses : Nat) (k : Nat)
  | wrToken (ses : Nat) (src : Word)
  | wrXfer (ses : Nat) (src : Word)
  | wrWait (ses : Nat) (src : Word)
  | wrCrcHi (ses : Nat) (lo : Byte)
  | wrCrcLo (ses : Nat)
  | wrResp (ses : Nat)
  | wrBusy (sss : Byte)
  -- 44_sd_protocol.md R316 to R318
  | stopCmd (ses : Nat)
  | stopToken (ses : Nat)
  | regCmd (ses : Nat) (dst : Word)
  | regToken (ses : Nat) (dst : Word)
  | regByte (ses : Nat) (dst : Word) (got : List Byte)
  | regTail (ses : Nat) (dst : Word) (w : List Byte) (k : Nat)
  -- 44_sd_protocol.md R319 to R326
  | initDummy (ses : Nat) (k : Nat)
  | initCmd0 (ses : Nat)
  | initCmd8 (ses : Nat)
  | v2Ocr (ses : Nat)
  | v2Start (ses : Nat)
  | v2App (ses : Nat)
  | v2Acmd (ses : Nat)
  | v2End (ses : Nat)
  | v2Ccs (ses : Nat)
  | v1Ocr (ses : Nat)
  | v1App (ses : Nat)
  | v1Probe (ses : Nat)
  | v1Start (ses : Nat) (t : CardType) (r1 : Byte)
  | v1LoopApp (ses : Nat)
  | v1LoopAcmd (ses : Nat)
  | v1LoopMmc (ses : Nat)
  | v1End (ses : Nat) (t : CardType)
  | initCid (ses : Nat)
  | initCsd (ses : Nat)
  | initBlkLen (ses : Nat)
  | initCrc (ses : Nat)
  | initExit (ses : Nat)
  -- 44_sd_protocol.md R310, R333 to R337, R345
  | sdEnd (ses : Nat)
  | readCmd (ses : Nat) (dst : Word)
  | writeCmd (ses : Nat) (src : Word)
  | readnCmd (ses : Nat) (sector : Word) (count : Word) (dst : Word)
  | readnBlk (ses : Nat) (sector : Word) (count : Word) (dst : Word) (nread : Nat)
  | readnStop (ses : Nat) (eb : Code) (sector : Word) (nread : Nat)
  | writenCmd (ses : Nat) (count : Word) (src : Word)
  | writenBlk (ses : Nat) (count : Word) (src : Word) (nw : Nat)
  | writenStop (eb : Code)
  | setCrc (ses : Nat) (en : Bool)
  deriving DecidableEq, Repr, Inhabited

/-- FG between operations, or inside one: what its next step does and the places to return to, innermost first. -/
inductive Fg where
  | idle
  | busy (p : Pending) (k : List Frame)
  deriving DecidableEq, Repr, Inhabited

/-- An invocation of a host callback (00_scope.md R10). -/
structure Call where
  cb : Word
  arg : CbArg
  deriving DecidableEq, Repr, Inhabited

/-! ## Why a step stops -/

/-- The faults of 60_exceptions.md R414, the stuck access of 20_memory.md R81, the callback that does not return of
R415, and the model's own depth guard. An operation answers one; the step of the agent that issued it keeps it in State
and stops that agent (log 34). -/
inductive Fault where
  /-- FUT.WAIT on a running future or BUS.WAIT on a transferring bus from ISR context. Raised by FUT.WAIT, BUS.WAIT and
  ADP.SYNC. Safe: the spec's own fault. -/
  | waitInInterrupt
  /-- A byte-exchanging SD operation from ISR context. Raised by SD.INIT, SD.READ1, SD.READN, SD.WRITE1, SD.WRITEN,
  SD.SETCRC, SDI.CMD, SDI.R1POLL, SDI.BUSYWAIT, SDI.RDBLK, SDI.WRBLK, SDI.STOPR, SDI.STOPW and SDI.RDREG. Safe: the
  spec's own fault. -/
  | sdInInterrupt
  /-- A write to a descriptor of the list of a busy bus. Raised by host accesses, ADP.BEGIN and the SD data
  procedures. Safe: the spec's own fault. -/
  | descriptorWrittenInFlight
  /-- BUS.INIT of a bus that is not IDLE. Raised by BUS.INIT. Safe: the spec's own fault. -/
  | initWhileBusy
  /-- An operation on a bus before its first BUS.INIT. Raised by the BUS and IRQ operations, by the SD and SDI
  operations with a session operand, and by the ADP operations that reach their bus (log 15). Safe: the spec's own
  fault. -/
  | uninitialisedBus
  /-- An SD operation on a session whose bus is not FULL_DUPLEX. Raised by the SD and SDI operations that exchange
  bytes. Safe: the spec's own fault. -/
  | sdBusMode
  /-- DMA.UNLOCK of a channel a modelled bus holds. Raised by DMA.UNLOCK. Safe: the spec's own fault. -/
  | foreignUnlock
  /-- An access to an address no memory backs: no step (20_memory.md R81). Raised by every memory access of FG and of ISR; DP
  is stuck there with no fault (log 22). Safe. -/
  | unbackedAddress
  /-- A host callback that does not return, inside the step of an operation. Raised by the operations that invoke a
  callback inside their step (the IRQ operations). No fault of R414: the machine's step turns it into an execution that
  does not end (60_exceptions.md R415, log 39). Safe. -/
  | callbackHang
  deriving DecidableEq, Repr

/-- Why a step is refused (60_exceptions.md R416), and the model's own refusals. All are safe: the machine stops where
the hardware's behaviour is not given. -/
inductive Refusal where
  /-- No meaning yet: raised by exec's refused arms. -/
  | notModelled (mnemonic : String)
  /-- A reserved opcode: raised by the decoder. -/
  | reservedOpcode
  /-- An operand slot with bits above its operand, or an SDI.CMD shape 5 to 7: raised by the decoder. -/
  | operandTooWide
  /-- The bytes end inside an operation: raised by the decoder (log 8). -/
  | truncatedOperation
  /-- A DMA channel number outside 0 .. NUM_DMA_CH-1: raised by DMA.TRYLOCK, DMA.UNLOCK and a bus configuration. -/
  | badChannel
  /-- A configuration with 16-bit frames: raised by every step of it. -/
  | frameBits16
  /-- Equal transfer ids on one bus, or an adapter operation without the dispatcher installed: raised by every step of
  such a configuration, and by ADP.BEGIN and ADP.SYNC. -/
  | adapterConfig
  /-- One DMA channel bound twice: raised by every step of such a configuration. -/
  | sharedChannel
  /-- A parameter outside its range: raised by every step of such a configuration (log 19). -/
  | configOutOfRange
  /-- An SD session on an LSB-first bus: raised by every step of such a configuration (log 19). -/
  | sdBusLsbFirst
  /-- A bus handle that names no bus: raised by the operations with a bus operand (log 20). -/
  | noSuchBus
  /-- A session handle that names no session: raised by the SD and SDI operations with a session operand (log 20). -/
  | noSuchSession
  /-- An adapter handle that names no adapter: raised by ADP.BEGIN, ADP.SYNC and ADP.COMPLETE (log 20). -/
  | noSuchAdapter
  /-- An operation-record handle that names no record: raised by ADP.BEGIN and ADP.SYNC (log 20). -/
  | noSuchOperation
  deriving DecidableEq, Repr

/-! ## The agents -/

/-- The agents of 00_scope.md R3 that a turn moves: FG with the host's own code, ISR, the datapath of a bus, ENV. DEV
only answers frames. -/
inductive Agent where
  | fg
  | isr
  | dp (b : Nat)
  | env
  deriving DecidableEq, Repr

/-! ## The state -/

/-- System memory: bytes by address, in the canonical form of `Table` (20_memory.md R80). -/
abbrev Memory := List Host.Cell

/-- What a byte of system memory that nothing has written reads as (log 3). -/
def Memory.unwritten : Byte := 0

/-- The machine. The fields after `callbacks` are FG's control state and the model's own (INVENTORY.md, State). -/
structure State where
  cfg : Config
  futs : Table Future
  buses : Table Bus
  chans : Table Chan
  locks : Table Bool
  sess : Table Session
  adps : Table Adapter
  mem : Memory
  descs : Table Msg
  opRecs : Table (Option OpRec)
  callbacks : Table Callback
  fg : Fg
  prog : List Byte
  ret : Result
  isrRet : Result
  isr : Bool
  turns : List Turn
  answers : Table (List Byte)
  draws : Nat
  dirty : List (Nat × Nat)
  ext : Table Bool
  wire : Table (List Byte)
  calls : List Call
  faults : List (Agent × Fault)
  hung : Bool
  deriving DecidableEq, Repr

/-! ## Reset -/

/-- The standard configuration K0 of 95_test_vectors.md section 1, with STOP_STATUS_MODE R1B_ONLY, the timeout
arguments 1, 2, 3 and all of the address space backed: an example value of the OPEN parameters (log 1). -/
def Config.standard : Config where
  buses :=
    [{ periph := 0, rxCh := 0, txCh := 1, mode := .fullDuplex, frameBits := .eight, bitOrder := .msbFirst,
       adapters := [1, 0] },
     { periph := 1, rxCh := 2, txCh := 3, mode := .fullDuplex, frameBits := .eight, bitOrder := .msbFirst,
       adapters := [] }]
  numDmaCh := 4
  sessions :=
    [{ bus := 0, sdId := 2, cs := 0, timeoutBegin := 0, timeoutEnd := 0, crcbuf := 0x5000, regbuf := 0x5010,
       msgs := 0x0600 }]
  adapters :=
    [{ bus := 0, id := 1, cs := 1, buf := 0x7000, bufSize := 8, msgs := 0x0700, maxMsgs := 2, fut := 0 },
     { bus := 0, id := 3, cs := 2, buf := 0x7100, bufSize := 8, msgs := 0x0710, maxMsgs := 2, fut := 1 }]
  ocrVoltageMask := 0x00FF8000
  stopStatusMode := .r1bOnly
  timeoutInit := 1
  timeoutToken := 2
  timeoutBusy := 3
  backed := [{ base := 0, size := 4294967296 }]

/-- The machine at power-on and after a hardware reset (70_reset_and_hazards.md R450, R451): every table lists nothing,
so every record is its power-on value, every lock is free and memory holds nothing written. No callback is bound: the
host's callback functions are code from outside the machine, which no step binds, so that an ADP.BEGIN from here is
refused by adapterConfig until a state with a dispatcher bound is given (log 12). -/
def State.reset : State where
  cfg := Config.standard
  futs := []
  buses := []
  chans := []
  locks := []
  sess := []
  adps := []
  mem := []
  descs := []
  opRecs := []
  callbacks := []
  fg := .idle
  prog := []
  ret := .none
  isrRet := .none
  isr := false
  turns := []
  answers := []
  draws := 0
  dirty := []
  ext := []
  wire := []
  calls := []
  faults := []
  hung := false

end Sys2Proof.Machine
end

