-- ==== Sys2Proof/Machine/Flags.lean ====
section
/-! DEFINITION. The numbers of the enumerations, the bits of the bus's error set, and the decoding of the card's
status bits (10_state.md R36, R37, R39, R53; 60_exceptions.md R400; 43_sd_framing.md R273, R274). -/

namespace Sys2Proof.Machine

/-- The number of a result code (60_exceptions.md R400). -/
def codeNum : Code → Byte
  | .noError => 0
  | .nullPointer => 1
  | .invalidValue => 2
  | .outOfRange => 3
  | .busy => 4
  | .ioError => 5
  | .crc => 6
  | .timeout => 7
  | .state => 8
  | .sdParameter => 16
  | .sdAddress => 17
  | .sdEraseSeq => 18
  | .sdIllegalCmd => 19
  | .sdEraseReset => 20
  | .sdInIdle => 21
  | .sdOutOfRange => 22
  | .sdEraseParam => 23
  | .sdWpViolation => 24
  | .sdEccFailed => 25
  | .sdCcError => 26
  | .sdError => 27
  | .sdWpEraseSkip => 28
  | .sdLocked => 29
  | .sdInvalidCard => 30

/-- A result code as the 32-bit value of a future's result slot. -/
def codeWord (c : Code) : Word := (codeNum c).setWidth 32

/-- A one-bit result as a value. -/
def flagWord (b : Bool) : Word := if b then 1 else 0

/-- Every result code (60_exceptions.md R400). -/
def allCodes : List Code :=
  [.noError, .nullPointer, .invalidValue, .outOfRange, .busy, .ioError, .crc, .timeout, .state, .sdParameter,
   .sdAddress, .sdEraseSeq, .sdIllegalCmd, .sdEraseReset, .sdInIdle, .sdOutOfRange, .sdEraseParam, .sdWpViolation,
   .sdEccFailed, .sdCcError, .sdError, .sdWpEraseSkip, .sdLocked, .sdInvalidCard]

/-- The code a 32-bit value is the number of, if any. -/
def codeOfWord (w : Word) : Option Code := allCodes.find? (fun c => codeWord c == w)

/-- The encoding of a bus state (10_state.md R36). -/
def phaseNum : Phase → BitVec 2
  | .idle => 0
  | .reading => 1
  | .writing => 2
  | .readingWriting => 3

/-- The bus state that equals a message's direction code (10_state.md R36, R44). -/
def phaseOfDir (d : BitVec 2) : Phase :=
  if d = 1 then .reading else if d = 2 then .writing else if d = 3 then .readingWriting else .idle

/-- The encoding of a bus status (10_state.md R37). -/
def statusNum : Status → BitVec 2
  | .idle => 0
  | .transferring => 1
  | .transferred => 2
  | .error => 3

/-- The encoding of a card type (10_state.md R53). -/
def cardTypeNum : CardType → BitVec 3
  | .unknown => 0
  | .mmc => 1
  | .sdscV1 => 2
  | .sdscV2 => 3
  | .sdhcSdxc => 4

/-- Bit 0 of the error set (10_state.md R39). -/
def errOverrun : BitVec 4 := 0b0001

/-- Bit 1 of the error set (10_state.md R39). -/
def errModeFault : BitVec 4 := 0b0010

/-- Bit 2 of the error set (10_state.md R39). -/
def errCrc : BitVec 4 := 0b0100

/-- Bit 3 of the error set (10_state.md R39). -/
def errDma : BitVec 4 := 0b1000

/-- The errors of the pending SPI flags, all accumulated (42_spi_events.md R222). -/
def spiErrors (ovr modf crcerr : Bool) : BitVec 4 :=
  (if ovr then errOverrun else 0) ||| (if modf then errModeFault else 0) ||| (if crcerr then errCrc else 0)

/-- SDI.DECODE: the first true condition wins (43_sd_framing.md R273). -/
def decodeStatus (r1 r2 : Byte) (allowIdle : Bool) : Code :=
  if r1.getLsbD 6 then .sdParameter
  else if r1.getLsbD 5 then .sdAddress
  else if r1.getLsbD 4 then .sdEraseSeq
  else if r1.getLsbD 3 then .crc
  else if r1.getLsbD 2 then .sdIllegalCmd
  else if r1.getLsbD 1 then .sdEraseReset
  else if r1.getLsbD 0 && !allowIdle then .sdInIdle
  else if r2.getLsbD 7 then .sdOutOfRange
  else if r2.getLsbD 6 then .sdEraseParam
  else if r2.getLsbD 5 then .sdWpViolation
  else if r2.getLsbD 4 then .sdEccFailed
  else if r2.getLsbD 3 then .sdCcError
  else if r2.getLsbD 2 then .sdError
  else if r2.getLsbD 1 then .sdWpEraseSkip
  else if r2.getLsbD 0 then .sdLocked
  else .noError

/-- SDI.ERRTOK (43_sd_framing.md R274). -/
def decodeErrToken (token : Byte) : Code :=
  if token.getLsbD 3 then .sdOutOfRange
  else if token.getLsbD 2 then .sdEccFailed
  else if token.getLsbD 1 then .sdCcError
  else .sdError

/-- The code of the byte that ends a token wait (44_sd_protocol.md R312). -/
def classifyToken (t : Byte) : Code :=
  if t = 0xFE then .noError
  else if t.extractLsb' 4 4 = 0 then decodeErrToken t
  else .ioError

/-- SDI.WRBLK's code from the data-response status and the busy wait's code (44_sd_protocol.md R315). -/
def writeResult (sss : Byte) (eb : Code) : Code :=
  if sss = 0b010 then eb else if sss = 0b101 then .crc else .ioError

/-- `first(a, b)` (43_sd_framing.md R265). -/
def firstCode (a b : Code) : Code := if a = .noError then b else a

/-- `ReadNResult` (44_sd_protocol.md R336). -/
def readNResult (eb es : Code) (atEnd : Bool) : Code :=
  if eb ≠ .noError then eb
  else if es = .sdOutOfRange ∧ atEnd = true then .noError
  else es

/-- `AdpResult` from the bus's status and errors (45_adapter_contract.md R387). -/
def adapterResult (status : Status) (errors : BitVec 4) : Code :=
  if status = .transferred then .noError
  else if errors.getLsbD 2 then .crc
  else .ioError

end Sys2Proof.Machine
end

