-- ==== Sys2Proof/Machine/Operands.lean ====
section
/-! DEFINITION. The operands of the operations: message validity and channel need (10_state.md R45, 41_spi_bus.md
R186), the CSD's fields, sizes and addresses (30_encoding.md R130, 44_sd_protocol.md R327, R328, R330), Build
(45_adapter_contract.md R382), and the configurations a model refuses (60_exceptions.md R416). -/

namespace Sys2Proof.Machine

/-! ## Messages -/

/-- Conditions (1) to (4) of message validity: the direction and its buffers (10_state.md R45). -/
def buffersOk (m : Msg) : Bool :=
  if m.dir = 1 then m.rx != 0 && m.tx == 0
  else if m.dir = 2 then m.tx != 0 && m.rx == 0
  else if m.dir = 3 then m.tx != 0 && m.rx != 0
  else false

/-- Conditions (6) and (7) of message validity: the bus's duplex mode (10_state.md R45). -/
def modeOk (mode : Mode) (m : Msg) : Bool :=
  match mode with
  | .fullDuplex => true
  | .halfDuplexRx => m.dir == 1
  | .halfDuplexTx => m.dir == 2

/-- `valid(m, b)` (10_state.md R45). -/
def Msg.valid (m : Msg) (mode : Mode) : Bool :=
  buffersOk m && decide (1 ≤ m.size.toNat) && decide (m.size.toNat ≤ Config.maxMsgSize) && modeOk mode m

/-- A set of DMA channels of a bus, as `need` and `held` are (41_spi_bus.md R186, 10_state.md R43). -/
structure ChanSet where
  rx : Bool
  tx : Bool
  deriving DecidableEq, Repr

/-- `need(d, M)`; the pairs that the table does not list need nothing and are never armed (41_spi_bus.md R186). -/
def need (mode : Mode) (dir : BitVec 2) : ChanSet :=
  match mode with
  | .fullDuplex => { rx := dir.getLsbD 0, tx := dir != 0 }
  | .halfDuplexRx => { rx := dir == 1, tx := false }
  | .halfDuplexTx => { rx := false, tx := dir == 2 }

/-- `comp(d) = RX`: the RX channel completes READ and READ_WRITE, the TX channel WRITE (41_spi_bus.md R186). -/
def completesOnRx (dir : BitVec 2) : Bool := dir != 2

/-- The union of the needs of a list of messages (41_spi_bus.md R185). -/
def needAll (mode : Mode) (ms : List Msg) : ChanSet :=
  { rx := ms.any (fun m => (need mode m.dir).rx), tx := ms.any (fun m => (need mode m.dir).tx) }

/-- Whether address `a` lies in the buffer of `size` bytes at `base`; address 0 is no buffer (20_memory.md R81, R85). -/
def covers (base size a : Word) : Bool := base != 0 && decide ((a - base).toNat < size.toNat)

/-! ## Card registers (30_encoding.md R130) -/

/-- The field `REG[hi:lo]`, as a natural number (20_memory.md R88). -/
def regField (reg : BitVec 128) (hi lo : Nat) : Nat := (reg.extractLsb' lo (hi + 1 - lo)).toNat

/-- Stored byte `k` of a register: bits 8k+7 to 8k (10_state.md R54). -/
def regByteAt (reg : BitVec 128) (k : Nat) : Byte := reg.extractLsb' (8 * k) 8

/-- The 16 stored bytes of a register, byte 0 first. -/
def regBytes (reg : BitVec 128) : List Byte := (List.range 16).map (regByteAt reg)

/-- The register whose stored bytes are `bs`, byte 0 first. -/
def regOfBytes (bs : List Byte) : BitVec 128 :=
  bs.foldr (fun v acc => (acc <<< 8) ||| v.setWidth 128) 0

/-- The exact sector count of SD.SECTORS (44_sd_protocol.md R327). -/
def sectorCount (s : Session) : Nat :=
  if s.initialized = false then 0
  else if s.cardType ≠ .mmc ∧ regField s.csd 127 126 = 1 then (regField s.csd 69 48 + 1) * 1024
  else (regField s.csd 73 62 + 1) * 2 ^ (regField s.csd 49 47 + 2) * 2 ^ regField s.csd 83 80 / 512

/-- `EraseSize(s)` (44_sd_protocol.md R328). -/
def eraseSizeOf (s : Session) : Nat :=
  if s.cardType = .mmc then
    (regField s.csd 46 42 + 1) * (regField s.csd 41 37 + 1) * 2 ^ regField s.csd 25 22
  else if regField s.csd 46 46 = 1 then 512
  else (regField s.csd 45 39 + 1) * 2 ^ regField s.csd 25 22

/-- `Addr(s, sector)` (44_sd_protocol.md R330). -/
def dataAddr (t : CardType) (sector : Word) : Word :=
  if t = .sdhcSdxc then sector else sector * 512

/-- The argument checks of the data operations, in their order; none when all pass (44_sd_protocol.md R331). -/
def dataArgs (s : Session) (buf : Word) (sector : Word) (count : Word) : Option Code :=
  if buf = 0 then some .nullPointer
  else if count = 0 then some .invalidValue
  else if s.initialized = false then some .state
  else if sector.toNat + count.toNat > sectorCount s then some .outOfRange
  else none

/-! ## Adapter operations (45_adapter_contract.md R382) -/

/-- What `Build` returns: a result code, or the descriptors and the scratch bytes they use. -/
inductive Built where
  | rejected (c : Code)
  | built (msgs : List Msg) (scratch : List Byte)
  deriving DecidableEq, Repr

/-- `Build(a, op)`; `buf` is the adapter's scratch buffer (45_adapter_contract.md R382). -/
def build (buf : Word) : OpRec → Built
  | .m95xRead addr dst size =>
    if dst = 0 then .rejected .nullPointer
    else if size = 0 then .rejected .invalidValue
    else
      .built
        [{ dir := 2, tx := buf, rx := 0, size := 3, callback := 0, senderData := 0 },
         { dir := 1, tx := 0, rx := dst, size := size, callback := 0, senderData := 0 }]
        [0x03, addr.extractLsb' 8 8, addr.extractLsb' 0 8]
  | .driver msgs scratch => .built msgs scratch
  | .rejected c => .rejected c

/-! ## Operation kinds -/

/-- The operations that a callback in FG context issues in FG steps of their own: the waiting ones and the SD operations
that exchange bytes (00_scope.md R12), and the handlers, which never run inside an FG step (60_exceptions.md R410,
log 13). -/
def takesSteps : Instr → Bool
  | .futWait _ | .busWait _ | .adpSync _ _ => true
  | .sdInit _ | .sdRead1 _ _ _ | .sdReadN _ _ _ _ | .sdWrite1 _ _ _ | .sdWriteN _ _ _ _ | .sdSetCrc _ _ => true
  | .sdiCmd _ _ _ _ _ | .sdiR1Poll _ | .sdiBusyWait _ | .sdiRdBlk _ _ _ _ | .sdiWrBlk _ _ _ | .sdiStopR _
  | .sdiStopW _ | .sdiRdReg _ _ _ => true
  | .futInit _ | .futStart _ | .futFinish _ _ | .futRunning _ | .futDone _ | .futResult _ | .futSetResult _ _ => false
  | .busInit _ | .busSetId _ _ | .busId _ | .busXfer _ _ _ | .busXmit _ _ _ | .busStatus _ | .busErrors _
  | .busBusy _ | .busSetCb _ _ | .busSetTxDef _ _ | .busSetSpeed _ _ => false
  | .irqSpi _ | .irqDmaRx _ | .irqDmaTx _ => true
  | .dmaTryLock _ | .dmaUnlock _ => false
  | .sdSectors _ | .sdType _ | .sdInited _ | .sdBlkLen _ | .sdEraseSz _ | .sdCid _ _ | .sdCsd _ _ | .sdCrcEn _ => false
  | .sdiCrc7 _ _ | .sdiCrc16 _ _ | .sdiFrame _ _ | .sdiDecode _ _ _ | .sdiErrTok _ => false
  | .adpBegin _ _ | .adpComplete _ | .adpDispatch _ => false

/-- The result of a finished waiting or SD operation from the value its procedure ended with. ADP.SYNC's is a code where
the stored value is the number of one (45_adapter_contract.md R384, log 33). -/
def finishResult : Finish → Ret → Result
  | .none, _ => .none
  | .code, v => .code v.code
  | .value, v => .value v.val
  | .codeByte, v => .codeByte v.code v.byte
  | .reply, v => .reply v.code v.byte v.val
  | .wordCode, v =>
    match codeOfWord v.val with
    | some c => .code c
    | none => .value v.val

/-- What a procedure that ends with code `c` alone hands back. -/
def Ret.ofCode (c : Code) : Ret := { code := c, byte := 0, val := 0 }

/-- What a wait on a future hands back. -/
def Ret.ofValue (w : Word) : Ret := { code := .noError, byte := 0, val := w }

/-! ## Configurations a model refuses (60_exceptions.md R416) -/

/-- The parameters in their ranges: at least one bus and two DMA channels, every session and adapter bound to a bus
that exists, and each bus's dispatch list made of adapters of that bus (00_scope.md R7; log 19). A list that leaves an
adapter of the bus out, or names one twice, is admitted (log 43). -/
def inRange (c : Config) : Bool :=
  decide (1 ≤ c.buses.length) && decide (2 ≤ c.numDmaCh)
    && c.sessions.all (fun x => decide (x.bus < c.buses.length))
    && c.adapters.all (fun x => decide (x.bus < c.buses.length))
    && (List.range c.buses.length).all (fun b =>
      (c.buses.getD b default).adapters.all (fun a =>
        decide (a < c.adapters.length) && decide ((c.adapters.getD a default).bus = b)))

/-- The channels the buses are bound to, in order. -/
def boundChans (c : Config) : List Nat := c.buses.flatMap (fun x => [x.rxCh, x.txCh])

/-- The transfer ids of the adapters and sessions on bus `b` (45_adapter_contract.md R381 (1)). -/
def idsOnBus (c : Config) (b : Nat) : List Byte :=
  (c.adapters.filter (fun x => x.bus == b)).map AdpCfg.id ++ (c.sessions.filter (fun x => x.bus == b)).map SdCfg.sdId

/-- Why a configuration is refused; none when it is admitted (00_scope.md R8, 10_state.md R35, 45_adapter_contract.md
R381, 60_exceptions.md R408, R416). Two buses with one `periph`, two adapters with one future, and sessions and adapters
with one chip-select line, scratch buffer or descriptor list are admitted: the spec refuses none (log 40, log 42,
log 44). A bus whose two channels are one is refused by the name of a channel shared between buses (log 19). -/
def configRefusal (c : Config) : Option Refusal :=
  if inRange c = false then some .configOutOfRange
  else if c.buses.any (fun x => x.frameBits == .sixteen) then some .frameBits16
  else if (boundChans c).any (fun ch => decide (c.numDmaCh ≤ ch)) then some .badChannel
  else if ¬ (boundChans c).Nodup then some .sharedChannel
  else if (List.range c.buses.length).any (fun b => decide (¬ (idsOnBus c b).Nodup)) then some .adapterConfig
  else if c.sessions.any (fun x => (c.buses.getD x.bus default).bitOrder == .lsbFirst) then some .sdBusLsbFirst
  else none

end Sys2Proof.Machine
end

