-- ==== Sys2Proof/Machine/Ops.lean ====
section
/-! DEFINITION. The named operations over the state: record files, memory, the descriptor store, the input queues,
interrupt entry and return, and the shared steps of the bus engine (Arm, Disarm, the exchange, BUS.XFER). Every
meaning is built from these. -/

namespace Sys2Proof.Machine

/-- An outcome that carries a value. -/
abbrev Res (α : Type) := Host.Outcome α Fault Refusal

/-- Goes on with `k` unless the outcome is a fault or a refusal. -/
def andThen {α β : Type} (r : Res α) (k : α → Res β) : Res β :=
  match r with
  | .next a => k a
  | .fault e => .fault e
  | .refused e => .refused e

/-! ## Record files -/

/-- Future `f` (10_state.md R32). -/
def State.fut (s : State) (f : Nat) : Future := Table.get Future.zero s.futs f

/-- Writes future `f`. -/
def State.setFut (s : State) (f : Nat) (v : Future) : State := { s with futs := Table.put Future.zero s.futs f v }

/-- Bus `b` (10_state.md R36 to R43, R50, R51). -/
def State.bus (s : State) (b : Nat) : Bus := Table.get Bus.powerOn s.buses b

/-- Writes bus `b`. -/
def State.setBus (s : State) (b : Nat) (v : Bus) : State := { s with buses := Table.put Bus.powerOn s.buses b v }

/-- DMA channel `c` (10_state.md R49). -/
def State.chan (s : State) (c : Nat) : Chan := Table.get Chan.powerOn s.chans c

/-- Writes DMA channel `c`. -/
def State.setChan (s : State) (c : Nat) (v : Chan) : State := { s with chans := Table.put Chan.powerOn s.chans c v }

/-- `lock[c]` (10_state.md R48). -/
def State.lock (s : State) (c : Nat) : Bool := Table.get false s.locks c

/-- Writes `lock[c]`. -/
def State.setLock (s : State) (c : Nat) (v : Bool) : State := { s with locks := Table.put false s.locks c v }

/-- Whether ENV took channel `c`'s lock (log 29). -/
def State.extLock (s : State) (c : Nat) : Bool := Table.get false s.ext c

/-- Records whether ENV holds channel `c`'s lock. -/
def State.setExt (s : State) (c : Nat) (v : Bool) : State := { s with ext := Table.put false s.ext c v }

/-- SD session `i` (10_state.md R53 to R62). -/
def State.ses (s : State) (i : Nat) : Session := Table.get Session.powerOn s.sess i

/-- Writes SD session `i`. -/
def State.setSes (s : State) (i : Nat) (v : Session) : State := { s with sess := Table.put Session.powerOn s.sess i v }

/-- Adapter `a` (45_adapter_contract.md R380). -/
def State.adp (s : State) (a : Nat) : Adapter := Table.get Adapter.powerOn s.adps a

/-- Writes adapter `a`. -/
def State.setAdp (s : State) (a : Nat) (v : Adapter) : State := { s with adps := Table.put Adapter.powerOn s.adps a v }

/-! ## Control state -/

/-- Puts FG at a place (10_state.md R31). -/
def State.setFg (s : State) (f : Fg) : State := { s with fg := f }

/-- Sets the operations FG has still to issue. -/
def State.setProg (s : State) (l : List Byte) : State := { s with prog := l }

/-- Sets the queue of turns. -/
def State.setTurns (s : State) (l : List Turn) : State := { s with turns := l }

/-- Sets whether the running step is an ISR step (log 14). -/
def State.setIsr (s : State) (v : Bool) : State := { s with isr := v }

/-- Records the result of FG's operation. -/
def State.setFgRet (s : State) (r : Result) : State := { s with ret := r }

/-- Records the result of an operation issued inside an ISR step. -/
def State.setIsrRet (s : State) (r : Result) : State := { s with isrRet := r }

/-- One more free value is used (log 9). -/
def State.bumpDraws (s : State) : State := { s with draws := s.draws + 1 }

/-- Records the bytes of buffers in flight that software wrote (log 11). -/
def State.setDirty (s : State) (l : List (Nat × Nat)) : State := { s with dirty := l }

/-- Sets DEV's queued answers on bus `b` (log 6). -/
def State.setAnswers (s : State) (b : Nat) (l : List Byte) : State :=
  { s with answers := Table.put [] s.answers b l }

/-- DEV's queued answers on bus `b` (log 6). -/
def State.answersOf (s : State) (b : Nat) : List Byte := Table.get [] s.answers b

/-- Sets the faults kept (60_exceptions.md R414). -/
def State.setFaults (s : State) (l : List (Agent × Fault)) : State := { s with faults := l }

/-- Sets whether a step does not end (60_exceptions.md R415, log 39). -/
def State.setHung (s : State) (v : Bool) : State := { s with hung := v }

/-- The frames sent on bus `b`, newest first (log 28). -/
def State.wireOf (s : State) (b : Nat) : List Byte := Table.get [] s.wire b

/-- Binds a callback handle (log 12). -/
def State.setCallback (s : State) (cb : Nat) (v : Callback) : State :=
  { s with callbacks := Table.put (.tape []) s.callbacks cb v }

/-- The callback bound to a handle; an unbound one does nothing (log 12). -/
def State.callback (s : State) (cb : Nat) : Callback := Table.get (.tape []) s.callbacks cb

/-- Writes an operation record (30_encoding.md R133). -/
def State.setOpRec (s : State) (op : Nat) (r : OpRec) : State :=
  { s with opRecs := Table.put none s.opRecs op (some r) }

/-- The operation record of a handle, if one is bound. -/
def State.opRec (s : State) (op : Nat) : Option OpRec := Table.get none s.opRecs op

/-! ## Configuration -/

/-- `NUM_BUSES` (00_scope.md R7). -/
def State.numBuses (s : State) : Nat := s.cfg.buses.length

/-- The configuration of bus `b` (10_state.md R35). -/
def State.busCfg (s : State) (b : Nat) : BusCfg := s.cfg.buses.getD b default

/-- The configuration of session `i` (10_state.md R52). -/
def State.sesCfg (s : State) (i : Nat) : SdCfg := s.cfg.sessions.getD i default

/-- The configuration of adapter `a` (45_adapter_contract.md R380). -/
def State.adpCfg (s : State) (a : Nat) : AdpCfg := s.cfg.adapters.getD a default

/-- The bus of session `i`. -/
def State.sesBus (s : State) (i : Nat) : Nat := (s.sesCfg i).bus

/-! ## Results, draws, queues, output records -/

/-- The result of the operation just run: FG's, or that of the running ISR step. -/
def State.setRet (s : State) (r : Result) : State :=
  if s.isr then s.setIsrRet r else s.setFgRet r

/-- A free byte (log 9). -/
def State.drawByte (s : State) : Byte × State := (Config.freeByte s.draws, s.bumpDraws)

/-- A free word (log 9). -/
def State.drawWord (s : State) : Word × State := (Config.freeWord s.draws, s.bumpDraws)

/-- The next turn: the first queued one, a free one when none is queued (log 5). -/
def State.takeTurn (s : State) : Turn × State :=
  match s.turns with
  | t :: rest => (t, s.setTurns rest)
  | [] => (Config.freeTurn s.draws, s.bumpDraws)

/-- DEV's next answer on bus `b`: the first queued one, a free byte when none is queued (log 6). -/
def State.takeAnswer (s : State) (b : Nat) : Byte × State :=
  match s.answersOf b with
  | r :: rest => (r, s.setAnswers b rest)
  | [] => s.drawByte

/-- Records a frame sent on bus `b`'s wire (log 28). -/
def State.send (s : State) (b : Nat) (t : Byte) : State :=
  { s with wire := Table.put [] s.wire b (t :: s.wireOf b) }

/-- Records an invocation of a callback (log 28). -/
def State.logCall (s : State) (cb : Word) (arg : CbArg) : State :=
  { s with calls := { cb := cb, arg := arg } :: s.calls }

/-- The acts that this invocation of callback `cb` performs (log 12). -/
def State.takeActs (s : State) (cb : Word) : List Act × State :=
  match s.callback cb.toNat with
  | .always acts => (acts, s)
  | .tape [] => ([], s)
  | .tape (acts :: rest) => (acts, s.setCallback cb.toNat (.tape rest))

/-! ## The descriptor store (20_memory.md R83, R84) -/

/-- The key of `Desc(p, i)`. -/
def descKey (p : Word) (i : Nat) : Nat := p.toNat * 2 ^ 32 + i

/-- `Desc(p, i)` (20_memory.md R83). -/
def State.desc (s : State) (p : Word) (i : Nat) : Msg := Table.get Msg.blank s.descs (descKey p i)

/-- The `n` descriptors of the list at `p` from index `i` on. -/
def State.descsFrom (s : State) (p : Word) : Nat → Nat → List Msg
  | _, 0 => []
  | i, n + 1 => s.desc p i :: s.descsFrom p (i + 1) n

/-- The first `n` descriptors of the list at `p`. -/
def State.descList (s : State) (p : Word) (n : Nat) : List Msg := s.descsFrom p 0 n

/-- Whether `Desc(p, i)` belongs to the list of a bus in a transfer (20_memory.md R84). -/
def State.descInFlight (s : State) (p i : Word) : Bool :=
  (List.range s.numBuses).any fun b =>
    (s.bus b).phase != .idle && (s.bus b).messages == p && decide (i < (s.bus b).count)

/-- Writes `Desc(p, i)`. -/
def State.setDesc (s : State) (p i : Word) (m : Msg) : State :=
  { s with descs := Table.put Msg.blank s.descs (descKey p i.toNat) m }

/-- A write to a descriptor: a fault while it is in flight (20_memory.md R84). -/
def State.writeDesc (s : State) (p i : Word) (m : Msg) : Res State :=
  if s.descInFlight p i then .fault .descriptorWrittenInFlight
  else .next (s.setDesc p i m)

/-- Writes `Desc(p, i)`, `Desc(p, i+1)`, ... from a list. -/
def State.writeDescs (p : Word) : Word → List Msg → State → Res State
  | _, [], s => .next s
  | i, m :: ms, s => andThen (s.writeDesc p i m) (State.writeDescs p (i + 1) ms)

/-! ## System memory (20_memory.md R80, R81, R96) -/

/-- The byte at address `a`. -/
def Memory.read (m : Memory) (a : Word) : Byte := Table.get Memory.unwritten m a.toNat

/-- Memory with byte `v` at address `a`. -/
def Memory.write (m : Memory) (a : Word) (v : Byte) : Memory := Table.put Memory.unwritten m a.toNat v

/-- The canonical form of memory. -/
def Memory.wf (m : Memory) : Bool := Table.wf Memory.unwritten m

/-- Whether the platform backs address `a` (20_memory.md R81). -/
def State.backed (s : State) (a : Word) : Bool :=
  s.cfg.backed.any fun r => decide (r.base ≤ a.toNat) && decide (a.toNat < r.base + r.size)

/-- Whether the `n` bytes from `a` on are backed; addresses wrap (20_memory.md R81). -/
def State.backedRange (s : State) (a : Word) : Nat → Bool
  | 0 => true
  | n + 1 => s.backedRange a n && s.backed (a + BitVec.ofNat 32 n)

/-- Goes on when the `n` bytes from `a` on are backed; software's access to an unbacked address has no step
(20_memory.md R81, log 22). -/
def State.needBacked {α : Type} (s : State) (a : Word) (n : Nat) (k : Res α) : Res α :=
  if s.backedRange a n then k else .fault .unbackedAddress

/-- Whether address `a` lies in the destination buffer of one of the messages `ms`. -/
def inDst (a : Word) (ms : List Msg) : Bool := ms.any (fun m => covers m.rx m.size a)

/-- Whether address `a` lies in the source buffer of one of the messages `ms`. -/
def inSrc (a : Word) (ms : List Msg) : Bool := ms.any (fun m => covers m.tx m.size a)

/-- The messages of bus `b`'s transfer. -/
def State.transfer (s : State) (b : Nat) : List Msg := s.descList (s.bus b).messages (s.bus b).count.toNat

/-- The current message of bus `b` (42_spi_events.md R236). -/
def State.current (s : State) (b : Nat) : Msg := s.desc (s.bus b).messages (s.bus b).index.toNat

/-- Whether address `a` lies in a destination buffer of bus `b`'s transfer in progress (20_memory.md R96 (a)). -/
def State.dstInFlightOn (s : State) (b : Nat) (a : Word) : Bool := (s.bus b).phase != .idle && inDst a (s.transfer b)

/-- Whether address `a` lies in a destination buffer of a transfer in progress (20_memory.md R96 (a)). -/
def State.dstInFlight (s : State) (a : Word) : Bool := (List.range s.numBuses).any fun b => s.dstInFlightOn b a

/-- Whether address `a` lies in a source buffer of an unfinished message of bus `b`'s transfer
(20_memory.md R96 (b)). -/
def State.srcInFlight (s : State) (b : Nat) (a : Word) : Bool :=
  (s.bus b).phase != .idle && inSrc a ((s.transfer b).drop (s.bus b).index.toNat)

/-- Whether address `a` lies in a destination buffer of bus `b`'s transfer whose bytes have not all arrived: that of the
current message, with frames to come, or that of a later message and of none before it, whose bytes 20_memory.md R97
makes visible. -/
def State.dstPendingOn (s : State) (b : Nat) (a : Word) : Bool :=
  (s.bus b).phase != .idle
    && (decide ((s.bus b).pos.toNat < (s.current b).size.toNat)
          && inDst a (((s.transfer b).drop (s.bus b).index.toNat).take 1)
      || inDst a ((s.transfer b).drop ((s.bus b).index.toNat + 1))
        && !inDst a ((s.transfer b).take ((s.bus b).index.toNat + 1)))

/-- Whether software's read of address `a` is a draw: FG's of a destination byte in flight (20_memory.md R96 (a)), and a
callback's in ISR context of one still to arrive (70_reset_and_hazards.md R460, log 11). -/
def State.readOpen (s : State) (a : Word) : Bool :=
  if s.isr then (List.range s.numBuses).any (fun b => s.dstPendingOn b a) else s.dstInFlight a

/-- The write of one byte of memory (20_memory.md R82). -/
def State.storeByte (s : State) (a : Word) (v : Byte) : State := { s with mem := s.mem.write a v }

/-- The byte that software's write of `v` at `a` leaves: a draw at a destination byte in flight, which the host should
not touch (70_reset_and_hazards.md R460). -/
def State.leftByte (s : State) (a : Word) (v : Byte) : Byte × State := if s.dstInFlight a then s.drawByte else (v, s)

/-- The buses for whose transfer a write of software at `a` leaves a draw: a source byte whose frame is still to be sent
or a destination byte. -/
def State.touched (s : State) (a : Word) : List (Nat × Nat) :=
  ((List.range s.numBuses).filter (fun b => s.srcInFlight b a || s.dstInFlightOn b a)).map (fun b => (b, a.toNat))

/-- Software's write of one byte, FG's or a callback's: what it leaves in a buffer in flight is a draw, the byte of a
destination and the frame sent for a source byte (20_memory.md R96 (b), 70_reset_and_hazards.md R460, log 11). -/
def State.writeByte (s : State) (a : Word) (v : Byte) : State :=
  let r := s.leftByte a v
  (r.2.storeByte a r.1).setDirty (s.touched a ++ s.dirty)

/-- Software's write of a list of bytes in address order (20_memory.md R81). -/
def State.writeBytes : Word → List Byte → State → State
  | _, [], s => s
  | a, v :: vs, s => State.writeBytes (a + 1) vs (s.writeByte a v)

/-- Software's read of one byte (20_memory.md R96 (a), R97, log 11). -/
def State.readByte (s : State) (a : Word) : Byte × State := if s.readOpen a then s.drawByte else (s.mem.read a, s)

/-- Software's read of `n` bytes in address order (20_memory.md R81). -/
def State.readBytes : Nat → Word → State → List Byte × State
  | 0, _, s => ([], s)
  | n + 1, a, s =>
    let r := s.readByte a
    let rest := State.readBytes n (a + 1) r.2
    (r.1 :: rest.1, rest.2)

/-- An access of the host's own code (20_memory.md R83, R84, R96); a loaded byte is its result. -/
def hostAccess (x : Access) (s : State) : Res State :=
  match x with
  | .store a v => s.needBacked a 1 (.next (s.writeByte a v))
  | .load a =>
    s.needBacked a 1 (.next ((s.readByte a).2.setRet (.value ((s.readByte a).1.setWidth 32))))
  | .desc p i m => s.writeDesc p i m
  | .opRec op r => .next (s.setOpRec op.toNat r)

/-! ## Interrupt entry and return (60_exceptions.md R410, R411) -/

/-- Entry: the step is an ISR step. Nothing is saved, there is no vector and no mode (60_exceptions.md R410). -/
def State.enterIsr (s : State) : State := s.setIsr true

/-- Return: the context is what it was before entry; nothing else is restored (60_exceptions.md R411). -/
def State.leaveIsr (was : Bool) (s : State) : State := s.setIsr was

/-- Takes an interrupt: runs a handler's body as one ISR step (60_exceptions.md R410 to R413). -/
def takeInterrupt (body : State → Res State) (s : State) : Res State :=
  andThen (body s.enterIsr) (fun t => .next (t.leaveIsr s.isr))

/-! ## Guards -/

/-- Goes on for a bus that exists and has been through BUS.INIT (70_reset_and_hazards.md R455, log 20). -/
def withBus {α : Type} (b : Nat) (s : State) (k : Res α) : Res α :=
  if b < s.numBuses then
    if (s.bus b).inited then k else .fault .uninitialisedBus
  else .refused .noSuchBus

/-- Goes on for a session that exists (log 20). -/
def withSession {α : Type} (i : Nat) (s : State) (k : Res α) : Res α :=
  if i < s.cfg.sessions.length then k else .refused .noSuchSession

/-- Goes on for a session that exists and whose bus has been through BUS.INIT (60_exceptions.md R414,
70_reset_and_hazards.md R455, log 20). -/
def withCard {α : Type} (i : Nat) (s : State) (k : Res α) : Res α := withSession i s (withBus (s.sesBus i) s k)

/-- Goes on for an adapter that exists (log 20). -/
def withAdapter {α : Type} (a : Nat) (s : State) (k : Res α) : Res α :=
  if a < s.cfg.adapters.length then k else .refused .noSuchAdapter

/-- Goes on for a DMA channel number in 0 .. NUM_DMA_CH-1 (41_spi_bus.md R195). -/
def withChannel {α : Type} (c : Nat) (s : State) (k : Res α) : Res α :=
  if c < s.cfg.numDmaCh then k else .refused .badChannel

/-! ## The bus engine -/

/-- `busy(b)` (41_spi_bus.md R180). -/
def State.busy (s : State) (b : Nat) : Bool := (s.bus b).phase != .idle

/-- BUS.SETID (41_spi_bus.md R181). -/
def setTransferId (b : Nat) (id : Byte) (s : State) : Code × State :=
  if s.busy b && (s.bus b).transferId != id then (.busy, s)
  else (.noError, s.setBus b { s.bus b with transferId := id })

/-- BUS.SETSPEED (41_spi_bus.md R193). -/
def setSpeed (b : Nat) (sp : Speed) (s : State) : Code × State :=
  if s.busy b then (.busy, s) else (.noError, s.setBus b { s.bus b with speed := sp })

/-- BUS.SETTXDEF (41_spi_bus.md R192). -/
def setTxDefault (b : Nat) (v : Byte) (s : State) : State := s.setBus b { s.bus b with txDefault := v }

/-- The bus fields after BUS.INIT (41_spi_bus.md R190). -/
def Bus.afterInit : Bus where
  inited := true
  phase := .idle
  status := .idle
  transferId := 0
  errors := 0
  messages := 0
  count := 0
  index := 0
  txDefault := 0xFF
  callback := 0
  heldRx := false
  heldTx := false
  pos := 0
  ovr := false
  modf := false
  crcerr := false
  errie := false
  rxdmaen := false
  txdmaen := false
  speed := .high

/-- A channel disabled with its pending flags cleared, as BUS.INIT leaves it (41_spi_bus.md R190). -/
def Chan.initialised (c : Chan) : Chan := { c with en := false, tc := false, te := false }

/-- BUS.INIT's writes (41_spi_bus.md R190). -/
def initBus (b : Nat) (s : State) : State :=
  let s1 := s.setBus b Bus.afterInit
  let s2 := s1.setChan (s.busCfg b).rxCh (s1.chan (s.busCfg b).rxCh).initialised
  s2.setChan (s.busCfg b).txCh (s2.chan (s.busCfg b).txCh).initialised

/-- `Xchg(b, t)`: the frame goes out and DEV's answer comes back (41_spi_bus.md R189). -/
def exchange (b : Nat) (t : Byte) (s : State) : Byte × State := (s.send b t).takeAnswer b

/-- BUS.XMIT without the store of the received frame (41_spi_bus.md R189). -/
def xmit (b : Nat) (t : Byte) (s : State) : Code × Byte × State :=
  if s.busy b then (.busy, 0, s)
  else
    let r := exchange b t s
    (.noError, r.1, r.2)

/-- DMA.TRYLOCK of one channel: the new lock table when it was free (41_spi_bus.md R195). -/
def tryLock (c : Nat) (s : State) : Option State := if s.lock c then none else some (s.setLock c true)

/-- The try-locks of BUS.XFER, RX first then TX; none when a channel is taken, where what was taken is released and the
lock table is as it was (41_spi_bus.md R185, log 30). -/
def acquire (b : Nat) (n : ChanSet) (s : State) : Option State :=
  let rx := if n.rx then tryLock (s.busCfg b).rxCh s else some s
  rx.bind fun s1 => if n.tx then tryLock (s.busCfg b).txCh s1 else some s1

/-- The RX channel as Arm sets it for message `m` (42_spi_events.md R233). -/
def armRx (m : Msg) (c : Chan) : Chan :=
  { c with
    en := true, tc := false, te := false, dir := .p2m, maddr := m.rx, minc := true, cnt := m.size.setWidth 16,
    teie := true, tcie := completesOnRx m.dir }

/-- The TX channel as Arm sets it for message `m` (42_spi_events.md R233). -/
def armTx (m : Msg) (c : Chan) : Chan :=
  { c with
    en := true, tc := false, te := false, dir := .m2p, maddr := if m.tx = 0 then c.maddr else m.tx,
    minc := m.tx != 0, cnt := m.size.setWidth 16, teie := true, tcie := !completesOnRx m.dir }

/-- `Arm(b, m)` (42_spi_events.md R233). -/
def arm (b : Nat) (m : Msg) (s : State) : State :=
  let n := need (s.busCfg b).mode m.dir
  let rx := (s.busCfg b).rxCh
  let tx := (s.busCfg b).txCh
  let s1 := s.setBus b { s.bus b with pos := 0, rxdmaen := n.rx, txdmaen := n.tx }
  let s2 := s1.setChan rx (if n.rx then armRx m (s1.chan rx) else { s1.chan rx with en := false })
  s2.setChan tx (if n.tx then armTx m (s2.chan tx) else { s2.chan tx with en := false })

/-- A channel as Disarm leaves it: pending flags are kept (42_spi_events.md R234). -/
def Chan.disarmed (c : Chan) : Chan := { c with en := false, tcie := false, teie := false }

/-- `Disarm(b)` (42_spi_events.md R234). -/
def disarm (b : Nat) (s : State) : State :=
  let rx := (s.busCfg b).rxCh
  let tx := (s.busCfg b).txCh
  let s1 := s.setChan rx (s.chan rx).disarmed
  let s2 := s1.setChan tx (s1.chan tx).disarmed
  s2.setBus b { s2.bus b with rxdmaen := false, txdmaen := false, errie := false }

/-- Forgets which bytes of bus `b`'s buffers software wrote in flight: a new transfer starts (log 11). -/
def State.cleanDirty (s : State) (b : Nat) : State := s.setDirty (s.dirty.filter (fun x => x.1 != b))

/-- The bus registers of an accepted BUS.XFER (41_spi_bus.md R185). -/
def Bus.started (B : Bus) (p n : Word) (held : ChanSet) (dir : BitVec 2) : Bus :=
  { B with
    heldRx := held.rx, heldTx := held.tx, messages := p, count := n, index := 0, errors := 0,
    status := .transferring, phase := phaseOfDir dir, errie := true }

/-- BUS.XFER (41_spi_bus.md R183 to R185). -/
def startXfer (b : Nat) (p n : Word) (s : State) : Code × State :=
  if p = 0 then (.nullPointer, s)
  else if n = 0 then (.invalidValue, s)
  else if s.busy b then (.busy, s)
  else if !((s.descList p n.toNat).all fun m => Msg.valid m (s.busCfg b).mode) then (.invalidValue, s)
  else
    let want := needAll (s.busCfg b).mode (s.descList p n.toNat)
    match acquire b want s with
    | none => (.busy, s)
    | some s1 =>
      let s2 := (s1.setBus b ((s1.bus b).started p n want (s.desc p 0).dir)).cleanDirty b
      (.noError, arm b (s.desc p 0) s2)

/-- Releases the channels of `held` and empties it (42_spi_events.md R230, R231). -/
def releaseHeld (b : Nat) (s : State) : State :=
  let s1 := if (s.bus b).heldRx then s.setLock (s.busCfg b).rxCh false else s
  let s2 := if (s.bus b).heldTx then s1.setLock (s.busCfg b).txCh false else s1
  s2.setBus b { s2.bus b with heldRx := false, heldTx := false }

/-- Whether a modelled bus holds channel `c` (41_spi_bus.md R196, 70_reset_and_hazards.md R462). -/
def State.heldByBus (s : State) (c : Nat) : Bool :=
  (List.range s.numBuses).any fun b =>
    ((s.bus b).heldRx && (s.busCfg b).rxCh == c) || ((s.bus b).heldTx && (s.busCfg b).txCh == c)

end Sys2Proof.Machine
end

