-- ==== Sys2Proof/Machine/Future.lean ====
section
/-! DEFINITION. The completion tokens: FUT.INIT to FUT.SETRESULT (40_future.md). Every 32-bit value is the handle of a
future (log 21). -/

namespace Sys2Proof.Machine

/-- FUT.INIT's write (40_future.md R150). -/
def initFuture (f : Nat) (s : State) : State := s.setFut f Future.zero

/-- FUT.START's write (40_future.md R151). -/
def startFuture (f : Nat) (s : State) : State := s.setFut f { s.fut f with done := false, running := true }

/-- FUT.FINISH's write (40_future.md R152). -/
def finishFuture (f : Nat) (r : Word) (s : State) : State :=
  s.setFut f { result := r, done := true, running := false }

/-- FUT.SETRESULT's write (40_future.md R157). -/
def setFutureResult (f : Nat) (r : Word) (s : State) : State := s.setFut f { s.fut f with result := r }

/-- FUT.INIT (40_future.md R150). -/
def execFutInit (f : Word) (s : State) : Res State := .next ((initFuture f.toNat s).setRet .none)

/-- FUT.START (40_future.md R151). -/
def execFutStart (f : Word) (s : State) : Res State := .next ((startFuture f.toNat s).setRet .none)

/-- FUT.FINISH (40_future.md R152). -/
def execFutFinish (f r : Word) (s : State) : Res State := .next ((finishFuture f.toNat r s).setRet .none)

/-- FUT.RUNNING (40_future.md R153). -/
def execFutRunning (f : Word) (s : State) : Res State :=
  .next (s.setRet (.value (flagWord (s.fut f.toNat).running)))

/-- FUT.DONE (40_future.md R154). -/
def execFutDone (f : Word) (s : State) : Res State := .next (s.setRet (.value (flagWord (s.fut f.toNat).done)))

/-- FUT.RESULT (40_future.md R155). -/
def execFutResult (f : Word) (s : State) : Res State := .next (s.setRet (.value (s.fut f.toNat).result))

/-- The first poll of a wait on future `f`; later polls are FG's next steps, and in ISR context a running future is a
fault (40_future.md R156). -/
def waitFuture (f : Nat) (k : Finish) (s : State) : Res State :=
  if (s.fut f).running then
    if s.isr then .fault .waitInInterrupt else .next (s.setFg (.busy (.futWait f) [.finish k]))
  else .next (s.setRet (finishResult k (.ofValue (s.fut f).result)))

/-- FUT.WAIT (40_future.md R156). -/
def execFutWait (f : Word) (s : State) : Res State := waitFuture f.toNat .value s

/-- FUT.SETRESULT (40_future.md R157). -/
def execFutSetResult (f r : Word) (s : State) : Res State := .next ((setFutureResult f.toNat r s).setRet .none)

end Sys2Proof.Machine
end

