-- ==== Sys2Proof/Machine/Adapter.lean ====
section
/-! DEFINITION. The adapter contract: ADP.BEGIN, ADP.SYNC, ADP.COMPLETE and ADP.DISPATCH
(45_adapter_contract.md). -/

namespace Sys2Proof.Machine

/-- Whether bus `b`'s callback is its dispatcher (45_adapter_contract.md R381 (3), R386). -/
def State.dispatcherSet (s : State) (b : Nat) : Bool :=
  (s.bus b).callback != 0
    && s.callback (s.bus b).callback.toNat == .always [.op (.adpDispatch (BitVec.ofNat 32 b))]

/-- Drives adapter `a`'s chip-select line (45_adapter_contract.md R380). -/
def setAdapterCs (a : Nat) (v : Bool) (s : State) : State := s.setAdp a { s.adp a with csAsserted := v }

/-- The last part of ADP.BEGIN: the transfer is started, and a code that is not E_NO_ERROR finishes the future
(45_adapter_contract.md R383). -/
def beginXfer (a : Nat) (n : Nat) (s : State) : Code × State :=
  let A := s.adpCfg a
  let r := startXfer A.bus A.msgs (BitVec.ofNat 32 n) s
  if r.1 = .noError then r else (r.1, finishFuture A.fut (codeWord r.1) (setAdapterCs a false r.2))

/-- The writes of ADP.BEGIN after its checks, and BUS.XFER (45_adapter_contract.md R383); a scratch buffer at 0 is written as
any address (log 41), and where the adapter's own list is in flight its descriptor writes fault as the host's do, before
BUS.XFER could answer E_BUSY (20_memory.md R84, log 47). -/
def beginWrites (a : Nat) (ms : List Msg) (scratch : List Byte) (s : State) : Res (Code × State) :=
  let A := s.adpCfg a
  s.needBacked A.buf scratch.length
    (andThen (State.writeDescs A.msgs 0 ms (State.writeBytes A.buf scratch s)) fun t =>
      let t1 := (setTransferId A.bus A.id t).2
      let t2 := setAdapterCs a true t1
      let t3 := startFuture A.fut (setFutureResult A.fut (codeWord .noError) t2)
      .next (beginXfer a ms.length t3))

/-- ADP.BEGIN on a built operation: the two busy checks, the capacity check, the dispatcher of R381 (3) (log 18), and
the writes (45_adapter_contract.md R383). -/
def beginBuilt (a : Nat) (ms : List Msg) (scratch : List Byte) (s : State) : Res (Code × State) :=
  let A := s.adpCfg a
  if (s.fut A.fut).running then .next (.busy, s)
  else
    withBus A.bus s
      (if s.busy A.bus && (s.bus A.bus).transferId != A.id then .next (.busy, s)
       else if A.maxMsgs < ms.length ∨ A.bufSize < scratch.length then .next (.outOfRange, s)
       else if s.dispatcherSet A.bus = false then .refused .adapterConfig
       else beginWrites a ms scratch s)

/-- ADP.BEGIN's code and its effects (45_adapter_contract.md R382, R383). -/
def beginOp (a op : Nat) (s : State) : Res (Code × State) :=
  withAdapter a s
    (match s.opRec op with
     | none => .refused .noSuchOperation
     | some r =>
      match build (s.adpCfg a).buf r with
      | .rejected c => .next (c, s)
      | .built ms scratch => beginBuilt a ms scratch s)

/-- ADP.BEGIN (45_adapter_contract.md R383). -/
def execAdpBegin (a op : Word) (s : State) : Res State :=
  andThen (beginOp a.toNat op.toNat s) fun r => .next (r.2.setRet (.code r.1))

/-- ADP.SYNC (45_adapter_contract.md R384). -/
def execAdpSync (a op : Word) (s : State) : Res State :=
  andThen (beginOp a.toNat op.toNat s) fun r =>
    if r.1 = .noError then waitFuture (s.adpCfg a.toNat).fut .wordCode r.2 else .next (r.2.setRet (.code r.1))

/-- `AdpResult(b)` (45_adapter_contract.md R387). -/
def State.adpResult (s : State) (b : Nat) : Code := adapterResult (s.bus b).status (s.bus b).errors

/-- ADP.COMPLETE: whether the completion was adapter `a`'s, and the state after (45_adapter_contract.md R385). -/
def completeOp (a : Nat) (s : State) : Bool × State :=
  let A := s.adpCfg a
  if (s.bus A.bus).transferId != A.id then (false, s)
  else (true, finishFuture A.fut (codeWord (s.adpResult A.bus)) (setAdapterCs a false s))

/-- ADP.COMPLETE (45_adapter_contract.md R385). -/
def execAdpComplete (a : Word) (s : State) : Res State :=
  withAdapter a.toNat s
    (withBus (s.adpCfg a.toNat).bus s
      (let r := completeOp a.toNat s
       .next (r.2.setRet (.value (flagWord r.1)))))

/-- The dispatch loop: adapters in their order until one handles the completion (45_adapter_contract.md R386). -/
def dispatch : List Nat → State → State
  | [], s => s
  | a :: rest, s =>
    let r := completeOp a s
    if r.1 then r.2 else dispatch rest r.2

/-- ADP.DISPATCH (45_adapter_contract.md R386). -/
def execAdpDispatch (b : Word) (s : State) : Res State :=
  withBus b.toNat s (.next ((dispatch (s.busCfg b.toNat).adapters s).setRet .none))

end Sys2Proof.Machine
end

