-- ==== Sys2Proof/Machine/Bus.lean ====
section
/-! DEFINITION. The foreground operations of the SPI bus engine and the DMA channel locks (41_spi_bus.md). -/

namespace Sys2Proof.Machine

/-- BUS.INIT (41_spi_bus.md R190). -/
def execBusInit (b : Word) (s : State) : Res State :=
  if b.toNat < s.numBuses then
    if (s.bus b.toNat).inited && s.busy b.toNat then .fault .initWhileBusy
    else .next ((initBus b.toNat s).setRet (.code .noError))
  else .refused .noSuchBus

/-- BUS.SETID (41_spi_bus.md R181). -/
def execBusSetId (b : Word) (id : Byte) (s : State) : Res State :=
  withBus b.toNat s
    (let r := setTransferId b.toNat id s
     .next (r.2.setRet (.code r.1)))

/-- BUS.ID (41_spi_bus.md R182). -/
def execBusId (b : Word) (s : State) : Res State :=
  withBus b.toNat s (.next (s.setRet (.value ((s.bus b.toNat).transferId.setWidth 32))))

/-- BUS.XFER (41_spi_bus.md R183 to R185). -/
def execBusXfer (b p n : Word) (s : State) : Res State :=
  withBus b.toNat s
    (let r := startXfer b.toNat p n s
     .next (r.2.setRet (.code r.1)))

/-- BUS.XMIT (41_spi_bus.md R189); it runs on an LSB-first bus as on any other (log 45). -/
def execBusXmit (b : Word) (t : Byte) (ra : Word) (s : State) : Res State :=
  withBus b.toNat s
    (if s.busy b.toNat then .next (s.setRet (.codeByte .busy 0))
     else
      let r := exchange b.toNat t s
      if ra = 0 then .next (r.2.setRet (.codeByte .noError r.1))
      else s.needBacked ra 1 (.next ((r.2.writeByte ra r.1).setRet (.codeByte .noError r.1))))

/-- BUS.WAIT: the first poll; later polls are FG's next steps, and in ISR context a bus in a transfer is a fault
(41_spi_bus.md R187). -/
def execBusWait (b : Word) (s : State) : Res State :=
  withBus b.toNat s
    (if (s.bus b.toNat).status = .transferring then
      if s.isr then .fault .waitInInterrupt else .next (s.setFg (.busy (.busWait b.toNat) [.finish .none]))
     else .next (s.setRet .none))

/-- BUS.STATUS (41_spi_bus.md R188). -/
def execBusStatus (b : Word) (s : State) : Res State :=
  withBus b.toNat s (.next (s.setRet (.value ((statusNum (s.bus b.toNat).status).setWidth 32))))

/-- BUS.ERRORS (41_spi_bus.md R188). -/
def execBusErrors (b : Word) (s : State) : Res State :=
  withBus b.toNat s (.next (s.setRet (.value ((s.bus b.toNat).errors.setWidth 32))))

/-- BUS.BUSY (41_spi_bus.md R180). -/
def execBusBusy (b : Word) (s : State) : Res State :=
  withBus b.toNat s (.next (s.setRet (.value (flagWord (s.busy b.toNat)))))

/-- BUS.SETCB (41_spi_bus.md R191). -/
def execBusSetCb (b cb : Word) (s : State) : Res State :=
  withBus b.toNat s (.next ((s.setBus b.toNat { s.bus b.toNat with callback := cb }).setRet .none))

/-- BUS.SETTXDEF (41_spi_bus.md R192). -/
def execBusSetTxDef (b : Word) (v : Byte) (s : State) : Res State :=
  withBus b.toNat s (.next ((setTxDefault b.toNat v s).setRet .none))

/-- BUS.SETSPEED (41_spi_bus.md R193). -/
def execBusSetSpeed (b : Word) (sp : Speed) (s : State) : Res State :=
  withBus b.toNat s
    (let r := setSpeed b.toNat sp s
     .next (r.2.setRet (.code r.1)))

/-- DMA.TRYLOCK (41_spi_bus.md R195). -/
def execDmaTryLock (c : Word) (s : State) : Res State :=
  withChannel c.toNat s
    (match tryLock c.toNat s with
     | some t => .next (t.setRet (.value 1))
     | none => .next (s.setRet (.value 0)))

/-- DMA.UNLOCK (41_spi_bus.md R196, 70_reset_and_hazards.md R462). -/
def execDmaUnlock (c : Word) (s : State) : Res State :=
  withChannel c.toNat s
    (if s.heldByBus c.toNat then .fault .foreignUnlock
     else .next (((s.setLock c.toNat false).setExt c.toNat false).setRet .none))

end Sys2Proof.Machine
end

