-- ==== Sys2Proof/Machine/SdPure.lean ====
section
/-! DEFINITION. The SD operations that exchange no byte: the CRCs, framing and status decoding (43_sd_framing.md) and
the session's accessors (44_sd_protocol.md R327, R346, R347). Each is one step. -/

namespace Sys2Proof.Machine

/-- SDI.CRC7 (43_sd_framing.md R260); `addr` 0 is read as any address (log 41). -/
def execSdiCrc7 (addr n : Word) (s : State) : Res State :=
  s.needBacked addr n.toNat
    (let r := State.readBytes n.toNat addr s
     .next (r.2.setRet (.value ((crc7 r.1).setWidth 32))))

/-- SDI.CRC16 (43_sd_framing.md R261); `addr` 0 is read as any address (log 41). -/
def execSdiCrc16 (addr n : Word) (s : State) : Res State :=
  s.needBacked addr n.toNat
    (let r := State.readBytes n.toNat addr s
     .next (r.2.setRet (.value ((crc16 r.1).setWidth 32))))

/-- SDI.FRAME (43_sd_framing.md R263). -/
def execSdiFrame (index : BitVec 6) (arg : Word) (s : State) : Res State :=
  .next (s.setRet (.frame (commandFrame index arg)))

/-- SDI.DECODE (43_sd_framing.md R273). -/
def execSdiDecode (r1 r2 : Byte) (allowIdle : Bool) (s : State) : Res State :=
  .next (s.setRet (.code (decodeStatus r1 r2 allowIdle)))

/-- SDI.ERRTOK (43_sd_framing.md R274). -/
def execSdiErrTok (token : Byte) (s : State) : Res State := .next (s.setRet (.code (decodeErrToken token)))

/-- SD.SECTORS, the exact count as a 32-bit value (44_sd_protocol.md R327, log 24). -/
def execSdSectors (i : Word) (s : State) : Res State :=
  withCard i.toNat s (.next (s.setRet (.value (BitVec.ofNat 32 (sectorCount (s.ses i.toNat))))))

/-- SD.TYPE (44_sd_protocol.md R346). -/
def execSdType (i : Word) (s : State) : Res State :=
  withCard i.toNat s (.next (s.setRet (.value ((cardTypeNum (s.ses i.toNat).cardType).setWidth 32))))

/-- SD.INITED (44_sd_protocol.md R346). -/
def execSdInited (i : Word) (s : State) : Res State :=
  withCard i.toNat s (.next (s.setRet (.value (flagWord (s.ses i.toNat).initialized))))

/-- SD.BLKLEN (44_sd_protocol.md R346). -/
def execSdBlkLen (i : Word) (s : State) : Res State :=
  withCard i.toNat s (.next (s.setRet (.value ((s.ses i.toNat).blockLen.setWidth 32))))

/-- SD.ERASESZ (44_sd_protocol.md R346). -/
def execSdEraseSz (i : Word) (s : State) : Res State :=
  withCard i.toNat s (.next (s.setRet (.value (s.ses i.toNat).eraseSize)))

/-- SD.CRCEN (44_sd_protocol.md R346). -/
def execSdCrcEn (i : Word) (s : State) : Res State :=
  withCard i.toNat s (.next (s.setRet (.value (flagWord (s.ses i.toNat).crcEnabled))))

/-- The copy of a register cache to memory (44_sd_protocol.md R347). -/
def copyRegister (reg : BitVec 128) (initialized : Bool) (dst : Word) (s : State) : Res State :=
  if dst = 0 then .next (s.setRet (.code .nullPointer))
  else if initialized = false then .next (s.setRet (.code .state))
  else s.needBacked dst 16 (.next ((State.writeBytes dst (regBytes reg) s).setRet (.code .noError)))

/-- SD.CID (44_sd_protocol.md R347). -/
def execSdCid (i dst : Word) (s : State) : Res State :=
  withCard i.toNat s (copyRegister (s.ses i.toNat).cid (s.ses i.toNat).initialized dst s)

/-- SD.CSD (44_sd_protocol.md R347). -/
def execSdCsd (i dst : Word) (s : State) : Res State :=
  withCard i.toNat s (copyRegister (s.ses i.toNat).csd (s.ses i.toNat).initialized dst s)

end Sys2Proof.Machine
end

