-- ==== Sys2Proof/Machine/Irq.lean ====
section
/-! DEFINITION. What a callback does inside a step (60_exceptions.md R417), the three interrupt handlers with the
transitions that invoke callbacks (42_spi_events.md R220 to R237), and IRQ.SPI, IRQ.DMARX and IRQ.DMATX. -/

namespace Sys2Proof.Machine

/-! ## Callbacks -/

/-- An IRQ operation that a callback issues inside a step: ISR steps do not nest, so no handler runs here, and what is
pending stays so for a later step (60_exceptions.md R412, log 13). -/
def laterHandler (b : Word) (s : State) : Res State := withBus b.toNat s (.next (s.setRet .none))

/-- An operation issued by a callback inside a step; in ISR context the waits and the byte-exchanging SD operations
fault (60_exceptions.md R414, R417). -/
def callOp (i : Instr) (s : State) : Res State :=
  match i with
  | .futInit f => execFutInit f s
  | .futStart f => execFutStart f s
  | .futFinish f r => execFutFinish f r s
  | .futRunning f => execFutRunning f s
  | .futDone f => execFutDone f s
  | .futResult f => execFutResult f s
  | .futWait f => execFutWait f s
  | .futSetResult f r => execFutSetResult f r s
  | .busInit b => execBusInit b s
  | .busSetId b id => execBusSetId b id s
  | .busId b => execBusId b s
  | .busXfer b p n => execBusXfer b p n s
  | .busXmit b t ra => execBusXmit b t ra s
  | .busWait b => execBusWait b s
  | .busStatus b => execBusStatus b s
  | .busErrors b => execBusErrors b s
  | .busBusy b => execBusBusy b s
  | .busSetCb b cb => execBusSetCb b cb s
  | .busSetTxDef b v => execBusSetTxDef b v s
  | .busSetSpeed b sp => execBusSetSpeed b sp s
  | .irqSpi b => laterHandler b s
  | .irqDmaRx b => laterHandler b s
  | .irqDmaTx b => laterHandler b s
  | .dmaTryLock c => execDmaTryLock c s
  | .dmaUnlock c => execDmaUnlock c s
  | .sdInit x => withSession x.toNat s (.fault .sdInInterrupt)
  | .sdRead1 x _ _ => withSession x.toNat s (.fault .sdInInterrupt)
  | .sdReadN x _ _ _ => withSession x.toNat s (.fault .sdInInterrupt)
  | .sdWrite1 x _ _ => withSession x.toNat s (.fault .sdInInterrupt)
  | .sdWriteN x _ _ _ => withSession x.toNat s (.fault .sdInInterrupt)
  | .sdSetCrc x _ => withSession x.toNat s (.fault .sdInInterrupt)
  | .sdSectors x => execSdSectors x s
  | .sdType x => execSdType x s
  | .sdInited x => execSdInited x s
  | .sdBlkLen x => execSdBlkLen x s
  | .sdEraseSz x => execSdEraseSz x s
  | .sdCid x dst => execSdCid x dst s
  | .sdCsd x dst => execSdCsd x dst s
  | .sdCrcEn x => execSdCrcEn x s
  | .sdiCrc7 a n => execSdiCrc7 a n s
  | .sdiCrc16 a n => execSdiCrc16 a n s
  | .sdiFrame x arg => execSdiFrame x arg s
  | .sdiCmd x _ _ _ _ => withSession x.toNat s (.fault .sdInInterrupt)
  | .sdiR1Poll x => withSession x.toNat s (.fault .sdInInterrupt)
  | .sdiBusyWait x => withSession x.toNat s (.fault .sdInInterrupt)
  | .sdiRdBlk x _ _ _ => withSession x.toNat s (.fault .sdInInterrupt)
  | .sdiWrBlk x _ _ => withSession x.toNat s (.fault .sdInInterrupt)
  | .sdiStopR x => withSession x.toNat s (.fault .sdInInterrupt)
  | .sdiStopW x => withSession x.toNat s (.fault .sdInInterrupt)
  | .sdiDecode r1 r2 ai => execSdiDecode r1 r2 ai s
  | .sdiErrTok token => execSdiErrTok token s
  | .sdiRdReg x _ _ => withSession x.toNat s (.fault .sdInInterrupt)
  | .adpBegin a op => execAdpBegin a op s
  | .adpSync a op => execAdpSync a op s
  | .adpComplete a => execAdpComplete a s
  | .adpDispatch b => execAdpDispatch b s

/-- The acts of a callback inside a step, in order; one that does not return has no next state (60_exceptions.md R415,
log 39). -/
def runActs : List Act → State → Res State
  | [], s => .next s
  | .op i :: rest, s => andThen (callOp i s) (runActs rest)
  | .access x :: rest, s => andThen (hostAccess x s) (runActs rest)
  | .hang :: _, _ => .fault .callbackHang

/-- `Invoke(cb, arg)`; NONE is handle 0 (60_exceptions.md R417, log 12). -/
def invoke (cb : Word) (arg : CbArg) (s : State) : Res State :=
  if cb = 0 then .next s
  else
    let r := (s.logCall cb arg).takeActs cb
    runActs r.1 r.2

/-! ## Transitions -/

/-- The advance to the next message (42_spi_events.md R228). -/
def advance (b : Nat) (next : Word) (s : State) : State :=
  let m := s.desc (s.bus b).messages next.toNat
  arm b m (s.setBus b { s.bus b with index := next, phase := phaseOfDir m.dir })

/-- TerminalSuccess (42_spi_events.md R230). -/
def terminalSuccess (b : Nat) (s : State) : Res State :=
  let s1 := releaseHeld b (disarm b s)
  let s2 := s1.setBus b { s1.bus b with phase := .idle, status := .transferred }
  invoke (s2.bus b).callback (.bus b) s2

/-- TerminalError (42_spi_events.md R231). -/
def terminalError (b : Nat) (e : BitVec 4) (s : State) : Res State :=
  let s1 := releaseHeld b (disarm b s)
  let s2 := s1.setBus b { s1.bus b with phase := .idle, status := .error, errors := (s1.bus b).errors ||| e }
  invoke (s2.bus b).callback (.bus b) s2

/-- MessageDone (42_spi_events.md R228). -/
def messageDone (b : Nat) (s : State) : Res State :=
  let i := (s.bus b).index
  let m := s.desc (s.bus b).messages i.toNat
  if i.toNat + 1 < (s.bus b).count.toNat then
    andThen (invoke m.callback (.msg m) s) fun t => .next (advance b (i + 1) t)
  else
    andThen (if Config.callbackOnLast then invoke m.callback (.msg m) s else .next s) (terminalSuccess b)

/-! ## Handlers -/

/-- IRQ.SPI's pseudocode; an unenabled flag reads as 0 and stays (42_spi_events.md R220, R222, R237). -/
def spiHandler (b : Nat) (s : State) : Res State :=
  let B := s.bus b
  let e := spiErrors B.ovr B.modf B.crcerr
  if B.errie = false ∨ e = 0 then .next s
  else
    let s1 := s.setBus b { B with ovr := false, modf := false, crcerr := false }
    if B.phase = .idle then .next (s1.setBus b { s1.bus b with errors := (s1.bus b).errors ||| e })
    else terminalError b e s1

/-- The pseudocode of IRQ.DMARX and IRQ.DMATX for channel `c` of bus `b`; `mine` says which states its TC completes a
message in; an unenabled flag reads as 0 and stays (42_spi_events.md R220, R224, R225, R237). -/
def dmaHandler (b c : Nat) (mine : Phase → Bool) (s : State) : Res State :=
  let C := s.chan c
  if C.te && C.teie then
    let s1 := s.setChan c { C with te := false, tc := C.tc && !C.tcie }
    if (s.bus b).phase = .idle then .next (s1.setBus b { s1.bus b with errors := (s1.bus b).errors ||| errDma })
    else terminalError b errDma s1
  else if C.tc && C.tcie then
    let s1 := s.setChan c { C with tc := false }
    if mine (s.bus b).phase then messageDone b s1 else .next s1
  else .next s

/-- The states in which the RX channel's TC completes a message (42_spi_events.md R224). -/
def rxCompletes : Phase → Bool
  | .reading | .readingWriting => true
  | .idle | .writing => false

/-- The states in which the TX channel's TC completes a message (42_spi_events.md R225). -/
def txCompletes : Phase → Bool
  | .writing => true
  | .idle | .reading | .readingWriting => false

/-- IRQ.DMARX's pseudocode (42_spi_events.md R224). -/
def rxHandler (b : Nat) (s : State) : Res State := dmaHandler b (s.busCfg b).rxCh rxCompletes s

/-- IRQ.DMATX's pseudocode (42_spi_events.md R225). -/
def txHandler (b : Nat) (s : State) : Res State := dmaHandler b (s.busCfg b).txCh txCompletes s

/-- Whether bus `b`'s SPI interrupt is pending and enabled (42_spi_events.md R220). -/
def State.spiPending (s : State) (b : Nat) : Bool :=
  (s.bus b).errie && ((s.bus b).ovr || (s.bus b).modf || (s.bus b).crcerr)

/-- Whether a channel's interrupt is pending and enabled (42_spi_events.md R220). -/
def Chan.pending (c : Chan) : Bool := c.tc && c.tcie || c.te && c.teie

/-! ## The operations -/

/-- An IRQ operation on bus `b`: the handler's body as one ISR step (42_spi_events.md R220, 60_exceptions.md R410). -/
def handlerOp (body : Nat → State → Res State) (b : Word) (s : State) : Res State :=
  withBus b.toNat s (andThen (takeInterrupt (body b.toNat) s) fun t => .next (t.setRet .none))

/-- IRQ.SPI (42_spi_events.md R222). -/
def execIrqSpi (b : Word) (s : State) : Res State := handlerOp spiHandler b s

/-- IRQ.DMARX (42_spi_events.md R224). -/
def execIrqDmaRx (b : Word) (s : State) : Res State := handlerOp rxHandler b s

/-- IRQ.DMATX (42_spi_events.md R225). -/
def execIrqDmaTx (b : Word) (s : State) : Res State := handlerOp txHandler b s

end Sys2Proof.Machine
end

