-- ==== Sys2Proof/Machine/SdProc.lean ====
section
/-! DEFINITION. The procedures of the waiting and SD operations as FG runs them, one frame exchange, BUS.XFER or poll a
step (00_scope.md R12; 43_sd_framing.md R264 to R271; 44_sd_protocol.md R310 to R337, R345). A procedure that must wait
hands back what FG's next step does and the frames to return to; `k` is always the frames of the callers. -/

namespace Sys2Proof.Machine

/-- Where a procedure has got to: ended with a value, or waiting for FG's next step. -/
inductive Flow where
  | ret (v : Ret) (s : State)
  | wait (p : Pending) (k : List Frame) (s : State)
  deriving DecidableEq, Repr

/-- The next exchange `X(t)` of session `i` (43_sd_framing.md, introduction). -/
def askByte (i : Nat) (t : Byte) (k : List Frame) (s : State) : Res Flow := .next (.wait (.xchg (s.sesBus i) t) k s)

/-- A procedure's end. -/
def endWith (c : Code) (s : State) : Res Flow := .next (.ret (.ofCode c) s)

/-- SDI.CMD's end after an exchange that failed: the R1 byte and the payload are free (43_sd_framing.md, introduction;
log 23). -/
def endFreeReply (c : Code) (s : State) : Res Flow :=
  let r := s.drawByte
  let w := r.2.drawWord
  .next (.ret { code := c, byte := r.1, val := w.1 } w.2)

/-- SDI.R1POLL's end after an exchange that failed: the R1 byte is free (log 23). -/
def endFreeByte (c : Code) (s : State) : Res Flow :=
  let r := s.drawByte
  .next (.ret { code := c, byte := r.1, val := 0 } r.2)

/-! ## Callbacks in FG context (60_exceptions.md R417, log 12) -/

/-- How far a callback got inside the step: to its end, or to what FG's next steps do inside it, an operation that takes
FG steps of its own or never returning. -/
inductive Script where
  | done (s : State)
  | stay (p : Pending) (rest : List Act) (s : State)
  deriving DecidableEq, Repr

/-- Runs the acts of a callback in FG context; an operation that takes FG steps waits for FG's next one, where one that
would open a window of a session FG is inside is turned away (log 46). -/
def fgScript : List Act → State → Res Script
  | [], s => .next (.done s)
  | .op i :: rest, s =>
    if takesSteps i then .next (.stay (.enter i) rest s) else andThen (callOp i s) (fgScript rest)
  | .access x :: rest, s => andThen (hostAccess x s) (fgScript rest)
  | .hang :: rest, s => .next (.stay .hang rest s)

/-- Invokes callback `cb` in FG context, then goes on with `next`; where the callback issues an operation that takes FG
steps or does not return, `after` are the frames that go on once it has ended. -/
def fgInvoke (cb : Word) (arg : Word) (after : List Frame) (next : State → Res Flow) (s : State) : Res Flow :=
  if cb = 0 then next s
  else
    let r := (s.logCall cb (.word arg)).takeActs cb
    andThen (fgScript r.1 r.2) fun
      | .done t => next t
      | .stay p rest t => .next (.wait p (.script rest :: after) t)

/-- The rest of a callback, after an operation it issued. -/
def resumeScript (rest : List Act) (v : Ret) (s : State) : Res Flow :=
  andThen (fgScript rest s) fun
    | .done t => .next (.ret v t)
    | .stay p rest' t => .next (.wait p [.script rest'] t)

/-! ## Timeout windows (44_sd_protocol.md R311) -/

/-- `TimeoutBegin(s, arg)`, then `next`; no window of session `i` is opened inside another (log 46). -/
def openWindow (i : Nat) (arg : Word) (after : List Frame) (next : State → Res Flow) (s : State) : Res Flow :=
  fgInvoke (s.sesCfg i).timeoutBegin arg after next
    (s.setSes i { s.ses i with expired := false, winOpen := true })

/-- The close of the window after the callback. -/
def shutWindow (i : Nat) (s : State) : State := s.setSes i { s.ses i with winOpen := false }

/-- `TimeoutEnd(s)`, then `next` with `v`. -/
def closeWindow (i : Nat) (v : Ret) (k : List Frame) (next : Ret → State → Res Flow) (s : State) : Res Flow :=
  fgInvoke (s.sesCfg i).timeoutEnd 0 (.windowEnd i v :: k) (fun t => next v (shutWindow i t)) s

/-- `TimeoutEnd(s)` as the last act of a procedure that ends with code `c`. -/
def closeAndEnd (i : Nat) (c : Code) (s : State) : Res Flow :=
  closeWindow i (.ofCode c) [] (fun v t => .next (.ret v t)) s

/-! ## Starts -/

/-- SDI.R1POLL (43_sd_framing.md R264). -/
def startR1Poll (i : Nat) (k : List Frame) (s : State) : Res Flow :=
  askByte i Config.sdFiller (.r1Poll i 1 :: k) s

/-- Byte `n` of a command frame (43_sd_framing.md R263). -/
def frameByte (index : BitVec 6) (arg : Word) (n : Nat) : Byte := (commandFrame index arg).getD n 0

/-- SDI.CMD (43_sd_framing.md R265). -/
def startCmd (i : Nat) (index : BitVec 6) (arg : Word) (shape : Shape) (ai : Bool) (k : List Frame) (s : State) :
    Res Flow :=
  askByte i (frameByte index arg 0) (.cmdSend i index arg shape ai 0 :: k) s

/-- The loop of SDI.BUSYWAIT (43_sd_framing.md R271). -/
def busyLoop (i : Nat) (k : List Frame) (s : State) : Res Flow := askByte i Config.sdFiller (.busyPoll i :: k) s

/-- SDI.BUSYWAIT (43_sd_framing.md R271). -/
def startBusyWait (i : Nat) (k : List Frame) (s : State) : Res Flow :=
  openWindow i s.cfg.timeoutBusy (.busyStart i :: k) (busyLoop i k) s

/-- The loop of WaitToken (44_sd_protocol.md R312). -/
def tokenLoop (i : Nat) (k : List Frame) (s : State) : Res Flow := askByte i Config.sdFiller (.tokenPoll i :: k) s

/-- `WaitToken(s)` (44_sd_protocol.md R312). -/
def startWaitToken (i : Nat) (k : List Frame) (s : State) : Res Flow :=
  openWindow i s.cfg.timeoutToken (.tokenStart i :: k) (tokenLoop i k) s

/-- SDI.RDBLK (44_sd_protocol.md R313). -/
def startRdBlk (i : Nat) (dst n : Word) (check : Bool) (k : List Frame) (s : State) : Res Flow :=
  startWaitToken i (.rdToken i dst n check :: k) s

/-- SDI.WRBLK (44_sd_protocol.md R315). -/
def startWrBlk (i : Nat) (src : Word) (token : Byte) (k : List Frame) (s : State) : Res Flow :=
  askByte i token (.wrToken i src :: k) s

/-- SDI.STOPR (44_sd_protocol.md R316). -/
def startStopR (i : Nat) (k : List Frame) (s : State) : Res Flow := startCmd i 12 0 .r1b false (.stopCmd i :: k) s

/-- SDI.STOPW (44_sd_protocol.md R317). -/
def startStopW (i : Nat) (k : List Frame) (s : State) : Res Flow := askByte i 0xFD (.stopToken i :: k) s

/-- SDI.RDREG (44_sd_protocol.md R318). -/
def startRdReg (i : Nat) (index : BitVec 6) (dst : Word) (k : List Frame) (s : State) : Res Flow :=
  startCmd i index 0 .r1 false (.regCmd i dst :: k) s

/-! ## Replies (43_sd_framing.md R264, R265, R271) -/

/-- SDI.R1POLL after its poll number `n`. -/
def resumeR1Poll (i n : Nat) (v : Ret) (s : State) : Res Flow :=
  if v.code ≠ .noError then endFreeByte v.code s
  else if v.byte.getLsbD 7 = false then .next (.ret { code := .noError, byte := v.byte, val := 0 } s)
  else if n < Config.r1PollBudget then askByte i Config.sdFiller [.r1Poll i (n + 1)] s
  else .next (.ret { code := .timeout, byte := 0xFF, val := 0 } s)

/-- SDI.CMD after frame byte `n`. -/
def resumeCmdSend (i : Nat) (index : BitVec 6) (arg : Word) (shape : Shape) (ai : Bool) (n : Nat) (v : Ret)
    (s : State) : Res Flow :=
  if v.code ≠ .noError then endFreeReply v.code s
  else if n < 5 then askByte i (frameByte index arg (n + 1)) [.cmdSend i index arg shape ai (n + 1)] s
  else if index = 12 then askByte i Config.sdFiller [.cmdStuff i shape ai] s
  else startR1Poll i [.cmdR1 i shape ai] s

/-- SDI.CMD after the stuff byte of command 12. -/
def resumeCmdStuff (i : Nat) (shape : Shape) (ai : Bool) (v : Ret) (s : State) : Res Flow :=
  if v.code ≠ .noError then endFreeReply v.code s else startR1Poll i [.cmdR1 i shape ai] s

/-- SDI.CMD after SDI.R1POLL. -/
def resumeCmdR1 (i : Nat) (shape : Shape) (ai : Bool) (v : Ret) (s : State) : Res Flow :=
  if v.code ≠ .noError then .next (.ret { code := v.code, byte := v.byte, val := 0 } s)
  else if v.byte &&& 0x7E ≠ 0 then .next (.ret { code := decodeStatus v.byte 0 ai, byte := v.byte, val := 0 } s)
  else
    match shape with
    | .r1 => .next (.ret { code := decodeStatus v.byte 0 ai, byte := v.byte, val := 0 } s)
    | .r1b => startBusyWait i [.cmdBusy v.byte ai] s
    | .r2 => askByte i Config.sdFiller [.cmdStatus v.byte ai] s
    | .r3 => askByte i Config.sdFiller [.cmdPayload i v.byte ai []] s
    | .r7 => askByte i Config.sdFiller [.cmdPayload i v.byte ai []] s

/-- SDI.CMD after the status byte of an R2 reply. -/
def resumeCmdStatus (r1 : Byte) (ai : Bool) (v : Ret) (s : State) : Res Flow :=
  if v.code ≠ .noError then endFreeReply v.code s
  else .next (.ret { code := decodeStatus r1 v.byte ai, byte := r1, val := v.byte.setWidth 32 } s)

/-- The 32-bit payload of an R3 or R7 reply, first byte most significant (20_memory.md R89). -/
def payloadWord (got : List Byte) : Word := got.foldl (fun acc v => (acc <<< 8) ||| v.setWidth 32) 0

/-- SDI.CMD after a payload byte of an R3 or R7 reply; `got` are the ones before it. -/
def resumeCmdPayload (i : Nat) (r1 : Byte) (ai : Bool) (got : List Byte) (v : Ret) (s : State) : Res Flow :=
  if v.code ≠ .noError then endFreeReply v.code s
  else if got.length < 3 then askByte i Config.sdFiller [.cmdPayload i r1 ai (got ++ [v.byte])] s
  else .next (.ret { code := decodeStatus r1 0 ai, byte := r1, val := payloadWord (got ++ [v.byte]) } s)

/-- SDI.BUSYWAIT after a poll. -/
def resumeBusyPoll (i : Nat) (v : Ret) (s : State) : Res Flow :=
  if v.code ≠ .noError then closeAndEnd i v.code s
  else if v.byte = 0xFF then closeAndEnd i .noError s
  else if (s.ses i).expired then closeAndEnd i .timeout s
  else busyLoop i [] s

/-! ## Data blocks (44_sd_protocol.md R312 to R315) -/

/-- WaitToken after a poll. -/
def resumeTokenPoll (i : Nat) (v : Ret) (s : State) : Res Flow :=
  if v.code ≠ .noError then closeAndEnd i v.code s
  else if v.byte ≠ 0xFF then closeAndEnd i (classifyToken v.byte) s
  else if (s.ses i).expired then closeAndEnd i .timeout s
  else tokenLoop i [] s

/-- A READ descriptor of the SD engine (44_sd_protocol.md R313). -/
def readMsg (dst n : Word) : Msg := { dir := 1, tx := 0, rx := dst, size := n, callback := 0, senderData := 0 }

/-- A WRITE descriptor of the SD engine (44_sd_protocol.md R315). -/
def writeMsg (src n : Word) : Msg := { dir := 2, tx := src, rx := 0, size := n, callback := 0, senderData := 0 }

/-- SDI.RDBLK after WaitToken. -/
def resumeRdToken (i : Nat) (dst n : Word) (check : Bool) (v : Ret) (s : State) : Res Flow :=
  if v.code ≠ .noError then endWith v.code s
  else
    let S := s.sesCfg i
    andThen (State.writeDescs S.msgs 0 [readMsg dst n, readMsg S.crcbuf 2] (setTxDefault S.bus Config.sdFiller s))
      fun t => .next (.wait (.xfer S.bus S.msgs 2) [.rdXfer i dst n check] t)

/-- SDI.RDBLK after BUS.XFER. -/
def resumeRdXfer (i : Nat) (dst n : Word) (check : Bool) (v : Ret) (s : State) : Res Flow :=
  if v.code ≠ .noError then endWith v.code s
  else .next (.wait (.busWait (s.sesBus i)) [.rdWait i dst n check] s)

/-- SDI.RDBLK's CRC check (44_sd_protocol.md R313, 20_memory.md R90). -/
def checkBlock (crcbuf dst n : Word) (s : State) : Res Flow :=
  s.needBacked dst n.toNat
    (s.needBacked crcbuf 2
      (let d := State.readBytes n.toNat dst s
       let h := d.2.readByte crcbuf
       let l := h.2.readByte (crcbuf + 1)
       endWith (if crc16 d.1 = h.1 ++ l.1 then .noError else .crc) l.2))

/-- SDI.RDBLK after BUS.WAIT. -/
def resumeRdWait (i : Nat) (dst n : Word) (check : Bool) (s : State) : Res Flow :=
  if (s.bus (s.sesBus i)).status ≠ .transferred then endWith .ioError s
  else if check then checkBlock (s.sesCfg i).crcbuf dst n s
  else endWith .noError s

/-- `DataResp(s)` after its poll number `n` (44_sd_protocol.md R314). -/
def resumeDataResp (i n : Nat) (v : Ret) (s : State) : Res Flow :=
  if v.code ≠ .noError then endWith v.code s
  else if v.byte &&& 0x11 = 0x01 then
    .next (.ret { code := .noError, byte := (v.byte.extractLsb' 1 3).setWidth 8, val := 0 } s)
  else if n < Config.drespPollBudget then askByte i Config.sdFiller [.dataResp i (n + 1)] s
  else endWith .timeout s

/-- SDI.WRBLK after its start token. -/
def resumeWrToken (i : Nat) (src : Word) (v : Ret) (s : State) : Res Flow :=
  if v.code ≠ .noError then endWith v.code s
  else
    let S := s.sesCfg i
    andThen (State.writeDescs S.msgs 0 [writeMsg src Config.sdBlockLen] s)
      fun t => .next (.wait (.xfer S.bus S.msgs 1) [.wrXfer i src] t)

/-- SDI.WRBLK after BUS.XFER. -/
def resumeWrXfer (i : Nat) (src : Word) (v : Ret) (s : State) : Res Flow :=
  if v.code ≠ .noError then endWith v.code s
  else .next (.wait (.busWait (s.sesBus i)) [.wrWait i src] s)

/-- SDI.WRBLK after BUS.WAIT: the CRC-16 trailer, high byte first. -/
def resumeWrWait (i : Nat) (src : Word) (s : State) : Res Flow :=
  if (s.bus (s.sesBus i)).status ≠ .transferred then endWith .ioError s
  else
    s.needBacked src Config.sdBlockLen.toNat
      (let d := State.readBytes Config.sdBlockLen.toNat src s
       let c := crc16 d.1
       askByte i (c.extractLsb' 8 8) [.wrCrcHi i (c.extractLsb' 0 8)] d.2)

/-- SDI.WRBLK after the high byte of the trailer. -/
def resumeWrCrcHi (i : Nat) (lo : Byte) (v : Ret) (s : State) : Res Flow :=
  if v.code ≠ .noError then endWith v.code s else askByte i lo [.wrCrcLo i] s

/-- SDI.WRBLK after the low byte of the trailer: DataResp. -/
def resumeWrCrcLo (i : Nat) (v : Ret) (s : State) : Res Flow :=
  if v.code ≠ .noError then endWith v.code s else askByte i Config.sdFiller [.dataResp i 1, .wrResp i] s

/-- SDI.WRBLK after DataResp. -/
def resumeWrResp (i : Nat) (v : Ret) (s : State) : Res Flow :=
  if v.code ≠ .noError then endWith v.code s else startBusyWait i [.wrBusy v.byte] s

/-! ## Stops and register reads (44_sd_protocol.md R316 to R318) -/

/-- SDI.STOPR after CMD12. -/
def resumeStopCmd (i : Nat) (v : Ret) (s : State) : Res Flow :=
  if v.code = .noError ∧ s.cfg.stopStatusMode = .r1bThenCmd13 then startCmd i 13 0 .r2 false [] s
  else endWith v.code s

/-- SDI.STOPW after the stop token. -/
def resumeStopToken (i : Nat) (v : Ret) (s : State) : Res Flow :=
  if v.code ≠ .noError then endWith v.code s else startBusyWait i [] s

/-- SDI.RDREG after its command. -/
def resumeRegCmd (i : Nat) (dst : Word) (v : Ret) (s : State) : Res Flow :=
  if v.code ≠ .noError then endWith v.code s else startWaitToken i [.regToken i dst] s

/-- SDI.RDREG after WaitToken. -/
def resumeRegToken (i : Nat) (dst : Word) (v : Ret) (s : State) : Res Flow :=
  if v.code ≠ .noError then endWith v.code s else askByte i Config.sdFiller [.regByte i dst []] s

/-- SDI.RDREG after a register byte; `got` are the ones before it. -/
def resumeRegByte (i : Nat) (dst : Word) (got : List Byte) (v : Ret) (s : State) : Res Flow :=
  if v.code ≠ .noError then endWith v.code s
  else if got.length < 15 then askByte i Config.sdFiller [.regByte i dst (got ++ [v.byte])] s
  else askByte i Config.sdFiller [.regTail i dst (got ++ [v.byte]) 1] s

/-- SDI.RDREG after byte `n` of the block's CRC-16: the register's check and its reversed copy; `dst` 0 is written as any
address (log 41). -/
def resumeRegTail (i : Nat) (dst : Word) (w : List Byte) (n : Nat) (v : Ret) (s : State) : Res Flow :=
  if v.code ≠ .noError then endWith v.code s
  else if n < 2 then askByte i Config.sdFiller [.regTail i dst w (n + 1)] s
  else if registerOk w = false then endWith .crc s
  else s.needBacked dst w.length (endWith .noError (State.writeBytes dst w.reverse s))

/-! ## Initialisation (44_sd_protocol.md R319 to R326) -/

/-- Drives session `i`'s chip-select line (10_state.md R57). -/
def setSdCs (i : Nat) (v : Bool) (s : State) : State := s.setSes i { s.ses i with csAsserted := v }

/-- SD.INIT after dummy byte `n`. -/
def resumeInitDummy (i n : Nat) (v : Ret) (s : State) : Res Flow :=
  if v.code ≠ .noError then endWith v.code s
  else if n < Config.initDummyBytes then askByte i Config.sdFiller [.initDummy i (n + 1)] s
  else startCmd i 0 0 .r1 true [.initCmd0 i] (setSdCs i true s)

/-- SD.INIT after CMD0 (44_sd_protocol.md R320). -/
def resumeInitCmd0 (i : Nat) (v : Ret) (s : State) : Res Flow :=
  if v.code ≠ .noError then endWith v.code s
  else if v.byte ≠ 0x01 then endWith .sdInvalidCard s
  else startCmd i 8 Config.cmd8Arg .r7 true [.initCmd8 i] s

/-- SD.INIT after CMD8 (44_sd_protocol.md R321). -/
def resumeInitCmd8 (i : Nat) (v : Ret) (s : State) : Res Flow :=
  if v.code = .sdIllegalCmd then startCmd i 58 0 .r3 true [.v1Ocr i] s
  else if v.code ≠ .noError then endWith v.code s
  else if v.val.extractLsb' 0 12 ≠ Config.cmd8Arg.extractLsb' 0 12 then endWith .sdInvalidCard s
  else startCmd i 58 0 .r3 true [.v2Ocr i] s

/-- A pass of the V2 loop (44_sd_protocol.md R322). -/
def v2Pass (i : Nat) (k : List Frame) (s : State) : Res Flow := startCmd i 55 0 .r1 true (.v2App i :: k) s

/-- SD.INIT after CMD58 in the V2 branch (44_sd_protocol.md R322). -/
def resumeV2Ocr (i : Nat) (v : Ret) (s : State) : Res Flow :=
  if v.code ≠ .noError then endWith v.code s
  else if v.val &&& s.cfg.ocrVoltageMask = 0 then endWith .sdInvalidCard s
  else openWindow i s.cfg.timeoutInit [.v2Start i] (v2Pass i []) s

/-- SD.INIT after the V2 loop's window (44_sd_protocol.md R322). -/
def resumeV2End (i : Nat) (v : Ret) (s : State) : Res Flow :=
  if v.code ≠ .noError then endWith v.code s else startCmd i 58 0 .r3 false [.v2Ccs i] s

/-- The exit of the V2 loop with code `c` (44_sd_protocol.md R322). -/
def exitV2 (i : Nat) (c : Code) (s : State) : Res Flow := closeWindow i (.ofCode c) [.v2End i] (resumeV2End i) s

/-- The V2 loop after CMD55. -/
def resumeV2App (i : Nat) (v : Ret) (s : State) : Res Flow :=
  if v.code ≠ .noError then exitV2 i v.code s else startCmd i 41 Config.acmd41HcsArg .r1 true [.v2Acmd i] s

/-- The V2 loop after ACMD41. -/
def resumeV2Acmd (i : Nat) (v : Ret) (s : State) : Res Flow :=
  if v.code ≠ .noError then exitV2 i v.code s
  else if v.byte.getLsbD 0 = false then exitV2 i .noError s
  else if (s.ses i).expired then exitV2 i .timeout s
  else v2Pass i [] s

/-- Type assignment, then the CID read (44_sd_protocol.md R324, R325). -/
def assignType (i : Nat) (t : CardType) (s : State) : Res Flow :=
  startRdReg i 10 (s.sesCfg i).regbuf [.initCid i] (s.setSes i { s.ses i with cardType := t })

/-- SD.INIT after the V2 branch's last CMD58 (44_sd_protocol.md R322). -/
def resumeV2Ccs (i : Nat) (v : Ret) (s : State) : Res Flow :=
  if v.code ≠ .noError then endWith v.code s
  else assignType i (if v.val.getLsbD 30 then .sdhcSdxc else .sdscV2) s

/-- SD.INIT after CMD58 in the V1 branch (44_sd_protocol.md R323). -/
def resumeV1Ocr (i : Nat) (v : Ret) (s : State) : Res Flow :=
  if v.code ≠ .noError then endWith v.code s
  else if v.val &&& s.cfg.ocrVoltageMask = 0 then endWith .sdInvalidCard s
  else startCmd i 55 0 .r1 true [.v1App i] s

/-- SD.INIT after the V1 branch's window (44_sd_protocol.md R323). -/
def resumeV1End (i : Nat) (t : CardType) (v : Ret) (s : State) : Res Flow :=
  if v.code ≠ .noError then endWith v.code s else assignType i t s

/-- The exit of the V1 loop with code `c` (44_sd_protocol.md R323). -/
def exitV1 (i : Nat) (t : CardType) (c : Code) (s : State) : Res Flow :=
  closeWindow i (.ofCode c) [.v1End i t] (resumeV1End i t) s

/-- The top of the V1 loop; `r1` is the last R1 (44_sd_protocol.md R323). -/
def v1Pass (i : Nat) (t : CardType) (r1 : Byte) (k : List Frame) (s : State) : Res Flow :=
  if t = .sdscV1 then
    if r1.getLsbD 0 = false then exitV1 i t .noError s
    else if (s.ses i).expired then exitV1 i t .timeout s
    else startCmd i 55 0 .r1 true (.v1LoopApp i :: k) s
  else startCmd i 1 0 .r1 true (.v1LoopMmc i :: k) s

/-- The probe's outcome: MMC or SDSCv1, then the loop's window (44_sd_protocol.md R323). -/
def resumeV1Probe (i : Nat) (v : Ret) (s : State) : Res Flow :=
  if v.code = .sdIllegalCmd then
    openWindow i s.cfg.timeoutInit [.v1Start i .mmc v.byte] (v1Pass i .mmc v.byte []) s
  else if v.code ≠ .noError then endWith v.code s
  else openWindow i s.cfg.timeoutInit [.v1Start i .sdscV1 v.byte] (v1Pass i .sdscV1 v.byte []) s

/-- SD.INIT after the V1 branch's first CMD55 (44_sd_protocol.md R323). -/
def resumeV1App (i : Nat) (v : Ret) (s : State) : Res Flow :=
  if v.code = .noError then startCmd i 41 0 .r1 true [.v1Probe i] s else resumeV1Probe i v s

/-- The SDSCv1 loop after CMD55. -/
def resumeV1LoopApp (i : Nat) (v : Ret) (s : State) : Res Flow :=
  if v.code ≠ .noError then exitV1 i .sdscV1 v.code s else startCmd i 41 0 .r1 true [.v1LoopAcmd i] s

/-- The SDSCv1 loop after ACMD41. -/
def resumeV1LoopAcmd (i : Nat) (v : Ret) (s : State) : Res Flow :=
  if v.code ≠ .noError then exitV1 i .sdscV1 v.code s else v1Pass i .sdscV1 v.byte [] s

/-- The MMC loop after CMD1. -/
def resumeV1LoopMmc (i : Nat) (v : Ret) (s : State) : Res Flow :=
  if v.code ≠ .noError then exitV1 i .mmc v.code s
  else if v.byte.getLsbD 0 = false then exitV1 i .mmc .noError s
  else if (s.ses i).expired then exitV1 i .mmc .timeout s
  else v1Pass i .mmc v.byte [] s

/-- SD.INIT after the CID read (44_sd_protocol.md R325). -/
def resumeInitCid (i : Nat) (v : Ret) (s : State) : Res Flow :=
  if v.code ≠ .noError then endWith v.code s
  else
    let buf := (s.sesCfg i).regbuf
    s.needBacked buf 16
      (let r := State.readBytes 16 buf s
       startRdReg i 9 buf [.initCsd i] (r.2.setSes i { r.2.ses i with cid := regOfBytes r.1 }))

/-- The last act of a successful SD.INIT (44_sd_protocol.md R326). -/
def initDone (i : Nat) (s : State) : Res Flow :=
  endWith .noError (s.setSes i { s.ses i with initialized := true })

/-- Finalisation after the block length (44_sd_protocol.md R326). -/
def finalise (i : Nat) (s : State) : Res Flow :=
  let t := s.setSes i
    { s.ses i with blockLen := Config.sdBlockLen.setWidth 16, eraseSize := BitVec.ofNat 32 (eraseSizeOf (s.ses i)) }
  if (t.ses i).crcEnabled then startCmd i 59 1 .r1 false [.initCrc i] t else initDone i t

/-- SD.INIT after the CSD read (44_sd_protocol.md R325, R326). -/
def resumeInitCsd (i : Nat) (v : Ret) (s : State) : Res Flow :=
  if v.code ≠ .noError then endWith v.code s
  else
    let buf := (s.sesCfg i).regbuf
    s.needBacked buf 16
      (let r := State.readBytes 16 buf s
       let t := r.2.setSes i { r.2.ses i with csd := regOfBytes r.1 }
       if (t.ses i).cardType ≠ .sdhcSdxc then startCmd i 16 Config.sdBlockLen .r1 false [.initBlkLen i] t
       else finalise i t)

/-- SD.INIT after CMD16. -/
def resumeInitBlkLen (i : Nat) (v : Ret) (s : State) : Res Flow :=
  if v.code ≠ .noError then endWith v.code s else finalise i s

/-- SD.INIT after CMD59. -/
def resumeInitCrc (i : Nat) (v : Ret) (s : State) : Res Flow :=
  if v.code ≠ .noError then endWith v.code s else initDone i s

/-- The exit lines of SD.INIT (44_sd_protocol.md R319, R329; log 25). -/
def resumeInitExit (i : Nat) (v : Ret) (s : State) : Res Flow :=
  endWith v.code (setSpeed (s.sesBus i) .high (setSdCs i false s)).2

/-! ## Data operations (44_sd_protocol.md R310, R333 to R337, R345) -/

/-- `SdEnd(s)` (44_sd_protocol.md R310). -/
def resumeSdEnd (i : Nat) (v : Ret) (s : State) : Res Flow := endWith v.code (setSdCs i false s)

/-- SD.READ1 after its command (44_sd_protocol.md R333). -/
def resumeReadCmd (i : Nat) (dst : Word) (v : Ret) (s : State) : Res Flow :=
  if v.code ≠ .noError then endWith v.code s else startRdBlk i dst Config.sdBlockLen (s.ses i).crcEnabled [] s

/-- SD.WRITE1 after its command (44_sd_protocol.md R334). -/
def resumeWriteCmd (i : Nat) (src : Word) (v : Ret) (s : State) : Res Flow :=
  if v.code ≠ .noError then endWith v.code s else startWrBlk i src 0xFE [] s

/-- The buffer of block `n` (44_sd_protocol.md R335, R337). -/
def blockAddr (buf : Word) (n : Nat) : Word := buf + 512 * BitVec.ofNat 32 n

/-- The loop of SD.READN (44_sd_protocol.md R335). -/
def readnLoop (i : Nat) (sector count dst : Word) (n : Nat) (s : State) : Res Flow :=
  if n < count.toNat then
    startRdBlk i (blockAddr dst n) Config.sdBlockLen (s.ses i).crcEnabled [.readnBlk i sector count dst n] s
  else startStopR i [.readnStop i .noError sector n] s

/-- SD.READN after its command (44_sd_protocol.md R335). -/
def resumeReadnCmd (i : Nat) (sector count dst : Word) (v : Ret) (s : State) : Res Flow :=
  if v.code ≠ .noError then endWith v.code s else readnLoop i sector count dst 0 s

/-- SD.READN after block `n` (44_sd_protocol.md R335). -/
def resumeReadnBlk (i : Nat) (sector count dst : Word) (n : Nat) (v : Ret) (s : State) : Res Flow :=
  if v.code ≠ .noError then startStopR i [.readnStop i v.code sector n] s
  else readnLoop i sector count dst (n + 1) s

/-- SD.READN after the stop (44_sd_protocol.md R335, R336). -/
def resumeReadnStop (i : Nat) (eb : Code) (sector : Word) (n : Nat) (v : Ret) (s : State) : Res Flow :=
  endWith (readNResult eb v.code (sector.toNat + n == sectorCount (s.ses i))) s

/-- The loop of SD.WRITEN (44_sd_protocol.md R337). -/
def writenLoop (i : Nat) (count src : Word) (n : Nat) (s : State) : Res Flow :=
  if n < count.toNat then startWrBlk i (blockAddr src n) 0xFC [.writenBlk i count src n] s
  else startStopW i [.writenStop .noError] s

/-- SD.WRITEN after its command (44_sd_protocol.md R337). -/
def resumeWritenCmd (i : Nat) (count src : Word) (v : Ret) (s : State) : Res Flow :=
  if v.code ≠ .noError then endWith v.code s else writenLoop i count src 0 s

/-- SD.WRITEN after block `n` (44_sd_protocol.md R337). -/
def resumeWritenBlk (i : Nat) (count src : Word) (n : Nat) (v : Ret) (s : State) : Res Flow :=
  if v.code ≠ .noError then startStopW i [.writenStop v.code] s else writenLoop i count src (n + 1) s

/-- SD.WRITEN after the stop (44_sd_protocol.md R337, R338). -/
def resumeWritenStop (eb : Code) (v : Ret) (s : State) : Res Flow := endWith (firstCode eb v.code) s

/-- SD.SETCRC after SdEnd (44_sd_protocol.md R345). -/
def resumeSetCrc (i : Nat) (en : Bool) (v : Ret) (s : State) : Res Flow :=
  if v.code ≠ .noError then endWith v.code s
  else endWith .noError (s.setSes i { s.ses i with crcEnabled := en })

/-! ## The frames -/

/-- Goes on at a frame with the value `v` its callee handed back. -/
def resume (f : Frame) (v : Ret) (s : State) : Res Flow :=
  match f with
  | .script rest => resumeScript rest v s
  | .windowEnd i w => .next (.ret w (shutWindow i s))
  | .finish k => .next (.ret v (s.setRet (finishResult k v)))
  | .r1Poll i n => resumeR1Poll i n v s
  | .cmdSend i index arg shape ai n => resumeCmdSend i index arg shape ai n v s
  | .cmdStuff i shape ai => resumeCmdStuff i shape ai v s
  | .cmdR1 i shape ai => resumeCmdR1 i shape ai v s
  | .cmdBusy r1 ai => .next (.ret { code := firstCode (decodeStatus r1 0 ai) v.code, byte := r1, val := 0 } s)
  | .cmdStatus r1 ai => resumeCmdStatus r1 ai v s
  | .cmdPayload i r1 ai got => resumeCmdPayload i r1 ai got v s
  | .busyStart i => busyLoop i [] s
  | .busyPoll i => resumeBusyPoll i v s
  | .tokenStart i => tokenLoop i [] s
  | .tokenPoll i => resumeTokenPoll i v s
  | .rdToken i dst n check => resumeRdToken i dst n check v s
  | .rdXfer i dst n check => resumeRdXfer i dst n check v s
  | .rdWait i dst n check => resumeRdWait i dst n check s
  | .dataResp i n => resumeDataResp i n v s
  | .wrToken i src => resumeWrToken i src v s
  | .wrXfer i src => resumeWrXfer i src v s
  | .wrWait i src => resumeWrWait i src s
  | .wrCrcHi i lo => resumeWrCrcHi i lo v s
  | .wrCrcLo i => resumeWrCrcLo i v s
  | .wrResp i => resumeWrResp i v s
  | .wrBusy sss => endWith (writeResult sss v.code) s
  | .stopCmd i => resumeStopCmd i v s
  | .stopToken i => resumeStopToken i v s
  | .regCmd i dst => resumeRegCmd i dst v s
  | .regToken i dst => resumeRegToken i dst v s
  | .regByte i dst got => resumeRegByte i dst got v s
  | .regTail i dst w n => resumeRegTail i dst w n v s
  | .initDummy i n => resumeInitDummy i n v s
  | .initCmd0 i => resumeInitCmd0 i v s
  | .initCmd8 i => resumeInitCmd8 i v s
  | .v2Ocr i => resumeV2Ocr i v s
  | .v2Start i => v2Pass i [] s
  | .v2App i => resumeV2App i v s
  | .v2Acmd i => resumeV2Acmd i v s
  | .v2End i => resumeV2End i v s
  | .v2Ccs i => resumeV2Ccs i v s
  | .v1Ocr i => resumeV1Ocr i v s
  | .v1App i => resumeV1App i v s
  | .v1Probe i => resumeV1Probe i v s
  | .v1Start i t r1 => v1Pass i t r1 [] s
  | .v1LoopApp i => resumeV1LoopApp i v s
  | .v1LoopAcmd i => resumeV1LoopAcmd i v s
  | .v1LoopMmc i => resumeV1LoopMmc i v s
  | .v1End i t => resumeV1End i t v s
  | .initCid i => resumeInitCid i v s
  | .initCsd i => resumeInitCsd i v s
  | .initBlkLen i => resumeInitBlkLen i v s
  | .initCrc i => resumeInitCrc i v s
  | .initExit i => resumeInitExit i v s
  | .sdEnd i => resumeSdEnd i v s
  | .readCmd i dst => resumeReadCmd i dst v s
  | .writeCmd i src => resumeWriteCmd i src v s
  | .readnCmd i sector count dst => resumeReadnCmd i sector count dst v s
  | .readnBlk i sector count dst n => resumeReadnBlk i sector count dst n v s
  | .readnStop i eb sector n => resumeReadnStop i eb sector n v s
  | .writenCmd i count src => resumeWritenCmd i count src v s
  | .writenBlk i count src n => resumeWritenBlk i count src n v s
  | .writenStop eb => resumeWritenStop eb v s
  | .setCrc i en => resumeSetCrc i en v s

/-- Returns the value `v` into the frames, innermost first, until one must wait or FG is idle again. -/
def unwind : List Frame → Ret → State → Res State
  | [], _, s => .next (s.setFg .idle)
  | f :: k, v, s =>
    match resume f v s with
    | .next (.ret w t) => unwind k w t
    | .next (.wait p fs t) => .next (t.setFg (.busy p (fs ++ k)))
    | .fault e => .fault e
    | .refused e => .refused e

/-! ## Operations that a timeout callback issues (44_sd_protocol.md R311, log 46) -/

/-- The session a frame belongs to. -/
def Frame.session : Frame → Option Nat
  | .script _ | .finish _ | .cmdBusy _ _ | .cmdStatus _ _ | .wrBusy _ | .writenStop _ => none
  | .windowEnd i _ | .r1Poll i _ | .cmdSend i _ _ _ _ _ | .cmdStuff i _ _ | .cmdR1 i _ _ | .cmdPayload i _ _ _
  | .busyStart i | .busyPoll i | .tokenStart i | .tokenPoll i => some i
  | .rdToken i _ _ _ | .rdXfer i _ _ _ | .rdWait i _ _ _ => some i
  | .dataResp i _ | .wrToken i _ | .wrXfer i _ | .wrWait i _ | .wrCrcHi i _ | .wrCrcLo i | .wrResp i => some i
  | .stopCmd i | .stopToken i | .regCmd i _ | .regToken i _ | .regByte i _ _ | .regTail i _ _ _ => some i
  | .initDummy i _ | .initCmd0 i | .initCmd8 i | .v2Ocr i | .v2Start i | .v2App i | .v2Acmd i | .v2End i | .v2Ccs i
  | .v1Ocr i | .v1App i | .v1Probe i | .v1Start i _ _ | .v1LoopApp i | .v1LoopAcmd i | .v1LoopMmc i | .v1End i _
  | .initCid i | .initCsd i | .initBlkLen i | .initCrc i | .initExit i => some i
  | .sdEnd i | .readCmd i _ | .writeCmd i _ | .readnCmd i _ _ _ | .readnBlk i _ _ _ _ | .readnStop i _ _ _
  | .writenCmd i _ _ | .writenBlk i _ _ _ | .setCrc i _ => some i

/-- The session whose timeout window an operation would open: none for one that its own argument checks turn away first
(44_sd_protocol.md R331), or whose rule opens no window (SD.SETCRC, SDI.R1POLL, SDI.CMD without an
R1b reply). -/
def windowSession (s : State) : Instr → Option Nat
  | .sdInit x | .sdiBusyWait x | .sdiRdBlk x _ _ _ | .sdiWrBlk x _ _ | .sdiStopR x | .sdiStopW x => some x.toNat
  | .sdRead1 x sector buf | .sdWrite1 x sector buf =>
    if dataArgs (s.ses x.toNat) buf sector 1 = none then some x.toNat else none
  | .sdReadN x sector count buf | .sdWriteN x sector count buf =>
    if dataArgs (s.ses x.toNat) buf sector count = none then some x.toNat else none
  | .sdiRdReg x _ _ => some x.toNat
  | .sdiCmd x _ _ shape _ => if shape = .r1b then some x.toNat else none
  | .sdSetCrc _ _ | .sdiR1Poll _ => none
  | .futInit _ | .futStart _ | .futFinish _ _ | .futRunning _ | .futDone _ | .futResult _ | .futWait _
  | .futSetResult _ _ => none
  | .busInit _ | .busSetId _ _ | .busId _ | .busXfer _ _ _ | .busXmit _ _ _ | .busWait _ | .busStatus _ | .busErrors _
  | .busBusy _ | .busSetCb _ _ | .busSetTxDef _ _ | .busSetSpeed _ _ => none
  | .irqSpi _ | .irqDmaRx _ | .irqDmaTx _ | .dmaTryLock _ | .dmaUnlock _ => none
  | .sdSectors _ | .sdType _ | .sdInited _ | .sdBlkLen _ | .sdEraseSz _ | .sdCid _ _ | .sdCsd _ _ | .sdCrcEn _ => none
  | .sdiCrc7 _ _ | .sdiCrc16 _ _ | .sdiFrame _ _ | .sdiDecode _ _ _ | .sdiErrTok _ => none
  | .adpBegin _ _ | .adpSync _ _ | .adpComplete _ | .adpDispatch _ => none

/-- Whether operation `op` would open a window of a session that FG, at the frames `k`, is already inside. -/
def reenters (k : List Frame) (op : Instr) (s : State) : Bool :=
  match windowSession s op with
  | some i => k.any (fun f => f.session == some i)
  | none => false

/-- The end with E_BUSY, and nothing else changed, of an operation that would open a window of a session FG is already
inside; SDI.CMD's reply values are free (log 23, log 46). -/
def turnAway (op : Instr) (s : State) : State :=
  match op with
  | .sdiCmd _ _ _ _ _ =>
    let r := s.drawByte
    let w := r.2.drawWord
    w.2.setRet (.reply .busy r.1 w.1)
  | _ => s.setRet (.code .busy)

/-! ## Entering a procedure -/

/-- Enters a procedure from an operation. -/
def enterFlow (r : Res Flow) : Res State :=
  match r with
  | .next (.ret _ t) => .next (t.setFg .idle)
  | .next (.wait p fs t) => .next (t.setFg (.busy p fs))
  | .fault e => .fault e
  | .refused e => .refused e

end Sys2Proof.Machine
end

