-- ==== Sys2Proof/Machine/Agents.lean ====
section
/-! DEFINITION. One step of each agent: the datapath of a bus (42_spi_events.md R235, R236), the environment (R221;
10_state.md R48, R62), the interrupt context (R220), the host's own accesses, and FG (00_scope.md R12). A turn of an
agent that has no step leaves the machine as it is (log 32). -/

namespace Sys2Proof.Machine

/-! ## DP -/

/-- The channels the current message of bus `b` needs. -/
def State.currentNeed (s : State) (b : Nat) : ChanSet := need (s.busCfg b).mode (s.current b).dir

/-- Whether DP of bus `b` has a step (42_spi_events.md R235). -/
def dpReady (s : State) (b : Nat) : Bool :=
  decide (b < s.numBuses) && s.busy b && decide ((s.bus b).pos.toNat < (s.current b).size.toNat)
    && (!(s.currentNeed b).rx || (s.chan (s.busCfg b).rxCh).en)
    && (!(s.currentNeed b).tx || (s.chan (s.busCfg b).txCh).en)

/-- The frame DP sends at position `k` of message `m`; a source byte that software wrote in flight gives a free
byte (42_spi_events.md R236, 20_memory.md R82, R96 (b)). -/
def sourceFrame (b : Nat) (m : Msg) (k : Word) (s : State) : Byte × State :=
  if m.tx = 0 then ((s.bus b).txDefault, s)
  else if s.dirty.contains (b, (m.tx + k).toNat) then s.drawByte
  else (s.mem.read (m.tx + k), s)

/-- The frame exchange of a DP step: HALF_DUPLEX_RX sends no frame (42_spi_events.md R236, log 36). -/
def dpExchange (b : Nat) (m : Msg) (k : Word) (s : State) : Byte × State :=
  if (s.busCfg b).mode = .halfDuplexRx then s.takeAnswer b
  else
    let t := sourceFrame b m k s
    exchange b t.1 t.2

/-- The byte DP stores at address `a` for bus `b`: the one received, or a draw where software wrote to that destination
byte during the transfer (42_spi_events.md R236, 70_reset_and_hazards.md R460, log 11). -/
def storedByte (b : Nat) (a : Word) (r : Byte × State) : Byte × State :=
  if r.2.dirty.contains (b, a.toNat) then r.2.drawByte else r

/-- A channel after one frame of the current message; `last` at its last frame (42_spi_events.md R236). -/
def Chan.moved (c : Chan) (last : Bool) : Chan := { c with cnt := c.cnt - 1, tc := c.tc || last }

/-- The counters after one frame (42_spi_events.md R236). -/
def countFrame (b : Nat) (n : ChanSet) (size : Word) (s : State) : State :=
  let k := (s.bus b).pos + 1
  let last := k == size
  let rx := (s.busCfg b).rxCh
  let tx := (s.busCfg b).txCh
  let s1 := s.setBus b { s.bus b with pos := k }
  let s2 := if n.rx then s1.setChan rx ((s1.chan rx).moved last) else s1
  if n.tx then s2.setChan tx ((s2.chan tx).moved last) else s2

/-- Whether memory backs the bytes that the next frame of bus `b` reads and writes (20_memory.md R81). -/
def State.frameBacked (s : State) (b : Nat) : Bool :=
  let m := s.current b
  let k := (s.bus b).pos
  (m.tx == 0 || s.backed (m.tx + k)) && (m.rx == 0 || s.backed (m.rx + k))

/-- The DP step of bus `b`: one frame (42_spi_events.md R236). -/
def dpFrame (b : Nat) (s : State) : State :=
  let m := s.current b
  let k := (s.bus b).pos
  let r := dpExchange b m k s
  let w := storedByte b (m.rx + k) r
  countFrame b (s.currentNeed b) m.size (if m.rx = 0 then r.2 else w.2.storeByte (m.rx + k) w.1)

/-- A turn of DP; at a frame with an unbacked byte it is stuck, with no step until an error has ended that transfer
(20_memory.md R81, 42_spi_events.md R235, log 22). -/
def dpTurn (b : Nat) (s : State) : Res State := .next (if dpReady s b && s.frameBacked b then dpFrame b s else s)

/-! ## ENV -/

/-- Whether ENV may raise an SPI error flag of bus `b` (42_spi_events.md R221). -/
def State.mayRaise (s : State) (b : Nat) : Bool := decide (b < s.numBuses) && s.busy b

/-- ENV raises an overrun (42_spi_events.md R221). -/
def envOvr (b : Nat) (s : State) : State := if s.mayRaise b then s.setBus b { s.bus b with ovr := true } else s

/-- ENV raises a mode fault (42_spi_events.md R221). -/
def envModf (b : Nat) (s : State) : State := if s.mayRaise b then s.setBus b { s.bus b with modf := true } else s

/-- ENV raises an SPI CRC error (42_spi_events.md R221, R223). -/
def envCrcErr (b : Nat) (s : State) : State := if s.mayRaise b then s.setBus b { s.bus b with crcerr := true } else s

/-- ENV raises a DMA transfer error (42_spi_events.md R221). -/
def envTe (c : Nat) (s : State) : State :=
  if c < s.cfg.numDmaCh ∧ (s.chan c).en = true then s.setChan c { s.chan c with te := true } else s

/-- ENV expires the timeout window of session `i` (10_state.md R62). -/
def envExpire (i : Nat) (s : State) : State :=
  if i < s.cfg.sessions.length ∧ (s.ses i).winOpen = true ∧ (s.sesCfg i).timeoutBegin ≠ 0 then
    s.setSes i { s.ses i with expired := true }
  else s

/-- ENV takes a free DMA lock (10_state.md R48, log 29). -/
def envLock (c : Nat) (s : State) : State :=
  if c < s.cfg.numDmaCh ∧ s.lock c = false then (s.setLock c true).setExt c true else s

/-- ENV releases a DMA lock it took (70_reset_and_hazards.md R462, log 29). -/
def envUnlock (c : Nat) (s : State) : State :=
  if s.extLock c = true then (s.setLock c false).setExt c false else s

/-! ## ISR -/

/-- Whether the interrupt of a channel of bus `b` is pending and enabled (42_spi_events.md R220). -/
def State.chanPending (s : State) (b c : Nat) : Bool := decide (b < s.numBuses) && (s.chan c).pending

/-- A turn of IRQ.SPI's handler (42_spi_events.md R220). -/
def irqSpiTurn (b : Nat) (s : State) : Res State :=
  if decide (b < s.numBuses) && s.spiPending b then takeInterrupt (spiHandler b) s else .next s

/-- A turn of IRQ.DMARX's handler (42_spi_events.md R220). -/
def irqRxTurn (b : Nat) (s : State) : Res State :=
  if s.chanPending b (s.busCfg b).rxCh then takeInterrupt (rxHandler b) s else .next s

/-- A turn of IRQ.DMATX's handler (42_spi_events.md R220). -/
def irqTxTurn (b : Nat) (s : State) : Res State :=
  if s.chanPending b (s.busCfg b).txCh then takeInterrupt (txHandler b) s else .next s

/-! ## FG -/

/-- The value an exchange hands back to its procedure. -/
def xchgRet (r : Code × Byte × State) : Ret := { code := r.1, byte := r.2.1, val := 0 }

/-- FG's next step inside an operation; `ex` is what an operation does when FG issues it (00_scope.md R12). A callback
that does not return keeps FG where it is (60_exceptions.md R415, log 39), and one that issues an operation that would
open a window of a session FG is inside has it turned away (log 46). -/
def performAct (ex : Instr → State → Res State) (p : Pending) (k : List Frame) (s : State) : Res State :=
  match p with
  | .xchg b t => withBus b s (unwind k (xchgRet (xmit b t s)) (xmit b t s).2.2)
  | .xfer b d n => withBus b s (unwind k (.ofCode (startXfer b d n s).1) (startXfer b d n s).2)
  | .busWait b =>
    withBus b s (if (s.bus b).status = .transferring then .next s else unwind k (.ofCode .noError) s)
  | .futWait f => if (s.fut f).running then .next s else unwind k (.ofValue (s.fut f).result) s
  | .enter i =>
    if reenters k i s then unwind k (.ofCode .noError) (turnAway i s)
    else andThen (ex i (s.setFg .idle)) fun t =>
      match t.fg with
      | .idle => unwind k (.ofCode .noError) t
      | .busy q fs => .next (t.setFg (.busy q (fs ++ k)))
  | .hang => .next s

/-- Why the decoder's refusal refuses the step (30_encoding.md R132). -/
def refusalOf : Reject → Refusal
  | .reservedOpcode => .reservedOpcode
  | .operandTooWide => .operandTooWide
  | .truncated => .truncatedOperation

/-- FG issues the next operation of its program; FG with no operation left has no step (30_encoding.md R110, R132). -/
def issueNext (ex : Instr → State → Res State) (s : State) : Res State :=
  if s.prog = [] then .next s
  else
    match decode s.prog with
    | .ok (i, rest) => ex i (s.setProg rest)
    | .error e => .refused (refusalOf e)

/-- A turn of FG. -/
def fgTurn (ex : Instr → State → Res State) (s : State) : Res State :=
  match s.fg with
  | .idle => issueNext ex s
  | .busy p k => performAct ex p k s

/-- A turn of the host's own accesses: only between operations. -/
def hostTurn (x : Access) (s : State) : Res State := if s.fg = .idle then hostAccess x s else .next s

/-! ## Every agent -/

/-- The step of the agent whose turn it is. -/
def agentStep (ex : Instr → State → Res State) (t : Turn) (s : State) : Res State :=
  match t with
  | .fg => fgTurn ex s
  | .host x => hostTurn x s
  | .irqSpi b => irqSpiTurn b s
  | .irqDmaRx b => irqRxTurn b s
  | .irqDmaTx b => irqTxTurn b s
  | .dp b => dpTurn b s
  | .envOvr b => .next (envOvr b s)
  | .envModf b => .next (envModf b s)
  | .envCrcErr b => .next (envCrcErr b s)
  | .envTe c => .next (envTe c s)
  | .envExpire i => .next (envExpire i s)
  | .envLock c => .next (envLock c s)
  | .envUnlock c => .next (envUnlock c s)

/-- The agent a turn moves (00_scope.md R3); the host's own code is FG's. -/
def turnAgent : Turn → Agent
  | .fg | .host _ => .fg
  | .irqSpi _ | .irqDmaRx _ | .irqDmaTx _ => .isr
  | .dp b => .dp b
  | .envOvr _ | .envModf _ | .envCrcErr _ | .envTe _ | .envExpire _ | .envLock _ | .envUnlock _ => .env

/-- Whether agent `a` has no step any more: it raised a fault (60_exceptions.md R414), or some step does not end
(R415, log 39). -/
def State.stopped (s : State) (a : Agent) : Bool := s.hung || s.faults.any (fun x => x.1 == a)

/-- What the step of agent `a` from state `s` leaves: a fault is kept and stops the agent, with no other effect of that
step (60_exceptions.md R414, log 34), as does an unbacked access of FG or ISR (20_memory.md R81, log 22); a callback that
does not return makes it a step that does not end (R415, log 39). -/
def settle (a : Agent) (s : State) (r : Res State) : Res State :=
  match r with
  | .next t => .next t
  | .fault e => .next (if e = .callbackHang then s.setHung true else s.setFaults (s.faults ++ [(a, e)]))
  | .refused e => .refused e

/-- A turn: a stopped agent has no step (60_exceptions.md R414). -/
def takeStep (ex : Instr → State → Res State) (t : Turn) (s : State) : Res State :=
  if s.stopped (turnAgent t) then .next s else settle (turnAgent t) s (agentStep ex t s)

/-- One step of the machine with `ex` as the operations' meaning: a refused configuration has no step; else the next
turn is taken. -/
def stepWith (ex : Instr → State → Res State) (s : State) : Res State :=
  match configRefusal s.cfg with
  | some r => .refused r
  | none => takeStep ex s.takeTurn.1 s.takeTurn.2

/-- The operation word placed where FG issues its next operation, with FG idle, able to step, and its turn next
(log 7). -/
def placeWord (bytes : List Byte) (s : State) : State :=
  ((((s.setFg .idle).setProg (bytes ++ s.prog)).setTurns (.fg :: s.turns)).setFaults
    (s.faults.filter (fun x => x.1 != .fg))).setHung false

end Sys2Proof.Machine
end

