-- ==== Sys2Proof/Machine/Sd.lean ====
section
/-! DEFINITION. The SD operations that exchange bytes, up to their first exchange (43_sd_framing.md R264, R265, R271;
44_sd_protocol.md R310, R313 to R319, R331, R333 to R337, R345). -/

namespace Sys2Proof.Machine

/-- Goes on for a session that exists, outside ISR context, on a bus that has been through BUS.INIT (60_exceptions.md
R414, 70_reset_and_hazards.md R455, log 16). -/
def withSdSession {α : Type} (i : Nat) (s : State) (k : Res α) : Res α :=
  withSession i s (if s.isr then .fault .sdInInterrupt else withBus (s.sesBus i) s k)

/-- Goes on for a session whose bus is FULL_DUPLEX (44_sd_protocol.md R310, log 17). -/
def withSdBus {α : Type} (i : Nat) (s : State) (k : Res α) : Res α :=
  if (s.busCfg (s.sesBus i)).mode ≠ .fullDuplex then .fault .sdBusMode else k

/-- `SdBegin(s)` after the mode check (44_sd_protocol.md R310). -/
def sdBegin (i : Nat) (s : State) : Code × State :=
  let r := setTransferId (s.sesBus i) (s.sesCfg i).sdId s
  if r.1 = .noError then (.noError, setSdCs i true r.2) else (.busy, s)

/-- An SD operation between SdBegin and SdEnd; `start` is its first procedure (44_sd_protocol.md R310). -/
def claimed (i : Nat) (start : State → Res Flow) (s : State) : Res State :=
  withSdBus i s
    (let r := sdBegin i s
     if r.1 = .noError then enterFlow (start r.2) else .next (s.setRet (.code r.1)))

/-- An SDI operation issued on its own; `start` is its procedure. -/
def unclaimed (i : Nat) (start : State → Res Flow) (s : State) : Res State :=
  withSdSession i s (withSdBus i s (enterFlow (start s)))

/-- A data operation: the argument checks, then the claim (44_sd_protocol.md R331). -/
def dataOp (i : Nat) (buf sector count : Word) (start : State → Res Flow) (s : State) : Res State :=
  withSdSession i s
    (match dataArgs (s.ses i) buf sector count with
     | some c => .next (s.setRet (.code c))
     | none => claimed i start s)

/-- The address argument of a data command (44_sd_protocol.md R330). -/
def State.sectorArg (s : State) (i : Nat) (sector : Word) : Word := dataAddr (s.ses i).cardType sector

/-! ## SD.INIT -/

/-- The session after the entry of SD.INIT (44_sd_protocol.md R319, 70_reset_and_hazards.md R454). -/
def Session.fresh (x : Session) : Session :=
  { x with cardType := .unknown, initialized := false, cid := 0, csd := 0, blockLen := 0, eraseSize := 0 }

/-- SD.INIT from its claim to the first dummy byte (44_sd_protocol.md R319). -/
def initStart (i : Nat) (s : State) : Res State :=
  let t := s.setSes i (s.ses i).fresh
  let r := setSpeed (s.sesBus i) .low t
  if r.1 = .noError then
    enterFlow (askByte i Config.sdFiller [.initDummy i 1, .initExit i, .finish .code] (setSdCs i false r.2))
  else unwind [.initExit i, .finish .code] (.ofCode r.1) t

/-- SD.INIT (44_sd_protocol.md R319). -/
def execSdInit (x : Word) (s : State) : Res State :=
  let i := x.toNat
  withSdSession i s
    (withSdBus i s
      (let r := setTransferId (s.sesBus i) (s.sesCfg i).sdId s
       if r.1 = .noError then initStart i r.2 else .next (s.setRet (.code .busy))))

/-! ## Data operations -/

/-- SD.READ1 (44_sd_protocol.md R333). -/
def execSdRead1 (x sector dst : Word) (s : State) : Res State :=
  let i := x.toNat
  dataOp i dst sector 1
    (startCmd i 17 (s.sectorArg i sector) .r1 false [.readCmd i dst, .sdEnd i, .finish .code]) s

/-- SD.READN (44_sd_protocol.md R335). -/
def execSdReadN (x sector count dst : Word) (s : State) : Res State :=
  let i := x.toNat
  dataOp i dst sector count
    (startCmd i 18 (s.sectorArg i sector) .r1 false [.readnCmd i sector count dst, .sdEnd i, .finish .code]) s

/-- SD.WRITE1 (44_sd_protocol.md R334). -/
def execSdWrite1 (x sector src : Word) (s : State) : Res State :=
  let i := x.toNat
  dataOp i src sector 1
    (startCmd i 24 (s.sectorArg i sector) .r1 false [.writeCmd i src, .sdEnd i, .finish .code]) s

/-- SD.WRITEN (44_sd_protocol.md R337). -/
def execSdWriteN (x sector count src : Word) (s : State) : Res State :=
  let i := x.toNat
  dataOp i src sector count
    (startCmd i 25 (s.sectorArg i sector) .r1 false [.writenCmd i count src, .sdEnd i, .finish .code]) s

/-- SD.SETCRC (44_sd_protocol.md R345). -/
def execSdSetCrc (x : Word) (en : Bool) (s : State) : Res State :=
  let i := x.toNat
  withSdSession i s
    (if (s.ses i).initialized = false then
      .next ((s.setSes i { s.ses i with crcEnabled := en }).setRet (.code .noError))
     else claimed i (startCmd i 59 (flagWord en) .r1 false [.sdEnd i, .setCrc i en, .finish .code]) s)

/-! ## Procedures issued on their own -/

/-- SDI.CMD (43_sd_framing.md R265), of any 6-bit index (log 38). -/
def execSdiCmd (x : Word) (index : BitVec 6) (arg : Word) (shape : Shape) (ai : Bool) (s : State) : Res State :=
  unclaimed x.toNat (startCmd x.toNat index arg shape ai [.finish .reply]) s

/-- SDI.R1POLL (43_sd_framing.md R264). -/
def execSdiR1Poll (x : Word) (s : State) : Res State :=
  unclaimed x.toNat (startR1Poll x.toNat [.finish .codeByte]) s

/-- SDI.BUSYWAIT (43_sd_framing.md R271). -/
def execSdiBusyWait (x : Word) (s : State) : Res State :=
  unclaimed x.toNat (startBusyWait x.toNat [.finish .code]) s

/-- SDI.RDBLK (44_sd_protocol.md R313). -/
def execSdiRdBlk (x dst n : Word) (check : Bool) (s : State) : Res State :=
  unclaimed x.toNat (startRdBlk x.toNat dst n check [.finish .code]) s

/-- SDI.WRBLK (44_sd_protocol.md R315). -/
def execSdiWrBlk (x src : Word) (token : Byte) (s : State) : Res State :=
  unclaimed x.toNat (startWrBlk x.toNat src token [.finish .code]) s

/-- SDI.STOPR (44_sd_protocol.md R316). -/
def execSdiStopR (x : Word) (s : State) : Res State := unclaimed x.toNat (startStopR x.toNat [.finish .code]) s

/-- SDI.STOPW (44_sd_protocol.md R317). -/
def execSdiStopW (x : Word) (s : State) : Res State := unclaimed x.toNat (startStopW x.toNat [.finish .code]) s

/-- SDI.RDREG (44_sd_protocol.md R318), of any 6-bit index (log 26, log 38). -/
def execSdiRdReg (x : Word) (index : BitVec 6) (dst : Word) (s : State) : Res State :=
  unclaimed x.toNat (startRdReg x.toNat index dst [.finish .code]) s

end Sys2Proof.Machine
end

