-- ==== Sys2Proof/Machine/Dispatch.lean ====
section
/-! DEFINITION. The dispatch: one arm per operation, each one direct call of its meaning. -/

namespace Sys2Proof.Machine

/-- What an operation issued by FG does to the state. -/
def exec (i : Instr) (s : State) : Host.Outcome State Fault Refusal :=
  match i with
  | .futInit f => Sys2Proof.Machine.execFutInit f s
  | .futStart f => Sys2Proof.Machine.execFutStart f s
  | .futFinish f r => Sys2Proof.Machine.execFutFinish f r s
  | .futRunning f => Sys2Proof.Machine.execFutRunning f s
  | .futDone f => Sys2Proof.Machine.execFutDone f s
  | .futResult f => Sys2Proof.Machine.execFutResult f s
  | .futWait f => Sys2Proof.Machine.execFutWait f s
  | .futSetResult f r => Sys2Proof.Machine.execFutSetResult f r s
  | .busInit b => Sys2Proof.Machine.execBusInit b s
  | .busSetId b id => Sys2Proof.Machine.execBusSetId b id s
  | .busId b => Sys2Proof.Machine.execBusId b s
  | .busXfer b p n => Sys2Proof.Machine.execBusXfer b p n s
  | .busXmit b t ra => Sys2Proof.Machine.execBusXmit b t ra s
  | .busWait b => Sys2Proof.Machine.execBusWait b s
  | .busStatus b => Sys2Proof.Machine.execBusStatus b s
  | .busErrors b => Sys2Proof.Machine.execBusErrors b s
  | .busBusy b => Sys2Proof.Machine.execBusBusy b s
  | .busSetCb b cb => Sys2Proof.Machine.execBusSetCb b cb s
  | .busSetTxDef b v => Sys2Proof.Machine.execBusSetTxDef b v s
  | .busSetSpeed b sp => Sys2Proof.Machine.execBusSetSpeed b sp s
  | .irqSpi b => Sys2Proof.Machine.execIrqSpi b s
  | .irqDmaRx b => Sys2Proof.Machine.execIrqDmaRx b s
  | .irqDmaTx b => Sys2Proof.Machine.execIrqDmaTx b s
  | .dmaTryLock c => Sys2Proof.Machine.execDmaTryLock c s
  | .dmaUnlock c => Sys2Proof.Machine.execDmaUnlock c s
  | .sdInit x => Sys2Proof.Machine.execSdInit x s
  | .sdRead1 x sector dst => Sys2Proof.Machine.execSdRead1 x sector dst s
  | .sdReadN x sector count dst => Sys2Proof.Machine.execSdReadN x sector count dst s
  | .sdWrite1 x sector src => Sys2Proof.Machine.execSdWrite1 x sector src s
  | .sdWriteN x sector count src => Sys2Proof.Machine.execSdWriteN x sector count src s
  | .sdSetCrc x en => Sys2Proof.Machine.execSdSetCrc x en s
  | .sdSectors x => Sys2Proof.Machine.execSdSectors x s
  | .sdType x => Sys2Proof.Machine.execSdType x s
  | .sdInited x => Sys2Proof.Machine.execSdInited x s
  | .sdBlkLen x => Sys2Proof.Machine.execSdBlkLen x s
  | .sdEraseSz x => Sys2Proof.Machine.execSdEraseSz x s
  | .sdCid x dst => Sys2Proof.Machine.execSdCid x dst s
  | .sdCsd x dst => Sys2Proof.Machine.execSdCsd x dst s
  | .sdCrcEn x => Sys2Proof.Machine.execSdCrcEn x s
  | .sdiCrc7 a n => Sys2Proof.Machine.execSdiCrc7 a n s
  | .sdiCrc16 a n => Sys2Proof.Machine.execSdiCrc16 a n s
  | .sdiFrame x arg => Sys2Proof.Machine.execSdiFrame x arg s
  | .sdiCmd x index arg shape ai => Sys2Proof.Machine.execSdiCmd x index arg shape ai s
  | .sdiR1Poll x => Sys2Proof.Machine.execSdiR1Poll x s
  | .sdiBusyWait x => Sys2Proof.Machine.execSdiBusyWait x s
  | .sdiRdBlk x dst n check => Sys2Proof.Machine.execSdiRdBlk x dst n check s
  | .sdiWrBlk x src token => Sys2Proof.Machine.execSdiWrBlk x src token s
  | .sdiStopR x => Sys2Proof.Machine.execSdiStopR x s
  | .sdiStopW x => Sys2Proof.Machine.execSdiStopW x s
  | .sdiDecode r1 r2 ai => Sys2Proof.Machine.execSdiDecode r1 r2 ai s
  | .sdiErrTok token => Sys2Proof.Machine.execSdiErrTok token s
  | .sdiRdReg x index dst => Sys2Proof.Machine.execSdiRdReg x index dst s
  | .adpBegin a op => Sys2Proof.Machine.execAdpBegin a op s
  | .adpSync a op => Sys2Proof.Machine.execAdpSync a op s
  | .adpComplete a => Sys2Proof.Machine.execAdpComplete a s
  | .adpDispatch b => Sys2Proof.Machine.execAdpDispatch b s

end Sys2Proof.Machine
end

