-- ==== Sys2Proof/Machine/Step.lean ====
section
/-! DEFINITION. The step of the machine. -/

namespace Sys2Proof.Machine

/-- One step of the machine. -/
def step (s : State) : Host.Outcome State Fault Refusal := stepWith exec s

/-- The state with an operation of the opcode table stored where FG issues its next operation (log 7). -/
def State.withFetchWord (s : State) (nbits w : Nat) : State := placeWord (tableBytes nbits w) s

end Sys2Proof.Machine
end

