-- ==== Sys2Proof/Safety.lean ====
section
/-! DEFINITION. What counts as a safe run, in the terms the statements use: the outcomes of a step, the invariants of
10_state.md R33 and R46, the canonical form of the tables, and the end of a run (70_reset_and_hazards.md R456). -/

namespace Sys2Proof.Machine

/-! ## Outcomes -/

/-- The outcome is a next state with property `p`. -/
def onNext {α : Type} (p : α → Bool) : Res α → Bool
  | .next t => p t
  | .fault _ => false
  | .refused _ => false

/-- The outcome is fault `e`. -/
def faultsWith {α : Type} (e : Fault) : Res α → Bool
  | .next _ => false
  | .fault r => r == e
  | .refused _ => false

/-- The outcome is refusal `e`. -/
def refusesWith {α : Type} (e : Refusal) : Res α → Bool
  | .next _ => false
  | .fault _ => false
  | .refused r => r == e

/-! ## Frames -/

/-- The parts of the state that an operation may change. -/
inductive Part where
  | config | futs | buses | chans | locks | sess | adps | mem | descs | opRecs | callbacks | control | result
  | turns | answers | draws | dirty | ext | wire | calls | faults
  deriving DecidableEq, Repr

/-- Part `p` reads the same in `t` as in `s`. -/
def samePart : Part → State → State → Prop
  | .config, s, t => t.cfg = s.cfg
  | .futs, s, t => ∀ f, t.fut f = s.fut f
  | .buses, s, t => ∀ b, t.bus b = s.bus b
  | .chans, s, t => ∀ c, t.chan c = s.chan c
  | .locks, s, t => ∀ c, t.lock c = s.lock c
  | .sess, s, t => ∀ i, t.ses i = s.ses i
  | .adps, s, t => ∀ a, t.adp a = s.adp a
  | .mem, s, t => ∀ a, t.mem.read a = s.mem.read a
  | .descs, s, t => ∀ p i, t.desc p i = s.desc p i
  | .opRecs, s, t => ∀ op, t.opRec op = s.opRec op
  | .callbacks, s, t => ∀ cb, t.callback cb = s.callback cb
  | .control, s, t => t.fg = s.fg ∧ t.prog = s.prog ∧ t.isr = s.isr
  | .result, s, t => t.ret = s.ret ∧ t.isrRet = s.isrRet
  | .turns, s, t => t.turns = s.turns
  | .answers, s, t => ∀ b, t.answersOf b = s.answersOf b
  | .draws, s, t => t.draws = s.draws
  | .dirty, s, t => t.dirty = s.dirty
  | .ext, s, t => ∀ c, t.extLock c = s.extLock c
  | .wire, s, t => ∀ b, t.wireOf b = s.wireOf b
  | .calls, s, t => t.calls = s.calls
  | .faults, s, t => t.faults = s.faults ∧ t.hung = s.hung

/-- Every part but those of `ps` reads the same in `t` as in `s`. -/
def changesOnly (ps : List Part) (s t : State) : Prop := ∀ p, p ∉ ps → samePart p s t

/-- The result of the operation just run: FG's, or that of the running ISR step. -/
def State.result (s : State) : Result := if s.isr then s.isrRet else s.ret

/-- Operation `i` answers a next state with result `r`, changes no part but the result and those of `ps`, and leaves
the next state with property `q`. -/
def completes (i : Instr) (s : State) (r : Result) (ps : List Part) (q : State → Prop) : Prop :=
  ∃ t, exec i s = .next t ∧ t.result = r ∧ changesOnly (.result :: ps) s t ∧ q t

/-- Operation `i` answers a next state in which FG is at `f`, and changes no part but FG's control state and those of
`ps`. -/
def begins (i : Instr) (s : State) (f : Fg) (ps : List Part) (q : State → Prop) : Prop :=
  ∃ t, exec i s = .next t ∧ t.fg = f ∧ t.prog = s.prog ∧ t.isr = s.isr ∧ changesOnly (.control :: ps) s t ∧ q t

/-- A bus that exists and has been through BUS.INIT. -/
def State.busReady (s : State) (b : Nat) : Prop := b < s.numBuses ∧ (s.bus b).inited = true

/-- FG outside ISR context, with a session that exists on a FULL_DUPLEX bus that is ready. -/
def State.sdReady (s : State) (i : Nat) : Prop :=
  i < s.cfg.sessions.length ∧ s.isr = false ∧ (s.busCfg (s.sesBus i)).mode = .fullDuplex ∧ s.busReady (s.sesBus i)

/-- The bus of session `i` is free for it: not busy, or busy under its own id (41_spi_bus.md R181). -/
def State.claimable (s : State) (i : Nat) : Prop :=
  s.busy (s.sesBus i) = false ∨ (s.bus (s.sesBus i)).transferId = (s.sesCfg i).sdId

/-- `n` turns of FG in a row. -/
def fgRun : Nat → State → Res State
  | 0, s => .next s
  | n + 1, s => andThen (fgTurn exec s) (fgRun n)

/-- Issues operation `i` and gives FG `n` turns. -/
def runOp (i : Instr) (n : Nat) (s : State) : Res State := andThen (exec i s) (fgRun n)

/-- The invocations after callback `cb` is invoked with `arg`; NONE is not invoked. -/
def callsAfter (cb : Word) (arg : CbArg) (l : List Call) : List Call :=
  if cb = 0 then l else { cb := cb, arg := arg } :: l

/-- What software's write of the bytes `l` from address `a` on leaves: they stand in memory but for a destination byte
of a transfer in progress, which holds any byte (70_reset_and_hazards.md R460, log 11); no other byte changes, and the
counter of draws moves only for such a byte. -/
def wroteBytes (a : Word) (l : List Byte) (s t : State) : Prop :=
  (∀ c : Word, t.mem.read c = s.mem.read c ∨ (c - a).toNat < l.length)
    ∧ (∀ c : Word, (c - a).toNat < l.length → s.dstInFlight c = false → t.mem.read c = l.getD (c - a).toNat 0)
    ∧ ((∀ c : Word, (c - a).toNat < l.length → s.dstInFlight c = false) → t.draws = s.draws)

/-! ## Transitions of the bus engine -/

/-- An invocation of callback `cb` issues nothing: NONE, or a callback with nothing to do. -/
def State.silent (s : State) (cb : Word) : Prop :=
  cb = 0 ∨ s.callback cb.toNat = .tape [] ∨ s.callback cb.toNat = .always []

/-- The state after a silent callback `cb` was invoked with `arg` in FG context: the invocation is recorded. -/
def State.called (s : State) (cb arg : Word) : State := { s with calls := callsAfter cb (.word arg) s.calls }

/-- The state after session `i`'s silent begin callback was invoked with `k` (44_sd_protocol.md R311). -/
def State.beginCalled (s : State) (i : Nat) (k : Word) : State := s.called (s.sesCfg i).timeoutBegin k

/-- The state after session `i`'s silent end callback was invoked, with 0 (44_sd_protocol.md R311). -/
def State.endCalled (s : State) (i : Nat) : State := s.called (s.sesCfg i).timeoutEnd 0

/-- What a terminal transition to status `st` with errors `e` leaves of bus `b` (42_spi_events.md R230, R231, R234). -/
def endedTransfer (b : Nat) (st : Status) (e : BitVec 4) (s t : State) : Prop :=
  t.bus b =
      { s.bus b with
        heldRx := false, heldTx := false, phase := .idle, status := st, errors := e, errie := false, rxdmaen := false,
        txdmaen := false, ovr := (t.bus b).ovr, modf := (t.bus b).modf, crcerr := (t.bus b).crcerr }
    ∧ (∀ b', b' ≠ b → t.bus b' = s.bus b')
    ∧ (∀ c, t.lock c =
      (if (s.bus b).heldRx = true ∧ c = (s.busCfg b).rxCh ∨ (s.bus b).heldTx = true ∧ c = (s.busCfg b).txCh then false
       else s.lock c))
    ∧ (∀ c, (c = (s.busCfg b).rxCh ∨ c = (s.busCfg b).txCh) →
      t.chan c =
        { s.chan c with en := false, tcie := false, teie := false, tc := (t.chan c).tc, te := (t.chan c).te })
    ∧ ∀ c, c ≠ (s.busCfg b).rxCh → c ≠ (s.busCfg b).txCh → t.chan c = s.chan c

/-- Handler `i` with its channel `c` and the bus states in which the channel's transfer-complete completes a message
(42_spi_events.md R224, R225, R226). -/
def completingEvent (b : Word) (s : State) (i : Instr) (c : Nat) : Prop :=
  (i = .irqDmaRx b ∧ c = (s.busCfg b.toNat).rxCh
      ∧ ((s.bus b.toNat).phase = .reading ∨ (s.bus b.toNat).phase = .readingWriting)
    ∨ i = .irqDmaTx b ∧ c = (s.busCfg b.toNat).txCh ∧ (s.bus b.toNat).phase = .writing)
  ∧ (s.chan c).tc = true ∧ (s.chan c).tcie = true ∧ ((s.chan c).te = false ∨ (s.chan c).teie = false)

/-! ## Runs of FG -/

/-- `t` is a state after FG ended an operation on bus `b` begun at `s` that sent the frames `sent` and left DEV with the
answers `rest`: no part changed but the result, the wire and DEV's queue of that bus and those of `ps`. -/
def exchanged (b : Nat) (sent rest : List Byte) (ps : List Part) (s t : State) : Prop :=
  t.fg = .idle ∧ t.prog = s.prog ∧ t.isr = s.isr ∧ t.wireOf b = sent.reverse ++ s.wireOf b ∧ t.answersOf b = rest
    ∧ (∀ b', b' ≠ b → t.wireOf b' = s.wireOf b' ∧ t.answersOf b' = s.answersOf b')
    ∧ changesOnly ([.control, .result, .wire, .answers] ++ ps) s t

/-- `t` is a state after FG's step inside an operation moved it on to `f`, with no part changed but those of `ps`. -/
def movedTo (f : Fg) (ps : List Part) (s t : State) : Prop :=
  t.fg = f ∧ t.prog = s.prog ∧ t.isr = s.isr ∧ changesOnly (.control :: ps) s t

/-- `t` is a state after FG ended its operation with result `r`, with no part changed but those of `ps`. -/
def endedWith (r : Result) (ps : List Part) (s t : State) : Prop :=
  movedTo .idle (.result :: ps) s t ∧ t.ret = r

/-- FG's step put the frame `x` on bus `b`'s wire and took DEV's answer from the front of its queue, leaving `rest`. -/
def sentByte (b : Nat) (x : Byte) (rest : List Byte) (s t : State) : Prop :=
  t.wireOf b = x :: s.wireOf b ∧ t.answersOf b = rest
    ∧ ∀ b', b' ≠ b → t.wireOf b' = s.wireOf b' ∧ t.answersOf b' = s.answersOf b'

/-- FG about to send `first`, the first byte of command `index` of session `i`, with the frames `k` to return to. -/
def sending (s : State) (i : Nat) (first : Byte) (index : BitVec 6) (arg : Word) (sh : Shape) (ai : Bool)
    (k : List Frame) : Fg := .busy (.xchg (s.sesBus i) first) (.cmdSend i index arg sh ai 0 :: k)

/-- `t` is a state after FG's step inside an operation moved it on to `f` and left session `i` as `S`; nothing else
changed. -/
def sesMoves (i : Nat) (f : Fg) (S : Session) (s t : State) : Prop :=
  movedTo f [.sess] s t ∧ t.ses i = S ∧ ∀ j, j ≠ i → t.ses j = s.ses j

/-- `t` is a state after FG ended its operation with code `c` and left session `i` as `S`; nothing else changed. -/
def sesEnds (i : Nat) (c : Code) (S : Session) (s t : State) : Prop :=
  endedWith (.code c) [.sess] s t ∧ t.ses i = S ∧ ∀ j, j ≠ i → t.ses j = s.ses j

/-- `t` is a state after SD.INIT of session `i` ended with code `c`, its session `S` but for the exit lines: chip-select
deasserted, and the bus at high speed (44_sd_protocol.md R319, R329). -/
def initEnds (i : Nat) (c : Code) (S : Session) (s t : State) : Prop :=
  endedWith (.code c) [.buses, .sess] s t ∧ t.ses i = { S with csAsserted := false } ∧ (∀ j, j ≠ i → t.ses j = s.ses j)
    ∧ t.bus (s.sesBus i) = { s.bus (s.sesBus i) with speed := .high } ∧ ∀ b, b ≠ s.sesBus i → t.bus b = s.bus b

/-- FG's BUS.XFER step inside a block operation on bus `b`: it does what BUS.XFER does, then waits for the bus at the
frame `f`, or ends the operation with BUS.XFER's error code. -/
def xferStep (b : Nat) (p n : Word) (f : Frame) (s : State) : Prop :=
  ∃ u t, exec (.busXfer (BitVec.ofNat 32 b) p n) s = .next u ∧ agentStep exec .fg s = .next t
    ∧ changesOnly [.control, .result] u t ∧ t.prog = s.prog ∧ t.isr = s.isr
    ∧ (u.ret = .code .noError → t.fg = .busy (.busWait b) [f, .finish .code])
    ∧ ∀ c, c ≠ .noError → u.ret = .code c → t.fg = .idle ∧ t.ret = .code c

/-- Operation record `op` of adapter `a` builds the descriptors `ms` with the bytes `scratch`, and the checks of
ADP.BEGIN before its writes pass (45_adapter_contract.md R383). -/
structure adapterChecks (a op : Nat) (ms : List Msg) (scratch : List Byte) (s : State) : Prop where
  adapter : a < s.cfg.adapters.length
  record : ∃ r, s.opRec op = some r ∧ build (s.adpCfg a).buf r = .built ms scratch
  future : (s.fut (s.adpCfg a).fut).running = false
  bus : s.busReady (s.adpCfg a).bus
  owner : s.busy (s.adpCfg a).bus = false ∨ (s.bus (s.adpCfg a).bus).transferId = (s.adpCfg a).id
  capacity : ms.length ≤ (s.adpCfg a).maxMsgs ∧ scratch.length ≤ (s.adpCfg a).bufSize
  small : ms.length < 2 ^ 32 ∧ scratch.length < 2 ^ 32
  dispatcher : s.dispatcherSet (s.adpCfg a).bus = true
  backed : ∀ k, k < scratch.length → s.backed ((s.adpCfg a).buf + BitVec.ofNat 32 k) = true

/-- With them no descriptor it writes is in flight (20_memory.md R84, log 47). -/
structure adapterWrites (a op : Nat) (ms : List Msg) (scratch : List Byte) (s : State) : Prop
    extends adapterChecks a op ms scratch s where
  notInFlight : ∀ k : Word, k.toNat < ms.length → s.descInFlight (s.adpCfg a).msgs k = false

/-- With them the checks of its BUS.XFER pass (41_spi_bus.md R183 to R185). -/
structure adapterReady (a op : Nat) (ms : List Msg) (scratch : List Byte) (s : State) : Prop
    extends adapterWrites a op ms scratch s where
  idle : s.busy (s.adpCfg a).bus = false
  list : (s.adpCfg a).msgs ≠ 0 ∧ ms ≠ [] ∧ ∀ m ∈ ms, Msg.valid m (s.busCfg (s.adpCfg a).bus).mode = true
  channels : (s.busCfg (s.adpCfg a).bus).rxCh ≠ (s.busCfg (s.adpCfg a).bus).txCh
    ∧ s.lock (s.busCfg (s.adpCfg a).bus).rxCh = false ∧ s.lock (s.busCfg (s.adpCfg a).bus).txCh = false

/-! ## Invariants -/

/-- Every table of the machine is in its canonical form. -/
def State.tablesWf (s : State) : Prop :=
  Table.wf Future.zero s.futs = true ∧ Table.wf Bus.powerOn s.buses = true ∧ Table.wf Chan.powerOn s.chans = true
    ∧ Table.wf false s.locks = true ∧ Table.wf Session.powerOn s.sess = true ∧ Table.wf Adapter.powerOn s.adps = true
    ∧ Memory.wf s.mem = true ∧ Table.wf Msg.blank s.descs = true ∧ Table.wf none s.opRecs = true
    ∧ Table.wf (.tape []) s.callbacks = true ∧ Table.wf [] s.answers = true ∧ Table.wf false s.ext = true
    ∧ Table.wf [] s.wire = true

/-- No future is both done and running (10_state.md R33). -/
def State.futuresOk (s : State) : Prop := ∀ f, ¬ ((s.fut f).done = true ∧ (s.fut f).running = true)

/-- R46 (1): a bus is TRANSFERRING exactly while its state is not IDLE (10_state.md R46). -/
def State.statusOk (s : State) : Prop := ∀ b, (s.bus b).status = .transferring ↔ (s.bus b).phase ≠ .idle

/-- R46 (2): the index is below the count, and the state is the current message's direction (10_state.md R46). -/
def State.indexOk (s : State) : Prop :=
  ∀ b, (s.bus b).phase ≠ .idle →
    (s.bus b).index.toNat < (s.bus b).count.toNat ∧ (s.bus b).phase = phaseOfDir (s.current b).dir

/-- R46 (3): a bus holds a channel exactly while its state is not IDLE (10_state.md R46). -/
def State.heldOk (s : State) : Prop :=
  ∀ b, ((s.bus b).heldRx = true ∨ (s.bus b).heldTx = true) ↔ (s.bus b).phase ≠ .idle

/-- R46 (4): the lock of every held channel is set (10_state.md R46). -/
def State.locksOk (s : State) : Prop :=
  ∀ b, b < s.numBuses →
    ((s.bus b).heldRx = true → s.lock (s.busCfg b).rxCh = true)
      ∧ ((s.bus b).heldTx = true → s.lock (s.busCfg b).txCh = true)

/-- Every descriptor of a list in transfer is valid (41_spi_bus.md R184, 20_memory.md R84). -/
def State.listsOk (s : State) : Prop :=
  ∀ b, (s.bus b).phase ≠ .idle → ∀ i, i < (s.bus b).count.toNat →
    Msg.valid (s.desc (s.bus b).messages i) (s.busCfg b).mode = true

/-- ENV's locks are set, and no bus holds their channels (70_reset_and_hazards.md R462, log 29). -/
def State.extOk (s : State) : Prop := ∀ c, s.extLock c = true → s.lock c = true ∧ s.heldByBus c = false

/-- Only buses that exist and have been through BUS.INIT are in a transfer (70_reset_and_hazards.md R455). -/
def State.initedOk (s : State) : Prop := ∀ b, (s.bus b).phase ≠ .idle → b < s.numBuses ∧ (s.bus b).inited = true

/-- The invariants of 10_state.md R46, with what they rest on. -/
structure State.BusInv (s : State) : Prop where
  status : s.statusOk
  index : s.indexOk
  held : s.heldOk
  locks : s.locksOk
  lists : s.listsOk
  ext : s.extOk
  inited : s.initedOk

/-! ## SD sessions (10_state.md R60) -/

/-- R60 (1) of one session: an initialised one has a card type and the block length 512 (10_state.md R60). -/
def Session.ready (x : Session) : Prop := x.initialized = true → x.cardType ≠ .unknown ∧ x.blockLen = 512

/-- What a place of SD.INIT after type assignment rests on: the type it found and, after the finalisation's first half,
the block length (44_sd_protocol.md R324 to R326). -/
def Frame.typed (s : State) : Frame → Prop
  | .v1Start _ t _ | .v1End _ t => t ≠ .unknown
  | .initCid i | .initCsd i | .initBlkLen i => (s.ses i).cardType ≠ .unknown
  | .initCrc i => (s.ses i).cardType ≠ .unknown ∧ (s.ses i).blockLen = 512
  | _ => True

/-- R60 (1) of every session, with what FG's places inside SD.INIT rest on (10_state.md R60). -/
structure State.SessionInv (s : State) : Prop where
  ready : ∀ i, (s.ses i).ready
  typed : ∀ p k, s.fg = .busy p k → ∀ f ∈ k, f.typed s

/-! ## Callbacks -/

/-- Whether an act is an IRQ operation. -/
def actIsIrq : Act → Bool
  | .op (.irqSpi _) | .op (.irqDmaRx _) | .op (.irqDmaTx _) => true
  | _ => false

/-- Whether a callback never issues an IRQ operation. -/
def callbackCalm : Callback → Bool
  | .always acts => acts.all (fun x => !actIsIrq x)
  | .tape runs => runs.all (fun acts => acts.all (fun x => !actIsIrq x))

/-- No bound callback issues an IRQ operation. -/
def State.calm (s : State) : Prop := ∀ cb, callbackCalm (s.callback cb) = true

/-! ## End of a run -/

/-- A run is over: FG is outside any operation with none left, every bus is IDLE, no interrupt source is pending and
enabled, no future is running, and no window is open (70_reset_and_hazards.md R456); a run with a fault kept or a step
that does not end is not over (93_implementation_defined.md section 1, 60_exceptions.md R415). -/
def State.runOver (s : State) : Bool :=
  s.fg == .idle && s.prog.isEmpty
    && (List.range s.numBuses).all (fun b =>
      !s.busy b && !s.spiPending b && !s.chanPending b (s.busCfg b).rxCh && !s.chanPending b (s.busCfg b).txCh)
    && s.futs.all (fun x => !x.2.running)
    && (List.range s.cfg.sessions.length).all (fun i => !(s.ses i).winOpen)
    && s.faults.isEmpty && !s.hung

end Sys2Proof.Machine
end

