-- ==== Sys2Proof/Certificates/Slice0/Obligations.lean ====
section
/-! DEFINITION. The statements for the provers. Each docstring names the rules it formalises; the vocabulary
(`completes`, `begins`, `changesOnly`, `busReady`, `sdReady`) is Safety.lean's. -/

section Slice0

open Sys2Proof Sys2Proof.Machine

/-! ## Encoding -/

/-- 30_encoding.md R110, R111, R133: decoding an encoded operation gives it back, whatever bytes follow. -/
def Obligations.DecodeEncode : Prop :=
  ∀ (i : Instr) (rest : List Byte), decode (encode i ++ rest) = .ok (i, rest)

/-- 30_encoding.md R111, R132, R133: whatever the decoder accepts is the encoding of what it answers, so every operation
has one encoding and no bit is ignored. -/
def Obligations.EncodeDecode : Prop :=
  ∀ (bytes : List Byte) (i : Instr) (rest : List Byte), decode bytes = .ok (i, rest) → bytes = encode i ++ rest

/-- 30_encoding.md R132: an opcode of no row is refused, and so is an operation with a bit above an operand in its slot
(R133): every 8-bit, 6-bit and 1-bit operand, and SDI.CMD's slot 3 with a shape above 4 or a bit above bit 3 (the slots
are in the model's byte order, log 7, which no clause looks at). -/
def Obligations.DecoderRefuses : Prop :=
  (∀ (code : Byte) (rest : List Byte), (∀ r ∈ opRows, r.code ≠ code) →
      decode (code :: rest) = .error .reservedOpcode)
    ∧ ∀ (a b c d : Word) (rest : List Byte),
      let refused := fun (code : Byte) (slots : List Word) =>
        decode (code :: (slots.flatMap wordBytes ++ rest)) = .error .operandTooWide
      (∀ code ∈ [(0x21 : Byte), 0x2A], 256 ≤ b.toNat → refused code [a, b])
        ∧ (∀ code ∈ [(0x2B : Byte), 0x85], 2 ≤ b.toNat → refused code [a, b])
        ∧ (256 ≤ b.toNat → refused 0x24 [a, b, c])
        ∧ (64 ≤ a.toNat → refused 0xA2 [a, b])
        ∧ ((64 ≤ b.toNat ∨ 16 ≤ d.toNat ∨ 5 ≤ (d.extractLsb' 0 3).toNat) → refused 0xA3 [a, b, c, d])
        ∧ (2 ≤ d.toNat → refused 0xA6 [a, b, c, d])
        ∧ (256 ≤ c.toNat → refused 0xA7 [a, b, c])
        ∧ ((256 ≤ a.toNat ∨ 256 ≤ b.toNat ∨ 2 ≤ c.toNat) → refused 0xAA [a, b, c])
        ∧ (256 ≤ a.toNat → refused 0xAB [a])
        ∧ (64 ≤ b.toNat → refused 0xAC [a, b, c])

/-- 30_encoding.md R110, R111, R133 and the operations of 95_test_vectors.md section 10: a few words decode to the
operations they stand for. The opcodes and the operands' widths are the spec's; the byte order of a slot, least
significant byte first, is the model's choice, since the spec gives none (log 7). -/
def Obligations.SpecWordsDecode : Prop :=
  decode [0x02, 0, 0, 0, 0, 5, 0, 0, 0] = .ok (.futFinish 0 5, [])
    ∧ decode [0x23, 0, 0, 0, 0, 0, 1, 0, 0, 2, 0, 0, 0] = .ok (.busXfer 0 0x100 2, [])
    ∧ decode [0x42, 0, 0, 0, 0] = .ok (.irqDmaTx 0, [])
    ∧ decode [0x60, 2, 0, 0, 0] = .ok (.dmaTryLock 2, [])
    ∧ decode [0x82, 0, 0, 0, 0, 0, 0, 0, 0, 4, 0, 0, 0, 0, 0x90, 0, 0] = .ok (.sdReadN 0 0 4 0x9000, [])
    ∧ decode [0xA2, 0x11, 0, 0, 0, 0, 2, 0, 0] = .ok (.sdiFrame 17 0x200, [])
    ∧ decode [0xA3, 0, 0, 0, 0, 8, 0, 0, 0, 0xAA, 1, 0, 0, 0xC, 0, 0, 0] = .ok (.sdiCmd 0 8 0x1AA .r7 true, [])
    ∧ decode [0xC1, 0, 0, 0, 0, 1, 0, 0, 0] = .ok (.adpSync 0 1, [])

/-! ## Steps -/

/-- In an admitted configuration a step is that of the agent (00_scope.md R3, R12) whose turn is at the head of the
model's queue of turns, the model's choice of who moves (log 5). A fault is kept and stops the agent that raised it
(60_exceptions.md R414), with nothing else of that step done (log 34); a callback inside the step that does not return
leaves a machine that moves no more (R415, log 39); a stopped agent has no step. -/
def Obligations.StepIsTheNextTurn : Prop :=
  ∀ (s : State) (x : Turn) (ts : List Turn), configRefusal s.cfg = none → s.turns = x :: ts →
    let u := s.setTurns ts
    let a := turnAgent x
    (s.stopped a = true ↔ s.hung = true ∨ ∃ e, (a, e) ∈ s.faults)
      ∧ (s.stopped a = true → step s = .next u)
      ∧ (s.stopped a = false →
        (∀ t, agentStep exec x u = .next t → step s = .next t)
          ∧ (∀ e, e ≠ .callbackHang → agentStep exec x u = .fault e →
            step s = .next (u.setFaults (s.faults ++ [(a, e)])))
          ∧ (agentStep exec x u = .fault .callbackHang → step s = .next (u.setHung true))
          ∧ ∀ r, agentStep exec x u = .refused r → step s = .refused r)

/-- 30_encoding.md R110, R132, 00_scope.md R12, 60_exceptions.md R414, R416: when FG's turn is next and FG, not stopped
by a fault, is between operations, the step is the `exec` of the operation its next bytes decode to, with those bytes
taken from the program; an operation's fault is kept; bytes that the decoder refuses are refused by name. The queue of
turns (log 5), the program as a byte string (log 7) and what a faulting step leaves (log 34, log 39) are the model's. -/
def Obligations.StepRunsDecodedOperation : Prop :=
  ∀ (s : State) (ts : List Turn), configRefusal s.cfg = none → s.turns = .fg :: ts → s.fg = .idle →
    s.stopped .fg = false →
    let u := s.setTurns ts
    (∀ (i : Instr) (rest : List Byte), decode s.prog = .ok (i, rest) →
        (∀ t, exec i (u.setProg rest) = .next t → step s = .next t)
          ∧ (∀ e, e ≠ .callbackHang → exec i (u.setProg rest) = .fault e →
            step s = .next (u.setFaults (s.faults ++ [(.fg, e)])))
          ∧ (exec i (u.setProg rest) = .fault .callbackHang → step s = .next (u.setHung true))
          ∧ ∀ r, exec i (u.setProg rest) = .refused r → step s = .refused r)
      ∧ (decode s.prog = .error .reservedOpcode → step s = .refused .reservedOpcode)
      ∧ (decode s.prog = .error .operandTooWide → step s = .refused .operandTooWide)

/-- 00_scope.md R8, 60_exceptions.md R408, R416: a configuration with 16-bit frames, or with a DMA channel bound to two
buses, has no step and is refused by name. That a bus whose RX and TX channels are one (00_scope.md R7 and 10_state.md
R35 say only that they are distinct) is refused by that same name, sharedChannel, is the model's choice, which no rule
makes; so is the order of the checks among refused configurations (both log 19). -/
def Obligations.BadConfigurationsRefused : Prop :=
  (∀ s : State, inRange s.cfg = true → (∃ x ∈ s.cfg.buses, x.frameBits = .sixteen) → step s = .refused .frameBits16)
    ∧ (∀ s : State, inRange s.cfg = true → (∀ x ∈ s.cfg.buses, x.frameBits = .eight) →
      (∀ c ∈ boundChans s.cfg, c < s.cfg.numDmaCh) → ¬ (boundChans s.cfg).Nodup →
      step s = .refused .sharedChannel)

/-! ## FUT -/

/-- 40_future.md R150 to R155, R157: what FUT.INIT, FUT.START, FUT.FINISH and FUT.SETRESULT write, and that they change
no other future and no other part; FUT.RUNNING, FUT.DONE and FUT.RESULT return the stored fields and change nothing. -/
def Obligations.FutureFields : Prop :=
  ∀ (f r : Word) (s : State),
    completes (.futInit f) s .none [.futs] (fun t =>
        t.fut f.toNat = { result := 0, done := false, running := false } ∧ ∀ g, g ≠ f.toNat → t.fut g = s.fut g)
      ∧ completes (.futStart f) s .none [.futs] (fun t =>
        t.fut f.toNat = { result := (s.fut f.toNat).result, done := false, running := true }
          ∧ ∀ g, g ≠ f.toNat → t.fut g = s.fut g)
      ∧ completes (.futFinish f r) s .none [.futs] (fun t =>
        t.fut f.toNat = { result := r, done := true, running := false } ∧ ∀ g, g ≠ f.toNat → t.fut g = s.fut g)
      ∧ completes (.futSetResult f r) s .none [.futs] (fun t =>
        t.fut f.toNat = { result := r, done := (s.fut f.toNat).done, running := (s.fut f.toNat).running }
          ∧ ∀ g, g ≠ f.toNat → t.fut g = s.fut g)
      ∧ completes (.futRunning f) s (.value (if (s.fut f.toNat).running then 1 else 0)) [] (fun _ => True)
      ∧ completes (.futDone f) s (.value (if (s.fut f.toNat).done then 1 else 0)) [] (fun _ => True)
      ∧ completes (.futResult f) s (.value (s.fut f.toNat).result) [] (fun _ => True)

/-- 40_future.md R156, 60_exceptions.md R414, R415: FUT.WAIT returns the stored result of a future that is not running,
polls a running one with no state change, ends at the first poll after it stops running, and faults in ISR context. -/
def Obligations.FutureWait : Prop :=
  ∀ (f : Word) (s : State),
    ((s.fut f.toNat).running = false →
        completes (.futWait f) s (.value (s.fut f.toNat).result) [] (fun _ => True))
      ∧ ((s.fut f.toNat).running = true → s.isr = false →
        begins (.futWait f) s (.busy (.futWait f.toNat) [.finish .value]) [] (fun _ => True))
      ∧ ((s.fut f.toNat).running = true → s.isr = true → exec (.futWait f) s = .fault .waitInInterrupt)
      ∧ (s.fg = .busy (.futWait f.toNat) [.finish .value] → s.isr = false →
        ((s.fut f.toNat).running = true → agentStep exec .fg s = .next s)
          ∧ ((s.fut f.toNat).running = false →
            ∃ t, agentStep exec .fg s = .next t ∧ t.fg = .idle ∧ t.ret = .value (s.fut f.toNat).result
              ∧ t.prog = s.prog ∧ t.isr = s.isr ∧ changesOnly [.control, .result] s t))

/-- 40_future.md R158: over any sequence of FUT operations on one future, `running` holds exactly after a FUT.START
that no FUT.FINISH or FUT.INIT followed, `done` exactly after a FUT.FINISH that no FUT.START or FUT.INIT followed, and
the result stays what FUT.FINISH stored until the next FUT operation that writes. -/
def Obligations.FutureLaws : Prop :=
  ∀ (f : Word) (ops : List Instr) (s : State) (i : Instr) (r : Word),
    (∀ o ∈ ops, o = .futRunning f ∨ o = .futDone f ∨ o = .futResult f ∨ (∃ x, o = .futSetResult f x)) →
    (i = .futInit f ∨ i = .futStart f ∨ i = .futFinish f r) →
    ∃ t u, exec i s = .next t ∧ ops.foldl (fun o x => andThen o (exec x)) (.next t) = .next u
      ∧ ((u.fut f.toNat).running = true ↔ i = .futStart f)
      ∧ ((u.fut f.toNat).done = true ↔ i = .futFinish f r)
      ∧ (i = .futFinish f r → (∀ x, .futSetResult f x ∉ ops) → (u.fut f.toNat).result = r)

/-! ## BUS -/

/-- 41_spi_bus.md R190, 70_reset_and_hazards.md R453: BUS.INIT sets every bus field, disables the bus's channels and
clears their pending flags, and changes no lock, future or session; on a bus in a transfer it faults. -/
def Obligations.BusInit : Prop :=
  ∀ (b : Word) (s : State), b.toNat < s.numBuses →
    let rx := (s.busCfg b.toNat).rxCh
    let tx := (s.busCfg b.toNat).txCh
    (((s.bus b.toNat).inited = false ∨ (s.bus b.toNat).phase = .idle) →
        completes (.busInit b) s (.code .noError) [.buses, .chans] (fun t =>
          t.bus b.toNat =
              { inited := true, phase := .idle, status := .idle, transferId := 0, errors := 0, messages := 0,
                count := 0, index := 0, txDefault := 0xFF, callback := 0, heldRx := false, heldTx := false, pos := 0,
                ovr := false, modf := false, crcerr := false, errie := false, rxdmaen := false, txdmaen := false,
                speed := .high }
            ∧ (∀ b', b' ≠ b.toNat → t.bus b' = s.bus b')
            ∧ ∀ c, t.chan c =
              if c = rx ∨ c = tx then { s.chan c with en := false, tc := false, te := false } else s.chan c))
      ∧ ((s.bus b.toNat).inited = true → (s.bus b.toNat).phase ≠ .idle →
        exec (.busInit b) s = .fault .initWhileBusy)

/-- 41_spi_bus.md R181, R182: BUS.SETID fails with E_BUSY only on a busy bus of another id, and otherwise writes the id
alone; BUS.ID returns it. -/
def Obligations.BusClaim : Prop :=
  ∀ (b : Word) (id : Byte) (s : State), s.busReady b.toNat →
    (s.busy b.toNat = true → (s.bus b.toNat).transferId ≠ id →
        completes (.busSetId b id) s (.code .busy) [] (fun _ => True))
      ∧ ((s.busy b.toNat = false ∨ (s.bus b.toNat).transferId = id) →
        completes (.busSetId b id) s (.code .noError) [.buses] (fun t =>
          t.bus b.toNat = { s.bus b.toNat with transferId := id } ∧ ∀ b', b' ≠ b.toNat → t.bus b' = s.bus b'))
      ∧ completes (.busId b) s (.value ((s.bus b.toNat).transferId.setWidth 32)) [] (fun _ => True)

/-- 41_spi_bus.md R180, R188, R191, R192, R193: BUS.BUSY returns whether the bus's state is not IDLE, and BUS.STATUS and
BUS.ERRORS return its fields in their encodings; BUS.SETCB and BUS.SETTXDEF write their field whether the bus is busy or
not; BUS.SETSPEED writes the speed of an idle bus and fails with E_BUSY on a busy one. -/
def Obligations.BusRegisters : Prop :=
  ∀ (b cb : Word) (v : Byte) (sp : Speed) (s : State), s.busReady b.toNat →
    completes (.busSetCb b cb) s .none [.buses] (fun t =>
        t.bus b.toNat = { s.bus b.toNat with callback := cb } ∧ ∀ b', b' ≠ b.toNat → t.bus b' = s.bus b')
      ∧ completes (.busSetTxDef b v) s .none [.buses] (fun t =>
        t.bus b.toNat = { s.bus b.toNat with txDefault := v } ∧ ∀ b', b' ≠ b.toNat → t.bus b' = s.bus b')
      ∧ (s.busy b.toNat = false →
        completes (.busSetSpeed b sp) s (.code .noError) [.buses] (fun t =>
          t.bus b.toNat = { s.bus b.toNat with speed := sp } ∧ ∀ b', b' ≠ b.toNat → t.bus b' = s.bus b'))
      ∧ (s.busy b.toNat = true → completes (.busSetSpeed b sp) s (.code .busy) [] (fun _ => True))
      ∧ completes (.busBusy b) s (.value (if (s.bus b.toNat).phase = .idle then 0 else 1)) [] (fun _ => True)
      ∧ completes (.busStatus b) s
        (.value (match (s.bus b.toNat).status with
          | .idle => 0 | .transferring => 1 | .transferred => 2 | .error => 3)) [] (fun _ => True)
      ∧ completes (.busErrors b) s (.value ((s.bus b.toNat).errors.setWidth 32)) [] (fun _ => True)

/-- 41_spi_bus.md R183, R184, R185, 10_state.md R45: BUS.XFER's checks in their order, each returning its code with
nothing changed, the lock table included where a needed channel is taken. -/
def Obligations.XferRefused : Prop :=
  ∀ (b p n : Word) (s : State), s.busReady b.toNat →
    (p = 0 → completes (.busXfer b p n) s (.code .nullPointer) [] (fun _ => True))
      ∧ (p ≠ 0 → n = 0 → completes (.busXfer b p n) s (.code .invalidValue) [] (fun _ => True))
      ∧ (p ≠ 0 → n ≠ 0 → s.busy b.toNat = true →
        completes (.busXfer b p n) s (.code .busy) [] (fun _ => True))
      ∧ (p ≠ 0 → n ≠ 0 → s.busy b.toNat = false →
        (∃ i, i < n.toNat ∧ Msg.valid (s.desc p i) (s.busCfg b.toNat).mode = false) →
        completes (.busXfer b p n) s (.code .invalidValue) [] (fun _ => True))
      ∧ (let C := s.busCfg b.toNat
        p ≠ 0 → n ≠ 0 → s.busy b.toNat = false →
        (∀ i, i < n.toNat → Msg.valid (s.desc p i) C.mode = true) → C.rxCh ≠ C.txCh →
        ((∃ i, i < n.toNat ∧ (need C.mode (s.desc p i).dir).rx = true) ∧ s.lock C.rxCh = true
          ∨ (∃ i, i < n.toNat ∧ (need C.mode (s.desc p i).dir).tx = true) ∧ s.lock C.txCh = true) →
        completes (.busXfer b p n) s (.code .busy) [] (fun _ => True))

/-- 10_state.md R45: a message is valid exactly when the seven conditions hold. -/
def Obligations.MessageValidity : Prop :=
  ∀ (m : Msg) (mode : Mode), Msg.valid m mode = true ↔
    (m.dir = 1 ∨ m.dir = 2 ∨ m.dir = 3) ∧ (m.dir = 1 → m.rx ≠ 0 ∧ m.tx = 0) ∧ (m.dir = 2 → m.tx ≠ 0 ∧ m.rx = 0)
      ∧ (m.dir = 3 → m.tx ≠ 0 ∧ m.rx ≠ 0) ∧ 1 ≤ m.size.toNat ∧ m.size.toNat ≤ 65535
      ∧ (mode = .halfDuplexRx → m.dir = 1) ∧ (mode = .halfDuplexTx → m.dir = 2)

/-- 41_spi_bus.md R185, R186 and 42_spi_events.md R233: the five rows of R186's table; and what an accepted BUS.XFER
writes: the locks of exactly the needed channels, the transfer's registers, and the channels as Arm sets them for
message 0; nothing else (the record of the bytes written in flight, log 11, starts afresh). -/
def Obligations.XferAccepted : Prop :=
  (need .fullDuplex 1 = { rx := true, tx := true } ∧ need .fullDuplex 2 = { rx := false, tx := true }
      ∧ need .fullDuplex 3 = { rx := true, tx := true } ∧ need .halfDuplexRx 1 = { rx := true, tx := false }
      ∧ need .halfDuplexTx 2 = { rx := false, tx := true } ∧ completesOnRx 1 = true ∧ completesOnRx 2 = false
      ∧ completesOnRx 3 = true)
    ∧ ∀ (b p n : Word) (s : State) (wantRx wantTx : Bool), s.busReady b.toNat → p ≠ 0 → n ≠ 0 → s.busy b.toNat = false →
      let C := s.busCfg b.toNat
      let m := s.desc p 0
      let nd := need C.mode m.dir
      (∀ i, i < n.toNat → Msg.valid (s.desc p i) C.mode = true) → C.rxCh ≠ C.txCh →
      (wantRx = true ↔ ∃ i, i < n.toNat ∧ (need C.mode (s.desc p i).dir).rx = true) →
      (wantTx = true ↔ ∃ i, i < n.toNat ∧ (need C.mode (s.desc p i).dir).tx = true) →
      (wantRx = true → s.lock C.rxCh = false) → (wantTx = true → s.lock C.txCh = false) →
      completes (.busXfer b p n) s (.code .noError) [.buses, .chans, .locks, .dirty] (fun t =>
        t.bus b.toNat =
            { s.bus b.toNat with
              heldRx := wantRx, heldTx := wantTx, messages := p, count := n, index := 0, errors := 0,
              status := .transferring, phase := phaseOfDir m.dir, errie := true, pos := 0, rxdmaen := nd.rx,
              txdmaen := nd.tx }
          ∧ (∀ b', b' ≠ b.toNat → t.bus b' = s.bus b')
          ∧ (∀ c, t.lock c = (s.lock c || (wantRx && c == C.rxCh) || (wantTx && c == C.txCh)))
          ∧ t.chan C.rxCh =
            (if nd.rx then
              { en := true, dir := .p2m, maddr := m.rx, minc := true, cnt := m.size.setWidth 16,
                tcie := m.dir != 2, teie := true, tc := false, te := false }
             else { s.chan C.rxCh with en := false })
          ∧ t.chan C.txCh =
            (if nd.tx then
              { en := true, dir := .m2p, maddr := if m.tx = 0 then (s.chan C.txCh).maddr else m.tx,
                minc := m.tx != 0, cnt := m.size.setWidth 16, tcie := m.dir == 2, teie := true, tc := false,
                te := false }
             else { s.chan C.txCh with en := false })
          ∧ ∀ c, c ≠ C.rxCh → c ≠ C.txCh → t.chan c = s.chan c)

/-- 41_spi_bus.md R189: BUS.XMIT of a busy bus exchanges nothing and returns E_BUSY; on an idle one it sends its frame,
returns DEV's answer (here the first of a queue that is not empty, log 6) and stores it at `ra` if `ra` is not 0 (a
backed address, log 22), where another bus's transfer that is writing `ra` leaves any byte there
(70_reset_and_hazards.md R460, log 11), and no other byte changes. That it does so on a bus of every configuration is
the model's: on an LSB-first bus, of which 00_scope.md R8 speaks only for message transfers, a choice (log 45), and on a
half-duplex one a reading of R189 (log 36). -/
def Obligations.BusXmit : Prop :=
  ∀ (b ra : Word) (t : Byte) (r : Byte) (rs : List Byte) (s : State), s.busReady b.toNat →
    (s.busy b.toNat = true → completes (.busXmit b t ra) s (.codeByte .busy 0) [] (fun _ => True))
      ∧ (s.busy b.toNat = false → s.answersOf b.toNat = r :: rs → (ra ≠ 0 → s.backed ra = true) →
        completes (.busXmit b t ra) s (.codeByte .noError r) [.wire, .answers, .mem, .dirty, .draws] (fun u =>
          u.wireOf b.toNat = t :: s.wireOf b.toNat ∧ u.answersOf b.toNat = rs
            ∧ (∀ b', b' ≠ b.toNat → u.wireOf b' = s.wireOf b' ∧ u.answersOf b' = s.answersOf b')
            ∧ wroteBytes ra (if ra = 0 then [] else [r]) s u))

/-- 41_spi_bus.md R187, 60_exceptions.md R414: BUS.WAIT returns at once on a bus that is not TRANSFERRING, polls a
TRANSFERRING one with no state change, ends at the first poll after the terminal event, and faults in ISR context. -/
def Obligations.BusWait : Prop :=
  ∀ (b : Word) (s : State), s.busReady b.toNat →
    ((s.bus b.toNat).status ≠ .transferring → completes (.busWait b) s .none [] (fun _ => True))
      ∧ ((s.bus b.toNat).status = .transferring → s.isr = false →
        begins (.busWait b) s (.busy (.busWait b.toNat) [.finish .none]) [] (fun _ => True))
      ∧ ((s.bus b.toNat).status = .transferring → s.isr = true → exec (.busWait b) s = .fault .waitInInterrupt)
      ∧ (s.fg = .busy (.busWait b.toNat) [.finish .none] →
        ((s.bus b.toNat).status = .transferring → agentStep exec .fg s = .next s)
          ∧ ((s.bus b.toNat).status ≠ .transferring →
            ∃ t, agentStep exec .fg s = .next t ∧ t.fg = .idle ∧ t.prog = s.prog ∧ t.isr = s.isr
              ∧ changesOnly [.control, .result] s t))

/-- 70_reset_and_hazards.md R455, 60_exceptions.md R414: on a bus that has not been through BUS.INIT every BUS operation
but BUS.INIT, every IRQ operation, every SD and SDI operation of a session and every ADP operation that reaches its bus
faults. In ISR context a byte-exchanging SD operation faults as SdInInterrupt before that (log 16); ADP.BEGIN and
ADP.SYNC reach their bus once Build and the future's check have passed (log 15). -/
def Obligations.UninitialisedBusFaults : Prop :=
  ∀ (b w y z : Word) (v : Byte) (sp : Speed) (index : BitVec 6) (sh : Shape) (f : Bool) (s : State),
    (b.toNat < s.numBuses → (s.bus b.toNat).inited = false →
        ∀ i ∈ [Instr.busSetId b v, .busId b, .busXfer b w y, .busXmit b v w, .busWait b, .busStatus b, .busErrors b,
            .busBusy b, .busSetCb b w, .busSetTxDef b v, .busSetSpeed b sp, .irqSpi b, .irqDmaRx b, .irqDmaTx b,
            .adpDispatch b],
          exec i s = .fault .uninitialisedBus)
      ∧ (b.toNat < s.cfg.sessions.length → s.sesBus b.toNat < s.numBuses → (s.bus (s.sesBus b.toNat)).inited = false →
        (∀ i ∈ [Instr.sdSectors b, .sdType b, .sdInited b, .sdBlkLen b, .sdEraseSz b, .sdCid b w, .sdCsd b w,
            .sdCrcEn b],
          exec i s = .fault .uninitialisedBus)
          ∧ (s.isr = false →
            ∀ i ∈ [Instr.sdInit b, .sdRead1 b w y, .sdReadN b w z y, .sdWrite1 b w y, .sdWriteN b w z y, .sdSetCrc b f,
                .sdiCmd b index w sh f, .sdiR1Poll b, .sdiBusyWait b, .sdiRdBlk b w y f, .sdiWrBlk b w v, .sdiStopR b,
                .sdiStopW b, .sdiRdReg b index w],
              exec i s = .fault .uninitialisedBus))
      ∧ (b.toNat < s.cfg.adapters.length → (s.adpCfg b.toNat).bus < s.numBuses →
        (s.bus (s.adpCfg b.toNat).bus).inited = false →
        exec (.adpComplete b) s = .fault .uninitialisedBus
          ∧ ∀ (r : OpRec) (ms : List Msg) (scratch : List Byte), s.opRec w.toNat = some r →
            build (s.adpCfg b.toNat).buf r = .built ms scratch →
            (s.fut (s.adpCfg b.toNat).fut).running = false →
            exec (.adpBegin b w) s = .fault .uninitialisedBus ∧ exec (.adpSync b w) s = .fault .uninitialisedBus)

/-! ## DMA -/

/-- 41_spi_bus.md R195, R196, 70_reset_and_hazards.md R462: the try-lock takes a free channel and fails on a taken one,
the unlock frees a channel no bus holds and faults on a held one, and both refuse a number outside the channels. -/
def Obligations.DmaLocks : Prop :=
  ∀ (c : Word) (s : State),
    (c.toNat < s.cfg.numDmaCh → s.lock c.toNat = false →
        completes (.dmaTryLock c) s (.value 1) [.locks] (fun t =>
          t.lock c.toNat = true ∧ ∀ c', c' ≠ c.toNat → t.lock c' = s.lock c'))
      ∧ (c.toNat < s.cfg.numDmaCh → s.lock c.toNat = true →
        completes (.dmaTryLock c) s (.value 0) [] (fun _ => True))
      ∧ (c.toNat < s.cfg.numDmaCh → s.heldByBus c.toNat = false →
        completes (.dmaUnlock c) s .none [.locks, .ext] (fun t =>
          t.lock c.toNat = false ∧ ∀ c', c' ≠ c.toNat → t.lock c' = s.lock c'))
      ∧ (c.toNat < s.cfg.numDmaCh → s.heldByBus c.toNat = true → exec (.dmaUnlock c) s = .fault .foreignUnlock)
      ∧ (s.cfg.numDmaCh ≤ c.toNat →
        exec (.dmaTryLock c) s = .refused .badChannel ∧ exec (.dmaUnlock c) s = .refused .badChannel)

/-! ## IRQ -/

/-- 42_spi_events.md R220, R222, R224, R225: the handler operations that make no transition: nothing pending and enabled
changes nothing; on an IDLE bus a pending error is cleared and accumulated; a transfer-complete of a channel that does
not complete the current message is cleared and nothing else happens. With the error a transfer-complete that is enabled
is cleared, and one that is not enabled stays pending (log 27). -/
def Obligations.HandlersWithoutTransition : Prop :=
  ∀ (b : Word) (s : State), s.busReady b.toNat →
    let B := s.bus b.toNat
    let C := s.busCfg b.toNat
    (s.spiPending b.toNat = false → completes (.irqSpi b) s .none [] (fun _ => True))
      ∧ (s.spiPending b.toNat = true → B.phase = .idle →
        completes (.irqSpi b) s .none [.buses] (fun t =>
          t.bus b.toNat =
              { B with
                ovr := false, modf := false, crcerr := false,
                errors := B.errors ||| (if B.ovr then 1#4 else 0) ||| (if B.modf then 2#4 else 0)
                  ||| (if B.crcerr then 4#4 else 0) }
            ∧ ∀ b', b' ≠ b.toNat → t.bus b' = s.bus b'))
      ∧ ∀ (i : Instr) (c : Nat) (mine : List Phase),
        (i = .irqDmaRx b ∧ c = C.rxCh ∧ mine = [.reading, .readingWriting]
          ∨ i = .irqDmaTx b ∧ c = C.txCh ∧ mine = [.writing]) →
        (s.chanPending b.toNat c = false → completes i s .none [] (fun _ => True))
          ∧ ((s.chan c).te = true → (s.chan c).teie = true → B.phase = .idle →
            completes i s .none [.buses, .chans] (fun t =>
              t.bus b.toNat = { B with errors := B.errors ||| 8#4 } ∧ (∀ b', b' ≠ b.toNat → t.bus b' = s.bus b')
                ∧ t.chan c = { s.chan c with te := false, tc := (s.chan c).tc && !(s.chan c).tcie }
                ∧ ∀ c', c' ≠ c → t.chan c' = s.chan c'))
          ∧ (((s.chan c).te = false ∨ (s.chan c).teie = false) → (s.chan c).tc = true → (s.chan c).tcie = true →
            B.phase ∉ mine →
            completes i s .none [.chans] (fun t =>
              t.chan c = { s.chan c with tc := false } ∧ ∀ c', c' ≠ c → t.chan c' = s.chan c'))

/-- 42_spi_events.md R222, R231: IRQ.SPI on a bus in a transfer clears the pending flags, accumulates all of them, and
ends the transfer in ERROR, invoking the bus callback once (here one that issues nothing). -/
def Obligations.IrqSpiEndsTransfer : Prop :=
  ∀ (b : Word) (s : State), s.busReady b.toNat → s.spiPending b.toNat = true → s.busy b.toNat = true →
    s.silent (s.bus b.toNat).callback →
    let B := s.bus b.toNat
    let e := B.errors ||| (if B.ovr then 1#4 else 0) ||| (if B.modf then 2#4 else 0) ||| (if B.crcerr then 4#4 else 0)
    completes (.irqSpi b) s .none [.buses, .chans, .locks, .calls] (fun t =>
      endedTransfer b.toNat .error e s t
        ∧ (t.bus b.toNat).ovr = false ∧ (t.bus b.toNat).modf = false ∧ (t.bus b.toNat).crcerr = false
        ∧ (∀ c, (t.chan c).tc = (s.chan c).tc ∧ (t.chan c).te = (s.chan c).te)
        ∧ t.calls = callsAfter B.callback (.bus b.toNat) s.calls)

/-- 42_spi_events.md R224, R225, R227, R231: a channel's transfer error is taken before its transfer-complete, which is
discarded where it is enabled and kept where it is not (log 27), and ends the transfer in ERROR with the DMA flag; no
per-message callback runs. -/
def Obligations.IrqDmaErrorEndsTransfer : Prop :=
  ∀ (b : Word) (s : State), s.busReady b.toNat → s.busy b.toNat = true →
    s.silent (s.bus b.toNat).callback →
    let B := s.bus b.toNat
    let C := s.busCfg b.toNat
    (∀ (i : Instr) (c : Nat), (i = .irqDmaRx b ∧ c = C.rxCh ∨ i = .irqDmaTx b ∧ c = C.txCh) →
      (s.chan c).te = true → (s.chan c).teie = true →
      completes i s .none [.buses, .chans, .locks, .calls] (fun t =>
        endedTransfer b.toNat .error (B.errors ||| 8#4) s t
          ∧ (t.bus b.toNat).ovr = B.ovr ∧ (t.bus b.toNat).modf = B.modf ∧ (t.bus b.toNat).crcerr = B.crcerr
          ∧ (t.chan c).te = false ∧ (t.chan c).tc = ((s.chan c).tc && !(s.chan c).tcie)
          ∧ (∀ c', c' ≠ c → (t.chan c').tc = (s.chan c').tc ∧ (t.chan c').te = (s.chan c').te)
          ∧ t.calls = callsAfter B.callback (.bus b.toNat) s.calls))

/-- 42_spi_events.md R226, R228, R230: the completing channel's transfer-complete of the last message invokes that
message's callback, then ends the transfer in TRANSFERRED and invokes the bus callback, each once (here callbacks that
issue nothing). -/
def Obligations.LastMessageEndsTransfer : Prop :=
  ∀ (b : Word) (s : State) (i : Instr) (c : Nat), s.busReady b.toNat → completingEvent b s i c →
    let B := s.bus b.toNat
    let m := s.current b.toNat
    B.count.toNat ≤ B.index.toNat + 1 → s.silent m.callback → s.silent B.callback →
    completes i s .none [.buses, .chans, .locks, .calls] (fun t =>
      endedTransfer b.toNat .transferred B.errors s t
        ∧ (t.bus b.toNat).ovr = B.ovr ∧ (t.bus b.toNat).modf = B.modf ∧ (t.bus b.toNat).crcerr = B.crcerr
        ∧ (t.chan c).tc = false
        ∧ (∀ c', (t.chan c').te = (s.chan c').te ∧ (c' ≠ c → (t.chan c').tc = (s.chan c').tc))
        ∧ t.calls = callsAfter B.callback (.bus b.toNat) (callsAfter m.callback (.msg m) s.calls))

/-- 42_spi_events.md R228, R232, R233: the completing channel's transfer-complete of an earlier message invokes its
callback (here one that issues nothing), then moves to the next message: index, state and the armed channels; a channel
the next message does not need is disabled, its other fields kept, but for the completing channel's cleared flag; the
locks, the status and the errors stay, and the bus callback is not invoked. -/
def Obligations.MessageAdvances : Prop :=
  ∀ (b : Word) (s : State) (i : Instr) (c : Nat), s.busReady b.toNat → completingEvent b s i c →
    let B := s.bus b.toNat
    let C := s.busCfg b.toNat
    let m := s.current b.toNat
    let m' := s.desc B.messages (B.index.toNat + 1)
    let nd := need C.mode m'.dir
    B.index.toNat + 1 < B.count.toNat → C.rxCh ≠ C.txCh → s.silent m.callback →
    completes i s .none [.buses, .chans, .calls] (fun t =>
      t.bus b.toNat =
          { B with index := B.index + 1, phase := phaseOfDir m'.dir, pos := 0, rxdmaen := nd.rx, txdmaen := nd.tx }
        ∧ (∀ b', b' ≠ b.toNat → t.bus b' = s.bus b')
        ∧ t.chan C.rxCh =
          (if nd.rx then
            { en := true, dir := .p2m, maddr := m'.rx, minc := true, cnt := m'.size.setWidth 16,
              tcie := m'.dir != 2, teie := true, tc := false, te := false }
           else { s.chan C.rxCh with en := false, tc := (s.chan C.rxCh).tc && c != C.rxCh })
        ∧ t.chan C.txCh =
          (if nd.tx then
            { en := true, dir := .m2p, maddr := if m'.tx = 0 then (s.chan C.txCh).maddr else m'.tx,
              minc := m'.tx != 0, cnt := m'.size.setWidth 16, tcie := m'.dir == 2, teie := true, tc := false,
              te := false }
           else { s.chan C.txCh with en := false, tc := (s.chan C.txCh).tc && c != C.txCh })
        ∧ (∀ c', c' ≠ C.rxCh → c' ≠ C.txCh → t.chan c' = s.chan c')
        ∧ t.calls = callsAfter m.callback (.msg m) s.calls)

/-- 60_exceptions.md R410, R411, R412: a step of the interrupt context leaves no trace of its context: FG's place, its
program, its last result and the context bit are what they were, whatever the callbacks issued. The context bit, and
that a result inside an ISR step is kept apart from FG's last one, are the model's (log 14). A handler that a
per-message callback issues does not nest: the step goes on to the next message, the other buses and channels as they
were, pending flags among them (log 13). -/
def Obligations.InterruptKeepsForeground : Prop :=
  (∀ (b : Nat) (s t : State) (x : Turn), (x = .irqSpi b ∨ x = .irqDmaRx b ∨ x = .irqDmaTx b) →
      agentStep exec x s = .next t → t.fg = s.fg ∧ t.prog = s.prog ∧ t.ret = s.ret ∧ t.isr = s.isr)
    ∧ ∀ (b b' : Word) (s : State) (i j : Instr) (c : Nat), s.busReady b.toNat → s.busReady b'.toNat →
      completingEvent b s i c → (j = .irqSpi b' ∨ j = .irqDmaRx b' ∨ j = .irqDmaTx b') →
      let B := s.bus b.toNat
      let C := s.busCfg b.toNat
      let m := s.current b.toNat
      let m' := s.desc B.messages (B.index.toNat + 1)
      let nd := need C.mode m'.dir
      B.index.toNat + 1 < B.count.toNat → m.callback ≠ 0 → s.callback m.callback.toNat = .always [.op j] →
      completes i s .none [.buses, .chans, .calls] (fun t =>
        t.bus b.toNat =
            { B with index := B.index + 1, phase := phaseOfDir m'.dir, pos := 0, rxdmaen := nd.rx, txdmaen := nd.tx }
          ∧ (∀ b'', b'' ≠ b.toNat → t.bus b'' = s.bus b'')
          ∧ (∀ c', c' ≠ C.rxCh → c' ≠ C.txCh → t.chan c' = s.chan c')
          ∧ t.calls = { cb := m.callback, arg := .msg m } :: s.calls)

/-- 60_exceptions.md R414, R415, R417, 95_test_vectors.md P7: at any success terminal a bus callback that waits for a
running future makes the handler fault, and one that does not return leaves it no next state (log 39: the step does not
end). An SD timeout callback that does not return keeps FG where it is, an end callback with the window still open
(44_sd_protocol.md R311); once a callback has returned FG goes on at the frame that waits for it. -/
def Obligations.CallbacksThatStop : Prop :=
  (∀ (b f : Word) (s : State) (i : Instr) (c : Nat), s.busReady b.toNat → completingEvent b s i c →
      (s.bus b.toNat).count.toNat ≤ (s.bus b.toNat).index.toNat + 1 → (s.current b.toNat).callback = 0 →
      (s.bus b.toNat).callback ≠ 0 →
      (s.callback (s.bus b.toNat).callback.toNat = .always [.op (.futWait f)] → (s.fut f.toNat).running = true →
          exec i s = .fault .waitInInterrupt)
        ∧ ∀ rest, s.callback (s.bus b.toNat).callback.toNat = .always (.hang :: rest) →
          exec i s = .fault .callbackHang)
    ∧ (∀ (x : Word) (rest : List Act) (s : State), s.sdReady x.toNat → (s.sesCfg x.toNat).timeoutBegin ≠ 0 →
      s.callback (s.sesCfg x.toNat).timeoutBegin.toNat = .always (.hang :: rest) →
      begins (.sdiBusyWait x) s (.busy .hang [.script rest, .busyStart x.toNat, .finish .code]) [.sess, .calls]
        (fun t => t.ses x.toNat = { s.ses x.toNat with expired := false, winOpen := true }
          ∧ t.calls = { cb := (s.sesCfg x.toNat).timeoutBegin, arg := .word s.cfg.timeoutBusy } :: s.calls))
    ∧ (∀ (i : Nat) (rest : List Byte) (acts : List Act) (s : State), s.isr = false → s.busReady (s.sesBus i) →
      s.busy (s.sesBus i) = false → (s.sesCfg i).timeoutEnd ≠ 0 →
      s.callback (s.sesCfg i).timeoutEnd.toNat = .always (.hang :: acts) →
      s.fg = .busy (.xchg (s.sesBus i) 0xFF) [.busyPoll i, .finish .code] → s.answersOf (s.sesBus i) = 0xFF :: rest →
      ∃ t, agentStep exec .fg s = .next t ∧ sentByte (s.sesBus i) 0xFF rest s t
        ∧ movedTo (.busy .hang [.script acts, .windowEnd i (Ret.ofCode .noError), .finish .code])
          [.wire, .answers, .calls] s t
        ∧ t.calls = { cb := (s.sesCfg i).timeoutEnd, arg := .word 0 } :: s.calls)
    ∧ (∀ (k : List Frame) (s : State), s.fg = .busy .hang k → agentStep exec .fg s = .next s)
    ∧ ∀ (i : Nat) (k : List Frame) (v w : Ret) (s : State),
      unwind (.script [] :: k) v s = unwind k v s
        ∧ (∃ t, unwind (.busyStart i :: k) v s = .next t
          ∧ sesMoves i (.busy (.xchg (s.sesBus i) 0xFF) (.busyPoll i :: k)) (s.ses i) s t)
        ∧ (∃ t, unwind (.tokenStart i :: k) v s = .next t
          ∧ sesMoves i (.busy (.xchg (s.sesBus i) 0xFF) (.tokenPoll i :: k)) (s.ses i) s t)
        ∧ unwind (.windowEnd i w :: k) v s = unwind k w (s.setSes i { s.ses i with winOpen := false })

/-! ## DP and ENV -/

/-- 42_spi_events.md R235, R236, 20_memory.md R82: one DP step sends the source byte or the filler, takes DEV's answer,
stores it at the destination and counts the frame; the last frame makes both needed channels' transfer-complete pending;
no other byte of memory changes. Where software wrote to the source byte during the transfer, the frame sent is any byte
(20_memory.md R96), and where it wrote to the destination byte, so is the byte stored (70_reset_and_hazards.md R460, log
11). DP has a step exactly under R235's three conditions and no other turn of it changes anything (log 32); at a frame
with an unbacked byte it has none either (20_memory.md R81), and as no turn of DP ends in a fault it steps again in a
later transfer. That it is stuck there before the frame is sent is the model's reading (log 22). -/
def Obligations.DatapathFrame : Prop :=
  ∀ (b : Nat) (s : State),
    let C := s.busCfg b
    let m := s.current b
    let k := (s.bus b).pos
    let nd := need C.mode m.dir
    let last := k + 1 == m.size
    let sent := m.tx = 0 ∨ (b, (m.tx + k).toNat) ∉ s.dirty
    let got := m.rx = 0 ∨ (b, (m.rx + k).toNat) ∉ s.dirty
    (dpReady s b = true ↔
        b < s.numBuses ∧ s.busy b = true ∧ k.toNat < m.size.toNat ∧ (nd.rx = true → (s.chan C.rxCh).en = true)
          ∧ (nd.tx = true → (s.chan C.txCh).en = true))
      ∧ (∃ t, agentStep exec (.dp b) s = .next t)
      ∧ ((dpReady s b = false ∨ m.tx ≠ 0 ∧ s.backed (m.tx + k) = false ∨ m.rx ≠ 0 ∧ s.backed (m.rx + k) = false) →
        agentStep exec (.dp b) s = .next s)
      ∧ ∀ (r : Byte) (rs : List Byte), dpReady s b = true → s.answersOf b = r :: rs → C.rxCh ≠ C.txCh →
        (m.tx ≠ 0 → s.backed (m.tx + k) = true) → (m.rx ≠ 0 → s.backed (m.rx + k) = true) →
        ∃ t, ∃ v w : Byte, agentStep exec (.dp b) s = .next t
          ∧ changesOnly [.buses, .chans, .mem, .answers, .wire, .draws] s t ∧ (sent → got → t.draws = s.draws)
          ∧ t.bus b = { s.bus b with pos := k + 1 } ∧ (∀ b', b' ≠ b → t.bus b' = s.bus b')
          ∧ t.answersOf b = rs ∧ (∀ b', b' ≠ b → t.answersOf b' = s.answersOf b' ∧ t.wireOf b' = s.wireOf b')
          ∧ t.wireOf b = (if C.mode = .halfDuplexRx then s.wireOf b else v :: s.wireOf b)
          ∧ (sent → v = if m.tx = 0 then (s.bus b).txDefault else s.mem.read (m.tx + k))
          ∧ (∀ a, t.mem.read a = if m.rx ≠ 0 ∧ a = m.rx + k then w else s.mem.read a) ∧ (got → w = r)
          ∧ ∀ c, t.chan c =
            (if nd.rx = true ∧ c = C.rxCh ∨ nd.tx = true ∧ c = C.txCh then
              { s.chan c with cnt := (s.chan c).cnt - 1, tc := (s.chan c).tc || last }
             else s.chan c)

/-- 42_spi_events.md R221, 10_state.md R62, 70_reset_and_hazards.md R462: ENV raises error flags only on a bus in a
transfer and an enabled channel, expires only an open window of a session with a begin callback, and releases only locks
it took, each event writing its own flag alone. That a turn that may not happen changes nothing (log 32) and the record
of ENV's locks (log 29) are the model's. -/
def Obligations.EnvironmentEvents : Prop :=
  ∀ (n : Nat) (s : State),
    (∀ x ∈ [Turn.envOvr n, .envModf n, .envCrcErr n], s.busy n = false → agentStep exec x s = .next s)
      ∧ (n < s.numBuses → s.busy n = true →
        ∀ e ∈ [(Turn.envOvr n, { s.bus n with ovr := true }), (.envModf n, { s.bus n with modf := true }),
            (.envCrcErr n, { s.bus n with crcerr := true })],
          ∃ t, agentStep exec e.1 s = .next t ∧ t.bus n = e.2 ∧ (∀ b, b ≠ n → t.bus b = s.bus b)
            ∧ changesOnly [.buses] s t)
      ∧ ((s.chan n).en = false → agentStep exec (.envTe n) s = .next s)
      ∧ (n < s.cfg.numDmaCh → (s.chan n).en = true →
        ∃ t, agentStep exec (.envTe n) s = .next t ∧ t.chan n = { s.chan n with te := true }
          ∧ (∀ c, c ≠ n → t.chan c = s.chan c) ∧ changesOnly [.chans] s t)
      ∧ (n < s.cfg.sessions.length → (s.ses n).winOpen = true → (s.sesCfg n).timeoutBegin ≠ 0 →
        ∃ t, agentStep exec (.envExpire n) s = .next t ∧ t.ses n = { s.ses n with expired := true }
          ∧ (∀ i, i ≠ n → t.ses i = s.ses i) ∧ changesOnly [.sess] s t)
      ∧ (n < s.cfg.numDmaCh → s.lock n = false →
        ∃ t, agentStep exec (.envLock n) s = .next t ∧ t.lock n = true ∧ (∀ c, c ≠ n → t.lock c = s.lock c)
          ∧ changesOnly [.locks, .ext] s t)
      ∧ (s.extLock n = true →
        ∃ t, agentStep exec (.envUnlock n) s = .next t ∧ t.lock n = false ∧ (∀ c, c ≠ n → t.lock c = s.lock c)
          ∧ changesOnly [.locks, .ext] s t)
      ∧ (((s.ses n).winOpen = false ∨ (s.sesCfg n).timeoutBegin = 0) → agentStep exec (.envExpire n) s = .next s)
      ∧ (s.extLock n = false → agentStep exec (.envUnlock n) s = .next s)
      ∧ (s.lock n = true → agentStep exec (.envLock n) s = .next s)

/-- 20_memory.md R84, R96, 70_reset_and_hazards.md R460: a host write to a descriptor of the list of a busy bus faults,
and one to any other descriptor writes that descriptor alone. A host write of a byte leaves it in memory, or any byte
where a transfer is writing it, and marks it for the transfers whose buffers it lies in, an unfinished message's source
or a destination; a host read of a byte that no transfer is writing gives it, and one of any other still completes. What
is open to a callback in ISR context is the model's reading (log 11). -/
def Obligations.DescriptorWrites : Prop :=
  ∀ (p i : Word) (m : Msg) (s : State), s.fg = .idle →
    ((∃ b, b < s.numBuses ∧ s.busy b = true ∧ (s.bus b).messages = p ∧ i.toNat < (s.bus b).count.toNat) →
        agentStep exec (.host (.desc p i m)) s = .fault .descriptorWrittenInFlight)
      ∧ ((∀ b, b < s.numBuses → s.busy b = true → (s.bus b).messages = p → (s.bus b).count.toNat ≤ i.toNat) →
        ∃ t, agentStep exec (.host (.desc p i m)) s = .next t ∧ changesOnly [.descs] s t ∧ t.desc p i.toNat = m
          ∧ ∀ (q : Word) (j : Word), q ≠ p ∨ j ≠ i → t.desc q j.toNat = s.desc q j.toNat)
      ∧ ∀ (a : Word) (v : Byte), s.backed a = true →
        (∃ t, agentStep exec (.host (.store a v)) s = .next t ∧ changesOnly [.mem, .dirty, .draws] s t
            ∧ wroteBytes a [v] s t
            ∧ ∀ x : Nat × Nat, x ∈ t.dirty ↔
              x ∈ s.dirty ∨ x.1 < s.numBuses ∧ x.2 = a.toNat ∧ s.busy x.1 = true
                ∧ ((∃ n, (s.bus x.1).index.toNat ≤ n ∧ n < (s.bus x.1).count.toNat
                    ∧ covers (s.desc (s.bus x.1).messages n).tx (s.desc (s.bus x.1).messages n).size a = true)
                  ∨ ∃ n, n < (s.bus x.1).count.toNat
                    ∧ covers (s.desc (s.bus x.1).messages n).rx (s.desc (s.bus x.1).messages n).size a = true))
          ∧ ∃ t r, agentStep exec (.host (.load a)) s = .next t ∧ changesOnly [.result, .draws] s t
            ∧ t.result = .value r
            ∧ (s.readOpen a = false → r = (s.mem.read a).setWidth 32 ∧ t.draws = s.draws)

/-! ## SDI: the CRCs, framing and status decoding -/

/-- 43_sd_framing.md R260, R261, 20_memory.md R90, R96: SDI.CRC7 and SDI.CRC16 return the CRC of the bytes read, which
are those in memory but where the read is open: in FG context a byte that a transfer is writing, in ISR context one of
those still to arrive (the model's reading, log 11). They change nothing, or the counter of draws where a read is open.
The CRC of a message, taken as a polynomial over GF(2) with the first byte's bit 7 the highest coefficient, is the
remainder of the message times X^7 by X^7+X^3+1, and of the message times X^16 by X^16+X^12+X^5+1. The CRC-16 of a block
followed by its own trailer, high byte first, is 0; changing one bit of the bytes changes both CRCs. -/
def Obligations.CrcOperations : Prop :=
  (∀ (addr n : Word) (s : State),
      (∀ k, k < n.toNat → s.backed (addr + BitVec.ofNat 32 k) = true) →
      let still := fun t : State =>
        (∀ k, k < n.toNat → s.readOpen (addr + BitVec.ofNat 32 k) = false) → t.draws = s.draws
      ∃ v : List Byte, v.length = n.toNat
        ∧ (∀ k, k < n.toNat → s.readOpen (addr + BitVec.ofNat 32 k) = false →
          v.getD k 0 = s.mem.read (addr + BitVec.ofNat 32 k))
        ∧ completes (.sdiCrc7 addr n) s (.value ((crc7 v).setWidth 32)) [.draws] still
        ∧ completes (.sdiCrc16 addr n) s (.value ((crc16 v).setWidth 32)) [.draws] still)
    ∧ (∀ v : List Byte,
      let X : Polynomial (ZMod 2) := Polynomial.X
      let poly := fun l : List Bool => l.foldl (fun p bit => p * X + (if bit then 1 else 0)) 0
      let message := poly (v.flatMap (fun x => [7, 6, 5, 4, 3, 2, 1, 0].map (fun j => x.getLsbD j)))
      X ^ 7 + X ^ 3 + 1 ∣ message * X ^ 7 + poly ((List.range 7).reverse.map (fun j => (crc7 v).getLsbD j))
        ∧ X ^ 16 + X ^ 12 + X ^ 5 + 1 ∣
          message * X ^ 16 + poly ((List.range 16).reverse.map (fun j => (crc16 v).getLsbD j)))
    ∧ (∀ v : List Byte, crc16 (v ++ [(crc16 v).extractLsb' 8 8, (crc16 v).extractLsb' 0 8]) = 0)
    ∧ ∀ (pre post : List Byte) (x : Byte) (j : Fin 8),
      crc16 (pre ++ (x ^^^ BitVec.twoPow 8 j) :: post) ≠ crc16 (pre ++ x :: post)
        ∧ crc7 (pre ++ (x ^^^ BitVec.twoPow 8 j) :: post) ≠ crc7 (pre ++ x :: post)

/-- 43_sd_framing.md R263, R273, R274: the six bytes of a command frame; the code of the first set status bit in
R273's order; the code of an error token. None changes anything. -/
def Obligations.FramesAndStatus : Prop :=
  (∀ (index : BitVec 6) (arg : Word) (s : State),
      let f : List Byte :=
        [0x40 ||| index.setWidth 8, arg.extractLsb' 24 8, arg.extractLsb' 16 8, arg.extractLsb' 8 8,
         arg.extractLsb' 0 8]
      completes (.sdiFrame index arg) s (.frame (f ++ [((crc7 f).setWidth 8 <<< 1) ||| 1])) [] (fun _ => True))
    ∧ (∀ (r1 r2 : Byte) (ai : Bool) (s : State),
      let rows : List (Bool × Code) :=
        [(r1.getLsbD 6, .sdParameter), (r1.getLsbD 5, .sdAddress), (r1.getLsbD 4, .sdEraseSeq), (r1.getLsbD 3, .crc),
         (r1.getLsbD 2, .sdIllegalCmd), (r1.getLsbD 1, .sdEraseReset), (r1.getLsbD 0 && !ai, .sdInIdle),
         (r2.getLsbD 7, .sdOutOfRange), (r2.getLsbD 6, .sdEraseParam), (r2.getLsbD 5, .sdWpViolation),
         (r2.getLsbD 4, .sdEccFailed), (r2.getLsbD 3, .sdCcError), (r2.getLsbD 2, .sdError),
         (r2.getLsbD 1, .sdWpEraseSkip), (r2.getLsbD 0, .sdLocked), (true, .noError)]
      ∀ row, rows.find? Prod.fst = some row →
        completes (.sdiDecode r1 r2 ai) s (.code row.2) [] (fun _ => True))
    ∧ ∀ (token : Byte) (s : State), token.extractLsb' 4 4 = 0 →
      completes (.sdiErrTok token) s
        (.code (if 8 ≤ token.toNat then .sdOutOfRange else if 4 ≤ token.toNat then .sdEccFailed
          else if 2 ≤ token.toNat then .sdCcError else .sdError)) [] (fun _ => True)

/-! ## SD: accessors and register copies -/

/-- 44_sd_protocol.md R327, R346: on a bus that has been through BUS.INIT the accessors return the session's fields in
their encodings, and the sector count of R327 with the CSD's fields by their bit positions, and change nothing; a count
of 2^32, which R327's formula gives for the largest C_SIZE, comes back modulo 2^32 (the model's choice, log 24). -/
def Obligations.SessionReads : Prop :=
  ∀ (x : Word) (s : State), x.toNat < s.cfg.sessions.length →
    s.busReady (s.sesBus x.toNat) →
    let S := s.ses x.toNat
    let field := fun hi lo : Nat => (S.csd.extractLsb' lo (hi + 1 - lo)).toNat
    completes (.sdType x) s
        (.value (match S.cardType with
          | .unknown => 0 | .mmc => 1 | .sdscV1 => 2 | .sdscV2 => 3 | .sdhcSdxc => 4)) [] (fun _ => True)
      ∧ completes (.sdInited x) s (.value (if S.initialized then 1 else 0)) [] (fun _ => True)
      ∧ completes (.sdCrcEn x) s (.value (if S.crcEnabled then 1 else 0)) [] (fun _ => True)
      ∧ completes (.sdBlkLen x) s (.value (S.blockLen.setWidth 32)) [] (fun _ => True)
      ∧ completes (.sdEraseSz x) s (.value S.eraseSize) [] (fun _ => True)
      ∧ (S.initialized = false → completes (.sdSectors x) s (.value 0) [] (fun _ => True))
      ∧ (S.initialized = true → S.cardType ≠ .mmc → field 127 126 = 1 →
        completes (.sdSectors x) s (.value (BitVec.ofNat 32 ((field 69 48 + 1) * 1024))) [] (fun _ => True))
      ∧ (S.initialized = true → (S.cardType = .mmc ∨ field 127 126 ≠ 1) →
        completes (.sdSectors x) s
          (.value (BitVec.ofNat 32 ((field 73 62 + 1) * 2 ^ (field 49 47 + 2) * 2 ^ field 83 80 / 512))) []
          (fun _ => True))

/-- 44_sd_protocol.md R347, 10_state.md R54: SD.CID and SD.CSD, of a card whose bus has been through BUS.INIT, check the
address, then that the card is initialised, and copy the 16 stored bytes, byte 0 first, to memory; no other byte
changes. A byte of memory that a transfer is writing holds any byte then (70_reset_and_hazards.md R460, log 11). -/
def Obligations.RegisterCopies : Prop :=
  ∀ (x dst : Word) (s : State), x.toNat < s.cfg.sessions.length →
    s.busReady (s.sesBus x.toNat) →
    let S := s.ses x.toNat
    ∀ o ∈ [(Instr.sdCid x dst, S.cid), (.sdCsd x dst, S.csd)],
      (dst = 0 → completes o.1 s (.code .nullPointer) [] (fun _ => True))
        ∧ (dst ≠ 0 → S.initialized = false → completes o.1 s (.code .state) [] (fun _ => True))
        ∧ (dst ≠ 0 → S.initialized = true →
          (∀ k, k < 16 → s.backed (dst + BitVec.ofNat 32 k) = true) →
          completes o.1 s (.code .noError) [.mem, .dirty, .draws]
            (wroteBytes dst ((List.range 16).map (fun k => o.2.extractLsb' (8 * k) 8)) s))

/-! ## SD and SDI: entry -/

/-- 60_exceptions.md R414, 44_sd_protocol.md R310, 41_spi_bus.md R181: in ISR context the byte-exchanging SD and SDI
operations fault, before their argument checks (the model's reading, log 16); in FG context those that need the card's
bus, one that has been through BUS.INIT, fault where it is not FULL_DUPLEX, an SDI operation issued on its own as
SdBegin does (log 17); and an SD operation whose bus is busy under another id returns E_BUSY with nothing changed. One
that a timeout callback issues, and that would open a window of a session FG is inside, ends with E_BUSY too, nothing
but its result changed (the model's choice, log 46: windows never nest, R311); one that opens no window runs by its own
rule (60_exceptions.md R417), and FG goes on inside it with the callback's frames below its own. -/
def Obligations.SdEntryStops : Prop :=
  ∀ (x w y z : Word) (index : BitVec 6) (sh : Shape) (f : Bool) (v : Byte) (s : State),
    x.toNat < s.cfg.sessions.length →
    (s.isr = true →
        ∀ i ∈ [Instr.sdInit x, .sdRead1 x w y, .sdReadN x w z y, .sdWrite1 x w y, .sdWriteN x w z y, .sdSetCrc x f,
            .sdiCmd x index w sh f, .sdiR1Poll x, .sdiBusyWait x, .sdiRdBlk x w y f, .sdiWrBlk x w v, .sdiStopR x,
            .sdiStopW x, .sdiRdReg x index w],
          exec i s = .fault .sdInInterrupt)
      ∧ (s.isr = false → s.busReady (s.sesBus x.toNat) → (s.busCfg (s.sesBus x.toNat)).mode ≠ .fullDuplex →
        (∀ i ∈ [Instr.sdInit x, .sdiCmd x index w sh f, .sdiR1Poll x, .sdiBusyWait x, .sdiRdBlk x w y f,
            .sdiWrBlk x w v, .sdiStopR x, .sdiStopW x, .sdiRdReg x index w],
          exec i s = .fault .sdBusMode)
          ∧ ((s.ses x.toNat).initialized = true →
            exec (.sdSetCrc x f) s = .fault .sdBusMode
              ∧ (y ≠ 0 → w.toNat + 1 ≤ sectorCount (s.ses x.toNat) →
                exec (.sdRead1 x w y) s = .fault .sdBusMode ∧ exec (.sdWrite1 x w y) s = .fault .sdBusMode)
              ∧ (y ≠ 0 → z ≠ 0 → w.toNat + z.toNat ≤ sectorCount (s.ses x.toNat) →
                exec (.sdReadN x w z y) s = .fault .sdBusMode ∧ exec (.sdWriteN x w z y) s = .fault .sdBusMode)))
      ∧ (s.sdReady x.toNat → s.busy (s.sesBus x.toNat) = true →
        (s.bus (s.sesBus x.toNat)).transferId ≠ (s.sesCfg x.toNat).sdId →
        completes (.sdInit x) s (.code .busy) [] (fun _ => True)
          ∧ ((s.ses x.toNat).initialized = true →
            completes (.sdSetCrc x f) s (.code .busy) [] (fun _ => True)
              ∧ (y ≠ 0 → w.toNat + 1 ≤ sectorCount (s.ses x.toNat) →
                completes (.sdRead1 x w y) s (.code .busy) [] (fun _ => True)
                  ∧ completes (.sdWrite1 x w y) s (.code .busy) [] (fun _ => True))
              ∧ (y ≠ 0 → z ≠ 0 → w.toNat + z.toNat ≤ sectorCount (s.ses x.toNat) →
                completes (.sdReadN x w z y) s (.code .busy) [] (fun _ => True)
                  ∧ completes (.sdWriteN x w z y) s (.code .busy) [] (fun _ => True))))
      ∧ ∀ k : List Frame, (∃ g ∈ k, g.session = some x.toNat) →
        let turnedAway := fun i : Instr => s.fg = .busy (.enter i) k →
          agentStep exec .fg s = unwind k { code := .noError, byte := 0, val := 0 } (s.setRet (.code .busy))
        (∀ i ∈ [Instr.sdInit x, .sdiBusyWait x, .sdiRdBlk x w y f, .sdiWrBlk x w v, .sdiStopR x, .sdiStopW x,
            .sdiRdReg x index w], turnedAway i)
          ∧ (s.fg = .busy (.enter (.sdiCmd x index w .r1b f)) k →
            ∃ u r p, agentStep exec .fg s = unwind k { code := .noError, byte := 0, val := 0 } u
              ∧ u.result = .reply .busy r p ∧ changesOnly [.result, .draws] s u)
          ∧ (∀ i ∈ [Instr.sdSetCrc x f, .sdiR1Poll x, .sdiCmd x index w .r1 f, .sdiCmd x index w .r2 f,
              .sdiCmd x index w .r3 f, .sdiCmd x index w .r7 f],
            s.fg = .busy (.enter i) k → ∀ t, exec i (s.setFg .idle) = .next t →
              (∀ q fs, t.fg = .busy q fs → agentStep exec .fg s = .next (t.setFg (.busy q (fs ++ k))))
                ∧ (t.fg = .idle → agentStep exec .fg s = unwind k { code := .noError, byte := 0, val := 0 } t))
          ∧ ((s.ses x.toNat).initialized = true →
            (y ≠ 0 → w.toNat + 1 ≤ sectorCount (s.ses x.toNat) →
              turnedAway (.sdRead1 x w y) ∧ turnedAway (.sdWrite1 x w y))
            ∧ (y ≠ 0 → z ≠ 0 → w.toNat + z.toNat ≤ sectorCount (s.ses x.toNat) →
              turnedAway (.sdReadN x w z y) ∧ turnedAway (.sdWriteN x w z y)))

/-- 44_sd_protocol.md R331: the argument checks of the data operations in their order, each returning its code with
nothing changed, on a bus that has been through BUS.INIT; SD.READ1 and SD.WRITE1 have count 1. -/
def Obligations.DataChecks : Prop :=
  ∀ (x sector count buf : Word) (s : State), x.toNat < s.cfg.sessions.length → s.isr = false →
    s.busReady (s.sesBus x.toNat) →
    let S := s.ses x.toNat
    ∀ o ∈ [(Instr.sdRead1 x sector buf, (1 : Word)), (.sdWrite1 x sector buf, 1), (.sdReadN x sector count buf, count),
        (.sdWriteN x sector count buf, count)],
      (buf = 0 → completes o.1 s (.code .nullPointer) [] (fun _ => True))
        ∧ (buf ≠ 0 → o.2 = 0 → completes o.1 s (.code .invalidValue) [] (fun _ => True))
        ∧ (buf ≠ 0 → o.2 ≠ 0 → S.initialized = false → completes o.1 s (.code .state) [] (fun _ => True))
        ∧ (buf ≠ 0 → o.2 ≠ 0 → S.initialized = true → sectorCount S < sector.toNat + o.2.toNat →
          completes o.1 s (.code .outOfRange) [] (fun _ => True))

/-- 44_sd_protocol.md R310, R330, R333, R334, R335, R337, 43_sd_framing.md R265: a data operation whose checks pass
claims the bus, asserts the card's chip-select line and is about to send the first byte of its command: 17, 18, 24 or 25
with the sector's address; the frames it goes on with hold the operands. That the issuing step ends there, before the
first exchange, is the model's reading (log 10). -/
def Obligations.DataOperationsBegin : Prop :=
  ∀ (x sector count buf : Word) (s : State), s.sdReady x.toNat → s.claimable x.toNat → buf ≠ 0 → count ≠ 0 →
    (s.ses x.toNat).initialized = true →
    let i := x.toNat
    let b := s.sesBus i
    let arg := if (s.ses i).cardType = .sdhcSdxc then sector else sector * 512
    let claims := fun t : State =>
      t.bus b = { s.bus b with transferId := (s.sesCfg i).sdId } ∧ (∀ b', b' ≠ b → t.bus b' = s.bus b')
        ∧ t.ses i = { s.ses i with csAsserted := true } ∧ ∀ j, j ≠ i → t.ses j = s.ses j
    (sector.toNat + 1 ≤ sectorCount (s.ses i) →
        begins (.sdRead1 x sector buf) s
            (.busy (.xchg b 0x51) [.cmdSend i 17 arg .r1 false 0, .readCmd i buf, .sdEnd i, .finish .code])
            [.buses, .sess] claims
          ∧ begins (.sdWrite1 x sector buf) s
            (.busy (.xchg b 0x58) [.cmdSend i 24 arg .r1 false 0, .writeCmd i buf, .sdEnd i, .finish .code])
            [.buses, .sess] claims)
      ∧ (sector.toNat + count.toNat ≤ sectorCount (s.ses i) →
        begins (.sdReadN x sector count buf) s
            (.busy (.xchg b 0x52)
              [.cmdSend i 18 arg .r1 false 0, .readnCmd i sector count buf, .sdEnd i, .finish .code])
            [.buses, .sess] claims
          ∧ begins (.sdWriteN x sector count buf) s
            (.busy (.xchg b 0x59) [.cmdSend i 25 arg .r1 false 0, .writenCmd i count buf, .sdEnd i, .finish .code])
            [.buses, .sess] claims)

/-- 44_sd_protocol.md R319, 70_reset_and_hazards.md R454: SD.INIT on a bus it may claim clears the session but its CRC
setting; on an idle bus it lowers the speed, deasserts chip-select and is about to send its first filler byte; on a bus
busy under its own id it returns E_BUSY with chip-select deasserted and the speed of the busy bus unchanged (the model's
reading, log 25). The issuing step ends before the first exchange (log 10). -/
def Obligations.InitBegins : Prop :=
  ∀ (x : Word) (s : State), s.sdReady x.toNat →
    let i := x.toNat
    let b := s.sesBus i
    let fresh := fun t : State =>
      t.ses i =
          { cardType := .unknown, cid := 0, csd := 0, blockLen := 0, eraseSize := 0, csAsserted := false,
            crcEnabled := (s.ses i).crcEnabled, initialized := false, winOpen := (s.ses i).winOpen,
            expired := (s.ses i).expired }
        ∧ ∀ j, j ≠ i → t.ses j = s.ses j
    (s.busy b = false →
        begins (.sdInit x) s (.busy (.xchg b 0xFF) [.initDummy i 1, .initExit i, .finish .code]) [.buses, .sess]
          (fun t => fresh t
            ∧ t.bus b = { s.bus b with transferId := (s.sesCfg i).sdId, speed := .low }
            ∧ ∀ b', b' ≠ b → t.bus b' = s.bus b'))
      ∧ (s.busy b = true → (s.bus b).transferId = (s.sesCfg i).sdId → s.fg = .idle →
        completes (.sdInit x) s (.code .busy) [.sess] fresh)

/-- 44_sd_protocol.md R319, R320, R321, R329: SD.INIT from its fillers on: ten with chip-select deasserted, then
chip-select asserted and CMD0's first byte; an exchange on a bus that another party made busy goes to the exit. The exit
with any code deasserts chip-select and restores the high speed on an idle bus, and leaves the speed of a busy one (the
model's reading, log 25); CMD0's reply must be in idle, and CMD8's code and echo choose the branch, whose first command
is CMD58. Each clause is FG going on, with what the command just ended handed back, up to its next exchange (log 10). -/
def Obligations.InitSteps : Prop :=
  ∀ (i : Nat) (v : Ret) (s : State), s.isr = false →
    let S := s.ses i
    let b := s.sesBus i
    let k : List Frame := [.initExit i, .finish .code]
    (∀ (n : Nat) (r : Byte) (rest : List Byte), s.busReady b →
        s.fg = .busy (.xchg b 0xFF) (.initDummy i n :: k) →
        (s.busy b = false → s.answersOf b = r :: rest →
            (n < 10 →
                ∃ t, agentStep exec .fg s = .next t ∧ sentByte b 0xFF rest s t
                  ∧ movedTo (.busy (.xchg b 0xFF) (.initDummy i (n + 1) :: k)) [.wire, .answers] s t)
              ∧ (10 ≤ n →
                ∃ t, agentStep exec .fg s = .next t ∧ sentByte b 0xFF rest s t
                  ∧ movedTo (sending s i 0x40 0 0 .r1 true (.initCmd0 i :: k)) [.sess, .wire, .answers] s t
                  ∧ t.ses i = { S with csAsserted := true } ∧ ∀ j, j ≠ i → t.ses j = s.ses j))
          ∧ (s.busy b = true →
            ∃ t, agentStep exec .fg s = .next t ∧ sesEnds i .busy { S with csAsserted := false } s t))
      ∧ (s.busy b = true → ∃ t, unwind k v s = .next t ∧ sesEnds i v.code { S with csAsserted := false } s t)
      ∧ (s.busy b = false →
        (∃ t, unwind k v s = .next t ∧ initEnds i v.code S s t)
          ∧ (v.code ≠ .noError → ∃ t, unwind (.initCmd0 i :: k) v s = .next t ∧ initEnds i v.code S s t)
          ∧ (v.code = .noError → v.byte ≠ 1 →
            ∃ t, unwind (.initCmd0 i :: k) v s = .next t ∧ initEnds i .sdInvalidCard S s t)
          ∧ (v.code = .noError → v.byte = 1 → ∃ t, unwind (.initCmd0 i :: k) v s = .next t
            ∧ sesMoves i (sending s i 0x48 8 0x1AA .r7 true (.initCmd8 i :: k)) S s t)
          ∧ (v.code = .sdIllegalCmd → ∃ t, unwind (.initCmd8 i :: k) v s = .next t
            ∧ sesMoves i (sending s i 0x7A 58 0 .r3 true (.v1Ocr i :: k)) S s t)
          ∧ (v.code ≠ .sdIllegalCmd → v.code ≠ .noError →
            ∃ t, unwind (.initCmd8 i :: k) v s = .next t ∧ initEnds i v.code S s t)
          ∧ (v.code = .noError → v.val.extractLsb' 0 12 ≠ 0x1AA →
            ∃ t, unwind (.initCmd8 i :: k) v s = .next t ∧ initEnds i .sdInvalidCard S s t)
          ∧ (v.code = .noError → v.val.extractLsb' 0 12 = 0x1AA → ∃ t, unwind (.initCmd8 i :: k) v s = .next t
            ∧ sesMoves i (sending s i 0x7A 58 0 .r3 true (.v2Ocr i :: k)) S s t))

/-- 44_sd_protocol.md R322, R324, R311: SD.INIT's V2 branch, place by place, with what the command just ended handed
back: the OCR check; the loop of CMD55 and ACMD41 with HCS set, until the card has left idle, its window has expired or
a command fails; the last CMD58, whose bit 30 tells SDHC/SDXC from SDSCv2; the type's assignment, with which CMD10
begins. The window's callbacks are silent here and their invocations recorded: begin with TIMEOUT_INIT, end with 0;
after a begin callback that took FG steps FG goes on at `v2Start`, after such an end callback at `v2End`. FG's work is
cut at its exchanges (log 10). -/
def Obligations.InitVersion2 : Prop :=
  ∀ (i : Nat) (v : Ret) (s : State), s.isr = false → s.busy (s.sesBus i) = false →
    let S := s.ses i
    let k : List Frame := [.initExit i, .finish .code]
    let begun := s.beginCalled i s.cfg.timeoutInit
    let opened := { S with expired := false, winOpen := true }
    let shut := { S with winOpen := false }
    let idle := v.byte.getLsbD 0
    let cmd55 := sending s i 0x77 55 0 .r1 true (.v2App i :: k)
    let cmd58 := sending s i 0x7A 58 0 .r3 false (.v2Ccs i :: k)
    let ends := fun (f : Frame) (c : Code) (S' : Session) (u : State) =>
      ∃ t, unwind (f :: k) v s = .next t ∧ initEnds i c S' u t
    let moves := fun (f : Frame) (g : Fg) (S' : Session) (u : State) =>
      ∃ t, unwind (f :: k) v s = .next t ∧ sesMoves i g S' u t
    (v.code ≠ .noError → ends (.v2Ocr i) v.code S s ∧ ends (.v2End i) v.code S s ∧ ends (.v2Ccs i) v.code S s)
      ∧ (v.code = .noError → v.val &&& s.cfg.ocrVoltageMask = 0 → ends (.v2Ocr i) .sdInvalidCard S s)
      ∧ (v.code = .noError → v.val &&& s.cfg.ocrVoltageMask ≠ 0 → s.silent (s.sesCfg i).timeoutBegin →
        moves (.v2Ocr i) cmd55 opened begun)
      ∧ moves (.v2Start i) cmd55 S s
      ∧ (v.code = .noError → moves (.v2App i) (sending s i 0x69 41 0x40000000 .r1 true (.v2Acmd i :: k)) S s)
      ∧ (v.code = .noError → idle = true → S.expired = false → moves (.v2Acmd i) cmd55 S s)
      ∧ (s.silent (s.sesCfg i).timeoutEnd →
        (v.code ≠ .noError →
            ends (.v2App i) v.code shut (s.endCalled i) ∧ ends (.v2Acmd i) v.code shut (s.endCalled i))
          ∧ (v.code = .noError → idle = true → S.expired = true → ends (.v2Acmd i) .timeout shut (s.endCalled i))
          ∧ (v.code = .noError → idle = false → moves (.v2Acmd i) cmd58 shut (s.endCalled i)))
      ∧ (v.code = .noError → moves (.v2End i) cmd58 S s)
      ∧ (v.code = .noError →
        moves (.v2Ccs i)
          (sending s i 0x4A 10 0 .r1 false (.regCmd i (s.sesCfg i).regbuf :: .initCid i :: k))
          { S with cardType := if v.val.getLsbD 30 = true then .sdhcSdxc else .sdscV2 } s)

/-- 44_sd_protocol.md R323, R324, R311: SD.INIT's V1 branch, place by place, with what the command just ended handed
back: the OCR check; the probe, CMD55 and ACMD41 with HCS clear, where an illegal-command code makes the card an MMC;
the loop of CMD55 and ACMD41, HCS never set, or of CMD1, until the card has left idle, its window has expired or a
command fails; the type's assignment, with which CMD10 begins. The window's callbacks are silent here and their
invocations recorded: begin with TIMEOUT_INIT, end with 0; after a begin callback that took FG steps FG goes on at
`v1Start`, after such an end callback at `v1End`. FG's work is cut at its exchanges (log 10). -/
def Obligations.InitVersion1 : Prop :=
  ∀ (i : Nat) (v : Ret) (s : State), s.isr = false → s.busy (s.sesBus i) = false →
    let S := s.ses i
    let k : List Frame := [.initExit i, .finish .code]
    let begun := s.beginCalled i s.cfg.timeoutInit
    let opened := { S with expired := false, winOpen := true }
    let shut := { S with winOpen := false }
    let idle := v.byte.getLsbD 0
    let cmd55 := sending s i 0x77 55 0 .r1 true (.v1LoopApp i :: k)
    let cmd1 := sending s i 0x41 1 0 .r1 true (.v1LoopMmc i :: k)
    let ends := fun (f : Frame) (c : Code) (S' : Session) (u : State) =>
      ∃ t, unwind (f :: k) v s = .next t ∧ initEnds i c S' u t
    let moves := fun (f : Frame) (g : Fg) (S' : Session) (u : State) =>
      ∃ t, unwind (f :: k) v s = .next t ∧ sesMoves i g S' u t
    let typed := fun (f : Frame) (T : CardType) (S' : Session) (u : State) =>
      moves f (sending s i 0x4A 10 0 .r1 false (.regCmd i (s.sesCfg i).regbuf :: .initCid i :: k))
        { S' with cardType := T } u
    (v.code ≠ .noError → ends (.v1Ocr i) v.code S s ∧ ∀ T, ends (.v1End i T) v.code S s)
      ∧ (v.code = .noError → v.val &&& s.cfg.ocrVoltageMask = 0 → ends (.v1Ocr i) .sdInvalidCard S s)
      ∧ (v.code = .noError → v.val &&& s.cfg.ocrVoltageMask ≠ 0 →
        moves (.v1Ocr i) (sending s i 0x77 55 0 .r1 true (.v1App i :: k)) S s)
      ∧ (v.code = .noError → moves (.v1App i) (sending s i 0x69 41 0 .r1 true (.v1Probe i :: k)) S s)
      ∧ (∀ f ∈ [Frame.v1App i, .v1Probe i],
        (v.code = .sdIllegalCmd → s.silent (s.sesCfg i).timeoutBegin → moves f cmd1 opened begun)
          ∧ (v.code ≠ .sdIllegalCmd → v.code ≠ .noError → ends f v.code S s))
      ∧ (v.code = .noError → s.silent (s.sesCfg i).timeoutBegin →
        (idle = true → moves (.v1Probe i) cmd55 opened begun)
          ∧ (idle = false → s.silent (s.sesCfg i).timeoutEnd →
            typed (.v1Probe i) .sdscV1 { opened with winOpen := false } (begun.endCalled i)))
      ∧ (v.code = .noError → moves (.v1LoopApp i) (sending s i 0x69 41 0 .r1 true (.v1LoopAcmd i :: k)) S s)
      ∧ (v.code = .noError → idle = true → S.expired = false →
        moves (.v1LoopAcmd i) cmd55 S s ∧ moves (.v1LoopMmc i) cmd1 S s)
      ∧ (s.silent (s.sesCfg i).timeoutEnd →
        (v.code ≠ .noError →
            ∀ f ∈ [Frame.v1LoopApp i, .v1LoopAcmd i, .v1LoopMmc i], ends f v.code shut (s.endCalled i))
          ∧ (v.code = .noError → idle = true → S.expired = true →
            ends (.v1LoopAcmd i) .timeout shut (s.endCalled i) ∧ ends (.v1LoopMmc i) .timeout shut (s.endCalled i))
          ∧ (v.code = .noError → idle = false →
            typed (.v1LoopAcmd i) .sdscV1 shut (s.endCalled i) ∧ typed (.v1LoopMmc i) .mmc shut (s.endCalled i)))
      ∧ (∀ r1 : Byte, moves (.v1Start i .mmc r1) cmd1 S s
        ∧ (r1.getLsbD 0 = true → S.expired = false → moves (.v1Start i .sdscV1 r1) cmd55 S s)
        ∧ (s.silent (s.sesCfg i).timeoutEnd →
          (r1.getLsbD 0 = true → S.expired = true → ends (.v1Start i .sdscV1 r1) .timeout shut (s.endCalled i))
            ∧ (r1.getLsbD 0 = false → typed (.v1Start i .sdscV1 r1) .sdscV1 shut (s.endCalled i))))
      ∧ ∀ T, v.code = .noError → typed (.v1End i T) T S s

/-- 44_sd_protocol.md R325, R326, R328: SD.INIT from its register reads on, place by place, with what the command just
ended handed back: the CID, then the CSD, are the 16 bytes of the register buffer; CMD16 for a card that is not
SDHC/SDXC; block length, erase block size, then either the initialised session or, where CRC checking was asked for,
CMD59 first; each failure ends with its code and `initialized` 0 as it was. FG's work is cut at its exchanges (log 10).
-/
def Obligations.InitFinishes : Prop :=
  ∀ (i : Nat) (v : Ret) (R : BitVec 128) (s : State), s.isr = false → s.busy (s.sesBus i) = false →
    let S := s.ses i
    let buf := (s.sesCfg i).regbuf
    let k : List Frame := [.initExit i, .finish .code]
    let ends := fun (f : Frame) (c : Code) (S' : Session) => ∃ t, unwind (f :: k) v s = .next t ∧ initEnds i c S' s t
    let moves := fun (f : Frame) (g : Fg) (S' : Session) => ∃ t, unwind (f :: k) v s = .next t ∧ sesMoves i g S' s t
    let field := fun (S' : Session) (hi lo : Nat) => (S'.csd.extractLsb' lo (hi + 1 - lo)).toNat
    let size := fun S' : Session =>
      if S'.cardType = .mmc then (field S' 46 42 + 1) * (field S' 41 37 + 1) * 2 ^ field S' 25 22
      else if S'.csd.getLsbD 46 = true then 512 else (field S' 45 39 + 1) * 2 ^ field S' 25 22
    let sized := fun S' : Session => { S' with blockLen := 512, eraseSize := BitVec.ofNat 32 (size S') }
    let finalised := fun (f : Frame) (S' : Session) =>
      (S.crcEnabled = false → ends f .noError { sized S' with initialized := true })
        ∧ (S.crcEnabled = true → moves f (sending s i 0x7B 59 1 .r1 false (.initCrc i :: k)) (sized S'))
    (v.code ≠ .noError →
        ∀ f ∈ [Frame.initCid i, .initCsd i, .initBlkLen i, .initCrc i], ends f v.code S)
      ∧ (v.code = .noError →
        (∀ n, n < 16 → s.backed (buf + BitVec.ofNat 32 n) = true ∧ s.dstInFlight (buf + BitVec.ofNat 32 n) = false
          ∧ R.extractLsb' (8 * n) 8 = s.mem.read (buf + BitVec.ofNat 32 n)) →
        moves (.initCid i) (sending s i 0x49 9 0 .r1 false (.regCmd i buf :: .initCsd i :: k)) { S with cid := R }
          ∧ (S.cardType ≠ .sdhcSdxc →
            moves (.initCsd i) (sending s i 0x50 16 512 .r1 false (.initBlkLen i :: k)) { S with csd := R })
          ∧ (S.cardType = .sdhcSdxc → finalised (.initCsd i) { S with csd := R }))
      ∧ (v.code = .noError → finalised (.initBlkLen i) S)
      ∧ (v.code = .noError → ends (.initCrc i) .noError { S with initialized := true })

/-- 44_sd_protocol.md R345: SD.SETCRC, on a bus that has been through BUS.INIT, records the setting on an uninitialised
session, and on an initialised one claims the card and is about to send the first byte of CMD59 with it (the issuing
step ends before the first exchange, log 10); the setting is recorded only after the card accepted it. -/
def Obligations.SetCrc : Prop :=
  ∀ (x : Word) (en : Bool) (s : State), x.toNat < s.cfg.sessions.length → s.isr = false →
    s.busReady (s.sesBus x.toNat) →
    let i := x.toNat
    let b := s.sesBus i
    ((s.ses i).initialized = false →
        completes (.sdSetCrc x en) s (.code .noError) [.sess] (fun t =>
          t.ses i = { s.ses i with crcEnabled := en } ∧ ∀ j, j ≠ i → t.ses j = s.ses j))
      ∧ ((s.ses i).initialized = true → s.sdReady i → s.claimable i →
        begins (.sdSetCrc x en) s
          (.busy (.xchg b 0x7B)
            [.cmdSend i 59 (if en then 1 else 0) .r1 false 0, .sdEnd i, .setCrc i en, .finish .code]) [.buses, .sess]
          (fun t =>
            t.bus b = { s.bus b with transferId := (s.sesCfg i).sdId } ∧ (∀ b', b' ≠ b → t.bus b' = s.bus b')
              ∧ t.ses i = { s.ses i with csAsserted := true } ∧ ∀ j, j ≠ i → t.ses j = s.ses j))
      ∧ ∀ v : Ret, ∃ t, unwind [.sdEnd i, .setCrc i en, .finish .code] v s = .next t
        ∧ endedWith (.code v.code) [.sess] s t
        ∧ t.ses i =
          { s.ses i with
            csAsserted := false, crcEnabled := if v.code = .noError then en else (s.ses i).crcEnabled }
        ∧ ∀ j, j ≠ i → t.ses j = s.ses j

/-- 43_sd_framing.md R264, R265, R271, 44_sd_protocol.md R311, R313, R315 to R318: an SDI operation begins with its
first byte about to go out: a filler, a command's first byte, or a token; SDI.BUSYWAIT and SDI.RDBLK open a window first
(here with a silent begin callback, invoked with TIMEOUT_BUSY or TIMEOUT_TOKEN). The issuing step ends before the first
exchange (log 10). SDI.CMD and SDI.RDREG begin with every 6-bit command index, one outside 30_encoding.md R121's table
included (the model's reading, log 38). A start token of SDI.WRBLK other than 0xFE and 0xFC, and a command of SDI.RDREG
other than 9 and 10, run the same pseudocode (the model's choice, log 26). -/
def Obligations.ProceduresBegin : Prop :=
  ∀ (x w y : Word) (index : BitVec 6) (sh : Shape) (f : Bool) (v : Byte) (s : State), s.sdReady x.toNat →
    let i := x.toNat
    let b := s.sesBus i
    let opened := fun (k : Word) (t : State) =>
      t.ses i = { s.ses i with expired := false, winOpen := true } ∧ (∀ j, j ≠ i → t.ses j = s.ses j)
        ∧ t.calls = callsAfter (s.sesCfg i).timeoutBegin (.word k) s.calls
    begins (.sdiR1Poll x) s (.busy (.xchg b 0xFF) [.r1Poll i 1, .finish .codeByte]) [] (fun _ => True)
      ∧ begins (.sdiWrBlk x w v) s (.busy (.xchg b v) [.wrToken i w, .finish .code]) [] (fun _ => True)
      ∧ begins (.sdiStopR x) s (.busy (.xchg b 0x4C) [.cmdSend i 12 0 .r1b false 0, .stopCmd i, .finish .code]) []
        (fun _ => True)
      ∧ begins (.sdiStopW x) s (.busy (.xchg b 0xFD) [.stopToken i, .finish .code]) [] (fun _ => True)
      ∧ begins (.sdiCmd x index w sh f) s
        (.busy (.xchg b (0x40 ||| index.setWidth 8)) [.cmdSend i index w sh f 0, .finish .reply]) [] (fun _ => True)
      ∧ begins (.sdiRdReg x index w) s
        (.busy (.xchg b (0x40 ||| index.setWidth 8)) [.cmdSend i index 0 .r1 false 0, .regCmd i w, .finish .code]) []
        (fun _ => True)
      ∧ (s.silent (s.sesCfg i).timeoutBegin →
        begins (.sdiBusyWait x) s (.busy (.xchg b 0xFF) [.busyPoll i, .finish .code]) [.sess, .calls]
            (opened s.cfg.timeoutBusy)
          ∧ begins (.sdiRdBlk x w y f) s (.busy (.xchg b 0xFF) [.tokenPoll i, .rdToken i w y f, .finish .code])
            [.sess, .calls] (opened s.cfg.timeoutToken))

/-! ## SD and SDI: runs -/

/-- 43_sd_framing.md R264: SDI.R1POLL skips up to seven bytes with bit 7 set and returns the first without, and after
eight of them returns E_TIMEOUT; it sends one filler a byte. An exchange on a bus that another party made busy ends it
with E_BUSY, with nothing sent, the R1 byte a free value (log 23). The run is counted in FG steps, one exchange each
(log 10). -/
def Obligations.R1PollReplies : Prop :=
  ∀ (x : Word) (skip rest : List Byte) (r : Byte) (n : Nat) (s : State), s.sdReady x.toNat →
    let b := s.sesBus x.toNat
    (s.busy b = false → (∀ v ∈ skip, v.getLsbD 7 = true) →
        (skip.length < 8 → r.getLsbD 7 = false → s.answersOf b = skip ++ r :: rest →
            ∃ t, runOp (.sdiR1Poll x) (skip.length + 1) s = .next t
              ∧ exchanged b (List.replicate (skip.length + 1) 0xFF) rest [] s t ∧ t.ret = .codeByte .noError r)
          ∧ (skip.length = 8 → s.answersOf b = skip ++ rest →
            ∃ t, runOp (.sdiR1Poll x) 8 s = .next t
              ∧ exchanged b (List.replicate 8 0xFF) rest [] s t ∧ t.ret = .codeByte .timeout 0xFF))
      ∧ (s.busy b = true → s.fg = .busy (.xchg b 0xFF) [.r1Poll x.toNat n, .finish .codeByte] →
        ∃ t r1, agentStep exec .fg s = .next t ∧ endedWith (.codeByte .busy r1) [.draws] s t)

/-- 43_sd_framing.md R264 to R270, 30_encoding.md R120: SDI.CMD sends its frame, one stuff byte for command 12, polls
R1, reads the tail of its shape unless R1 has an error flag, and returns the decoded code, R1 and the payload; eight
bytes with bit 7 set end it with E_TIMEOUT, 0xFF and 0, with no tail read. Its index is any of the 64, one outside
30_encoding.md R121's table included (the model's reading, log 38). The tail of R1b, a busy wait, is BusyWaitEnds's. An
exchange on a bus that another party made busy ends it with E_BUSY, with nothing sent, R1 and the payload free values
(log 23), the payload 0 where it was the R1 poll's. The run is counted in FG steps, one exchange each (log 10). -/
def Obligations.CommandReplies : Prop :=
  ∀ (x arg payload : Word) (index : BitVec 6) (sh : Shape) (ai : Bool) (c : Code) (r1 : Byte)
    (ignored skip tail rest : List Byte) (s : State), s.sdReady x.toNat →
    let i := x.toNat
    let b := s.sesBus i
    (s.busy b = false → ignored.length = 6 + (if index = 12 then 1 else 0) → (∀ v ∈ skip, v.getLsbD 7 = true) →
        (skip.length < 8 → r1.getLsbD 7 = false → s.answersOf b = ignored ++ (skip ++ r1 :: (tail ++ rest)) →
            ((r1 &&& 0x7E ≠ 0 ∨ sh = .r1) ∧ tail = [] ∧ c = decodeStatus r1 0 ai ∧ payload = 0
              ∨ r1 &&& 0x7E = 0 ∧ sh = .r2
                ∧ (∃ st : Byte, tail = [st] ∧ c = decodeStatus r1 st ai ∧ payload = st.setWidth 32)
              ∨ r1 &&& 0x7E = 0 ∧ (sh = .r3 ∨ sh = .r7)
                ∧ (∃ p0 p1 p2 p3 : Byte, tail = [p0, p1, p2, p3] ∧ c = decodeStatus r1 0 ai
                  ∧ payload = p0 ++ p1 ++ p2 ++ p3)) →
            ∃ t, runOp (.sdiCmd x index arg sh ai) (ignored.length + skip.length + 1 + tail.length) s = .next t
              ∧ exchanged b
                (commandFrame index arg ++ List.replicate (ignored.length - 6 + skip.length + 1 + tail.length) 0xFF)
                rest [] s t
              ∧ t.ret = .reply c r1 payload)
          ∧ (skip.length = 8 → s.answersOf b = ignored ++ (skip ++ rest) →
            ∃ t, runOp (.sdiCmd x index arg sh ai) (ignored.length + 8) s = .next t
              ∧ exchanged b (commandFrame index arg ++ List.replicate (ignored.length - 6 + 8) 0xFF) rest [] s t
              ∧ t.ret = .reply .timeout 0xFF 0))
      ∧ (s.busy b = true → ∀ (y : Byte) (n : Nat),
        (∀ f ∈ [Frame.cmdSend i index arg sh ai n, .cmdStuff i sh ai, .cmdStatus r1 ai, .cmdPayload i r1 ai tail],
            s.fg = .busy (.xchg b y) [f, .finish .reply] →
            ∃ t r w, agentStep exec .fg s = .next t ∧ endedWith (.reply .busy r w) [.draws] s t)
          ∧ (s.fg = .busy (.xchg b y) [.r1Poll i n, .cmdR1 i sh ai, .finish .reply] →
            ∃ t r, agentStep exec .fg s = .next t ∧ endedWith (.reply .busy r 0) [.draws] s t))

/-- 43_sd_framing.md R267, R271, 44_sd_protocol.md R311: a busy wait ends at the first byte 0xFF and closes its window:
SDI.BUSYWAIT from its start and the R1b tail of SDI.CMD; FG at the wait's poll ends it with E_TIMEOUT at a byte that is
not 0xFF once the window has expired, polls on before, and ends it with E_BUSY, window closed, where another party made
the bus busy. The window's callbacks are silent here and their invocations recorded: begin with TIMEOUT_BUSY, end with
0. One exchange is one FG step (log 10). -/
def Obligations.BusyWaitEnds : Prop :=
  ∀ (x : Word) (low rest : List Byte) (s : State), s.sdReady x.toNat →
    let i := x.toNat
    let S := s.sesCfg i
    let b := S.bus
    let begun := s.beginCalled i s.cfg.timeoutBusy
    let poll : Fg := .busy (.xchg b 0xFF) [.busyPoll i, .finish .code]
    let shut := fun t : State =>
      t.ses i = { s.ses i with winOpen := false } ∧ ∀ j, j ≠ i → t.ses j = s.ses j
    (s.busy b = false →
        (s.silent S.timeoutBegin → s.silent S.timeoutEnd → (∀ v ∈ low, v ≠ 0xFF) →
            (s.answersOf b = low ++ 0xFF :: rest →
                ∃ t, runOp (.sdiBusyWait x) (low.length + 1) s = .next t
                  ∧ exchanged b (List.replicate (low.length + 1) 0xFF) rest [.sess] (begun.endCalled i) t
                  ∧ t.ret = .code .noError ∧ t.ses i = { s.ses i with expired := false, winOpen := false }
                  ∧ ∀ j, j ≠ i → t.ses j = s.ses j)
              ∧ ∀ (r1 : Byte) (ai : Bool),
                s.fg = .busy (.xchg b 0xFF) [.r1Poll i 1, .cmdR1 i .r1b ai, .finish .reply] →
                r1.getLsbD 7 = false → r1 &&& 0x7E = 0 → s.answersOf b = r1 :: (low ++ 0xFF :: rest) →
                ∃ t, fgRun (low.length + 2) s = .next t
                  ∧ exchanged b (List.replicate (low.length + 2) 0xFF) rest [.sess] (begun.endCalled i) t
                  ∧ t.ret = .reply (decodeStatus r1 0 ai) r1 0
                  ∧ t.ses i = { s.ses i with expired := false, winOpen := false } ∧ ∀ j, j ≠ i → t.ses j = s.ses j)
          ∧ (∀ r : Byte, s.fg = poll → s.silent S.timeoutEnd → s.answersOf b = r :: rest →
            (r = 0xFF ∨ (s.ses i).expired = true) →
            ∃ t, agentStep exec .fg s = .next t ∧ exchanged b [0xFF] rest [.sess] (s.endCalled i) t
              ∧ t.ret = .code (if r = 0xFF then .noError else .timeout) ∧ shut t)
          ∧ (∀ r : Byte, s.fg = poll → (s.ses i).expired = false → r ≠ 0xFF → s.answersOf b = r :: rest →
            ∃ t, agentStep exec .fg s = .next t ∧ movedTo s.fg [.wire, .answers] s t ∧ sentByte b 0xFF rest s t))
      ∧ (s.busy b = true → s.fg = poll → s.silent S.timeoutEnd →
        ∃ t, agentStep exec .fg s = .next t ∧ endedWith (.code .busy) [.sess] (s.endCalled i) t ∧ shut t)

/-- 44_sd_protocol.md R311 to R313, 20_memory.md R90: FG inside SDI.RDBLK. At its token poll, with a silent end callback
(invoked with 0, R311): 0xFE starts the two-descriptor transfer, 0xFF polls on until the window has expired, any other
byte ends with its code, and a bus that another party made busy with E_BUSY. Then BUS.XFER; its wait; a status other
than TRANSFERRED is E_IO_ERROR, and with the check on the block's CRC-16 is compared with the two trailer bytes, high
byte first. FG's work is cut at its exchanges, its BUS.XFER and its polls (log 10). -/
def Obligations.ReadBlock : Prop :=
  ∀ (i : Nat) (dst n : Word) (check : Bool) (r : Byte) (rest : List Byte) (s : State), s.isr = false →
    let S := s.sesCfg i
    let b := S.bus
    let v := (List.range n.toNat).map (fun k => s.mem.read (dst + BitVec.ofNat 32 k))
    s.busReady b →
    let poll : Fg := .busy (.xchg b 0xFF) [.tokenPoll i, .rdToken i dst n check, .finish .code]
    (s.busy b = true → s.silent S.timeoutEnd → s.fg = poll →
        ∃ t, agentStep exec .fg s = .next t ∧ sesEnds i .busy { s.ses i with winOpen := false } (s.endCalled i) t)
      ∧ (s.busy b = false → s.silent S.timeoutEnd → s.fg = poll → s.answersOf b = r :: rest →
        (r = 0xFE → s.descInFlight S.msgs 0 = false → s.descInFlight S.msgs 1 = false →
            ∃ t, agentStep exec .fg s = .next t ∧ sentByte b 0xFF rest s t
              ∧ movedTo (.busy (.xfer b S.msgs 2) [.rdXfer i dst n check, .finish .code])
                [.sess, .buses, .descs, .wire, .answers] (s.endCalled i) t
              ∧ t.ses i = { s.ses i with winOpen := false } ∧ (∀ j, j ≠ i → t.ses j = s.ses j)
              ∧ t.bus b = { s.bus b with txDefault := 0xFF } ∧ (∀ b', b' ≠ b → t.bus b' = s.bus b')
              ∧ t.desc S.msgs 0 = { dir := 1, tx := 0, rx := dst, size := n, callback := 0, senderData := 0 }
              ∧ t.desc S.msgs 1 = { dir := 1, tx := 0, rx := S.crcbuf, size := 2, callback := 0, senderData := 0 }
              ∧ ∀ (p q : Word), p ≠ S.msgs ∨ 2 ≤ q.toNat → t.desc p q.toNat = s.desc p q.toNat)
          ∧ (r = 0xFF → (s.ses i).expired = false →
            ∃ t, agentStep exec .fg s = .next t ∧ movedTo s.fg [.wire, .answers] s t ∧ sentByte b 0xFF rest s t)
          ∧ ((r = 0xFF ∧ (s.ses i).expired = true ∨ r ≠ 0xFF ∧ r ≠ 0xFE) →
            ∃ t, agentStep exec .fg s = .next t ∧ sentByte b 0xFF rest s t
              ∧ endedWith
                (.code (if r = 0xFF then .timeout else if r.toNat < 16 then decodeErrToken r else .ioError))
                [.sess, .wire, .answers] (s.endCalled i) t
              ∧ t.ses i = { s.ses i with winOpen := false } ∧ ∀ j, j ≠ i → t.ses j = s.ses j))
      ∧ (∀ p m : Word, b < 2 ^ 32 → s.fg = .busy (.xfer b p m) [.rdXfer i dst n check, .finish .code] →
        xferStep b p m (.rdWait i dst n check) s)
      ∧ (s.fg = .busy (.busWait b) [.rdWait i dst n check, .finish .code] →
        ((s.bus b).status = .transferring → agentStep exec .fg s = .next s)
          ∧ ((s.bus b).status ≠ .transferring → (s.bus b).status ≠ .transferred →
            ∃ t, agentStep exec .fg s = .next t ∧ endedWith (.code .ioError) [] s t)
          ∧ ((s.bus b).status = .transferred → check = false →
            ∃ t, agentStep exec .fg s = .next t ∧ endedWith (.code .noError) [] s t)
          ∧ ((s.bus b).status = .transferred → check = true →
            (∀ k, k < n.toNat → s.backed (dst + BitVec.ofNat 32 k) = true
              ∧ s.dstInFlight (dst + BitVec.ofNat 32 k) = false) →
            s.backed S.crcbuf = true → s.backed (S.crcbuf + 1) = true → s.dstInFlight S.crcbuf = false →
            s.dstInFlight (S.crcbuf + 1) = false →
            ∃ t, agentStep exec .fg s = .next t
              ∧ endedWith
                (.code (if crc16 v = s.mem.read S.crcbuf ++ s.mem.read (S.crcbuf + 1) then .noError else .crc)) []
                s t))

/-- 44_sd_protocol.md R311, R314, R315, 20_memory.md R90: FG inside SDI.WRBLK. After its token the one descriptor of 512
bytes; BUS.XFER and its wait; the block's CRC-16, high byte first; the data-response poll, where a response starts the
busy wait with its status, another byte polls on, and the eighth ends with E_TIMEOUT; at the end of the busy wait,
reached or expired, the status chooses the code. An exchange on a bus that another party made busy ends with E_BUSY. The
window's callbacks are silent here and their invocations recorded. FG's work is cut at its exchanges, its BUS.XFER and
its polls (log 10). -/
def Obligations.WriteBlock : Prop :=
  ∀ (i n : Nat) (src : Word) (token r lo : Byte) (rest : List Byte) (s : State), s.isr = false →
    let S := s.sesCfg i
    let b := S.bus
    let v := (List.range 512).map (fun k => s.mem.read (src + BitVec.ofNat 32 k))
    s.busReady b →
    (s.busy b = false → s.answersOf b = r :: rest →
        (s.fg = .busy (.xchg b token) [.wrToken i src, .finish .code] → s.descInFlight S.msgs 0 = false →
            ∃ t, agentStep exec .fg s = .next t ∧ sentByte b token rest s t
              ∧ movedTo (.busy (.xfer b S.msgs 1) [.wrXfer i src, .finish .code]) [.descs, .wire, .answers] s t
              ∧ t.desc S.msgs 0 = { dir := 2, tx := src, rx := 0, size := 512, callback := 0, senderData := 0 }
              ∧ ∀ (p q : Word), p ≠ S.msgs ∨ q ≠ 0 → t.desc p q.toNat = s.desc p q.toNat)
          ∧ (s.fg = .busy (.xchg b token) [.wrCrcHi i lo, .finish .code] →
            ∃ t, agentStep exec .fg s = .next t ∧ sentByte b token rest s t
              ∧ movedTo (.busy (.xchg b lo) [.wrCrcLo i, .finish .code]) [.wire, .answers] s t)
          ∧ (s.fg = .busy (.xchg b token) [.wrCrcLo i, .finish .code] →
            ∃ t, agentStep exec .fg s = .next t ∧ sentByte b token rest s t
              ∧ movedTo (.busy (.xchg b 0xFF) [.dataResp i 1, .wrResp i, .finish .code]) [.wire, .answers] s t)
          ∧ (s.fg = .busy (.xchg b 0xFF) [.dataResp i n, .wrResp i, .finish .code] →
            (r &&& 0x11 = 0x01 → s.silent S.timeoutBegin →
                ∃ t, agentStep exec .fg s = .next t ∧ sentByte b 0xFF rest s t
                  ∧ movedTo (.busy (.xchg b 0xFF)
                    [.busyPoll i, .wrBusy ((r.extractLsb' 1 3).setWidth 8), .finish .code]) [.sess, .wire, .answers]
                    (s.beginCalled i s.cfg.timeoutBusy) t
                  ∧ t.ses i = { s.ses i with expired := false, winOpen := true } ∧ ∀ j, j ≠ i → t.ses j = s.ses j)
              ∧ (r &&& 0x11 ≠ 0x01 → n < 8 →
                ∃ t, agentStep exec .fg s = .next t ∧ sentByte b 0xFF rest s t
                  ∧ movedTo (.busy (.xchg b 0xFF) [.dataResp i (n + 1), .wrResp i, .finish .code])
                    [.wire, .answers] s t)
              ∧ (r &&& 0x11 ≠ 0x01 → 8 ≤ n →
                ∃ t, agentStep exec .fg s = .next t ∧ sentByte b 0xFF rest s t
                  ∧ endedWith (.code .timeout) [.wire, .answers] s t))
          ∧ ∀ sss : BitVec 3,
            s.fg = .busy (.xchg b 0xFF) [.busyPoll i, .wrBusy (sss.setWidth 8), .finish .code] →
            s.silent S.timeoutEnd →
            (r = 0xFF ∨ (s.ses i).expired = true) →
            ∃ t, agentStep exec .fg s = .next t ∧ sentByte b 0xFF rest s t
              ∧ endedWith
                (.code (if sss = 0b010 then (if r = 0xFF then .noError else .timeout)
                  else if sss = 0b101 then .crc else .ioError)) [.sess, .wire, .answers] (s.endCalled i) t
              ∧ t.ses i = { s.ses i with winOpen := false } ∧ ∀ j, j ≠ i → t.ses j = s.ses j)
      ∧ (s.busy b = true →
        (∀ k ∈ [[Frame.wrToken i src], [.wrCrcHi i lo], [.wrCrcLo i], [.dataResp i n, .wrResp i]],
          s.fg = .busy (.xchg b token) (k ++ [.finish .code]) →
          ∃ t, agentStep exec .fg s = .next t ∧ endedWith (.code .busy) [] s t))
      ∧ (∀ p m : Word, b < 2 ^ 32 → s.fg = .busy (.xfer b p m) [.wrXfer i src, .finish .code] →
        xferStep b p m (.wrWait i src) s)
      ∧ (s.fg = .busy (.busWait b) [.wrWait i src, .finish .code] →
        ((s.bus b).status = .transferring → agentStep exec .fg s = .next s)
          ∧ ((s.bus b).status ≠ .transferring → (s.bus b).status ≠ .transferred →
            ∃ t, agentStep exec .fg s = .next t ∧ endedWith (.code .ioError) [] s t)
          ∧ ((s.bus b).status = .transferred →
            (∀ k, k < 512 → s.backed (src + BitVec.ofNat 32 k) = true
              ∧ s.dstInFlight (src + BitVec.ofNat 32 k) = false) →
            ∃ t, agentStep exec .fg s = .next t
              ∧ movedTo (.busy (.xchg b ((crc16 v).extractLsb' 8 8))
                [.wrCrcHi i ((crc16 v).extractLsb' 0 8), .finish .code]) [] s t))

/-- 44_sd_protocol.md R311, R316, R317, R333 to R335, R337: the data operations between their first command and their
end, place by place, with the code of what just ended: after a good command the block, 512 bytes with the check the
session asks for, or with the token 0xFE or 0xFC; the multi-block loops put block n at the buffer plus 512 n and go on
to the stop after the last block or a failed one; CMD12 is followed by CMD13 in the mode that asks for it, and the stop
token by the busy wait. A window opens here with a silent begin callback, invoked with TIMEOUT_TOKEN or TIMEOUT_BUSY.
FG's work is cut at its exchanges (log 10). -/
def Obligations.DataOperationsGoOn : Prop :=
  ∀ (i n : Nat) (sector count buf : Word) (v : Ret) (s : State), s.isr = false →
    let S := s.ses i
    let b := s.sesBus i
    let k : List Frame := [.sdEnd i, .finish .code]
    let opened := { S with expired := false, winOpen := true }
    let ends := fun (f : Frame) =>
      ∃ t, unwind (f :: k) v s = .next t ∧ sesEnds i v.code { S with csAsserted := false } s t
    let moves := fun (f : Frame) (g : Fg) (S' : Session) (u : State) =>
      ∃ t, unwind (f :: k) v s = .next t ∧ sesMoves i g S' u t
    let reads := fun (f : Frame) (dst : Word) (after : List Frame) =>
      s.silent (s.sesCfg i).timeoutBegin →
        moves f (.busy (.xchg b 0xFF) (.tokenPoll i :: .rdToken i dst 512 S.crcEnabled :: after ++ k)) opened
          (s.beginCalled i s.cfg.timeoutToken)
    let writes := fun (f : Frame) (token : Byte) (src : Word) (after : List Frame) =>
      moves f (.busy (.xchg b token) (.wrToken i src :: after ++ k)) S s
    let stopsR := fun (f : Frame) (c : Code) (done : Nat) =>
      moves f (sending s i 0x4C 12 0 .r1b false (.stopCmd i :: .readnStop i c sector done :: k)) S s
    let stopsW := fun (f : Frame) (c : Code) =>
      moves f (.busy (.xchg b 0xFD) (.stopToken i :: .writenStop c :: k)) S s
    let block := fun m : Nat => buf + 512 * BitVec.ofNat 32 m
    (v.code ≠ .noError →
        (∀ f ∈ [Frame.readCmd i buf, .writeCmd i buf, .readnCmd i sector count buf, .writenCmd i count buf], ends f)
          ∧ stopsR (.readnBlk i sector count buf n) v.code n ∧ stopsW (.writenBlk i count buf n) v.code)
      ∧ (v.code = .noError →
        reads (.readCmd i buf) buf [] ∧ writes (.writeCmd i buf) 0xFE buf []
          ∧ (count ≠ 0 →
            reads (.readnCmd i sector count buf) buf [.readnBlk i sector count buf 0]
              ∧ writes (.writenCmd i count buf) 0xFC buf [.writenBlk i count buf 0])
          ∧ (n + 1 < count.toNat →
            reads (.readnBlk i sector count buf n) (block (n + 1)) [.readnBlk i sector count buf (n + 1)]
              ∧ writes (.writenBlk i count buf n) 0xFC (block (n + 1)) [.writenBlk i count buf (n + 1)])
          ∧ (count.toNat ≤ n + 1 →
            stopsR (.readnBlk i sector count buf n) .noError (n + 1) ∧ stopsW (.writenBlk i count buf n) .noError))
      ∧ ∀ k' : List Frame,
        (v.code = .noError → s.cfg.stopStatusMode = .r1bThenCmd13 →
            ∃ t, unwind (.stopCmd i :: k') v s = .next t ∧ sesMoves i (sending s i 0x4D 13 0 .r2 false k') S s t)
          ∧ ((v.code ≠ .noError ∨ s.cfg.stopStatusMode = .r1bOnly) →
            unwind (.stopCmd i :: k') v s = unwind k' (Ret.ofCode v.code) s)
          ∧ (v.code = .noError → s.silent (s.sesCfg i).timeoutBegin →
            ∃ t, unwind (.stopToken i :: k') v s = .next t
              ∧ sesMoves i (.busy (.xchg b 0xFF) (.busyPoll i :: k')) opened (s.beginCalled i s.cfg.timeoutBusy) t)
          ∧ (v.code ≠ .noError → unwind (.stopToken i :: k') v s = unwind k' (Ret.ofCode v.code) s)

/-- 44_sd_protocol.md R310, R335 to R338: the ends of the data operations: SdEnd deasserts chip-select on every path;
SD.READN's code is its block's code, or its stop's unless that is out-of-range at the card's end; SD.WRITEN's is its
block's, or its stop's. FG's work is cut at its exchanges (log 10). -/
def Obligations.DataOperationsEnd : Prop :=
  ∀ (i n : Nat) (eb : Code) (sector : Word) (v : Ret) (s : State), s.isr = false →
    let ends := fun (k : List Frame) (c : Code) =>
      ∃ t, unwind k v s = .next t ∧ endedWith (.code c) [.sess] s t
        ∧ t.ses i = { s.ses i with csAsserted := false } ∧ ∀ j, j ≠ i → t.ses j = s.ses j
    ends [.sdEnd i, .finish .code] v.code
      ∧ ends [.readnStop i eb sector n, .sdEnd i, .finish .code]
        (if eb ≠ .noError then eb
         else if v.code = .sdOutOfRange ∧ sector.toNat + n = sectorCount (s.ses i) then .noError else v.code)
      ∧ ends [.writenStop eb, .sdEnd i, .finish .code] (if eb ≠ .noError then eb else v.code)

/-- 44_sd_protocol.md R311, R312, R318, 43_sd_framing.md R262, 20_memory.md R88: SDI.RDREG after its command: a failed
one ends it with its code, a good one opens the token window and polls; the token 0xFE starts the data, 0xFF polls on
until the window has expired, any other byte ends with its code. From the first data byte FG receives 16 bytes and two
more; where the CRC-7 of the first 15 is bits 7:1 of the last it stores the 16 in reverse order (a byte of memory that
another bus's transfer is writing holds any byte then, 70_reset_and_hazards.md R460, log 11), else it returns E_CRC with
memory as it was. An exchange on a bus that another party made busy ends it with E_BUSY. The window's callbacks are
silent here and their invocations recorded. FG's work is cut at its exchanges, one a step (log 10). -/
def Obligations.RegisterReads : Prop :=
  ∀ (i n : Nat) (dst : Word) (w rest : List Byte) (c1 c2 r : Byte) (v : Ret) (s : State), s.isr = false →
    let b := s.sesBus i
    let poll : Fg := .busy (.xchg b 0xFF) [.tokenPoll i, .regToken i dst, .finish .code]
    let data : Fg := .busy (.xchg b 0xFF) [.regByte i dst [], .finish .code]
    let shut := { s.ses i with winOpen := false }
    s.busReady b →
    (∀ k : List Frame,
        (v.code ≠ .noError → unwind (.regCmd i dst :: k) v s = unwind k (Ret.ofCode v.code) s)
          ∧ (v.code = .noError → s.silent (s.sesCfg i).timeoutBegin →
            ∃ t, unwind (.regCmd i dst :: k) v s = .next t
              ∧ sesMoves i (.busy (.xchg b 0xFF) (.tokenPoll i :: .regToken i dst :: k))
                { s.ses i with expired := false, winOpen := true } (s.beginCalled i s.cfg.timeoutToken) t))
      ∧ (s.busy b = false → s.fg = poll → s.answersOf b = r :: rest →
        (r = 0xFF → (s.ses i).expired = false →
            ∃ t, agentStep exec .fg s = .next t ∧ movedTo s.fg [.wire, .answers] s t ∧ sentByte b 0xFF rest s t)
          ∧ (s.silent (s.sesCfg i).timeoutEnd →
            (r = 0xFE →
                ∃ t, agentStep exec .fg s = .next t ∧ sentByte b 0xFF rest s t
                  ∧ movedTo data [.sess, .wire, .answers] (s.endCalled i) t
                  ∧ t.ses i = shut ∧ ∀ j, j ≠ i → t.ses j = s.ses j)
              ∧ ((r = 0xFF ∧ (s.ses i).expired = true ∨ r ≠ 0xFF ∧ r ≠ 0xFE) →
                ∃ t, agentStep exec .fg s = .next t ∧ sentByte b 0xFF rest s t
                  ∧ endedWith
                    (.code (if r = 0xFF then .timeout else if r.toNat < 16 then decodeErrToken r else .ioError))
                    [.sess, .wire, .answers] (s.endCalled i) t
                  ∧ t.ses i = shut ∧ ∀ j, j ≠ i → t.ses j = s.ses j)))
      ∧ (s.busy b = true →
        (s.fg = poll → s.silent (s.sesCfg i).timeoutEnd →
            ∃ t, agentStep exec .fg s = .next t ∧ sesEnds i .busy shut (s.endCalled i) t)
          ∧ ∀ f ∈ [Frame.regByte i dst w, .regTail i dst w n],
            s.fg = .busy (.xchg b 0xFF) [f, .finish .code] →
            ∃ t, agentStep exec .fg s = .next t ∧ endedWith (.code .busy) [] s t)
      ∧ (s.busy b = false → s.fg = data → w.length = 16 → s.answersOf b = w ++ c1 :: c2 :: rest →
        (∀ k, k < 16 → s.backed (dst + BitVec.ofNat 32 k) = true) →
        (crc7 (w.take 15) = (w.getD 15 0).extractLsb' 1 7 →
            ∃ t, fgRun 18 s = .next t ∧ exchanged b (List.replicate 18 0xFF) rest [.mem, .dirty, .draws] s t
              ∧ t.ret = .code .noError ∧ wroteBytes dst w.reverse s t)
          ∧ (crc7 (w.take 15) ≠ (w.getD 15 0).extractLsb' 1 7 →
            ∃ t, fgRun 18 s = .next t ∧ exchanged b (List.replicate 18 0xFF) rest [] s t ∧ t.ret = .code .crc))

/-! ## ADP -/

/-- 45_adapter_contract.md R381 to R384, R389, 60_exceptions.md R400: the numbers of the result codes, as a future
holds them; Build of M95X_READ: null and size checks, the instruction byte and the
two address bytes, the two descriptors; and ADP.BEGIN's and ADP.SYNC's refusals in their order, each with nothing
changed: Build's code, the running future, the bus busy under another id, the capacities, and an operation on a bus
whose callback is not the dispatcher, which is refused by name after them. The place of that last check, and what counts
as the dispatcher, are the model's (log 18). -/
def Obligations.AdapterRefusals : Prop :=
  (∀ p ∈ [(Code.noError, (0 : Word)), (.nullPointer, 1), (.invalidValue, 2), (.outOfRange, 3), (.busy, 4),
      (.ioError, 5), (.crc, 6), (.timeout, 7), (.state, 8), (.sdParameter, 16), (.sdAddress, 17), (.sdEraseSeq, 18),
      (.sdIllegalCmd, 19), (.sdEraseReset, 20), (.sdInIdle, 21), (.sdOutOfRange, 22), (.sdEraseParam, 23),
      (.sdWpViolation, 24), (.sdEccFailed, 25), (.sdCcError, 26), (.sdError, 27), (.sdWpEraseSkip, 28),
      (.sdLocked, 29), (.sdInvalidCard, 30)], codeWord p.1 = p.2)
    ∧ (∀ buf addr dst size : Word,
      (dst = 0 → build buf (.m95xRead addr dst size) = .rejected .nullPointer)
        ∧ (dst ≠ 0 → size = 0 → build buf (.m95xRead addr dst size) = .rejected .invalidValue)
        ∧ (dst ≠ 0 → size ≠ 0 →
          build buf (.m95xRead addr dst size) =
            .built
              [{ dir := 2, tx := buf, rx := 0, size := 3, callback := 0, senderData := 0 },
               { dir := 1, tx := 0, rx := dst, size := size, callback := 0, senderData := 0 }]
              [0x03, addr.extractLsb' 8 8, addr.extractLsb' 0 8]))
    ∧ ∀ (a op : Word) (r : OpRec) (s : State), a.toNat < s.cfg.adapters.length → s.opRec op.toNat = some r →
      let A := s.adpCfg a.toNat
      ∀ i ∈ [Instr.adpBegin a op, .adpSync a op],
        (∀ c, c ≠ .noError → build A.buf r = .rejected c → completes i s (.code c) [] (fun _ => True))
          ∧ ∀ ms scratch, build A.buf r = .built ms scratch →
            ((s.fut A.fut).running = true → completes i s (.code .busy) [] (fun _ => True))
              ∧ ((s.fut A.fut).running = false → s.busReady A.bus → s.busy A.bus = true →
                (s.bus A.bus).transferId ≠ A.id → completes i s (.code .busy) [] (fun _ => True))
              ∧ ((s.fut A.fut).running = false → s.busReady A.bus →
                (s.busy A.bus = false ∨ (s.bus A.bus).transferId = A.id) →
                ((A.maxMsgs < ms.length ∨ A.bufSize < scratch.length) →
                    completes i s (.code .outOfRange) [] (fun _ => True))
                  ∧ (ms.length ≤ A.maxMsgs → scratch.length ≤ A.bufSize →
                    ((s.bus A.bus).callback = 0
                      ∨ s.callback (s.bus A.bus).callback.toNat
                        ≠ .always [.op (.adpDispatch (BitVec.ofNat 32 A.bus))]) →
                    exec i s = .refused .adapterConfig))

/-- 45_adapter_contract.md R382, R383, R384: an ADP.BEGIN whose checks pass writes the scratch bytes and the
descriptors, claims the bus, asserts chip-select, starts the future and starts the transfer; ADP.SYNC does the same and
waits for the future. Where the BUS.XFER fails, with the code of its first failing check (41_spi_bus.md R183 to R185),
both return its code with the scratch bytes, the descriptors and the claim written, chip-select deasserted and the
future finished with the code. A scratch byte that a transfer in progress is writing holds any byte
(70_reset_and_hazards.md R460, log 11). Where a descriptor they would write is in flight, both fault with nothing done,
the model's choice (20_memory.md R84, log 47). The checks are those of log 18's place of the dispatcher check.
ADP.SYNC's wait polls a running future and ends with the code whose number the future holds (R384, 60_exceptions.md
R400), with the plain value where it is the number of none (the model's choice, log 33). -/
def Obligations.AdapterStarts : Prop :=
  ∀ (a op : Word) (ms : List Msg) (scratch : List Byte) (s : State),
    let A := s.adpCfg a.toNat
    let C := s.busCfg A.bus
    let written := fun t : State =>
      (∀ f, f ≠ A.fut → t.fut f = s.fut f) ∧ (∀ a', a' ≠ a.toNat → t.adp a' = s.adp a')
        ∧ (t.bus A.bus).transferId = A.id ∧ (∀ k, k < ms.length → t.desc A.msgs k = ms.getD k Msg.blank)
        ∧ (∀ p k : Word, p ≠ A.msgs ∨ ms.length ≤ k.toNat → t.desc p k.toNat = s.desc p k.toNat)
        ∧ wroteBytes A.buf scratch s t
    let parts : List Part := [.buses, .chans, .locks, .dirty, .mem, .draws, .descs, .adps, .futs]
    let started := fun t : State =>
      written t ∧ t.fut A.fut = { result := 0, done := false, running := true }
        ∧ t.adp a.toNat = { csAsserted := true } ∧ (t.bus A.bus).status = .transferring
        ∧ (t.bus A.bus).messages = A.msgs ∧ (t.bus A.bus).count.toNat = ms.length ∧ (t.bus A.bus).index = 0
    (adapterReady a.toNat op.toNat ms scratch s →
        completes (.adpBegin a op) s (.code .noError) parts started
          ∧ (s.isr = false →
            begins (.adpSync a op) s (.busy (.futWait A.fut) [.finish .wordCode]) parts started)
          ∧ (s.isr = true → exec (.adpSync a op) s = .fault .waitInInterrupt))
      ∧ (adapterChecks a.toNat op.toNat ms scratch s →
        (∃ k : Word, k.toNat < ms.length ∧ s.descInFlight A.msgs k = true) →
        exec (.adpBegin a op) s = .fault .descriptorWrittenInFlight
          ∧ exec (.adpSync a op) s = .fault .descriptorWrittenInFlight)
      ∧ (adapterWrites a.toNat op.toNat ms scratch s →
        let ok := ∀ m ∈ ms, Msg.valid m C.mode = true
        ∀ c : Code,
          (A.msgs = 0 ∧ c = .nullPointer
            ∨ A.msgs ≠ 0 ∧ ms = [] ∧ c = .invalidValue
            ∨ A.msgs ≠ 0 ∧ ms ≠ [] ∧ s.busy A.bus = true ∧ c = .busy
            ∨ A.msgs ≠ 0 ∧ ms ≠ [] ∧ s.busy A.bus = false ∧ ¬ ok ∧ c = .invalidValue
            ∨ A.msgs ≠ 0 ∧ ms ≠ [] ∧ s.busy A.bus = false ∧ ok ∧ C.rxCh ≠ C.txCh
              ∧ ((∃ m ∈ ms, (need C.mode m.dir).rx = true) ∧ s.lock C.rxCh = true
                ∨ (∃ m ∈ ms, (need C.mode m.dir).tx = true) ∧ s.lock C.txCh = true)
              ∧ c = .busy) →
          ∀ i ∈ [Instr.adpBegin a op, .adpSync a op],
            completes i s (.code c) [.buses, .dirty, .mem, .draws, .descs, .adps, .futs] (fun t =>
              written t ∧ t.fut A.fut = { result := codeWord c, done := true, running := false }
                ∧ t.adp a.toNat = { csAsserted := false }
                ∧ t.bus A.bus = { s.bus A.bus with transferId := A.id } ∧ ∀ b, b ≠ A.bus → t.bus b = s.bus b))
      ∧ (s.isr = false → s.fg = .busy (.futWait A.fut) [.finish .wordCode] →
        ((s.fut A.fut).running = true → agentStep exec .fg s = .next s)
          ∧ ((s.fut A.fut).running = false →
            (∀ c : Code, (s.fut A.fut).result = codeWord c →
                ∃ t, agentStep exec .fg s = .next t ∧ endedWith (.code c) [] s t)
              ∧ ((∀ c : Code, (s.fut A.fut).result ≠ codeWord c) →
                ∃ t, agentStep exec .fg s = .next t ∧ endedWith (.value (s.fut A.fut).result) [] s t)))

/-- 45_adapter_contract.md R385, R386, R387: ADP.COMPLETE handles a completion under its adapter's id and no other: it
deasserts chip-select and finishes the future with the mapped code; ADP.DISPATCH does so for the first adapter of the
bus's list with the bus's id, and changes nothing where there is none. -/
def Obligations.AdapterCompletes : Prop :=
  ∀ (a b : Word) (s : State),
    let A := s.adpCfg a.toNat
    let code := fun k : Nat =>
      if (s.bus k).status = .transferred then Code.noError
      else if (s.bus k).errors.getLsbD 2 = true then .crc else .ioError
    let finished := fun (n : Nat) (t : State) =>
      t.fut (s.adpCfg n).fut =
          { result := codeWord (code (s.adpCfg n).bus), done := true, running := false }
        ∧ (∀ f, f ≠ (s.adpCfg n).fut → t.fut f = s.fut f)
        ∧ t.adp n = { csAsserted := false } ∧ ∀ m, m ≠ n → t.adp m = s.adp m
    (a.toNat < s.cfg.adapters.length → s.busReady A.bus →
        ((s.bus A.bus).transferId = A.id →
            completes (.adpComplete a) s (.value 1) [.adps, .futs] (finished a.toNat))
          ∧ ((s.bus A.bus).transferId ≠ A.id → completes (.adpComplete a) s (.value 0) [] (fun _ => True)))
      ∧ (s.busReady b.toNat →
        (∀ n ∈ (s.busCfg b.toNat).adapters, (s.adpCfg n).bus = b.toNat) →
        (∀ pre n post, (s.busCfg b.toNat).adapters = pre ++ n :: post →
            (∀ m ∈ pre, (s.adpCfg m).id ≠ (s.bus b.toNat).transferId) →
            (s.adpCfg n).id = (s.bus b.toNat).transferId →
            completes (.adpDispatch b) s .none [.adps, .futs] (finished n))
          ∧ ((∀ n ∈ (s.busCfg b.toNat).adapters, (s.adpCfg n).id ≠ (s.bus b.toNat).transferId) →
            completes (.adpDispatch b) s .none [] (fun _ => True)))

/-- 45_adapter_contract.md R386, R387, R388, 42_spi_events.md R230, R231: where the bus callback is the dispatcher, the
handler step that ends a transfer also completes the operation of the adapter that owns the bus: one step frees the
bus, deasserts that adapter's chip-select and finishes its future with the mapped code; at the last message's
transfer-complete, an SPI error and a DMA transfer error. -/
def Obligations.CompletionReachesAdapter : Prop :=
  ∀ (b : Word) (s : State) (i : Instr) (c n : Nat) (pre post : List Nat), s.busReady b.toNat →
    let B := s.bus b.toNat
    B.callback ≠ 0 → s.callback B.callback.toNat = .always [.op (.adpDispatch b)] →
    (s.busCfg b.toNat).adapters = pre ++ n :: post →
    (∀ m ∈ (s.busCfg b.toNat).adapters, (s.adpCfg m).bus = b.toNat) →
    (∀ m ∈ pre, (s.adpCfg m).id ≠ B.transferId) → (s.adpCfg n).id = B.transferId →
    let finished := fun (code : Code) (t : State) =>
      t.fut (s.adpCfg n).fut = { result := codeWord code, done := true, running := false }
        ∧ (t.adp n).csAsserted = false ∧ (t.bus b.toNat).phase = .idle
        ∧ (t.bus b.toNat).heldRx = false ∧ (t.bus b.toNat).heldTx = false ∧ t.fg = s.fg ∧ t.isr = s.isr
    (completingEvent b s i c → B.count.toNat ≤ B.index.toNat + 1 → (s.current b.toNat).callback = 0 →
        ∃ t, exec i s = .next t ∧ (t.bus b.toNat).status = .transferred ∧ finished .noError t)
      ∧ (s.spiPending b.toNat = true → s.busy b.toNat = true →
        ∃ t, exec (.irqSpi b) s = .next t ∧ (t.bus b.toNat).status = .error
          ∧ finished (if B.errors.getLsbD 2 = true ∨ B.crcerr = true then .crc else .ioError) t)
      ∧ ((i = .irqDmaRx b ∧ c = (s.busCfg b.toNat).rxCh ∨ i = .irqDmaTx b ∧ c = (s.busCfg b.toNat).txCh) →
        (s.chan c).te = true → (s.chan c).teie = true → s.busy b.toNat = true →
        ∃ t, exec i s = .next t ∧ (t.bus b.toNat).status = .error
          ∧ finished (if B.errors.getLsbD 2 = true then .crc else .ioError) t)

/-! ## Reset and invariants -/

/-- 70_reset_and_hazards.md R450, 10_state.md R33, R46, R60: the power-on values the spec gives, an empty program and queues,
and the invariants of the futures, the sessions, the buses and the tables. That the buses' unspecified state and status reset to IDLE,
which the bus invariants at reset rest on, and that memory lists nothing written are the model's choices (log 2, log 3),
as are the empty queues (log 5, log 6, log 7). That no bound callback issues a
handler, the last conjunct, rests on State.reset binding no callback (log 12). -/
def Obligations.ResetState : Prop :=
  (∀ f, State.reset.fut f = { result := 0, done := false, running := false })
    ∧ (∀ b, (State.reset.bus b).inited = false ∧ (State.reset.bus b).heldRx = false
      ∧ (State.reset.bus b).heldTx = false ∧ (State.reset.bus b).pos = 0 ∧ (State.reset.bus b).ovr = false
      ∧ (State.reset.bus b).modf = false ∧ (State.reset.bus b).crcerr = false ∧ (State.reset.bus b).errie = false
      ∧ (State.reset.bus b).rxdmaen = false ∧ (State.reset.bus b).txdmaen = false)
    ∧ (∀ c, State.reset.lock c = false ∧ (State.reset.chan c).en = false ∧ (State.reset.chan c).tc = false
      ∧ (State.reset.chan c).te = false)
    ∧ (∀ i, State.reset.ses i =
      { cardType := .unknown, cid := 0, csd := 0, blockLen := 0, eraseSize := 0, csAsserted := false,
        crcEnabled := false, initialized := false, winOpen := false, expired := false })
    ∧ (∀ a, State.reset.adp a = { csAsserted := false })
    ∧ State.reset.fg = .idle ∧ State.reset.prog = [] ∧ State.reset.mem = [] ∧ State.reset.turns = []
    ∧ (∀ b, State.reset.answersOf b = [])
    ∧ State.reset.tablesWf ∧ State.reset.futuresOk ∧ State.reset.SessionInv ∧ State.reset.BusInv ∧ State.reset.calm

/-- From every state whose tables are in the model's canonical form (its own, so that equal contents are equal data), a
step gives one whose tables are; no step changes the configuration (10_state.md R35, a constant; its place in the state
is log 1) or the context bit, which a step leaves as it found it (60_exceptions.md R411; the bit is log 14); and a fault
once kept stays kept (60_exceptions.md R414; log 34). -/
def Obligations.TablesStayCanonical : Prop :=
  ∀ s t : State, step s = .next t →
    (s.tablesWf → t.tablesWf) ∧ t.cfg = s.cfg ∧ t.isr = s.isr ∧ (∃ l, t.faults = s.faults ++ l)
      ∧ (s.hung = true → t.hung = true)

/-- 10_state.md R33, R60: from every state in which no future is both done and running, every step of every agent gives
one in which none is; and every step keeps that an initialised session has a card type and the block length 512 (R60
(1), here at every step boundary), with what it rests on: a place of SD.INIT after type assignment has the type it found.
An SD.INIT that a timeout callback issues on a session FG is inside is turned away (the model's choice, log 46). -/
def Obligations.FuturesAndSessionsStayConsistent : Prop :=
  ∀ s t : State, step s = .next t → (s.futuresOk → t.futuresOk) ∧ (s.SessionInv → t.SessionInv)

/-- 10_state.md R46: every step of every agent keeps the bus invariants, whatever the callbacks issue: a bus is
TRANSFERRING exactly while it is not IDLE, its index is below its count and its state is its message's direction, it
holds channels exactly then, and their locks are set; with what they rest on: valid descriptors in flight, ENV's locks
apart, only initialised buses in a transfer. A handler that a callback issues inside a handler's step does not run there
(60_exceptions.md R412, log 13). A step also leaves a machine none of whose callbacks issues a handler so. -/
def Obligations.BusInvariantsKept : Prop :=
  ∀ s t : State, step s = .next t → (s.BusInv → t.BusInv) ∧ (s.calm → t.calm)

end Slice0
end

