-- ==== Sys2Proof/Laws/Table.lean ====
section
/-! SUPPORT. The laws of `Table`: a read after a write, and that a write keeps the canonical form. -/

namespace Sys2Proof.Machine

variable {α : Type} [DecidableEq α]

omit [DecidableEq α] in
@[simp] theorem Table.get_nil (d : α) (n : Nat) : Table.get d [] n = d := rfl

omit [DecidableEq α] in
theorem Table.get_erase (d : α) (t : Table α) (n m : Nat) :
    Table.get d (Table.erase t n) m = if n = m then d else Table.get d t m := by
  induction t with
  | nil => simp [Table.erase, Table.get]
  | cons x t ih =>
    obtain ⟨k, v⟩ := x
    by_cases h : k = n <;> by_cases hm : n = m <;> by_cases hk : k = m <;>
      simp_all [Table.erase, Table.get]

omit [DecidableEq α] in
theorem Table.erase_keys (t : Table α) (n : Nat) : ∀ e ∈ Table.erase t n, e.1 ≠ n := by
  induction t with
  | nil => simp [Table.erase]
  | cons x t ih =>
    obtain ⟨k, w⟩ := x
    by_cases hk : k = n
    · simpa [Table.erase, hk] using ih
    · simp only [Table.erase, hk, if_false, List.mem_cons]
      rintro e (rfl | he)
      · exact hk
      · exact ih e he

omit [DecidableEq α] in
theorem Table.get_place (d v : α) (u : Table α) (n m : Nat) (hu : ∀ e ∈ u, e.1 ≠ n) :
    Table.get d (Table.place n v u) m = if n = m then v else Table.get d u m := by
  induction u with
  | nil => simp [Table.place, Table.get]
  | cons x u ih =>
    obtain ⟨k, w⟩ := x
    have hk : k ≠ n := hu (k, w) (by simp)
    have ih' := ih (fun e he => hu e (by simp [he]))
    by_cases hlt : n < k
    · simp [Table.place, hlt, Table.get]
    · by_cases hkm : k = m
      · subst hkm; simp [Table.place, hlt, Table.get, Ne.symm hk]
      · simp [Table.place, hlt, Table.get, hkm, ih']

/-- A read after a write gives the value written at its key and the old value everywhere else. -/
theorem Table.get_put (d v : α) (t : Table α) (n m : Nat) :
    Table.get d (Table.put d t n v) m = if n = m then v else Table.get d t m := by
  unfold Table.put
  split
  · next h => subst h; exact Table.get_erase _ _ _ _
  · rw [Table.get_place _ _ _ _ _ (Table.erase_keys t n), Table.get_erase]
    split <;> rfl

@[simp] theorem Table.get_put_self (d v : α) (t : Table α) (n : Nat) :
    Table.get d (Table.put d t n v) n = v := by simp [Table.get_put]

theorem Table.get_put_ne (d v : α) (t : Table α) {n m : Nat} (h : n ≠ m) :
    Table.get d (Table.put d t n v) m = Table.get d t m := by simp [Table.get_put, h]

theorem Table.wfFrom_mono (d : α) {lo lo' : Nat} (h : lo' ≤ lo) (t : Table α)
    (hw : Table.wfFrom d lo t = true) : Table.wfFrom d lo' t = true := by
  cases t with
  | nil => rfl
  | cons x t =>
    obtain ⟨k, v⟩ := x
    simp only [Table.wfFrom, Bool.and_eq_true, decide_eq_true_eq] at hw ⊢
    exact ⟨⟨by omega, hw.1.2⟩, hw.2⟩

theorem Table.wfFrom_erase (d : α) (t : Table α) (n lo : Nat) (hw : Table.wfFrom d lo t = true) :
    Table.wfFrom d lo (Table.erase t n) = true := by
  induction t generalizing lo with
  | nil => rfl
  | cons x t ih =>
    obtain ⟨k, v⟩ := x
    simp only [Table.wfFrom, Bool.and_eq_true, decide_eq_true_eq] at hw
    by_cases hk : k = n
    · simp only [Table.erase, hk, if_true]
      exact Table.wfFrom_mono d (by omega) _ (ih _ hw.2)
    · simp only [Table.erase, hk, if_false, Table.wfFrom, Bool.and_eq_true, decide_eq_true_eq]
      exact ⟨hw.1, ih _ hw.2⟩

theorem Table.wfFrom_place (d v : α) (hv : v ≠ d) (u : Table α) (n lo : Nat) (hlo : lo ≤ n)
    (hu : ∀ e ∈ u, e.1 ≠ n) (hw : Table.wfFrom d lo u = true) : Table.wfFrom d lo (Table.place n v u) = true := by
  induction u generalizing lo with
  | nil => simp [Table.place, Table.wfFrom, hlo, hv]
  | cons x u ih =>
    obtain ⟨k, w⟩ := x
    have hk : k ≠ n := hu (k, w) (by simp)
    simp only [Table.wfFrom, Bool.and_eq_true, decide_eq_true_eq] at hw
    by_cases hlt : n < k
    · simp only [Table.place, hlt, if_true, Table.wfFrom, Bool.and_eq_true, decide_eq_true_eq]
      exact ⟨⟨hlo, hv⟩, ⟨by omega, hw.1.2⟩, hw.2⟩
    · simp only [Table.place, hlt, if_false, Table.wfFrom, Bool.and_eq_true, decide_eq_true_eq]
      exact ⟨hw.1, ih (k + 1) (by omega) (fun e he => hu e (by simp [he])) hw.2⟩

/-- A write keeps the canonical form. -/
theorem Table.wf_put (d v : α) (t : Table α) (n : Nat) (hw : Table.wf d t = true) :
    Table.wf d (Table.put d t n v) = true := by
  unfold Table.put Table.wf at *
  split
  · exact Table.wfFrom_erase _ _ _ _ hw
  · next h =>
    exact Table.wfFrom_place d v h _ n 0 (by omega) (Table.erase_keys t n) (Table.wfFrom_erase _ _ _ _ hw)

omit [DecidableEq α] in
@[simp] theorem Table.erase_nil (n : Nat) : Table.erase ([] : Table α) n = [] := rfl

end Sys2Proof.Machine
end

