-- ==== Sys2Proof/Laws/State.lean ====
section
/-! SUPPORT. The laws of the state's accessors: one lemma a field and update, so that no proof unfolds an update. -/

namespace Sys2Proof.Machine

/-! ## setFut -/

@[simp] theorem State.setFut_cfg (s : State) (f : Nat) (v : Future) : (s.setFut f v).cfg = s.cfg := rfl
@[simp] theorem State.setFut_buses (s : State) (f : Nat) (v : Future) : (s.setFut f v).buses = s.buses := rfl
@[simp] theorem State.setFut_chans (s : State) (f : Nat) (v : Future) : (s.setFut f v).chans = s.chans := rfl
@[simp] theorem State.setFut_locks (s : State) (f : Nat) (v : Future) : (s.setFut f v).locks = s.locks := rfl
@[simp] theorem State.setFut_sess (s : State) (f : Nat) (v : Future) : (s.setFut f v).sess = s.sess := rfl
@[simp] theorem State.setFut_adps (s : State) (f : Nat) (v : Future) : (s.setFut f v).adps = s.adps := rfl
@[simp] theorem State.setFut_mem (s : State) (f : Nat) (v : Future) : (s.setFut f v).mem = s.mem := rfl
@[simp] theorem State.setFut_descs (s : State) (f : Nat) (v : Future) : (s.setFut f v).descs = s.descs := rfl
@[simp] theorem State.setFut_opRecs (s : State) (f : Nat) (v : Future) : (s.setFut f v).opRecs = s.opRecs := rfl
@[simp] theorem State.setFut_callbacks (s : State) (f : Nat) (v : Future) : (s.setFut f v).callbacks = s.callbacks := rfl
@[simp] theorem State.setFut_fg (s : State) (f : Nat) (v : Future) : (s.setFut f v).fg = s.fg := rfl
@[simp] theorem State.setFut_prog (s : State) (f : Nat) (v : Future) : (s.setFut f v).prog = s.prog := rfl
@[simp] theorem State.setFut_ret (s : State) (f : Nat) (v : Future) : (s.setFut f v).ret = s.ret := rfl
@[simp] theorem State.setFut_isrRet (s : State) (f : Nat) (v : Future) : (s.setFut f v).isrRet = s.isrRet := rfl
@[simp] theorem State.setFut_isr (s : State) (f : Nat) (v : Future) : (s.setFut f v).isr = s.isr := rfl
@[simp] theorem State.setFut_turns (s : State) (f : Nat) (v : Future) : (s.setFut f v).turns = s.turns := rfl
@[simp] theorem State.setFut_answers (s : State) (f : Nat) (v : Future) : (s.setFut f v).answers = s.answers := rfl
@[simp] theorem State.setFut_draws (s : State) (f : Nat) (v : Future) : (s.setFut f v).draws = s.draws := rfl
@[simp] theorem State.setFut_dirty (s : State) (f : Nat) (v : Future) : (s.setFut f v).dirty = s.dirty := rfl
@[simp] theorem State.setFut_ext (s : State) (f : Nat) (v : Future) : (s.setFut f v).ext = s.ext := rfl
@[simp] theorem State.setFut_wire (s : State) (f : Nat) (v : Future) : (s.setFut f v).wire = s.wire := rfl
@[simp] theorem State.setFut_calls (s : State) (f : Nat) (v : Future) : (s.setFut f v).calls = s.calls := rfl
@[simp] theorem State.setFut_faults (s : State) (f : Nat) (v : Future) : (s.setFut f v).faults = s.faults := rfl
@[simp] theorem State.setFut_hung (s : State) (f : Nat) (v : Future) : (s.setFut f v).hung = s.hung := rfl
@[simp] theorem State.fut_setFut_self (s : State) (f : Nat) (v : Future) : (s.setFut f v).fut f = v := by
  simp [State.fut, State.setFut]
theorem State.fut_setFut (s : State) (f : Nat) (v : Future) (n : Nat) :
    (s.setFut f v).fut n = if f = n then v else s.fut n := by
  simp [State.fut, State.setFut, Table.get_put]
theorem State.fut_setFut_ne (s : State) {f n : Nat} (v : Future) (h : f ≠ n) :
    (s.setFut f v).fut n = s.fut n := by
  simp [State.fut_setFut, h]
@[simp] theorem State.bus_setFut (s : State) (f : Nat) (v : Future) (n : Nat) : (s.setFut f v).bus n = s.bus n := rfl
@[simp] theorem State.chan_setFut (s : State) (f : Nat) (v : Future) (n : Nat) : (s.setFut f v).chan n = s.chan n := rfl
@[simp] theorem State.lock_setFut (s : State) (f : Nat) (v : Future) (n : Nat) : (s.setFut f v).lock n = s.lock n := rfl
@[simp] theorem State.extLock_setFut (s : State) (f : Nat) (v : Future) (n : Nat) : (s.setFut f v).extLock n = s.extLock n := rfl
@[simp] theorem State.ses_setFut (s : State) (f : Nat) (v : Future) (n : Nat) : (s.setFut f v).ses n = s.ses n := rfl
@[simp] theorem State.adp_setFut (s : State) (f : Nat) (v : Future) (n : Nat) : (s.setFut f v).adp n = s.adp n := rfl
@[simp] theorem State.busCfg_setFut (s : State) (f : Nat) (v : Future) (n : Nat) : (s.setFut f v).busCfg n = s.busCfg n := rfl
@[simp] theorem State.sesCfg_setFut (s : State) (f : Nat) (v : Future) (n : Nat) : (s.setFut f v).sesCfg n = s.sesCfg n := rfl
@[simp] theorem State.adpCfg_setFut (s : State) (f : Nat) (v : Future) (n : Nat) : (s.setFut f v).adpCfg n = s.adpCfg n := rfl
@[simp] theorem State.sesBus_setFut (s : State) (f : Nat) (v : Future) (n : Nat) : (s.setFut f v).sesBus n = s.sesBus n := rfl
@[simp] theorem State.numBuses_setFut (s : State) (f : Nat) (v : Future) : (s.setFut f v).numBuses = s.numBuses := rfl
@[simp] theorem State.desc_setFut (s : State) (f : Nat) (v : Future) (q : Word) (n : Nat) : (s.setFut f v).desc q n = s.desc q n := rfl
@[simp] theorem State.busy_setFut (s : State) (f : Nat) (v : Future) (n : Nat) : (s.setFut f v).busy n = s.busy n := rfl
@[simp] theorem State.callback_setFut (s : State) (f : Nat) (v : Future) (n : Nat) : (s.setFut f v).callback n = s.callback n := rfl
@[simp] theorem State.answersOf_setFut (s : State) (f : Nat) (v : Future) (n : Nat) : (s.setFut f v).answersOf n = s.answersOf n := rfl
@[simp] theorem State.wireOf_setFut (s : State) (f : Nat) (v : Future) (n : Nat) : (s.setFut f v).wireOf n = s.wireOf n := rfl
@[simp] theorem State.opRec_setFut (s : State) (f : Nat) (v : Future) (n : Nat) : (s.setFut f v).opRec n = s.opRec n := rfl

/-! ## setBus -/

@[simp] theorem State.setBus_cfg (s : State) (b : Nat) (v : Bus) : (s.setBus b v).cfg = s.cfg := rfl
@[simp] theorem State.setBus_futs (s : State) (b : Nat) (v : Bus) : (s.setBus b v).futs = s.futs := rfl
@[simp] theorem State.setBus_chans (s : State) (b : Nat) (v : Bus) : (s.setBus b v).chans = s.chans := rfl
@[simp] theorem State.setBus_locks (s : State) (b : Nat) (v : Bus) : (s.setBus b v).locks = s.locks := rfl
@[simp] theorem State.setBus_sess (s : State) (b : Nat) (v : Bus) : (s.setBus b v).sess = s.sess := rfl
@[simp] theorem State.setBus_adps (s : State) (b : Nat) (v : Bus) : (s.setBus b v).adps = s.adps := rfl
@[simp] theorem State.setBus_mem (s : State) (b : Nat) (v : Bus) : (s.setBus b v).mem = s.mem := rfl
@[simp] theorem State.setBus_descs (s : State) (b : Nat) (v : Bus) : (s.setBus b v).descs = s.descs := rfl
@[simp] theorem State.setBus_opRecs (s : State) (b : Nat) (v : Bus) : (s.setBus b v).opRecs = s.opRecs := rfl
@[simp] theorem State.setBus_callbacks (s : State) (b : Nat) (v : Bus) : (s.setBus b v).callbacks = s.callbacks := rfl
@[simp] theorem State.setBus_fg (s : State) (b : Nat) (v : Bus) : (s.setBus b v).fg = s.fg := rfl
@[simp] theorem State.setBus_prog (s : State) (b : Nat) (v : Bus) : (s.setBus b v).prog = s.prog := rfl
@[simp] theorem State.setBus_ret (s : State) (b : Nat) (v : Bus) : (s.setBus b v).ret = s.ret := rfl
@[simp] theorem State.setBus_isrRet (s : State) (b : Nat) (v : Bus) : (s.setBus b v).isrRet = s.isrRet := rfl
@[simp] theorem State.setBus_isr (s : State) (b : Nat) (v : Bus) : (s.setBus b v).isr = s.isr := rfl
@[simp] theorem State.setBus_turns (s : State) (b : Nat) (v : Bus) : (s.setBus b v).turns = s.turns := rfl
@[simp] theorem State.setBus_answers (s : State) (b : Nat) (v : Bus) : (s.setBus b v).answers = s.answers := rfl
@[simp] theorem State.setBus_draws (s : State) (b : Nat) (v : Bus) : (s.setBus b v).draws = s.draws := rfl
@[simp] theorem State.setBus_dirty (s : State) (b : Nat) (v : Bus) : (s.setBus b v).dirty = s.dirty := rfl
@[simp] theorem State.setBus_ext (s : State) (b : Nat) (v : Bus) : (s.setBus b v).ext = s.ext := rfl
@[simp] theorem State.setBus_wire (s : State) (b : Nat) (v : Bus) : (s.setBus b v).wire = s.wire := rfl
@[simp] theorem State.setBus_calls (s : State) (b : Nat) (v : Bus) : (s.setBus b v).calls = s.calls := rfl
@[simp] theorem State.setBus_faults (s : State) (b : Nat) (v : Bus) : (s.setBus b v).faults = s.faults := rfl
@[simp] theorem State.setBus_hung (s : State) (b : Nat) (v : Bus) : (s.setBus b v).hung = s.hung := rfl
@[simp] theorem State.fut_setBus (s : State) (b : Nat) (v : Bus) (n : Nat) : (s.setBus b v).fut n = s.fut n := rfl
@[simp] theorem State.bus_setBus_self (s : State) (b : Nat) (v : Bus) : (s.setBus b v).bus b = v := by
  simp [State.bus, State.setBus]
theorem State.bus_setBus (s : State) (b : Nat) (v : Bus) (n : Nat) :
    (s.setBus b v).bus n = if b = n then v else s.bus n := by
  simp [State.bus, State.setBus, Table.get_put]
theorem State.bus_setBus_ne (s : State) {b n : Nat} (v : Bus) (h : b ≠ n) :
    (s.setBus b v).bus n = s.bus n := by
  simp [State.bus_setBus, h]
@[simp] theorem State.chan_setBus (s : State) (b : Nat) (v : Bus) (n : Nat) : (s.setBus b v).chan n = s.chan n := rfl
@[simp] theorem State.lock_setBus (s : State) (b : Nat) (v : Bus) (n : Nat) : (s.setBus b v).lock n = s.lock n := rfl
@[simp] theorem State.extLock_setBus (s : State) (b : Nat) (v : Bus) (n : Nat) : (s.setBus b v).extLock n = s.extLock n := rfl
@[simp] theorem State.ses_setBus (s : State) (b : Nat) (v : Bus) (n : Nat) : (s.setBus b v).ses n = s.ses n := rfl
@[simp] theorem State.adp_setBus (s : State) (b : Nat) (v : Bus) (n : Nat) : (s.setBus b v).adp n = s.adp n := rfl
@[simp] theorem State.busCfg_setBus (s : State) (b : Nat) (v : Bus) (n : Nat) : (s.setBus b v).busCfg n = s.busCfg n := rfl
@[simp] theorem State.sesCfg_setBus (s : State) (b : Nat) (v : Bus) (n : Nat) : (s.setBus b v).sesCfg n = s.sesCfg n := rfl
@[simp] theorem State.adpCfg_setBus (s : State) (b : Nat) (v : Bus) (n : Nat) : (s.setBus b v).adpCfg n = s.adpCfg n := rfl
@[simp] theorem State.sesBus_setBus (s : State) (b : Nat) (v : Bus) (n : Nat) : (s.setBus b v).sesBus n = s.sesBus n := rfl
@[simp] theorem State.numBuses_setBus (s : State) (b : Nat) (v : Bus) : (s.setBus b v).numBuses = s.numBuses := rfl
@[simp] theorem State.desc_setBus (s : State) (b : Nat) (v : Bus) (q : Word) (n : Nat) : (s.setBus b v).desc q n = s.desc q n := rfl
@[simp] theorem State.callback_setBus (s : State) (b : Nat) (v : Bus) (n : Nat) : (s.setBus b v).callback n = s.callback n := rfl
@[simp] theorem State.answersOf_setBus (s : State) (b : Nat) (v : Bus) (n : Nat) : (s.setBus b v).answersOf n = s.answersOf n := rfl
@[simp] theorem State.wireOf_setBus (s : State) (b : Nat) (v : Bus) (n : Nat) : (s.setBus b v).wireOf n = s.wireOf n := rfl
@[simp] theorem State.opRec_setBus (s : State) (b : Nat) (v : Bus) (n : Nat) : (s.setBus b v).opRec n = s.opRec n := rfl

/-! ## setChan -/

@[simp] theorem State.setChan_cfg (s : State) (c : Nat) (v : Chan) : (s.setChan c v).cfg = s.cfg := rfl
@[simp] theorem State.setChan_futs (s : State) (c : Nat) (v : Chan) : (s.setChan c v).futs = s.futs := rfl
@[simp] theorem State.setChan_buses (s : State) (c : Nat) (v : Chan) : (s.setChan c v).buses = s.buses := rfl
@[simp] theorem State.setChan_locks (s : State) (c : Nat) (v : Chan) : (s.setChan c v).locks = s.locks := rfl
@[simp] theorem State.setChan_sess (s : State) (c : Nat) (v : Chan) : (s.setChan c v).sess = s.sess := rfl
@[simp] theorem State.setChan_adps (s : State) (c : Nat) (v : Chan) : (s.setChan c v).adps = s.adps := rfl
@[simp] theorem State.setChan_mem (s : State) (c : Nat) (v : Chan) : (s.setChan c v).mem = s.mem := rfl
@[simp] theorem State.setChan_descs (s : State) (c : Nat) (v : Chan) : (s.setChan c v).descs = s.descs := rfl
@[simp] theorem State.setChan_opRecs (s : State) (c : Nat) (v : Chan) : (s.setChan c v).opRecs = s.opRecs := rfl
@[simp] theorem State.setChan_callbacks (s : State) (c : Nat) (v : Chan) : (s.setChan c v).callbacks = s.callbacks := rfl
@[simp] theorem State.setChan_fg (s : State) (c : Nat) (v : Chan) : (s.setChan c v).fg = s.fg := rfl
@[simp] theorem State.setChan_prog (s : State) (c : Nat) (v : Chan) : (s.setChan c v).prog = s.prog := rfl
@[simp] theorem State.setChan_ret (s : State) (c : Nat) (v : Chan) : (s.setChan c v).ret = s.ret := rfl
@[simp] theorem State.setChan_isrRet (s : State) (c : Nat) (v : Chan) : (s.setChan c v).isrRet = s.isrRet := rfl
@[simp] theorem State.setChan_isr (s : State) (c : Nat) (v : Chan) : (s.setChan c v).isr = s.isr := rfl
@[simp] theorem State.setChan_turns (s : State) (c : Nat) (v : Chan) : (s.setChan c v).turns = s.turns := rfl
@[simp] theorem State.setChan_answers (s : State) (c : Nat) (v : Chan) : (s.setChan c v).answers = s.answers := rfl
@[simp] theorem State.setChan_draws (s : State) (c : Nat) (v : Chan) : (s.setChan c v).draws = s.draws := rfl
@[simp] theorem State.setChan_dirty (s : State) (c : Nat) (v : Chan) : (s.setChan c v).dirty = s.dirty := rfl
@[simp] theorem State.setChan_ext (s : State) (c : Nat) (v : Chan) : (s.setChan c v).ext = s.ext := rfl
@[simp] theorem State.setChan_wire (s : State) (c : Nat) (v : Chan) : (s.setChan c v).wire = s.wire := rfl
@[simp] theorem State.setChan_calls (s : State) (c : Nat) (v : Chan) : (s.setChan c v).calls = s.calls := rfl
@[simp] theorem State.setChan_faults (s : State) (c : Nat) (v : Chan) : (s.setChan c v).faults = s.faults := rfl
@[simp] theorem State.setChan_hung (s : State) (c : Nat) (v : Chan) : (s.setChan c v).hung = s.hung := rfl
@[simp] theorem State.fut_setChan (s : State) (c : Nat) (v : Chan) (n : Nat) : (s.setChan c v).fut n = s.fut n := rfl
@[simp] theorem State.bus_setChan (s : State) (c : Nat) (v : Chan) (n : Nat) : (s.setChan c v).bus n = s.bus n := rfl
@[simp] theorem State.chan_setChan_self (s : State) (c : Nat) (v : Chan) : (s.setChan c v).chan c = v := by
  simp [State.chan, State.setChan]
theorem State.chan_setChan (s : State) (c : Nat) (v : Chan) (n : Nat) :
    (s.setChan c v).chan n = if c = n then v else s.chan n := by
  simp [State.chan, State.setChan, Table.get_put]
theorem State.chan_setChan_ne (s : State) {c n : Nat} (v : Chan) (h : c ≠ n) :
    (s.setChan c v).chan n = s.chan n := by
  simp [State.chan_setChan, h]
@[simp] theorem State.lock_setChan (s : State) (c : Nat) (v : Chan) (n : Nat) : (s.setChan c v).lock n = s.lock n := rfl
@[simp] theorem State.extLock_setChan (s : State) (c : Nat) (v : Chan) (n : Nat) : (s.setChan c v).extLock n = s.extLock n := rfl
@[simp] theorem State.ses_setChan (s : State) (c : Nat) (v : Chan) (n : Nat) : (s.setChan c v).ses n = s.ses n := rfl
@[simp] theorem State.adp_setChan (s : State) (c : Nat) (v : Chan) (n : Nat) : (s.setChan c v).adp n = s.adp n := rfl
@[simp] theorem State.busCfg_setChan (s : State) (c : Nat) (v : Chan) (n : Nat) : (s.setChan c v).busCfg n = s.busCfg n := rfl
@[simp] theorem State.sesCfg_setChan (s : State) (c : Nat) (v : Chan) (n : Nat) : (s.setChan c v).sesCfg n = s.sesCfg n := rfl
@[simp] theorem State.adpCfg_setChan (s : State) (c : Nat) (v : Chan) (n : Nat) : (s.setChan c v).adpCfg n = s.adpCfg n := rfl
@[simp] theorem State.sesBus_setChan (s : State) (c : Nat) (v : Chan) (n : Nat) : (s.setChan c v).sesBus n = s.sesBus n := rfl
@[simp] theorem State.numBuses_setChan (s : State) (c : Nat) (v : Chan) : (s.setChan c v).numBuses = s.numBuses := rfl
@[simp] theorem State.desc_setChan (s : State) (c : Nat) (v : Chan) (q : Word) (n : Nat) : (s.setChan c v).desc q n = s.desc q n := rfl
@[simp] theorem State.busy_setChan (s : State) (c : Nat) (v : Chan) (n : Nat) : (s.setChan c v).busy n = s.busy n := rfl
@[simp] theorem State.callback_setChan (s : State) (c : Nat) (v : Chan) (n : Nat) : (s.setChan c v).callback n = s.callback n := rfl
@[simp] theorem State.answersOf_setChan (s : State) (c : Nat) (v : Chan) (n : Nat) : (s.setChan c v).answersOf n = s.answersOf n := rfl
@[simp] theorem State.wireOf_setChan (s : State) (c : Nat) (v : Chan) (n : Nat) : (s.setChan c v).wireOf n = s.wireOf n := rfl
@[simp] theorem State.opRec_setChan (s : State) (c : Nat) (v : Chan) (n : Nat) : (s.setChan c v).opRec n = s.opRec n := rfl

/-! ## setLock -/

@[simp] theorem State.setLock_cfg (s : State) (c : Nat) (v : Bool) : (s.setLock c v).cfg = s.cfg := rfl
@[simp] theorem State.setLock_futs (s : State) (c : Nat) (v : Bool) : (s.setLock c v).futs = s.futs := rfl
@[simp] theorem State.setLock_buses (s : State) (c : Nat) (v : Bool) : (s.setLock c v).buses = s.buses := rfl
@[simp] theorem State.setLock_chans (s : State) (c : Nat) (v : Bool) : (s.setLock c v).chans = s.chans := rfl
@[simp] theorem State.setLock_sess (s : State) (c : Nat) (v : Bool) : (s.setLock c v).sess = s.sess := rfl
@[simp] theorem State.setLock_adps (s : State) (c : Nat) (v : Bool) : (s.setLock c v).adps = s.adps := rfl
@[simp] theorem State.setLock_mem (s : State) (c : Nat) (v : Bool) : (s.setLock c v).mem = s.mem := rfl
@[simp] theorem State.setLock_descs (s : State) (c : Nat) (v : Bool) : (s.setLock c v).descs = s.descs := rfl
@[simp] theorem State.setLock_opRecs (s : State) (c : Nat) (v : Bool) : (s.setLock c v).opRecs = s.opRecs := rfl
@[simp] theorem State.setLock_callbacks (s : State) (c : Nat) (v : Bool) : (s.setLock c v).callbacks = s.callbacks := rfl
@[simp] theorem State.setLock_fg (s : State) (c : Nat) (v : Bool) : (s.setLock c v).fg = s.fg := rfl
@[simp] theorem State.setLock_prog (s : State) (c : Nat) (v : Bool) : (s.setLock c v).prog = s.prog := rfl
@[simp] theorem State.setLock_ret (s : State) (c : Nat) (v : Bool) : (s.setLock c v).ret = s.ret := rfl
@[simp] theorem State.setLock_isrRet (s : State) (c : Nat) (v : Bool) : (s.setLock c v).isrRet = s.isrRet := rfl
@[simp] theorem State.setLock_isr (s : State) (c : Nat) (v : Bool) : (s.setLock c v).isr = s.isr := rfl
@[simp] theorem State.setLock_turns (s : State) (c : Nat) (v : Bool) : (s.setLock c v).turns = s.turns := rfl
@[simp] theorem State.setLock_answers (s : State) (c : Nat) (v : Bool) : (s.setLock c v).answers = s.answers := rfl
@[simp] theorem State.setLock_draws (s : State) (c : Nat) (v : Bool) : (s.setLock c v).draws = s.draws := rfl
@[simp] theorem State.setLock_dirty (s : State) (c : Nat) (v : Bool) : (s.setLock c v).dirty = s.dirty := rfl
@[simp] theorem State.setLock_ext (s : State) (c : Nat) (v : Bool) : (s.setLock c v).ext = s.ext := rfl
@[simp] theorem State.setLock_wire (s : State) (c : Nat) (v : Bool) : (s.setLock c v).wire = s.wire := rfl
@[simp] theorem State.setLock_calls (s : State) (c : Nat) (v : Bool) : (s.setLock c v).calls = s.calls := rfl
@[simp] theorem State.setLock_faults (s : State) (c : Nat) (v : Bool) : (s.setLock c v).faults = s.faults := rfl
@[simp] theorem State.setLock_hung (s : State) (c : Nat) (v : Bool) : (s.setLock c v).hung = s.hung := rfl
@[simp] theorem State.fut_setLock (s : State) (c : Nat) (v : Bool) (n : Nat) : (s.setLock c v).fut n = s.fut n := rfl
@[simp] theorem State.bus_setLock (s : State) (c : Nat) (v : Bool) (n : Nat) : (s.setLock c v).bus n = s.bus n := rfl
@[simp] theorem State.chan_setLock (s : State) (c : Nat) (v : Bool) (n : Nat) : (s.setLock c v).chan n = s.chan n := rfl
@[simp] theorem State.lock_setLock_self (s : State) (c : Nat) (v : Bool) : (s.setLock c v).lock c = v := by
  simp [State.lock, State.setLock]
theorem State.lock_setLock (s : State) (c : Nat) (v : Bool) (n : Nat) :
    (s.setLock c v).lock n = if c = n then v else s.lock n := by
  simp [State.lock, State.setLock, Table.get_put]
theorem State.lock_setLock_ne (s : State) {c n : Nat} (v : Bool) (h : c ≠ n) :
    (s.setLock c v).lock n = s.lock n := by
  simp [State.lock_setLock, h]
@[simp] theorem State.extLock_setLock (s : State) (c : Nat) (v : Bool) (n : Nat) : (s.setLock c v).extLock n = s.extLock n := rfl
@[simp] theorem State.ses_setLock (s : State) (c : Nat) (v : Bool) (n : Nat) : (s.setLock c v).ses n = s.ses n := rfl
@[simp] theorem State.adp_setLock (s : State) (c : Nat) (v : Bool) (n : Nat) : (s.setLock c v).adp n = s.adp n := rfl
@[simp] theorem State.busCfg_setLock (s : State) (c : Nat) (v : Bool) (n : Nat) : (s.setLock c v).busCfg n = s.busCfg n := rfl
@[simp] theorem State.sesCfg_setLock (s : State) (c : Nat) (v : Bool) (n : Nat) : (s.setLock c v).sesCfg n = s.sesCfg n := rfl
@[simp] theorem State.adpCfg_setLock (s : State) (c : Nat) (v : Bool) (n : Nat) : (s.setLock c v).adpCfg n = s.adpCfg n := rfl
@[simp] theorem State.sesBus_setLock (s : State) (c : Nat) (v : Bool) (n : Nat) : (s.setLock c v).sesBus n = s.sesBus n := rfl
@[simp] theorem State.numBuses_setLock (s : State) (c : Nat) (v : Bool) : (s.setLock c v).numBuses = s.numBuses := rfl
@[simp] theorem State.desc_setLock (s : State) (c : Nat) (v : Bool) (q : Word) (n : Nat) : (s.setLock c v).desc q n = s.desc q n := rfl
@[simp] theorem State.busy_setLock (s : State) (c : Nat) (v : Bool) (n : Nat) : (s.setLock c v).busy n = s.busy n := rfl
@[simp] theorem State.callback_setLock (s : State) (c : Nat) (v : Bool) (n : Nat) : (s.setLock c v).callback n = s.callback n := rfl
@[simp] theorem State.answersOf_setLock (s : State) (c : Nat) (v : Bool) (n : Nat) : (s.setLock c v).answersOf n = s.answersOf n := rfl
@[simp] theorem State.wireOf_setLock (s : State) (c : Nat) (v : Bool) (n : Nat) : (s.setLock c v).wireOf n = s.wireOf n := rfl
@[simp] theorem State.opRec_setLock (s : State) (c : Nat) (v : Bool) (n : Nat) : (s.setLock c v).opRec n = s.opRec n := rfl

/-! ## setExt -/

@[simp] theorem State.setExt_cfg (s : State) (c : Nat) (v : Bool) : (s.setExt c v).cfg = s.cfg := rfl
@[simp] theorem State.setExt_futs (s : State) (c : Nat) (v : Bool) : (s.setExt c v).futs = s.futs := rfl
@[simp] theorem State.setExt_buses (s : State) (c : Nat) (v : Bool) : (s.setExt c v).buses = s.buses := rfl
@[simp] theorem State.setExt_chans (s : State) (c : Nat) (v : Bool) : (s.setExt c v).chans = s.chans := rfl
@[simp] theorem State.setExt_locks (s : State) (c : Nat) (v : Bool) : (s.setExt c v).locks = s.locks := rfl
@[simp] theorem State.setExt_sess (s : State) (c : Nat) (v : Bool) : (s.setExt c v).sess = s.sess := rfl
@[simp] theorem State.setExt_adps (s : State) (c : Nat) (v : Bool) : (s.setExt c v).adps = s.adps := rfl
@[simp] theorem State.setExt_mem (s : State) (c : Nat) (v : Bool) : (s.setExt c v).mem = s.mem := rfl
@[simp] theorem State.setExt_descs (s : State) (c : Nat) (v : Bool) : (s.setExt c v).descs = s.descs := rfl
@[simp] theorem State.setExt_opRecs (s : State) (c : Nat) (v : Bool) : (s.setExt c v).opRecs = s.opRecs := rfl
@[simp] theorem State.setExt_callbacks (s : State) (c : Nat) (v : Bool) : (s.setExt c v).callbacks = s.callbacks := rfl
@[simp] theorem State.setExt_fg (s : State) (c : Nat) (v : Bool) : (s.setExt c v).fg = s.fg := rfl
@[simp] theorem State.setExt_prog (s : State) (c : Nat) (v : Bool) : (s.setExt c v).prog = s.prog := rfl
@[simp] theorem State.setExt_ret (s : State) (c : Nat) (v : Bool) : (s.setExt c v).ret = s.ret := rfl
@[simp] theorem State.setExt_isrRet (s : State) (c : Nat) (v : Bool) : (s.setExt c v).isrRet = s.isrRet := rfl
@[simp] theorem State.setExt_isr (s : State) (c : Nat) (v : Bool) : (s.setExt c v).isr = s.isr := rfl
@[simp] theorem State.setExt_turns (s : State) (c : Nat) (v : Bool) : (s.setExt c v).turns = s.turns := rfl
@[simp] theorem State.setExt_answers (s : State) (c : Nat) (v : Bool) : (s.setExt c v).answers = s.answers := rfl
@[simp] theorem State.setExt_draws (s : State) (c : Nat) (v : Bool) : (s.setExt c v).draws = s.draws := rfl
@[simp] theorem State.setExt_dirty (s : State) (c : Nat) (v : Bool) : (s.setExt c v).dirty = s.dirty := rfl
@[simp] theorem State.setExt_wire (s : State) (c : Nat) (v : Bool) : (s.setExt c v).wire = s.wire := rfl
@[simp] theorem State.setExt_calls (s : State) (c : Nat) (v : Bool) : (s.setExt c v).calls = s.calls := rfl
@[simp] theorem State.setExt_faults (s : State) (c : Nat) (v : Bool) : (s.setExt c v).faults = s.faults := rfl
@[simp] theorem State.setExt_hung (s : State) (c : Nat) (v : Bool) : (s.setExt c v).hung = s.hung := rfl
@[simp] theorem State.fut_setExt (s : State) (c : Nat) (v : Bool) (n : Nat) : (s.setExt c v).fut n = s.fut n := rfl
@[simp] theorem State.bus_setExt (s : State) (c : Nat) (v : Bool) (n : Nat) : (s.setExt c v).bus n = s.bus n := rfl
@[simp] theorem State.chan_setExt (s : State) (c : Nat) (v : Bool) (n : Nat) : (s.setExt c v).chan n = s.chan n := rfl
@[simp] theorem State.lock_setExt (s : State) (c : Nat) (v : Bool) (n : Nat) : (s.setExt c v).lock n = s.lock n := rfl
@[simp] theorem State.extLock_setExt_self (s : State) (c : Nat) (v : Bool) : (s.setExt c v).extLock c = v := by
  simp [State.extLock, State.setExt]
theorem State.extLock_setExt (s : State) (c : Nat) (v : Bool) (n : Nat) :
    (s.setExt c v).extLock n = if c = n then v else s.extLock n := by
  simp [State.extLock, State.setExt, Table.get_put]
theorem State.extLock_setExt_ne (s : State) {c n : Nat} (v : Bool) (h : c ≠ n) :
    (s.setExt c v).extLock n = s.extLock n := by
  simp [State.extLock_setExt, h]
@[simp] theorem State.ses_setExt (s : State) (c : Nat) (v : Bool) (n : Nat) : (s.setExt c v).ses n = s.ses n := rfl
@[simp] theorem State.adp_setExt (s : State) (c : Nat) (v : Bool) (n : Nat) : (s.setExt c v).adp n = s.adp n := rfl
@[simp] theorem State.busCfg_setExt (s : State) (c : Nat) (v : Bool) (n : Nat) : (s.setExt c v).busCfg n = s.busCfg n := rfl
@[simp] theorem State.sesCfg_setExt (s : State) (c : Nat) (v : Bool) (n : Nat) : (s.setExt c v).sesCfg n = s.sesCfg n := rfl
@[simp] theorem State.adpCfg_setExt (s : State) (c : Nat) (v : Bool) (n : Nat) : (s.setExt c v).adpCfg n = s.adpCfg n := rfl
@[simp] theorem State.sesBus_setExt (s : State) (c : Nat) (v : Bool) (n : Nat) : (s.setExt c v).sesBus n = s.sesBus n := rfl
@[simp] theorem State.numBuses_setExt (s : State) (c : Nat) (v : Bool) : (s.setExt c v).numBuses = s.numBuses := rfl
@[simp] theorem State.desc_setExt (s : State) (c : Nat) (v : Bool) (q : Word) (n : Nat) : (s.setExt c v).desc q n = s.desc q n := rfl
@[simp] theorem State.busy_setExt (s : State) (c : Nat) (v : Bool) (n : Nat) : (s.setExt c v).busy n = s.busy n := rfl
@[simp] theorem State.callback_setExt (s : State) (c : Nat) (v : Bool) (n : Nat) : (s.setExt c v).callback n = s.callback n := rfl
@[simp] theorem State.answersOf_setExt (s : State) (c : Nat) (v : Bool) (n : Nat) : (s.setExt c v).answersOf n = s.answersOf n := rfl
@[simp] theorem State.wireOf_setExt (s : State) (c : Nat) (v : Bool) (n : Nat) : (s.setExt c v).wireOf n = s.wireOf n := rfl
@[simp] theorem State.opRec_setExt (s : State) (c : Nat) (v : Bool) (n : Nat) : (s.setExt c v).opRec n = s.opRec n := rfl

/-! ## setSes -/

@[simp] theorem State.setSes_cfg (s : State) (i : Nat) (v : Session) : (s.setSes i v).cfg = s.cfg := rfl
@[simp] theorem State.setSes_futs (s : State) (i : Nat) (v : Session) : (s.setSes i v).futs = s.futs := rfl
@[simp] theorem State.setSes_buses (s : State) (i : Nat) (v : Session) : (s.setSes i v).buses = s.buses := rfl
@[simp] theorem State.setSes_chans (s : State) (i : Nat) (v : Session) : (s.setSes i v).chans = s.chans := rfl
@[simp] theorem State.setSes_locks (s : State) (i : Nat) (v : Session) : (s.setSes i v).locks = s.locks := rfl
@[simp] theorem State.setSes_adps (s : State) (i : Nat) (v : Session) : (s.setSes i v).adps = s.adps := rfl
@[simp] theorem State.setSes_mem (s : State) (i : Nat) (v : Session) : (s.setSes i v).mem = s.mem := rfl
@[simp] theorem State.setSes_descs (s : State) (i : Nat) (v : Session) : (s.setSes i v).descs = s.descs := rfl
@[simp] theorem State.setSes_opRecs (s : State) (i : Nat) (v : Session) : (s.setSes i v).opRecs = s.opRecs := rfl
@[simp] theorem State.setSes_callbacks (s : State) (i : Nat) (v : Session) : (s.setSes i v).callbacks = s.callbacks := rfl
@[simp] theorem State.setSes_fg (s : State) (i : Nat) (v : Session) : (s.setSes i v).fg = s.fg := rfl
@[simp] theorem State.setSes_prog (s : State) (i : Nat) (v : Session) : (s.setSes i v).prog = s.prog := rfl
@[simp] theorem State.setSes_ret (s : State) (i : Nat) (v : Session) : (s.setSes i v).ret = s.ret := rfl
@[simp] theorem State.setSes_isrRet (s : State) (i : Nat) (v : Session) : (s.setSes i v).isrRet = s.isrRet := rfl
@[simp] theorem State.setSes_isr (s : State) (i : Nat) (v : Session) : (s.setSes i v).isr = s.isr := rfl
@[simp] theorem State.setSes_turns (s : State) (i : Nat) (v : Session) : (s.setSes i v).turns = s.turns := rfl
@[simp] theorem State.setSes_answers (s : State) (i : Nat) (v : Session) : (s.setSes i v).answers = s.answers := rfl
@[simp] theorem State.setSes_draws (s : State) (i : Nat) (v : Session) : (s.setSes i v).draws = s.draws := rfl
@[simp] theorem State.setSes_dirty (s : State) (i : Nat) (v : Session) : (s.setSes i v).dirty = s.dirty := rfl
@[simp] theorem State.setSes_ext (s : State) (i : Nat) (v : Session) : (s.setSes i v).ext = s.ext := rfl
@[simp] theorem State.setSes_wire (s : State) (i : Nat) (v : Session) : (s.setSes i v).wire = s.wire := rfl
@[simp] theorem State.setSes_calls (s : State) (i : Nat) (v : Session) : (s.setSes i v).calls = s.calls := rfl
@[simp] theorem State.setSes_faults (s : State) (i : Nat) (v : Session) : (s.setSes i v).faults = s.faults := rfl
@[simp] theorem State.setSes_hung (s : State) (i : Nat) (v : Session) : (s.setSes i v).hung = s.hung := rfl
@[simp] theorem State.fut_setSes (s : State) (i : Nat) (v : Session) (n : Nat) : (s.setSes i v).fut n = s.fut n := rfl
@[simp] theorem State.bus_setSes (s : State) (i : Nat) (v : Session) (n : Nat) : (s.setSes i v).bus n = s.bus n := rfl
@[simp] theorem State.chan_setSes (s : State) (i : Nat) (v : Session) (n : Nat) : (s.setSes i v).chan n = s.chan n := rfl
@[simp] theorem State.lock_setSes (s : State) (i : Nat) (v : Session) (n : Nat) : (s.setSes i v).lock n = s.lock n := rfl
@[simp] theorem State.extLock_setSes (s : State) (i : Nat) (v : Session) (n : Nat) : (s.setSes i v).extLock n = s.extLock n := rfl
@[simp] theorem State.ses_setSes_self (s : State) (i : Nat) (v : Session) : (s.setSes i v).ses i = v := by
  simp [State.ses, State.setSes]
theorem State.ses_setSes (s : State) (i : Nat) (v : Session) (n : Nat) :
    (s.setSes i v).ses n = if i = n then v else s.ses n := by
  simp [State.ses, State.setSes, Table.get_put]
theorem State.ses_setSes_ne (s : State) {i n : Nat} (v : Session) (h : i ≠ n) :
    (s.setSes i v).ses n = s.ses n := by
  simp [State.ses_setSes, h]
@[simp] theorem State.adp_setSes (s : State) (i : Nat) (v : Session) (n : Nat) : (s.setSes i v).adp n = s.adp n := rfl
@[simp] theorem State.busCfg_setSes (s : State) (i : Nat) (v : Session) (n : Nat) : (s.setSes i v).busCfg n = s.busCfg n := rfl
@[simp] theorem State.sesCfg_setSes (s : State) (i : Nat) (v : Session) (n : Nat) : (s.setSes i v).sesCfg n = s.sesCfg n := rfl
@[simp] theorem State.adpCfg_setSes (s : State) (i : Nat) (v : Session) (n : Nat) : (s.setSes i v).adpCfg n = s.adpCfg n := rfl
@[simp] theorem State.sesBus_setSes (s : State) (i : Nat) (v : Session) (n : Nat) : (s.setSes i v).sesBus n = s.sesBus n := rfl
@[simp] theorem State.numBuses_setSes (s : State) (i : Nat) (v : Session) : (s.setSes i v).numBuses = s.numBuses := rfl
@[simp] theorem State.desc_setSes (s : State) (i : Nat) (v : Session) (q : Word) (n : Nat) : (s.setSes i v).desc q n = s.desc q n := rfl
@[simp] theorem State.busy_setSes (s : State) (i : Nat) (v : Session) (n : Nat) : (s.setSes i v).busy n = s.busy n := rfl
@[simp] theorem State.callback_setSes (s : State) (i : Nat) (v : Session) (n : Nat) : (s.setSes i v).callback n = s.callback n := rfl
@[simp] theorem State.answersOf_setSes (s : State) (i : Nat) (v : Session) (n : Nat) : (s.setSes i v).answersOf n = s.answersOf n := rfl
@[simp] theorem State.wireOf_setSes (s : State) (i : Nat) (v : Session) (n : Nat) : (s.setSes i v).wireOf n = s.wireOf n := rfl
@[simp] theorem State.opRec_setSes (s : State) (i : Nat) (v : Session) (n : Nat) : (s.setSes i v).opRec n = s.opRec n := rfl

/-! ## setAdp -/

@[simp] theorem State.setAdp_cfg (s : State) (a : Nat) (v : Adapter) : (s.setAdp a v).cfg = s.cfg := rfl
@[simp] theorem State.setAdp_futs (s : State) (a : Nat) (v : Adapter) : (s.setAdp a v).futs = s.futs := rfl
@[simp] theorem State.setAdp_buses (s : State) (a : Nat) (v : Adapter) : (s.setAdp a v).buses = s.buses := rfl
@[simp] theorem State.setAdp_chans (s : State) (a : Nat) (v : Adapter) : (s.setAdp a v).chans = s.chans := rfl
@[simp] theorem State.setAdp_locks (s : State) (a : Nat) (v : Adapter) : (s.setAdp a v).locks = s.locks := rfl
@[simp] theorem State.setAdp_sess (s : State) (a : Nat) (v : Adapter) : (s.setAdp a v).sess = s.sess := rfl
@[simp] theorem State.setAdp_mem (s : State) (a : Nat) (v : Adapter) : (s.setAdp a v).mem = s.mem := rfl
@[simp] theorem State.setAdp_descs (s : State) (a : Nat) (v : Adapter) : (s.setAdp a v).descs = s.descs := rfl
@[simp] theorem State.setAdp_opRecs (s : State) (a : Nat) (v : Adapter) : (s.setAdp a v).opRecs = s.opRecs := rfl
@[simp] theorem State.setAdp_callbacks (s : State) (a : Nat) (v : Adapter) : (s.setAdp a v).callbacks = s.callbacks := rfl
@[simp] theorem State.setAdp_fg (s : State) (a : Nat) (v : Adapter) : (s.setAdp a v).fg = s.fg := rfl
@[simp] theorem State.setAdp_prog (s : State) (a : Nat) (v : Adapter) : (s.setAdp a v).prog = s.prog := rfl
@[simp] theorem State.setAdp_ret (s : State) (a : Nat) (v : Adapter) : (s.setAdp a v).ret = s.ret := rfl
@[simp] theorem State.setAdp_isrRet (s : State) (a : Nat) (v : Adapter) : (s.setAdp a v).isrRet = s.isrRet := rfl
@[simp] theorem State.setAdp_isr (s : State) (a : Nat) (v : Adapter) : (s.setAdp a v).isr = s.isr := rfl
@[simp] theorem State.setAdp_turns (s : State) (a : Nat) (v : Adapter) : (s.setAdp a v).turns = s.turns := rfl
@[simp] theorem State.setAdp_answers (s : State) (a : Nat) (v : Adapter) : (s.setAdp a v).answers = s.answers := rfl
@[simp] theorem State.setAdp_draws (s : State) (a : Nat) (v : Adapter) : (s.setAdp a v).draws = s.draws := rfl
@[simp] theorem State.setAdp_dirty (s : State) (a : Nat) (v : Adapter) : (s.setAdp a v).dirty = s.dirty := rfl
@[simp] theorem State.setAdp_ext (s : State) (a : Nat) (v : Adapter) : (s.setAdp a v).ext = s.ext := rfl
@[simp] theorem State.setAdp_wire (s : State) (a : Nat) (v : Adapter) : (s.setAdp a v).wire = s.wire := rfl
@[simp] theorem State.setAdp_calls (s : State) (a : Nat) (v : Adapter) : (s.setAdp a v).calls = s.calls := rfl
@[simp] theorem State.setAdp_faults (s : State) (a : Nat) (v : Adapter) : (s.setAdp a v).faults = s.faults := rfl
@[simp] theorem State.setAdp_hung (s : State) (a : Nat) (v : Adapter) : (s.setAdp a v).hung = s.hung := rfl
@[simp] theorem State.fut_setAdp (s : State) (a : Nat) (v : Adapter) (n : Nat) : (s.setAdp a v).fut n = s.fut n := rfl
@[simp] theorem State.bus_setAdp (s : State) (a : Nat) (v : Adapter) (n : Nat) : (s.setAdp a v).bus n = s.bus n := rfl
@[simp] theorem State.chan_setAdp (s : State) (a : Nat) (v : Adapter) (n : Nat) : (s.setAdp a v).chan n = s.chan n := rfl
@[simp] theorem State.lock_setAdp (s : State) (a : Nat) (v : Adapter) (n : Nat) : (s.setAdp a v).lock n = s.lock n := rfl
@[simp] theorem State.extLock_setAdp (s : State) (a : Nat) (v : Adapter) (n : Nat) : (s.setAdp a v).extLock n = s.extLock n := rfl
@[simp] theorem State.ses_setAdp (s : State) (a : Nat) (v : Adapter) (n : Nat) : (s.setAdp a v).ses n = s.ses n := rfl
@[simp] theorem State.adp_setAdp_self (s : State) (a : Nat) (v : Adapter) : (s.setAdp a v).adp a = v := by
  simp [State.adp, State.setAdp]
theorem State.adp_setAdp (s : State) (a : Nat) (v : Adapter) (n : Nat) :
    (s.setAdp a v).adp n = if a = n then v else s.adp n := by
  simp [State.adp, State.setAdp, Table.get_put]
theorem State.adp_setAdp_ne (s : State) {a n : Nat} (v : Adapter) (h : a ≠ n) :
    (s.setAdp a v).adp n = s.adp n := by
  simp [State.adp_setAdp, h]
@[simp] theorem State.busCfg_setAdp (s : State) (a : Nat) (v : Adapter) (n : Nat) : (s.setAdp a v).busCfg n = s.busCfg n := rfl
@[simp] theorem State.sesCfg_setAdp (s : State) (a : Nat) (v : Adapter) (n : Nat) : (s.setAdp a v).sesCfg n = s.sesCfg n := rfl
@[simp] theorem State.adpCfg_setAdp (s : State) (a : Nat) (v : Adapter) (n : Nat) : (s.setAdp a v).adpCfg n = s.adpCfg n := rfl
@[simp] theorem State.sesBus_setAdp (s : State) (a : Nat) (v : Adapter) (n : Nat) : (s.setAdp a v).sesBus n = s.sesBus n := rfl
@[simp] theorem State.numBuses_setAdp (s : State) (a : Nat) (v : Adapter) : (s.setAdp a v).numBuses = s.numBuses := rfl
@[simp] theorem State.desc_setAdp (s : State) (a : Nat) (v : Adapter) (q : Word) (n : Nat) : (s.setAdp a v).desc q n = s.desc q n := rfl
@[simp] theorem State.busy_setAdp (s : State) (a : Nat) (v : Adapter) (n : Nat) : (s.setAdp a v).busy n = s.busy n := rfl
@[simp] theorem State.callback_setAdp (s : State) (a : Nat) (v : Adapter) (n : Nat) : (s.setAdp a v).callback n = s.callback n := rfl
@[simp] theorem State.answersOf_setAdp (s : State) (a : Nat) (v : Adapter) (n : Nat) : (s.setAdp a v).answersOf n = s.answersOf n := rfl
@[simp] theorem State.wireOf_setAdp (s : State) (a : Nat) (v : Adapter) (n : Nat) : (s.setAdp a v).wireOf n = s.wireOf n := rfl
@[simp] theorem State.opRec_setAdp (s : State) (a : Nat) (v : Adapter) (n : Nat) : (s.setAdp a v).opRec n = s.opRec n := rfl

/-! ## setFg -/

@[simp] theorem State.setFg_cfg (s : State) (x : Fg) : (s.setFg x).cfg = s.cfg := rfl
@[simp] theorem State.setFg_futs (s : State) (x : Fg) : (s.setFg x).futs = s.futs := rfl
@[simp] theorem State.setFg_buses (s : State) (x : Fg) : (s.setFg x).buses = s.buses := rfl
@[simp] theorem State.setFg_chans (s : State) (x : Fg) : (s.setFg x).chans = s.chans := rfl
@[simp] theorem State.setFg_locks (s : State) (x : Fg) : (s.setFg x).locks = s.locks := rfl
@[simp] theorem State.setFg_sess (s : State) (x : Fg) : (s.setFg x).sess = s.sess := rfl
@[simp] theorem State.setFg_adps (s : State) (x : Fg) : (s.setFg x).adps = s.adps := rfl
@[simp] theorem State.setFg_mem (s : State) (x : Fg) : (s.setFg x).mem = s.mem := rfl
@[simp] theorem State.setFg_descs (s : State) (x : Fg) : (s.setFg x).descs = s.descs := rfl
@[simp] theorem State.setFg_opRecs (s : State) (x : Fg) : (s.setFg x).opRecs = s.opRecs := rfl
@[simp] theorem State.setFg_callbacks (s : State) (x : Fg) : (s.setFg x).callbacks = s.callbacks := rfl
@[simp] theorem State.setFg_prog (s : State) (x : Fg) : (s.setFg x).prog = s.prog := rfl
@[simp] theorem State.setFg_ret (s : State) (x : Fg) : (s.setFg x).ret = s.ret := rfl
@[simp] theorem State.setFg_isrRet (s : State) (x : Fg) : (s.setFg x).isrRet = s.isrRet := rfl
@[simp] theorem State.setFg_isr (s : State) (x : Fg) : (s.setFg x).isr = s.isr := rfl
@[simp] theorem State.setFg_turns (s : State) (x : Fg) : (s.setFg x).turns = s.turns := rfl
@[simp] theorem State.setFg_answers (s : State) (x : Fg) : (s.setFg x).answers = s.answers := rfl
@[simp] theorem State.setFg_draws (s : State) (x : Fg) : (s.setFg x).draws = s.draws := rfl
@[simp] theorem State.setFg_dirty (s : State) (x : Fg) : (s.setFg x).dirty = s.dirty := rfl
@[simp] theorem State.setFg_ext (s : State) (x : Fg) : (s.setFg x).ext = s.ext := rfl
@[simp] theorem State.setFg_wire (s : State) (x : Fg) : (s.setFg x).wire = s.wire := rfl
@[simp] theorem State.setFg_calls (s : State) (x : Fg) : (s.setFg x).calls = s.calls := rfl
@[simp] theorem State.setFg_faults (s : State) (x : Fg) : (s.setFg x).faults = s.faults := rfl
@[simp] theorem State.setFg_hung (s : State) (x : Fg) : (s.setFg x).hung = s.hung := rfl
@[simp] theorem State.setFg_fg (s : State) (x : Fg) : (s.setFg x).fg = x := rfl
@[simp] theorem State.fut_setFg (s : State) (x : Fg) (n : Nat) : (s.setFg x).fut n = s.fut n := rfl
@[simp] theorem State.bus_setFg (s : State) (x : Fg) (n : Nat) : (s.setFg x).bus n = s.bus n := rfl
@[simp] theorem State.chan_setFg (s : State) (x : Fg) (n : Nat) : (s.setFg x).chan n = s.chan n := rfl
@[simp] theorem State.lock_setFg (s : State) (x : Fg) (n : Nat) : (s.setFg x).lock n = s.lock n := rfl
@[simp] theorem State.extLock_setFg (s : State) (x : Fg) (n : Nat) : (s.setFg x).extLock n = s.extLock n := rfl
@[simp] theorem State.ses_setFg (s : State) (x : Fg) (n : Nat) : (s.setFg x).ses n = s.ses n := rfl
@[simp] theorem State.adp_setFg (s : State) (x : Fg) (n : Nat) : (s.setFg x).adp n = s.adp n := rfl
@[simp] theorem State.busCfg_setFg (s : State) (x : Fg) (n : Nat) : (s.setFg x).busCfg n = s.busCfg n := rfl
@[simp] theorem State.sesCfg_setFg (s : State) (x : Fg) (n : Nat) : (s.setFg x).sesCfg n = s.sesCfg n := rfl
@[simp] theorem State.adpCfg_setFg (s : State) (x : Fg) (n : Nat) : (s.setFg x).adpCfg n = s.adpCfg n := rfl
@[simp] theorem State.sesBus_setFg (s : State) (x : Fg) (n : Nat) : (s.setFg x).sesBus n = s.sesBus n := rfl
@[simp] theorem State.numBuses_setFg (s : State) (x : Fg) : (s.setFg x).numBuses = s.numBuses := rfl
@[simp] theorem State.desc_setFg (s : State) (x : Fg) (q : Word) (n : Nat) : (s.setFg x).desc q n = s.desc q n := rfl
@[simp] theorem State.busy_setFg (s : State) (x : Fg) (n : Nat) : (s.setFg x).busy n = s.busy n := rfl
@[simp] theorem State.callback_setFg (s : State) (x : Fg) (n : Nat) : (s.setFg x).callback n = s.callback n := rfl
@[simp] theorem State.answersOf_setFg (s : State) (x : Fg) (n : Nat) : (s.setFg x).answersOf n = s.answersOf n := rfl
@[simp] theorem State.wireOf_setFg (s : State) (x : Fg) (n : Nat) : (s.setFg x).wireOf n = s.wireOf n := rfl
@[simp] theorem State.opRec_setFg (s : State) (x : Fg) (n : Nat) : (s.setFg x).opRec n = s.opRec n := rfl

/-! ## setProg -/

@[simp] theorem State.setProg_cfg (s : State) (x : List Byte) : (s.setProg x).cfg = s.cfg := rfl
@[simp] theorem State.setProg_futs (s : State) (x : List Byte) : (s.setProg x).futs = s.futs := rfl
@[simp] theorem State.setProg_buses (s : State) (x : List Byte) : (s.setProg x).buses = s.buses := rfl
@[simp] theorem State.setProg_chans (s : State) (x : List Byte) : (s.setProg x).chans = s.chans := rfl
@[simp] theorem State.setProg_locks (s : State) (x : List Byte) : (s.setProg x).locks = s.locks := rfl
@[simp] theorem State.setProg_sess (s : State) (x : List Byte) : (s.setProg x).sess = s.sess := rfl
@[simp] theorem State.setProg_adps (s : State) (x : List Byte) : (s.setProg x).adps = s.adps := rfl
@[simp] theorem State.setProg_mem (s : State) (x : List Byte) : (s.setProg x).mem = s.mem := rfl
@[simp] theorem State.setProg_descs (s : State) (x : List Byte) : (s.setProg x).descs = s.descs := rfl
@[simp] theorem State.setProg_opRecs (s : State) (x : List Byte) : (s.setProg x).opRecs = s.opRecs := rfl
@[simp] theorem State.setProg_callbacks (s : State) (x : List Byte) : (s.setProg x).callbacks = s.callbacks := rfl
@[simp] theorem State.setProg_fg (s : State) (x : List Byte) : (s.setProg x).fg = s.fg := rfl
@[simp] theorem State.setProg_ret (s : State) (x : List Byte) : (s.setProg x).ret = s.ret := rfl
@[simp] theorem State.setProg_isrRet (s : State) (x : List Byte) : (s.setProg x).isrRet = s.isrRet := rfl
@[simp] theorem State.setProg_isr (s : State) (x : List Byte) : (s.setProg x).isr = s.isr := rfl
@[simp] theorem State.setProg_turns (s : State) (x : List Byte) : (s.setProg x).turns = s.turns := rfl
@[simp] theorem State.setProg_answers (s : State) (x : List Byte) : (s.setProg x).answers = s.answers := rfl
@[simp] theorem State.setProg_draws (s : State) (x : List Byte) : (s.setProg x).draws = s.draws := rfl
@[simp] theorem State.setProg_dirty (s : State) (x : List Byte) : (s.setProg x).dirty = s.dirty := rfl
@[simp] theorem State.setProg_ext (s : State) (x : List Byte) : (s.setProg x).ext = s.ext := rfl
@[simp] theorem State.setProg_wire (s : State) (x : List Byte) : (s.setProg x).wire = s.wire := rfl
@[simp] theorem State.setProg_calls (s : State) (x : List Byte) : (s.setProg x).calls = s.calls := rfl
@[simp] theorem State.setProg_faults (s : State) (x : List Byte) : (s.setProg x).faults = s.faults := rfl
@[simp] theorem State.setProg_hung (s : State) (x : List Byte) : (s.setProg x).hung = s.hung := rfl
@[simp] theorem State.setProg_prog (s : State) (x : List Byte) : (s.setProg x).prog = x := rfl
@[simp] theorem State.fut_setProg (s : State) (x : List Byte) (n : Nat) : (s.setProg x).fut n = s.fut n := rfl
@[simp] theorem State.bus_setProg (s : State) (x : List Byte) (n : Nat) : (s.setProg x).bus n = s.bus n := rfl
@[simp] theorem State.chan_setProg (s : State) (x : List Byte) (n : Nat) : (s.setProg x).chan n = s.chan n := rfl
@[simp] theorem State.lock_setProg (s : State) (x : List Byte) (n : Nat) : (s.setProg x).lock n = s.lock n := rfl
@[simp] theorem State.extLock_setProg (s : State) (x : List Byte) (n : Nat) : (s.setProg x).extLock n = s.extLock n := rfl
@[simp] theorem State.ses_setProg (s : State) (x : List Byte) (n : Nat) : (s.setProg x).ses n = s.ses n := rfl
@[simp] theorem State.adp_setProg (s : State) (x : List Byte) (n : Nat) : (s.setProg x).adp n = s.adp n := rfl
@[simp] theorem State.busCfg_setProg (s : State) (x : List Byte) (n : Nat) : (s.setProg x).busCfg n = s.busCfg n := rfl
@[simp] theorem State.sesCfg_setProg (s : State) (x : List Byte) (n : Nat) : (s.setProg x).sesCfg n = s.sesCfg n := rfl
@[simp] theorem State.adpCfg_setProg (s : State) (x : List Byte) (n : Nat) : (s.setProg x).adpCfg n = s.adpCfg n := rfl
@[simp] theorem State.sesBus_setProg (s : State) (x : List Byte) (n : Nat) : (s.setProg x).sesBus n = s.sesBus n := rfl
@[simp] theorem State.numBuses_setProg (s : State) (x : List Byte) : (s.setProg x).numBuses = s.numBuses := rfl
@[simp] theorem State.desc_setProg (s : State) (x : List Byte) (q : Word) (n : Nat) : (s.setProg x).desc q n = s.desc q n := rfl
@[simp] theorem State.busy_setProg (s : State) (x : List Byte) (n : Nat) : (s.setProg x).busy n = s.busy n := rfl
@[simp] theorem State.callback_setProg (s : State) (x : List Byte) (n : Nat) : (s.setProg x).callback n = s.callback n := rfl
@[simp] theorem State.answersOf_setProg (s : State) (x : List Byte) (n : Nat) : (s.setProg x).answersOf n = s.answersOf n := rfl
@[simp] theorem State.wireOf_setProg (s : State) (x : List Byte) (n : Nat) : (s.setProg x).wireOf n = s.wireOf n := rfl
@[simp] theorem State.opRec_setProg (s : State) (x : List Byte) (n : Nat) : (s.setProg x).opRec n = s.opRec n := rfl

/-! ## setTurns -/

@[simp] theorem State.setTurns_cfg (s : State) (x : List Turn) : (s.setTurns x).cfg = s.cfg := rfl
@[simp] theorem State.setTurns_futs (s : State) (x : List Turn) : (s.setTurns x).futs = s.futs := rfl
@[simp] theorem State.setTurns_buses (s : State) (x : List Turn) : (s.setTurns x).buses = s.buses := rfl
@[simp] theorem State.setTurns_chans (s : State) (x : List Turn) : (s.setTurns x).chans = s.chans := rfl
@[simp] theorem State.setTurns_locks (s : State) (x : List Turn) : (s.setTurns x).locks = s.locks := rfl
@[simp] theorem State.setTurns_sess (s : State) (x : List Turn) : (s.setTurns x).sess = s.sess := rfl
@[simp] theorem State.setTurns_adps (s : State) (x : List Turn) : (s.setTurns x).adps = s.adps := rfl
@[simp] theorem State.setTurns_mem (s : State) (x : List Turn) : (s.setTurns x).mem = s.mem := rfl
@[simp] theorem State.setTurns_descs (s : State) (x : List Turn) : (s.setTurns x).descs = s.descs := rfl
@[simp] theorem State.setTurns_opRecs (s : State) (x : List Turn) : (s.setTurns x).opRecs = s.opRecs := rfl
@[simp] theorem State.setTurns_callbacks (s : State) (x : List Turn) : (s.setTurns x).callbacks = s.callbacks := rfl
@[simp] theorem State.setTurns_fg (s : State) (x : List Turn) : (s.setTurns x).fg = s.fg := rfl
@[simp] theorem State.setTurns_prog (s : State) (x : List Turn) : (s.setTurns x).prog = s.prog := rfl
@[simp] theorem State.setTurns_ret (s : State) (x : List Turn) : (s.setTurns x).ret = s.ret := rfl
@[simp] theorem State.setTurns_isrRet (s : State) (x : List Turn) : (s.setTurns x).isrRet = s.isrRet := rfl
@[simp] theorem State.setTurns_isr (s : State) (x : List Turn) : (s.setTurns x).isr = s.isr := rfl
@[simp] theorem State.setTurns_answers (s : State) (x : List Turn) : (s.setTurns x).answers = s.answers := rfl
@[simp] theorem State.setTurns_draws (s : State) (x : List Turn) : (s.setTurns x).draws = s.draws := rfl
@[simp] theorem State.setTurns_dirty (s : State) (x : List Turn) : (s.setTurns x).dirty = s.dirty := rfl
@[simp] theorem State.setTurns_ext (s : State) (x : List Turn) : (s.setTurns x).ext = s.ext := rfl
@[simp] theorem State.setTurns_wire (s : State) (x : List Turn) : (s.setTurns x).wire = s.wire := rfl
@[simp] theorem State.setTurns_calls (s : State) (x : List Turn) : (s.setTurns x).calls = s.calls := rfl
@[simp] theorem State.setTurns_faults (s : State) (x : List Turn) : (s.setTurns x).faults = s.faults := rfl
@[simp] theorem State.setTurns_hung (s : State) (x : List Turn) : (s.setTurns x).hung = s.hung := rfl
@[simp] theorem State.setTurns_turns (s : State) (x : List Turn) : (s.setTurns x).turns = x := rfl
@[simp] theorem State.fut_setTurns (s : State) (x : List Turn) (n : Nat) : (s.setTurns x).fut n = s.fut n := rfl
@[simp] theorem State.bus_setTurns (s : State) (x : List Turn) (n : Nat) : (s.setTurns x).bus n = s.bus n := rfl
@[simp] theorem State.chan_setTurns (s : State) (x : List Turn) (n : Nat) : (s.setTurns x).chan n = s.chan n := rfl
@[simp] theorem State.lock_setTurns (s : State) (x : List Turn) (n : Nat) : (s.setTurns x).lock n = s.lock n := rfl
@[simp] theorem State.extLock_setTurns (s : State) (x : List Turn) (n : Nat) : (s.setTurns x).extLock n = s.extLock n := rfl
@[simp] theorem State.ses_setTurns (s : State) (x : List Turn) (n : Nat) : (s.setTurns x).ses n = s.ses n := rfl
@[simp] theorem State.adp_setTurns (s : State) (x : List Turn) (n : Nat) : (s.setTurns x).adp n = s.adp n := rfl
@[simp] theorem State.busCfg_setTurns (s : State) (x : List Turn) (n : Nat) : (s.setTurns x).busCfg n = s.busCfg n := rfl
@[simp] theorem State.sesCfg_setTurns (s : State) (x : List Turn) (n : Nat) : (s.setTurns x).sesCfg n = s.sesCfg n := rfl
@[simp] theorem State.adpCfg_setTurns (s : State) (x : List Turn) (n : Nat) : (s.setTurns x).adpCfg n = s.adpCfg n := rfl
@[simp] theorem State.sesBus_setTurns (s : State) (x : List Turn) (n : Nat) : (s.setTurns x).sesBus n = s.sesBus n := rfl
@[simp] theorem State.numBuses_setTurns (s : State) (x : List Turn) : (s.setTurns x).numBuses = s.numBuses := rfl
@[simp] theorem State.desc_setTurns (s : State) (x : List Turn) (q : Word) (n : Nat) : (s.setTurns x).desc q n = s.desc q n := rfl
@[simp] theorem State.busy_setTurns (s : State) (x : List Turn) (n : Nat) : (s.setTurns x).busy n = s.busy n := rfl
@[simp] theorem State.callback_setTurns (s : State) (x : List Turn) (n : Nat) : (s.setTurns x).callback n = s.callback n := rfl
@[simp] theorem State.answersOf_setTurns (s : State) (x : List Turn) (n : Nat) : (s.setTurns x).answersOf n = s.answersOf n := rfl
@[simp] theorem State.wireOf_setTurns (s : State) (x : List Turn) (n : Nat) : (s.setTurns x).wireOf n = s.wireOf n := rfl
@[simp] theorem State.opRec_setTurns (s : State) (x : List Turn) (n : Nat) : (s.setTurns x).opRec n = s.opRec n := rfl

/-! ## setIsr -/

@[simp] theorem State.setIsr_cfg (s : State) (x : Bool) : (s.setIsr x).cfg = s.cfg := rfl
@[simp] theorem State.setIsr_futs (s : State) (x : Bool) : (s.setIsr x).futs = s.futs := rfl
@[simp] theorem State.setIsr_buses (s : State) (x : Bool) : (s.setIsr x).buses = s.buses := rfl
@[simp] theorem State.setIsr_chans (s : State) (x : Bool) : (s.setIsr x).chans = s.chans := rfl
@[simp] theorem State.setIsr_locks (s : State) (x : Bool) : (s.setIsr x).locks = s.locks := rfl
@[simp] theorem State.setIsr_sess (s : State) (x : Bool) : (s.setIsr x).sess = s.sess := rfl
@[simp] theorem State.setIsr_adps (s : State) (x : Bool) : (s.setIsr x).adps = s.adps := rfl
@[simp] theorem State.setIsr_mem (s : State) (x : Bool) : (s.setIsr x).mem = s.mem := rfl
@[simp] theorem State.setIsr_descs (s : State) (x : Bool) : (s.setIsr x).descs = s.descs := rfl
@[simp] theorem State.setIsr_opRecs (s : State) (x : Bool) : (s.setIsr x).opRecs = s.opRecs := rfl
@[simp] theorem State.setIsr_callbacks (s : State) (x : Bool) : (s.setIsr x).callbacks = s.callbacks := rfl
@[simp] theorem State.setIsr_fg (s : State) (x : Bool) : (s.setIsr x).fg = s.fg := rfl
@[simp] theorem State.setIsr_prog (s : State) (x : Bool) : (s.setIsr x).prog = s.prog := rfl
@[simp] theorem State.setIsr_ret (s : State) (x : Bool) : (s.setIsr x).ret = s.ret := rfl
@[simp] theorem State.setIsr_isrRet (s : State) (x : Bool) : (s.setIsr x).isrRet = s.isrRet := rfl
@[simp] theorem State.setIsr_turns (s : State) (x : Bool) : (s.setIsr x).turns = s.turns := rfl
@[simp] theorem State.setIsr_answers (s : State) (x : Bool) : (s.setIsr x).answers = s.answers := rfl
@[simp] theorem State.setIsr_draws (s : State) (x : Bool) : (s.setIsr x).draws = s.draws := rfl
@[simp] theorem State.setIsr_dirty (s : State) (x : Bool) : (s.setIsr x).dirty = s.dirty := rfl
@[simp] theorem State.setIsr_ext (s : State) (x : Bool) : (s.setIsr x).ext = s.ext := rfl
@[simp] theorem State.setIsr_wire (s : State) (x : Bool) : (s.setIsr x).wire = s.wire := rfl
@[simp] theorem State.setIsr_calls (s : State) (x : Bool) : (s.setIsr x).calls = s.calls := rfl
@[simp] theorem State.setIsr_faults (s : State) (x : Bool) : (s.setIsr x).faults = s.faults := rfl
@[simp] theorem State.setIsr_hung (s : State) (x : Bool) : (s.setIsr x).hung = s.hung := rfl
@[simp] theorem State.setIsr_isr (s : State) (x : Bool) : (s.setIsr x).isr = x := rfl
@[simp] theorem State.fut_setIsr (s : State) (x : Bool) (n : Nat) : (s.setIsr x).fut n = s.fut n := rfl
@[simp] theorem State.bus_setIsr (s : State) (x : Bool) (n : Nat) : (s.setIsr x).bus n = s.bus n := rfl
@[simp] theorem State.chan_setIsr (s : State) (x : Bool) (n : Nat) : (s.setIsr x).chan n = s.chan n := rfl
@[simp] theorem State.lock_setIsr (s : State) (x : Bool) (n : Nat) : (s.setIsr x).lock n = s.lock n := rfl
@[simp] theorem State.extLock_setIsr (s : State) (x : Bool) (n : Nat) : (s.setIsr x).extLock n = s.extLock n := rfl
@[simp] theorem State.ses_setIsr (s : State) (x : Bool) (n : Nat) : (s.setIsr x).ses n = s.ses n := rfl
@[simp] theorem State.adp_setIsr (s : State) (x : Bool) (n : Nat) : (s.setIsr x).adp n = s.adp n := rfl
@[simp] theorem State.busCfg_setIsr (s : State) (x : Bool) (n : Nat) : (s.setIsr x).busCfg n = s.busCfg n := rfl
@[simp] theorem State.sesCfg_setIsr (s : State) (x : Bool) (n : Nat) : (s.setIsr x).sesCfg n = s.sesCfg n := rfl
@[simp] theorem State.adpCfg_setIsr (s : State) (x : Bool) (n : Nat) : (s.setIsr x).adpCfg n = s.adpCfg n := rfl
@[simp] theorem State.sesBus_setIsr (s : State) (x : Bool) (n : Nat) : (s.setIsr x).sesBus n = s.sesBus n := rfl
@[simp] theorem State.numBuses_setIsr (s : State) (x : Bool) : (s.setIsr x).numBuses = s.numBuses := rfl
@[simp] theorem State.desc_setIsr (s : State) (x : Bool) (q : Word) (n : Nat) : (s.setIsr x).desc q n = s.desc q n := rfl
@[simp] theorem State.busy_setIsr (s : State) (x : Bool) (n : Nat) : (s.setIsr x).busy n = s.busy n := rfl
@[simp] theorem State.callback_setIsr (s : State) (x : Bool) (n : Nat) : (s.setIsr x).callback n = s.callback n := rfl
@[simp] theorem State.answersOf_setIsr (s : State) (x : Bool) (n : Nat) : (s.setIsr x).answersOf n = s.answersOf n := rfl
@[simp] theorem State.wireOf_setIsr (s : State) (x : Bool) (n : Nat) : (s.setIsr x).wireOf n = s.wireOf n := rfl
@[simp] theorem State.opRec_setIsr (s : State) (x : Bool) (n : Nat) : (s.setIsr x).opRec n = s.opRec n := rfl

/-! ## setFgRet -/

@[simp] theorem State.setFgRet_cfg (s : State) (x : Result) : (s.setFgRet x).cfg = s.cfg := rfl
@[simp] theorem State.setFgRet_futs (s : State) (x : Result) : (s.setFgRet x).futs = s.futs := rfl
@[simp] theorem State.setFgRet_buses (s : State) (x : Result) : (s.setFgRet x).buses = s.buses := rfl
@[simp] theorem State.setFgRet_chans (s : State) (x : Result) : (s.setFgRet x).chans = s.chans := rfl
@[simp] theorem State.setFgRet_locks (s : State) (x : Result) : (s.setFgRet x).locks = s.locks := rfl
@[simp] theorem State.setFgRet_sess (s : State) (x : Result) : (s.setFgRet x).sess = s.sess := rfl
@[simp] theorem State.setFgRet_adps (s : State) (x : Result) : (s.setFgRet x).adps = s.adps := rfl
@[simp] theorem State.setFgRet_mem (s : State) (x : Result) : (s.setFgRet x).mem = s.mem := rfl
@[simp] theorem State.setFgRet_descs (s : State) (x : Result) : (s.setFgRet x).descs = s.descs := rfl
@[simp] theorem State.setFgRet_opRecs (s : State) (x : Result) : (s.setFgRet x).opRecs = s.opRecs := rfl
@[simp] theorem State.setFgRet_callbacks (s : State) (x : Result) : (s.setFgRet x).callbacks = s.callbacks := rfl
@[simp] theorem State.setFgRet_fg (s : State) (x : Result) : (s.setFgRet x).fg = s.fg := rfl
@[simp] theorem State.setFgRet_prog (s : State) (x : Result) : (s.setFgRet x).prog = s.prog := rfl
@[simp] theorem State.setFgRet_isrRet (s : State) (x : Result) : (s.setFgRet x).isrRet = s.isrRet := rfl
@[simp] theorem State.setFgRet_isr (s : State) (x : Result) : (s.setFgRet x).isr = s.isr := rfl
@[simp] theorem State.setFgRet_turns (s : State) (x : Result) : (s.setFgRet x).turns = s.turns := rfl
@[simp] theorem State.setFgRet_answers (s : State) (x : Result) : (s.setFgRet x).answers = s.answers := rfl
@[simp] theorem State.setFgRet_draws (s : State) (x : Result) : (s.setFgRet x).draws = s.draws := rfl
@[simp] theorem State.setFgRet_dirty (s : State) (x : Result) : (s.setFgRet x).dirty = s.dirty := rfl
@[simp] theorem State.setFgRet_ext (s : State) (x : Result) : (s.setFgRet x).ext = s.ext := rfl
@[simp] theorem State.setFgRet_wire (s : State) (x : Result) : (s.setFgRet x).wire = s.wire := rfl
@[simp] theorem State.setFgRet_calls (s : State) (x : Result) : (s.setFgRet x).calls = s.calls := rfl
@[simp] theorem State.setFgRet_faults (s : State) (x : Result) : (s.setFgRet x).faults = s.faults := rfl
@[simp] theorem State.setFgRet_hung (s : State) (x : Result) : (s.setFgRet x).hung = s.hung := rfl
@[simp] theorem State.setFgRet_ret (s : State) (x : Result) : (s.setFgRet x).ret = x := rfl
@[simp] theorem State.fut_setFgRet (s : State) (x : Result) (n : Nat) : (s.setFgRet x).fut n = s.fut n := rfl
@[simp] theorem State.bus_setFgRet (s : State) (x : Result) (n : Nat) : (s.setFgRet x).bus n = s.bus n := rfl
@[simp] theorem State.chan_setFgRet (s : State) (x : Result) (n : Nat) : (s.setFgRet x).chan n = s.chan n := rfl
@[simp] theorem State.lock_setFgRet (s : State) (x : Result) (n : Nat) : (s.setFgRet x).lock n = s.lock n := rfl
@[simp] theorem State.extLock_setFgRet (s : State) (x : Result) (n : Nat) : (s.setFgRet x).extLock n = s.extLock n := rfl
@[simp] theorem State.ses_setFgRet (s : State) (x : Result) (n : Nat) : (s.setFgRet x).ses n = s.ses n := rfl
@[simp] theorem State.adp_setFgRet (s : State) (x : Result) (n : Nat) : (s.setFgRet x).adp n = s.adp n := rfl
@[simp] theorem State.busCfg_setFgRet (s : State) (x : Result) (n : Nat) : (s.setFgRet x).busCfg n = s.busCfg n := rfl
@[simp] theorem State.sesCfg_setFgRet (s : State) (x : Result) (n : Nat) : (s.setFgRet x).sesCfg n = s.sesCfg n := rfl
@[simp] theorem State.adpCfg_setFgRet (s : State) (x : Result) (n : Nat) : (s.setFgRet x).adpCfg n = s.adpCfg n := rfl
@[simp] theorem State.sesBus_setFgRet (s : State) (x : Result) (n : Nat) : (s.setFgRet x).sesBus n = s.sesBus n := rfl
@[simp] theorem State.numBuses_setFgRet (s : State) (x : Result) : (s.setFgRet x).numBuses = s.numBuses := rfl
@[simp] theorem State.desc_setFgRet (s : State) (x : Result) (q : Word) (n : Nat) : (s.setFgRet x).desc q n = s.desc q n := rfl
@[simp] theorem State.busy_setFgRet (s : State) (x : Result) (n : Nat) : (s.setFgRet x).busy n = s.busy n := rfl
@[simp] theorem State.callback_setFgRet (s : State) (x : Result) (n : Nat) : (s.setFgRet x).callback n = s.callback n := rfl
@[simp] theorem State.answersOf_setFgRet (s : State) (x : Result) (n : Nat) : (s.setFgRet x).answersOf n = s.answersOf n := rfl
@[simp] theorem State.wireOf_setFgRet (s : State) (x : Result) (n : Nat) : (s.setFgRet x).wireOf n = s.wireOf n := rfl
@[simp] theorem State.opRec_setFgRet (s : State) (x : Result) (n : Nat) : (s.setFgRet x).opRec n = s.opRec n := rfl

/-! ## setIsrRet -/

@[simp] theorem State.setIsrRet_cfg (s : State) (x : Result) : (s.setIsrRet x).cfg = s.cfg := rfl
@[simp] theorem State.setIsrRet_futs (s : State) (x : Result) : (s.setIsrRet x).futs = s.futs := rfl
@[simp] theorem State.setIsrRet_buses (s : State) (x : Result) : (s.setIsrRet x).buses = s.buses := rfl
@[simp] theorem State.setIsrRet_chans (s : State) (x : Result) : (s.setIsrRet x).chans = s.chans := rfl
@[simp] theorem State.setIsrRet_locks (s : State) (x : Result) : (s.setIsrRet x).locks = s.locks := rfl
@[simp] theorem State.setIsrRet_sess (s : State) (x : Result) : (s.setIsrRet x).sess = s.sess := rfl
@[simp] theorem State.setIsrRet_adps (s : State) (x : Result) : (s.setIsrRet x).adps = s.adps := rfl
@[simp] theorem State.setIsrRet_mem (s : State) (x : Result) : (s.setIsrRet x).mem = s.mem := rfl
@[simp] theorem State.setIsrRet_descs (s : State) (x : Result) : (s.setIsrRet x).descs = s.descs := rfl
@[simp] theorem State.setIsrRet_opRecs (s : State) (x : Result) : (s.setIsrRet x).opRecs = s.opRecs := rfl
@[simp] theorem State.setIsrRet_callbacks (s : State) (x : Result) : (s.setIsrRet x).callbacks = s.callbacks := rfl
@[simp] theorem State.setIsrRet_fg (s : State) (x : Result) : (s.setIsrRet x).fg = s.fg := rfl
@[simp] theorem State.setIsrRet_prog (s : State) (x : Result) : (s.setIsrRet x).prog = s.prog := rfl
@[simp] theorem State.setIsrRet_ret (s : State) (x : Result) : (s.setIsrRet x).ret = s.ret := rfl
@[simp] theorem State.setIsrRet_isr (s : State) (x : Result) : (s.setIsrRet x).isr = s.isr := rfl
@[simp] theorem State.setIsrRet_turns (s : State) (x : Result) : (s.setIsrRet x).turns = s.turns := rfl
@[simp] theorem State.setIsrRet_answers (s : State) (x : Result) : (s.setIsrRet x).answers = s.answers := rfl
@[simp] theorem State.setIsrRet_draws (s : State) (x : Result) : (s.setIsrRet x).draws = s.draws := rfl
@[simp] theorem State.setIsrRet_dirty (s : State) (x : Result) : (s.setIsrRet x).dirty = s.dirty := rfl
@[simp] theorem State.setIsrRet_ext (s : State) (x : Result) : (s.setIsrRet x).ext = s.ext := rfl
@[simp] theorem State.setIsrRet_wire (s : State) (x : Result) : (s.setIsrRet x).wire = s.wire := rfl
@[simp] theorem State.setIsrRet_calls (s : State) (x : Result) : (s.setIsrRet x).calls = s.calls := rfl
@[simp] theorem State.setIsrRet_faults (s : State) (x : Result) : (s.setIsrRet x).faults = s.faults := rfl
@[simp] theorem State.setIsrRet_hung (s : State) (x : Result) : (s.setIsrRet x).hung = s.hung := rfl
@[simp] theorem State.setIsrRet_isrRet (s : State) (x : Result) : (s.setIsrRet x).isrRet = x := rfl
@[simp] theorem State.fut_setIsrRet (s : State) (x : Result) (n : Nat) : (s.setIsrRet x).fut n = s.fut n := rfl
@[simp] theorem State.bus_setIsrRet (s : State) (x : Result) (n : Nat) : (s.setIsrRet x).bus n = s.bus n := rfl
@[simp] theorem State.chan_setIsrRet (s : State) (x : Result) (n : Nat) : (s.setIsrRet x).chan n = s.chan n := rfl
@[simp] theorem State.lock_setIsrRet (s : State) (x : Result) (n : Nat) : (s.setIsrRet x).lock n = s.lock n := rfl
@[simp] theorem State.extLock_setIsrRet (s : State) (x : Result) (n : Nat) : (s.setIsrRet x).extLock n = s.extLock n := rfl
@[simp] theorem State.ses_setIsrRet (s : State) (x : Result) (n : Nat) : (s.setIsrRet x).ses n = s.ses n := rfl
@[simp] theorem State.adp_setIsrRet (s : State) (x : Result) (n : Nat) : (s.setIsrRet x).adp n = s.adp n := rfl
@[simp] theorem State.busCfg_setIsrRet (s : State) (x : Result) (n : Nat) : (s.setIsrRet x).busCfg n = s.busCfg n := rfl
@[simp] theorem State.sesCfg_setIsrRet (s : State) (x : Result) (n : Nat) : (s.setIsrRet x).sesCfg n = s.sesCfg n := rfl
@[simp] theorem State.adpCfg_setIsrRet (s : State) (x : Result) (n : Nat) : (s.setIsrRet x).adpCfg n = s.adpCfg n := rfl
@[simp] theorem State.sesBus_setIsrRet (s : State) (x : Result) (n : Nat) : (s.setIsrRet x).sesBus n = s.sesBus n := rfl
@[simp] theorem State.numBuses_setIsrRet (s : State) (x : Result) : (s.setIsrRet x).numBuses = s.numBuses := rfl
@[simp] theorem State.desc_setIsrRet (s : State) (x : Result) (q : Word) (n : Nat) : (s.setIsrRet x).desc q n = s.desc q n := rfl
@[simp] theorem State.busy_setIsrRet (s : State) (x : Result) (n : Nat) : (s.setIsrRet x).busy n = s.busy n := rfl
@[simp] theorem State.callback_setIsrRet (s : State) (x : Result) (n : Nat) : (s.setIsrRet x).callback n = s.callback n := rfl
@[simp] theorem State.answersOf_setIsrRet (s : State) (x : Result) (n : Nat) : (s.setIsrRet x).answersOf n = s.answersOf n := rfl
@[simp] theorem State.wireOf_setIsrRet (s : State) (x : Result) (n : Nat) : (s.setIsrRet x).wireOf n = s.wireOf n := rfl
@[simp] theorem State.opRec_setIsrRet (s : State) (x : Result) (n : Nat) : (s.setIsrRet x).opRec n = s.opRec n := rfl

/-! ## bumpDraws -/

@[simp] theorem State.bumpDraws_cfg (s : State) : s.bumpDraws.cfg = s.cfg := rfl
@[simp] theorem State.bumpDraws_futs (s : State) : s.bumpDraws.futs = s.futs := rfl
@[simp] theorem State.bumpDraws_buses (s : State) : s.bumpDraws.buses = s.buses := rfl
@[simp] theorem State.bumpDraws_chans (s : State) : s.bumpDraws.chans = s.chans := rfl
@[simp] theorem State.bumpDraws_locks (s : State) : s.bumpDraws.locks = s.locks := rfl
@[simp] theorem State.bumpDraws_sess (s : State) : s.bumpDraws.sess = s.sess := rfl
@[simp] theorem State.bumpDraws_adps (s : State) : s.bumpDraws.adps = s.adps := rfl
@[simp] theorem State.bumpDraws_mem (s : State) : s.bumpDraws.mem = s.mem := rfl
@[simp] theorem State.bumpDraws_descs (s : State) : s.bumpDraws.descs = s.descs := rfl
@[simp] theorem State.bumpDraws_opRecs (s : State) : s.bumpDraws.opRecs = s.opRecs := rfl
@[simp] theorem State.bumpDraws_callbacks (s : State) : s.bumpDraws.callbacks = s.callbacks := rfl
@[simp] theorem State.bumpDraws_fg (s : State) : s.bumpDraws.fg = s.fg := rfl
@[simp] theorem State.bumpDraws_prog (s : State) : s.bumpDraws.prog = s.prog := rfl
@[simp] theorem State.bumpDraws_ret (s : State) : s.bumpDraws.ret = s.ret := rfl
@[simp] theorem State.bumpDraws_isrRet (s : State) : s.bumpDraws.isrRet = s.isrRet := rfl
@[simp] theorem State.bumpDraws_isr (s : State) : s.bumpDraws.isr = s.isr := rfl
@[simp] theorem State.bumpDraws_turns (s : State) : s.bumpDraws.turns = s.turns := rfl
@[simp] theorem State.bumpDraws_answers (s : State) : s.bumpDraws.answers = s.answers := rfl
@[simp] theorem State.bumpDraws_dirty (s : State) : s.bumpDraws.dirty = s.dirty := rfl
@[simp] theorem State.bumpDraws_ext (s : State) : s.bumpDraws.ext = s.ext := rfl
@[simp] theorem State.bumpDraws_wire (s : State) : s.bumpDraws.wire = s.wire := rfl
@[simp] theorem State.bumpDraws_calls (s : State) : s.bumpDraws.calls = s.calls := rfl
@[simp] theorem State.bumpDraws_faults (s : State) : s.bumpDraws.faults = s.faults := rfl
@[simp] theorem State.bumpDraws_hung (s : State) : s.bumpDraws.hung = s.hung := rfl
@[simp] theorem State.bumpDraws_draws (s : State) : s.bumpDraws.draws = s.draws + 1 := rfl
@[simp] theorem State.fut_bumpDraws (s : State) (n : Nat) : s.bumpDraws.fut n = s.fut n := rfl
@[simp] theorem State.bus_bumpDraws (s : State) (n : Nat) : s.bumpDraws.bus n = s.bus n := rfl
@[simp] theorem State.chan_bumpDraws (s : State) (n : Nat) : s.bumpDraws.chan n = s.chan n := rfl
@[simp] theorem State.lock_bumpDraws (s : State) (n : Nat) : s.bumpDraws.lock n = s.lock n := rfl
@[simp] theorem State.extLock_bumpDraws (s : State) (n : Nat) : s.bumpDraws.extLock n = s.extLock n := rfl
@[simp] theorem State.ses_bumpDraws (s : State) (n : Nat) : s.bumpDraws.ses n = s.ses n := rfl
@[simp] theorem State.adp_bumpDraws (s : State) (n : Nat) : s.bumpDraws.adp n = s.adp n := rfl
@[simp] theorem State.busCfg_bumpDraws (s : State) (n : Nat) : s.bumpDraws.busCfg n = s.busCfg n := rfl
@[simp] theorem State.sesCfg_bumpDraws (s : State) (n : Nat) : s.bumpDraws.sesCfg n = s.sesCfg n := rfl
@[simp] theorem State.adpCfg_bumpDraws (s : State) (n : Nat) : s.bumpDraws.adpCfg n = s.adpCfg n := rfl
@[simp] theorem State.sesBus_bumpDraws (s : State) (n : Nat) : s.bumpDraws.sesBus n = s.sesBus n := rfl
@[simp] theorem State.numBuses_bumpDraws (s : State) : s.bumpDraws.numBuses = s.numBuses := rfl
@[simp] theorem State.desc_bumpDraws (s : State) (q : Word) (n : Nat) : s.bumpDraws.desc q n = s.desc q n := rfl
@[simp] theorem State.busy_bumpDraws (s : State) (n : Nat) : s.bumpDraws.busy n = s.busy n := rfl
@[simp] theorem State.callback_bumpDraws (s : State) (n : Nat) : s.bumpDraws.callback n = s.callback n := rfl
@[simp] theorem State.answersOf_bumpDraws (s : State) (n : Nat) : s.bumpDraws.answersOf n = s.answersOf n := rfl
@[simp] theorem State.wireOf_bumpDraws (s : State) (n : Nat) : s.bumpDraws.wireOf n = s.wireOf n := rfl
@[simp] theorem State.opRec_bumpDraws (s : State) (n : Nat) : s.bumpDraws.opRec n = s.opRec n := rfl

/-! ## setDirty -/

@[simp] theorem State.setDirty_cfg (s : State) (x : List (Nat × Nat)) : (s.setDirty x).cfg = s.cfg := rfl
@[simp] theorem State.setDirty_futs (s : State) (x : List (Nat × Nat)) : (s.setDirty x).futs = s.futs := rfl
@[simp] theorem State.setDirty_buses (s : State) (x : List (Nat × Nat)) : (s.setDirty x).buses = s.buses := rfl
@[simp] theorem State.setDirty_chans (s : State) (x : List (Nat × Nat)) : (s.setDirty x).chans = s.chans := rfl
@[simp] theorem State.setDirty_locks (s : State) (x : List (Nat × Nat)) : (s.setDirty x).locks = s.locks := rfl
@[simp] theorem State.setDirty_sess (s : State) (x : List (Nat × Nat)) : (s.setDirty x).sess = s.sess := rfl
@[simp] theorem State.setDirty_adps (s : State) (x : List (Nat × Nat)) : (s.setDirty x).adps = s.adps := rfl
@[simp] theorem State.setDirty_mem (s : State) (x : List (Nat × Nat)) : (s.setDirty x).mem = s.mem := rfl
@[simp] theorem State.setDirty_descs (s : State) (x : List (Nat × Nat)) : (s.setDirty x).descs = s.descs := rfl
@[simp] theorem State.setDirty_opRecs (s : State) (x : List (Nat × Nat)) : (s.setDirty x).opRecs = s.opRecs := rfl
@[simp] theorem State.setDirty_callbacks (s : State) (x : List (Nat × Nat)) : (s.setDirty x).callbacks = s.callbacks := rfl
@[simp] theorem State.setDirty_fg (s : State) (x : List (Nat × Nat)) : (s.setDirty x).fg = s.fg := rfl
@[simp] theorem State.setDirty_prog (s : State) (x : List (Nat × Nat)) : (s.setDirty x).prog = s.prog := rfl
@[simp] theorem State.setDirty_ret (s : State) (x : List (Nat × Nat)) : (s.setDirty x).ret = s.ret := rfl
@[simp] theorem State.setDirty_isrRet (s : State) (x : List (Nat × Nat)) : (s.setDirty x).isrRet = s.isrRet := rfl
@[simp] theorem State.setDirty_isr (s : State) (x : List (Nat × Nat)) : (s.setDirty x).isr = s.isr := rfl
@[simp] theorem State.setDirty_turns (s : State) (x : List (Nat × Nat)) : (s.setDirty x).turns = s.turns := rfl
@[simp] theorem State.setDirty_answers (s : State) (x : List (Nat × Nat)) : (s.setDirty x).answers = s.answers := rfl
@[simp] theorem State.setDirty_draws (s : State) (x : List (Nat × Nat)) : (s.setDirty x).draws = s.draws := rfl
@[simp] theorem State.setDirty_ext (s : State) (x : List (Nat × Nat)) : (s.setDirty x).ext = s.ext := rfl
@[simp] theorem State.setDirty_wire (s : State) (x : List (Nat × Nat)) : (s.setDirty x).wire = s.wire := rfl
@[simp] theorem State.setDirty_calls (s : State) (x : List (Nat × Nat)) : (s.setDirty x).calls = s.calls := rfl
@[simp] theorem State.setDirty_faults (s : State) (x : List (Nat × Nat)) : (s.setDirty x).faults = s.faults := rfl
@[simp] theorem State.setDirty_hung (s : State) (x : List (Nat × Nat)) : (s.setDirty x).hung = s.hung := rfl
@[simp] theorem State.setDirty_dirty (s : State) (x : List (Nat × Nat)) : (s.setDirty x).dirty = x := rfl
@[simp] theorem State.fut_setDirty (s : State) (x : List (Nat × Nat)) (n : Nat) : (s.setDirty x).fut n = s.fut n := rfl
@[simp] theorem State.bus_setDirty (s : State) (x : List (Nat × Nat)) (n : Nat) : (s.setDirty x).bus n = s.bus n := rfl
@[simp] theorem State.chan_setDirty (s : State) (x : List (Nat × Nat)) (n : Nat) : (s.setDirty x).chan n = s.chan n := rfl
@[simp] theorem State.lock_setDirty (s : State) (x : List (Nat × Nat)) (n : Nat) : (s.setDirty x).lock n = s.lock n := rfl
@[simp] theorem State.extLock_setDirty (s : State) (x : List (Nat × Nat)) (n : Nat) : (s.setDirty x).extLock n = s.extLock n := rfl
@[simp] theorem State.ses_setDirty (s : State) (x : List (Nat × Nat)) (n : Nat) : (s.setDirty x).ses n = s.ses n := rfl
@[simp] theorem State.adp_setDirty (s : State) (x : List (Nat × Nat)) (n : Nat) : (s.setDirty x).adp n = s.adp n := rfl
@[simp] theorem State.busCfg_setDirty (s : State) (x : List (Nat × Nat)) (n : Nat) : (s.setDirty x).busCfg n = s.busCfg n := rfl
@[simp] theorem State.sesCfg_setDirty (s : State) (x : List (Nat × Nat)) (n : Nat) : (s.setDirty x).sesCfg n = s.sesCfg n := rfl
@[simp] theorem State.adpCfg_setDirty (s : State) (x : List (Nat × Nat)) (n : Nat) : (s.setDirty x).adpCfg n = s.adpCfg n := rfl
@[simp] theorem State.sesBus_setDirty (s : State) (x : List (Nat × Nat)) (n : Nat) : (s.setDirty x).sesBus n = s.sesBus n := rfl
@[simp] theorem State.numBuses_setDirty (s : State) (x : List (Nat × Nat)) : (s.setDirty x).numBuses = s.numBuses := rfl
@[simp] theorem State.desc_setDirty (s : State) (x : List (Nat × Nat)) (q : Word) (n : Nat) : (s.setDirty x).desc q n = s.desc q n := rfl
@[simp] theorem State.busy_setDirty (s : State) (x : List (Nat × Nat)) (n : Nat) : (s.setDirty x).busy n = s.busy n := rfl
@[simp] theorem State.callback_setDirty (s : State) (x : List (Nat × Nat)) (n : Nat) : (s.setDirty x).callback n = s.callback n := rfl
@[simp] theorem State.answersOf_setDirty (s : State) (x : List (Nat × Nat)) (n : Nat) : (s.setDirty x).answersOf n = s.answersOf n := rfl
@[simp] theorem State.wireOf_setDirty (s : State) (x : List (Nat × Nat)) (n : Nat) : (s.setDirty x).wireOf n = s.wireOf n := rfl
@[simp] theorem State.opRec_setDirty (s : State) (x : List (Nat × Nat)) (n : Nat) : (s.setDirty x).opRec n = s.opRec n := rfl

/-! ## setAnswers -/

@[simp] theorem State.setAnswers_cfg (s : State) (b : Nat) (x : List Byte) : (s.setAnswers b x).cfg = s.cfg := rfl
@[simp] theorem State.setAnswers_futs (s : State) (b : Nat) (x : List Byte) : (s.setAnswers b x).futs = s.futs := rfl
@[simp] theorem State.setAnswers_buses (s : State) (b : Nat) (x : List Byte) : (s.setAnswers b x).buses = s.buses := rfl
@[simp] theorem State.setAnswers_chans (s : State) (b : Nat) (x : List Byte) : (s.setAnswers b x).chans = s.chans := rfl
@[simp] theorem State.setAnswers_locks (s : State) (b : Nat) (x : List Byte) : (s.setAnswers b x).locks = s.locks := rfl
@[simp] theorem State.setAnswers_sess (s : State) (b : Nat) (x : List Byte) : (s.setAnswers b x).sess = s.sess := rfl
@[simp] theorem State.setAnswers_adps (s : State) (b : Nat) (x : List Byte) : (s.setAnswers b x).adps = s.adps := rfl
@[simp] theorem State.setAnswers_mem (s : State) (b : Nat) (x : List Byte) : (s.setAnswers b x).mem = s.mem := rfl
@[simp] theorem State.setAnswers_descs (s : State) (b : Nat) (x : List Byte) : (s.setAnswers b x).descs = s.descs := rfl
@[simp] theorem State.setAnswers_opRecs (s : State) (b : Nat) (x : List Byte) : (s.setAnswers b x).opRecs = s.opRecs := rfl
@[simp] theorem State.setAnswers_callbacks (s : State) (b : Nat) (x : List Byte) : (s.setAnswers b x).callbacks = s.callbacks := rfl
@[simp] theorem State.setAnswers_fg (s : State) (b : Nat) (x : List Byte) : (s.setAnswers b x).fg = s.fg := rfl
@[simp] theorem State.setAnswers_prog (s : State) (b : Nat) (x : List Byte) : (s.setAnswers b x).prog = s.prog := rfl
@[simp] theorem State.setAnswers_ret (s : State) (b : Nat) (x : List Byte) : (s.setAnswers b x).ret = s.ret := rfl
@[simp] theorem State.setAnswers_isrRet (s : State) (b : Nat) (x : List Byte) : (s.setAnswers b x).isrRet = s.isrRet := rfl
@[simp] theorem State.setAnswers_isr (s : State) (b : Nat) (x : List Byte) : (s.setAnswers b x).isr = s.isr := rfl
@[simp] theorem State.setAnswers_turns (s : State) (b : Nat) (x : List Byte) : (s.setAnswers b x).turns = s.turns := rfl
@[simp] theorem State.setAnswers_draws (s : State) (b : Nat) (x : List Byte) : (s.setAnswers b x).draws = s.draws := rfl
@[simp] theorem State.setAnswers_dirty (s : State) (b : Nat) (x : List Byte) : (s.setAnswers b x).dirty = s.dirty := rfl
@[simp] theorem State.setAnswers_ext (s : State) (b : Nat) (x : List Byte) : (s.setAnswers b x).ext = s.ext := rfl
@[simp] theorem State.setAnswers_wire (s : State) (b : Nat) (x : List Byte) : (s.setAnswers b x).wire = s.wire := rfl
@[simp] theorem State.setAnswers_calls (s : State) (b : Nat) (x : List Byte) : (s.setAnswers b x).calls = s.calls := rfl
@[simp] theorem State.setAnswers_faults (s : State) (b : Nat) (x : List Byte) : (s.setAnswers b x).faults = s.faults := rfl
@[simp] theorem State.setAnswers_hung (s : State) (b : Nat) (x : List Byte) : (s.setAnswers b x).hung = s.hung := rfl
@[simp] theorem State.fut_setAnswers (s : State) (b : Nat) (x : List Byte) (n : Nat) : (s.setAnswers b x).fut n = s.fut n := rfl
@[simp] theorem State.bus_setAnswers (s : State) (b : Nat) (x : List Byte) (n : Nat) : (s.setAnswers b x).bus n = s.bus n := rfl
@[simp] theorem State.chan_setAnswers (s : State) (b : Nat) (x : List Byte) (n : Nat) : (s.setAnswers b x).chan n = s.chan n := rfl
@[simp] theorem State.lock_setAnswers (s : State) (b : Nat) (x : List Byte) (n : Nat) : (s.setAnswers b x).lock n = s.lock n := rfl
@[simp] theorem State.extLock_setAnswers (s : State) (b : Nat) (x : List Byte) (n : Nat) : (s.setAnswers b x).extLock n = s.extLock n := rfl
@[simp] theorem State.ses_setAnswers (s : State) (b : Nat) (x : List Byte) (n : Nat) : (s.setAnswers b x).ses n = s.ses n := rfl
@[simp] theorem State.adp_setAnswers (s : State) (b : Nat) (x : List Byte) (n : Nat) : (s.setAnswers b x).adp n = s.adp n := rfl
@[simp] theorem State.busCfg_setAnswers (s : State) (b : Nat) (x : List Byte) (n : Nat) : (s.setAnswers b x).busCfg n = s.busCfg n := rfl
@[simp] theorem State.sesCfg_setAnswers (s : State) (b : Nat) (x : List Byte) (n : Nat) : (s.setAnswers b x).sesCfg n = s.sesCfg n := rfl
@[simp] theorem State.adpCfg_setAnswers (s : State) (b : Nat) (x : List Byte) (n : Nat) : (s.setAnswers b x).adpCfg n = s.adpCfg n := rfl
@[simp] theorem State.sesBus_setAnswers (s : State) (b : Nat) (x : List Byte) (n : Nat) : (s.setAnswers b x).sesBus n = s.sesBus n := rfl
@[simp] theorem State.numBuses_setAnswers (s : State) (b : Nat) (x : List Byte) : (s.setAnswers b x).numBuses = s.numBuses := rfl
@[simp] theorem State.desc_setAnswers (s : State) (b : Nat) (x : List Byte) (q : Word) (n : Nat) : (s.setAnswers b x).desc q n = s.desc q n := rfl
@[simp] theorem State.busy_setAnswers (s : State) (b : Nat) (x : List Byte) (n : Nat) : (s.setAnswers b x).busy n = s.busy n := rfl
@[simp] theorem State.callback_setAnswers (s : State) (b : Nat) (x : List Byte) (n : Nat) : (s.setAnswers b x).callback n = s.callback n := rfl
theorem State.answersOf_setAnswers (s : State) (b : Nat) (x : List Byte) (n : Nat) :
    (s.setAnswers b x).answersOf n = if b = n then x else s.answersOf n := by
  simp [State.answersOf, State.setAnswers, Table.get_put]
@[simp] theorem State.wireOf_setAnswers (s : State) (b : Nat) (x : List Byte) (n : Nat) : (s.setAnswers b x).wireOf n = s.wireOf n := rfl
@[simp] theorem State.opRec_setAnswers (s : State) (b : Nat) (x : List Byte) (n : Nat) : (s.setAnswers b x).opRec n = s.opRec n := rfl

/-! ## setCallback -/

@[simp] theorem State.setCallback_cfg (s : State) (cb : Nat) (x : Callback) : (s.setCallback cb x).cfg = s.cfg := rfl
@[simp] theorem State.setCallback_futs (s : State) (cb : Nat) (x : Callback) : (s.setCallback cb x).futs = s.futs := rfl
@[simp] theorem State.setCallback_buses (s : State) (cb : Nat) (x : Callback) : (s.setCallback cb x).buses = s.buses := rfl
@[simp] theorem State.setCallback_chans (s : State) (cb : Nat) (x : Callback) : (s.setCallback cb x).chans = s.chans := rfl
@[simp] theorem State.setCallback_locks (s : State) (cb : Nat) (x : Callback) : (s.setCallback cb x).locks = s.locks := rfl
@[simp] theorem State.setCallback_sess (s : State) (cb : Nat) (x : Callback) : (s.setCallback cb x).sess = s.sess := rfl
@[simp] theorem State.setCallback_adps (s : State) (cb : Nat) (x : Callback) : (s.setCallback cb x).adps = s.adps := rfl
@[simp] theorem State.setCallback_mem (s : State) (cb : Nat) (x : Callback) : (s.setCallback cb x).mem = s.mem := rfl
@[simp] theorem State.setCallback_descs (s : State) (cb : Nat) (x : Callback) : (s.setCallback cb x).descs = s.descs := rfl
@[simp] theorem State.setCallback_opRecs (s : State) (cb : Nat) (x : Callback) : (s.setCallback cb x).opRecs = s.opRecs := rfl
@[simp] theorem State.setCallback_fg (s : State) (cb : Nat) (x : Callback) : (s.setCallback cb x).fg = s.fg := rfl
@[simp] theorem State.setCallback_prog (s : State) (cb : Nat) (x : Callback) : (s.setCallback cb x).prog = s.prog := rfl
@[simp] theorem State.setCallback_ret (s : State) (cb : Nat) (x : Callback) : (s.setCallback cb x).ret = s.ret := rfl
@[simp] theorem State.setCallback_isrRet (s : State) (cb : Nat) (x : Callback) : (s.setCallback cb x).isrRet = s.isrRet := rfl
@[simp] theorem State.setCallback_isr (s : State) (cb : Nat) (x : Callback) : (s.setCallback cb x).isr = s.isr := rfl
@[simp] theorem State.setCallback_turns (s : State) (cb : Nat) (x : Callback) : (s.setCallback cb x).turns = s.turns := rfl
@[simp] theorem State.setCallback_answers (s : State) (cb : Nat) (x : Callback) : (s.setCallback cb x).answers = s.answers := rfl
@[simp] theorem State.setCallback_draws (s : State) (cb : Nat) (x : Callback) : (s.setCallback cb x).draws = s.draws := rfl
@[simp] theorem State.setCallback_dirty (s : State) (cb : Nat) (x : Callback) : (s.setCallback cb x).dirty = s.dirty := rfl
@[simp] theorem State.setCallback_ext (s : State) (cb : Nat) (x : Callback) : (s.setCallback cb x).ext = s.ext := rfl
@[simp] theorem State.setCallback_wire (s : State) (cb : Nat) (x : Callback) : (s.setCallback cb x).wire = s.wire := rfl
@[simp] theorem State.setCallback_calls (s : State) (cb : Nat) (x : Callback) : (s.setCallback cb x).calls = s.calls := rfl
@[simp] theorem State.setCallback_faults (s : State) (cb : Nat) (x : Callback) : (s.setCallback cb x).faults = s.faults := rfl
@[simp] theorem State.setCallback_hung (s : State) (cb : Nat) (x : Callback) : (s.setCallback cb x).hung = s.hung := rfl
@[simp] theorem State.fut_setCallback (s : State) (cb : Nat) (x : Callback) (n : Nat) : (s.setCallback cb x).fut n = s.fut n := rfl
@[simp] theorem State.bus_setCallback (s : State) (cb : Nat) (x : Callback) (n : Nat) : (s.setCallback cb x).bus n = s.bus n := rfl
@[simp] theorem State.chan_setCallback (s : State) (cb : Nat) (x : Callback) (n : Nat) : (s.setCallback cb x).chan n = s.chan n := rfl
@[simp] theorem State.lock_setCallback (s : State) (cb : Nat) (x : Callback) (n : Nat) : (s.setCallback cb x).lock n = s.lock n := rfl
@[simp] theorem State.extLock_setCallback (s : State) (cb : Nat) (x : Callback) (n : Nat) : (s.setCallback cb x).extLock n = s.extLock n := rfl
@[simp] theorem State.ses_setCallback (s : State) (cb : Nat) (x : Callback) (n : Nat) : (s.setCallback cb x).ses n = s.ses n := rfl
@[simp] theorem State.adp_setCallback (s : State) (cb : Nat) (x : Callback) (n : Nat) : (s.setCallback cb x).adp n = s.adp n := rfl
@[simp] theorem State.busCfg_setCallback (s : State) (cb : Nat) (x : Callback) (n : Nat) : (s.setCallback cb x).busCfg n = s.busCfg n := rfl
@[simp] theorem State.sesCfg_setCallback (s : State) (cb : Nat) (x : Callback) (n : Nat) : (s.setCallback cb x).sesCfg n = s.sesCfg n := rfl
@[simp] theorem State.adpCfg_setCallback (s : State) (cb : Nat) (x : Callback) (n : Nat) : (s.setCallback cb x).adpCfg n = s.adpCfg n := rfl
@[simp] theorem State.sesBus_setCallback (s : State) (cb : Nat) (x : Callback) (n : Nat) : (s.setCallback cb x).sesBus n = s.sesBus n := rfl
@[simp] theorem State.numBuses_setCallback (s : State) (cb : Nat) (x : Callback) : (s.setCallback cb x).numBuses = s.numBuses := rfl
@[simp] theorem State.desc_setCallback (s : State) (cb : Nat) (x : Callback) (q : Word) (n : Nat) : (s.setCallback cb x).desc q n = s.desc q n := rfl
@[simp] theorem State.busy_setCallback (s : State) (cb : Nat) (x : Callback) (n : Nat) : (s.setCallback cb x).busy n = s.busy n := rfl
theorem State.callback_setCallback (s : State) (cb : Nat) (x : Callback) (n : Nat) :
    (s.setCallback cb x).callback n = if cb = n then x else s.callback n := by
  simp [State.callback, State.setCallback, Table.get_put]
@[simp] theorem State.answersOf_setCallback (s : State) (cb : Nat) (x : Callback) (n : Nat) : (s.setCallback cb x).answersOf n = s.answersOf n := rfl
@[simp] theorem State.wireOf_setCallback (s : State) (cb : Nat) (x : Callback) (n : Nat) : (s.setCallback cb x).wireOf n = s.wireOf n := rfl
@[simp] theorem State.opRec_setCallback (s : State) (cb : Nat) (x : Callback) (n : Nat) : (s.setCallback cb x).opRec n = s.opRec n := rfl

/-! ## setOpRec -/

@[simp] theorem State.setOpRec_cfg (s : State) (op : Nat) (r : OpRec) : (s.setOpRec op r).cfg = s.cfg := rfl
@[simp] theorem State.setOpRec_futs (s : State) (op : Nat) (r : OpRec) : (s.setOpRec op r).futs = s.futs := rfl
@[simp] theorem State.setOpRec_buses (s : State) (op : Nat) (r : OpRec) : (s.setOpRec op r).buses = s.buses := rfl
@[simp] theorem State.setOpRec_chans (s : State) (op : Nat) (r : OpRec) : (s.setOpRec op r).chans = s.chans := rfl
@[simp] theorem State.setOpRec_locks (s : State) (op : Nat) (r : OpRec) : (s.setOpRec op r).locks = s.locks := rfl
@[simp] theorem State.setOpRec_sess (s : State) (op : Nat) (r : OpRec) : (s.setOpRec op r).sess = s.sess := rfl
@[simp] theorem State.setOpRec_adps (s : State) (op : Nat) (r : OpRec) : (s.setOpRec op r).adps = s.adps := rfl
@[simp] theorem State.setOpRec_mem (s : State) (op : Nat) (r : OpRec) : (s.setOpRec op r).mem = s.mem := rfl
@[simp] theorem State.setOpRec_descs (s : State) (op : Nat) (r : OpRec) : (s.setOpRec op r).descs = s.descs := rfl
@[simp] theorem State.setOpRec_callbacks (s : State) (op : Nat) (r : OpRec) : (s.setOpRec op r).callbacks = s.callbacks := rfl
@[simp] theorem State.setOpRec_fg (s : State) (op : Nat) (r : OpRec) : (s.setOpRec op r).fg = s.fg := rfl
@[simp] theorem State.setOpRec_prog (s : State) (op : Nat) (r : OpRec) : (s.setOpRec op r).prog = s.prog := rfl
@[simp] theorem State.setOpRec_ret (s : State) (op : Nat) (r : OpRec) : (s.setOpRec op r).ret = s.ret := rfl
@[simp] theorem State.setOpRec_isrRet (s : State) (op : Nat) (r : OpRec) : (s.setOpRec op r).isrRet = s.isrRet := rfl
@[simp] theorem State.setOpRec_isr (s : State) (op : Nat) (r : OpRec) : (s.setOpRec op r).isr = s.isr := rfl
@[simp] theorem State.setOpRec_turns (s : State) (op : Nat) (r : OpRec) : (s.setOpRec op r).turns = s.turns := rfl
@[simp] theorem State.setOpRec_answers (s : State) (op : Nat) (r : OpRec) : (s.setOpRec op r).answers = s.answers := rfl
@[simp] theorem State.setOpRec_draws (s : State) (op : Nat) (r : OpRec) : (s.setOpRec op r).draws = s.draws := rfl
@[simp] theorem State.setOpRec_dirty (s : State) (op : Nat) (r : OpRec) : (s.setOpRec op r).dirty = s.dirty := rfl
@[simp] theorem State.setOpRec_ext (s : State) (op : Nat) (r : OpRec) : (s.setOpRec op r).ext = s.ext := rfl
@[simp] theorem State.setOpRec_wire (s : State) (op : Nat) (r : OpRec) : (s.setOpRec op r).wire = s.wire := rfl
@[simp] theorem State.setOpRec_calls (s : State) (op : Nat) (r : OpRec) : (s.setOpRec op r).calls = s.calls := rfl
@[simp] theorem State.setOpRec_faults (s : State) (op : Nat) (r : OpRec) : (s.setOpRec op r).faults = s.faults := rfl
@[simp] theorem State.setOpRec_hung (s : State) (op : Nat) (r : OpRec) : (s.setOpRec op r).hung = s.hung := rfl
@[simp] theorem State.fut_setOpRec (s : State) (op : Nat) (r : OpRec) (n : Nat) : (s.setOpRec op r).fut n = s.fut n := rfl
@[simp] theorem State.bus_setOpRec (s : State) (op : Nat) (r : OpRec) (n : Nat) : (s.setOpRec op r).bus n = s.bus n := rfl
@[simp] theorem State.chan_setOpRec (s : State) (op : Nat) (r : OpRec) (n : Nat) : (s.setOpRec op r).chan n = s.chan n := rfl
@[simp] theorem State.lock_setOpRec (s : State) (op : Nat) (r : OpRec) (n : Nat) : (s.setOpRec op r).lock n = s.lock n := rfl
@[simp] theorem State.extLock_setOpRec (s : State) (op : Nat) (r : OpRec) (n : Nat) : (s.setOpRec op r).extLock n = s.extLock n := rfl
@[simp] theorem State.ses_setOpRec (s : State) (op : Nat) (r : OpRec) (n : Nat) : (s.setOpRec op r).ses n = s.ses n := rfl
@[simp] theorem State.adp_setOpRec (s : State) (op : Nat) (r : OpRec) (n : Nat) : (s.setOpRec op r).adp n = s.adp n := rfl
@[simp] theorem State.busCfg_setOpRec (s : State) (op : Nat) (r : OpRec) (n : Nat) : (s.setOpRec op r).busCfg n = s.busCfg n := rfl
@[simp] theorem State.sesCfg_setOpRec (s : State) (op : Nat) (r : OpRec) (n : Nat) : (s.setOpRec op r).sesCfg n = s.sesCfg n := rfl
@[simp] theorem State.adpCfg_setOpRec (s : State) (op : Nat) (r : OpRec) (n : Nat) : (s.setOpRec op r).adpCfg n = s.adpCfg n := rfl
@[simp] theorem State.sesBus_setOpRec (s : State) (op : Nat) (r : OpRec) (n : Nat) : (s.setOpRec op r).sesBus n = s.sesBus n := rfl
@[simp] theorem State.numBuses_setOpRec (s : State) (op : Nat) (r : OpRec) : (s.setOpRec op r).numBuses = s.numBuses := rfl
@[simp] theorem State.desc_setOpRec (s : State) (op : Nat) (r : OpRec) (q : Word) (n : Nat) : (s.setOpRec op r).desc q n = s.desc q n := rfl
@[simp] theorem State.busy_setOpRec (s : State) (op : Nat) (r : OpRec) (n : Nat) : (s.setOpRec op r).busy n = s.busy n := rfl
@[simp] theorem State.callback_setOpRec (s : State) (op : Nat) (r : OpRec) (n : Nat) : (s.setOpRec op r).callback n = s.callback n := rfl
@[simp] theorem State.answersOf_setOpRec (s : State) (op : Nat) (r : OpRec) (n : Nat) : (s.setOpRec op r).answersOf n = s.answersOf n := rfl
@[simp] theorem State.wireOf_setOpRec (s : State) (op : Nat) (r : OpRec) (n : Nat) : (s.setOpRec op r).wireOf n = s.wireOf n := rfl

/-! ## setDesc -/

@[simp] theorem State.setDesc_cfg (s : State) (p : Word) (i : Word) (m : Msg) : (s.setDesc p i m).cfg = s.cfg := rfl
@[simp] theorem State.setDesc_futs (s : State) (p : Word) (i : Word) (m : Msg) : (s.setDesc p i m).futs = s.futs := rfl
@[simp] theorem State.setDesc_buses (s : State) (p : Word) (i : Word) (m : Msg) : (s.setDesc p i m).buses = s.buses := rfl
@[simp] theorem State.setDesc_chans (s : State) (p : Word) (i : Word) (m : Msg) : (s.setDesc p i m).chans = s.chans := rfl
@[simp] theorem State.setDesc_locks (s : State) (p : Word) (i : Word) (m : Msg) : (s.setDesc p i m).locks = s.locks := rfl
@[simp] theorem State.setDesc_sess (s : State) (p : Word) (i : Word) (m : Msg) : (s.setDesc p i m).sess = s.sess := rfl
@[simp] theorem State.setDesc_adps (s : State) (p : Word) (i : Word) (m : Msg) : (s.setDesc p i m).adps = s.adps := rfl
@[simp] theorem State.setDesc_mem (s : State) (p : Word) (i : Word) (m : Msg) : (s.setDesc p i m).mem = s.mem := rfl
@[simp] theorem State.setDesc_opRecs (s : State) (p : Word) (i : Word) (m : Msg) : (s.setDesc p i m).opRecs = s.opRecs := rfl
@[simp] theorem State.setDesc_callbacks (s : State) (p : Word) (i : Word) (m : Msg) : (s.setDesc p i m).callbacks = s.callbacks := rfl
@[simp] theorem State.setDesc_fg (s : State) (p : Word) (i : Word) (m : Msg) : (s.setDesc p i m).fg = s.fg := rfl
@[simp] theorem State.setDesc_prog (s : State) (p : Word) (i : Word) (m : Msg) : (s.setDesc p i m).prog = s.prog := rfl
@[simp] theorem State.setDesc_ret (s : State) (p : Word) (i : Word) (m : Msg) : (s.setDesc p i m).ret = s.ret := rfl
@[simp] theorem State.setDesc_isrRet (s : State) (p : Word) (i : Word) (m : Msg) : (s.setDesc p i m).isrRet = s.isrRet := rfl
@[simp] theorem State.setDesc_isr (s : State) (p : Word) (i : Word) (m : Msg) : (s.setDesc p i m).isr = s.isr := rfl
@[simp] theorem State.setDesc_turns (s : State) (p : Word) (i : Word) (m : Msg) : (s.setDesc p i m).turns = s.turns := rfl
@[simp] theorem State.setDesc_answers (s : State) (p : Word) (i : Word) (m : Msg) : (s.setDesc p i m).answers = s.answers := rfl
@[simp] theorem State.setDesc_draws (s : State) (p : Word) (i : Word) (m : Msg) : (s.setDesc p i m).draws = s.draws := rfl
@[simp] theorem State.setDesc_dirty (s : State) (p : Word) (i : Word) (m : Msg) : (s.setDesc p i m).dirty = s.dirty := rfl
@[simp] theorem State.setDesc_ext (s : State) (p : Word) (i : Word) (m : Msg) : (s.setDesc p i m).ext = s.ext := rfl
@[simp] theorem State.setDesc_wire (s : State) (p : Word) (i : Word) (m : Msg) : (s.setDesc p i m).wire = s.wire := rfl
@[simp] theorem State.setDesc_calls (s : State) (p : Word) (i : Word) (m : Msg) : (s.setDesc p i m).calls = s.calls := rfl
@[simp] theorem State.setDesc_faults (s : State) (p : Word) (i : Word) (m : Msg) : (s.setDesc p i m).faults = s.faults := rfl
@[simp] theorem State.setDesc_hung (s : State) (p : Word) (i : Word) (m : Msg) : (s.setDesc p i m).hung = s.hung := rfl
@[simp] theorem State.fut_setDesc (s : State) (p : Word) (i : Word) (m : Msg) (n : Nat) : (s.setDesc p i m).fut n = s.fut n := rfl
@[simp] theorem State.bus_setDesc (s : State) (p : Word) (i : Word) (m : Msg) (n : Nat) : (s.setDesc p i m).bus n = s.bus n := rfl
@[simp] theorem State.chan_setDesc (s : State) (p : Word) (i : Word) (m : Msg) (n : Nat) : (s.setDesc p i m).chan n = s.chan n := rfl
@[simp] theorem State.lock_setDesc (s : State) (p : Word) (i : Word) (m : Msg) (n : Nat) : (s.setDesc p i m).lock n = s.lock n := rfl
@[simp] theorem State.extLock_setDesc (s : State) (p : Word) (i : Word) (m : Msg) (n : Nat) : (s.setDesc p i m).extLock n = s.extLock n := rfl
@[simp] theorem State.ses_setDesc (s : State) (p : Word) (i : Word) (m : Msg) (n : Nat) : (s.setDesc p i m).ses n = s.ses n := rfl
@[simp] theorem State.adp_setDesc (s : State) (p : Word) (i : Word) (m : Msg) (n : Nat) : (s.setDesc p i m).adp n = s.adp n := rfl
@[simp] theorem State.busCfg_setDesc (s : State) (p : Word) (i : Word) (m : Msg) (n : Nat) : (s.setDesc p i m).busCfg n = s.busCfg n := rfl
@[simp] theorem State.sesCfg_setDesc (s : State) (p : Word) (i : Word) (m : Msg) (n : Nat) : (s.setDesc p i m).sesCfg n = s.sesCfg n := rfl
@[simp] theorem State.adpCfg_setDesc (s : State) (p : Word) (i : Word) (m : Msg) (n : Nat) : (s.setDesc p i m).adpCfg n = s.adpCfg n := rfl
@[simp] theorem State.sesBus_setDesc (s : State) (p : Word) (i : Word) (m : Msg) (n : Nat) : (s.setDesc p i m).sesBus n = s.sesBus n := rfl
@[simp] theorem State.numBuses_setDesc (s : State) (p : Word) (i : Word) (m : Msg) : (s.setDesc p i m).numBuses = s.numBuses := rfl
@[simp] theorem State.busy_setDesc (s : State) (p : Word) (i : Word) (m : Msg) (n : Nat) : (s.setDesc p i m).busy n = s.busy n := rfl
@[simp] theorem State.callback_setDesc (s : State) (p : Word) (i : Word) (m : Msg) (n : Nat) : (s.setDesc p i m).callback n = s.callback n := rfl
@[simp] theorem State.answersOf_setDesc (s : State) (p : Word) (i : Word) (m : Msg) (n : Nat) : (s.setDesc p i m).answersOf n = s.answersOf n := rfl
@[simp] theorem State.wireOf_setDesc (s : State) (p : Word) (i : Word) (m : Msg) (n : Nat) : (s.setDesc p i m).wireOf n = s.wireOf n := rfl
@[simp] theorem State.opRec_setDesc (s : State) (p : Word) (i : Word) (m : Msg) (n : Nat) : (s.setDesc p i m).opRec n = s.opRec n := rfl

/-! ## storeByte -/

@[simp] theorem State.storeByte_cfg (s : State) (a : Word) (v : Byte) : (s.storeByte a v).cfg = s.cfg := rfl
@[simp] theorem State.storeByte_futs (s : State) (a : Word) (v : Byte) : (s.storeByte a v).futs = s.futs := rfl
@[simp] theorem State.storeByte_buses (s : State) (a : Word) (v : Byte) : (s.storeByte a v).buses = s.buses := rfl
@[simp] theorem State.storeByte_chans (s : State) (a : Word) (v : Byte) : (s.storeByte a v).chans = s.chans := rfl
@[simp] theorem State.storeByte_locks (s : State) (a : Word) (v : Byte) : (s.storeByte a v).locks = s.locks := rfl
@[simp] theorem State.storeByte_sess (s : State) (a : Word) (v : Byte) : (s.storeByte a v).sess = s.sess := rfl
@[simp] theorem State.storeByte_adps (s : State) (a : Word) (v : Byte) : (s.storeByte a v).adps = s.adps := rfl
@[simp] theorem State.storeByte_descs (s : State) (a : Word) (v : Byte) : (s.storeByte a v).descs = s.descs := rfl
@[simp] theorem State.storeByte_opRecs (s : State) (a : Word) (v : Byte) : (s.storeByte a v).opRecs = s.opRecs := rfl
@[simp] theorem State.storeByte_callbacks (s : State) (a : Word) (v : Byte) : (s.storeByte a v).callbacks = s.callbacks := rfl
@[simp] theorem State.storeByte_fg (s : State) (a : Word) (v : Byte) : (s.storeByte a v).fg = s.fg := rfl
@[simp] theorem State.storeByte_prog (s : State) (a : Word) (v : Byte) : (s.storeByte a v).prog = s.prog := rfl
@[simp] theorem State.storeByte_ret (s : State) (a : Word) (v : Byte) : (s.storeByte a v).ret = s.ret := rfl
@[simp] theorem State.storeByte_isrRet (s : State) (a : Word) (v : Byte) : (s.storeByte a v).isrRet = s.isrRet := rfl
@[simp] theorem State.storeByte_isr (s : State) (a : Word) (v : Byte) : (s.storeByte a v).isr = s.isr := rfl
@[simp] theorem State.storeByte_turns (s : State) (a : Word) (v : Byte) : (s.storeByte a v).turns = s.turns := rfl
@[simp] theorem State.storeByte_answers (s : State) (a : Word) (v : Byte) : (s.storeByte a v).answers = s.answers := rfl
@[simp] theorem State.storeByte_draws (s : State) (a : Word) (v : Byte) : (s.storeByte a v).draws = s.draws := rfl
@[simp] theorem State.storeByte_dirty (s : State) (a : Word) (v : Byte) : (s.storeByte a v).dirty = s.dirty := rfl
@[simp] theorem State.storeByte_ext (s : State) (a : Word) (v : Byte) : (s.storeByte a v).ext = s.ext := rfl
@[simp] theorem State.storeByte_wire (s : State) (a : Word) (v : Byte) : (s.storeByte a v).wire = s.wire := rfl
@[simp] theorem State.storeByte_calls (s : State) (a : Word) (v : Byte) : (s.storeByte a v).calls = s.calls := rfl
@[simp] theorem State.storeByte_faults (s : State) (a : Word) (v : Byte) : (s.storeByte a v).faults = s.faults := rfl
@[simp] theorem State.storeByte_hung (s : State) (a : Word) (v : Byte) : (s.storeByte a v).hung = s.hung := rfl
@[simp] theorem State.fut_storeByte (s : State) (a : Word) (v : Byte) (n : Nat) : (s.storeByte a v).fut n = s.fut n := rfl
@[simp] theorem State.bus_storeByte (s : State) (a : Word) (v : Byte) (n : Nat) : (s.storeByte a v).bus n = s.bus n := rfl
@[simp] theorem State.chan_storeByte (s : State) (a : Word) (v : Byte) (n : Nat) : (s.storeByte a v).chan n = s.chan n := rfl
@[simp] theorem State.lock_storeByte (s : State) (a : Word) (v : Byte) (n : Nat) : (s.storeByte a v).lock n = s.lock n := rfl
@[simp] theorem State.extLock_storeByte (s : State) (a : Word) (v : Byte) (n : Nat) : (s.storeByte a v).extLock n = s.extLock n := rfl
@[simp] theorem State.ses_storeByte (s : State) (a : Word) (v : Byte) (n : Nat) : (s.storeByte a v).ses n = s.ses n := rfl
@[simp] theorem State.adp_storeByte (s : State) (a : Word) (v : Byte) (n : Nat) : (s.storeByte a v).adp n = s.adp n := rfl
@[simp] theorem State.busCfg_storeByte (s : State) (a : Word) (v : Byte) (n : Nat) : (s.storeByte a v).busCfg n = s.busCfg n := rfl
@[simp] theorem State.sesCfg_storeByte (s : State) (a : Word) (v : Byte) (n : Nat) : (s.storeByte a v).sesCfg n = s.sesCfg n := rfl
@[simp] theorem State.adpCfg_storeByte (s : State) (a : Word) (v : Byte) (n : Nat) : (s.storeByte a v).adpCfg n = s.adpCfg n := rfl
@[simp] theorem State.sesBus_storeByte (s : State) (a : Word) (v : Byte) (n : Nat) : (s.storeByte a v).sesBus n = s.sesBus n := rfl
@[simp] theorem State.numBuses_storeByte (s : State) (a : Word) (v : Byte) : (s.storeByte a v).numBuses = s.numBuses := rfl
@[simp] theorem State.desc_storeByte (s : State) (a : Word) (v : Byte) (q : Word) (n : Nat) : (s.storeByte a v).desc q n = s.desc q n := rfl
@[simp] theorem State.busy_storeByte (s : State) (a : Word) (v : Byte) (n : Nat) : (s.storeByte a v).busy n = s.busy n := rfl
@[simp] theorem State.callback_storeByte (s : State) (a : Word) (v : Byte) (n : Nat) : (s.storeByte a v).callback n = s.callback n := rfl
@[simp] theorem State.answersOf_storeByte (s : State) (a : Word) (v : Byte) (n : Nat) : (s.storeByte a v).answersOf n = s.answersOf n := rfl
@[simp] theorem State.wireOf_storeByte (s : State) (a : Word) (v : Byte) (n : Nat) : (s.storeByte a v).wireOf n = s.wireOf n := rfl
@[simp] theorem State.opRec_storeByte (s : State) (a : Word) (v : Byte) (n : Nat) : (s.storeByte a v).opRec n = s.opRec n := rfl

/-! ## send -/

@[simp] theorem State.send_cfg (s : State) (b : Nat) (t : Byte) : (s.send b t).cfg = s.cfg := rfl
@[simp] theorem State.send_futs (s : State) (b : Nat) (t : Byte) : (s.send b t).futs = s.futs := rfl
@[simp] theorem State.send_buses (s : State) (b : Nat) (t : Byte) : (s.send b t).buses = s.buses := rfl
@[simp] theorem State.send_chans (s : State) (b : Nat) (t : Byte) : (s.send b t).chans = s.chans := rfl
@[simp] theorem State.send_locks (s : State) (b : Nat) (t : Byte) : (s.send b t).locks = s.locks := rfl
@[simp] theorem State.send_sess (s : State) (b : Nat) (t : Byte) : (s.send b t).sess = s.sess := rfl
@[simp] theorem State.send_adps (s : State) (b : Nat) (t : Byte) : (s.send b t).adps = s.adps := rfl
@[simp] theorem State.send_mem (s : State) (b : Nat) (t : Byte) : (s.send b t).mem = s.mem := rfl
@[simp] theorem State.send_descs (s : State) (b : Nat) (t : Byte) : (s.send b t).descs = s.descs := rfl
@[simp] theorem State.send_opRecs (s : State) (b : Nat) (t : Byte) : (s.send b t).opRecs = s.opRecs := rfl
@[simp] theorem State.send_callbacks (s : State) (b : Nat) (t : Byte) : (s.send b t).callbacks = s.callbacks := rfl
@[simp] theorem State.send_fg (s : State) (b : Nat) (t : Byte) : (s.send b t).fg = s.fg := rfl
@[simp] theorem State.send_prog (s : State) (b : Nat) (t : Byte) : (s.send b t).prog = s.prog := rfl
@[simp] theorem State.send_ret (s : State) (b : Nat) (t : Byte) : (s.send b t).ret = s.ret := rfl
@[simp] theorem State.send_isrRet (s : State) (b : Nat) (t : Byte) : (s.send b t).isrRet = s.isrRet := rfl
@[simp] theorem State.send_isr (s : State) (b : Nat) (t : Byte) : (s.send b t).isr = s.isr := rfl
@[simp] theorem State.send_turns (s : State) (b : Nat) (t : Byte) : (s.send b t).turns = s.turns := rfl
@[simp] theorem State.send_answers (s : State) (b : Nat) (t : Byte) : (s.send b t).answers = s.answers := rfl
@[simp] theorem State.send_draws (s : State) (b : Nat) (t : Byte) : (s.send b t).draws = s.draws := rfl
@[simp] theorem State.send_dirty (s : State) (b : Nat) (t : Byte) : (s.send b t).dirty = s.dirty := rfl
@[simp] theorem State.send_ext (s : State) (b : Nat) (t : Byte) : (s.send b t).ext = s.ext := rfl
@[simp] theorem State.send_calls (s : State) (b : Nat) (t : Byte) : (s.send b t).calls = s.calls := rfl
@[simp] theorem State.send_faults (s : State) (b : Nat) (t : Byte) : (s.send b t).faults = s.faults := rfl
@[simp] theorem State.send_hung (s : State) (b : Nat) (t : Byte) : (s.send b t).hung = s.hung := rfl
@[simp] theorem State.fut_send (s : State) (b : Nat) (t : Byte) (n : Nat) : (s.send b t).fut n = s.fut n := rfl
@[simp] theorem State.bus_send (s : State) (b : Nat) (t : Byte) (n : Nat) : (s.send b t).bus n = s.bus n := rfl
@[simp] theorem State.chan_send (s : State) (b : Nat) (t : Byte) (n : Nat) : (s.send b t).chan n = s.chan n := rfl
@[simp] theorem State.lock_send (s : State) (b : Nat) (t : Byte) (n : Nat) : (s.send b t).lock n = s.lock n := rfl
@[simp] theorem State.extLock_send (s : State) (b : Nat) (t : Byte) (n : Nat) : (s.send b t).extLock n = s.extLock n := rfl
@[simp] theorem State.ses_send (s : State) (b : Nat) (t : Byte) (n : Nat) : (s.send b t).ses n = s.ses n := rfl
@[simp] theorem State.adp_send (s : State) (b : Nat) (t : Byte) (n : Nat) : (s.send b t).adp n = s.adp n := rfl
@[simp] theorem State.busCfg_send (s : State) (b : Nat) (t : Byte) (n : Nat) : (s.send b t).busCfg n = s.busCfg n := rfl
@[simp] theorem State.sesCfg_send (s : State) (b : Nat) (t : Byte) (n : Nat) : (s.send b t).sesCfg n = s.sesCfg n := rfl
@[simp] theorem State.adpCfg_send (s : State) (b : Nat) (t : Byte) (n : Nat) : (s.send b t).adpCfg n = s.adpCfg n := rfl
@[simp] theorem State.sesBus_send (s : State) (b : Nat) (t : Byte) (n : Nat) : (s.send b t).sesBus n = s.sesBus n := rfl
@[simp] theorem State.numBuses_send (s : State) (b : Nat) (t : Byte) : (s.send b t).numBuses = s.numBuses := rfl
@[simp] theorem State.desc_send (s : State) (b : Nat) (t : Byte) (q : Word) (n : Nat) : (s.send b t).desc q n = s.desc q n := rfl
@[simp] theorem State.busy_send (s : State) (b : Nat) (t : Byte) (n : Nat) : (s.send b t).busy n = s.busy n := rfl
@[simp] theorem State.callback_send (s : State) (b : Nat) (t : Byte) (n : Nat) : (s.send b t).callback n = s.callback n := rfl
@[simp] theorem State.answersOf_send (s : State) (b : Nat) (t : Byte) (n : Nat) : (s.send b t).answersOf n = s.answersOf n := rfl
theorem State.wireOf_send (s : State) (b : Nat) (t : Byte) (n : Nat) :
    (s.send b t).wireOf n = if b = n then t :: s.wireOf b else s.wireOf n := by
  simp [State.wireOf, State.send, Table.get_put]
@[simp] theorem State.opRec_send (s : State) (b : Nat) (t : Byte) (n : Nat) : (s.send b t).opRec n = s.opRec n := rfl

/-! ## logCall -/

@[simp] theorem State.logCall_cfg (s : State) (cb : Word) (arg : CbArg) : (s.logCall cb arg).cfg = s.cfg := rfl
@[simp] theorem State.logCall_futs (s : State) (cb : Word) (arg : CbArg) : (s.logCall cb arg).futs = s.futs := rfl
@[simp] theorem State.logCall_buses (s : State) (cb : Word) (arg : CbArg) : (s.logCall cb arg).buses = s.buses := rfl
@[simp] theorem State.logCall_chans (s : State) (cb : Word) (arg : CbArg) : (s.logCall cb arg).chans = s.chans := rfl
@[simp] theorem State.logCall_locks (s : State) (cb : Word) (arg : CbArg) : (s.logCall cb arg).locks = s.locks := rfl
@[simp] theorem State.logCall_sess (s : State) (cb : Word) (arg : CbArg) : (s.logCall cb arg).sess = s.sess := rfl
@[simp] theorem State.logCall_adps (s : State) (cb : Word) (arg : CbArg) : (s.logCall cb arg).adps = s.adps := rfl
@[simp] theorem State.logCall_mem (s : State) (cb : Word) (arg : CbArg) : (s.logCall cb arg).mem = s.mem := rfl
@[simp] theorem State.logCall_descs (s : State) (cb : Word) (arg : CbArg) : (s.logCall cb arg).descs = s.descs := rfl
@[simp] theorem State.logCall_opRecs (s : State) (cb : Word) (arg : CbArg) : (s.logCall cb arg).opRecs = s.opRecs := rfl
@[simp] theorem State.logCall_callbacks (s : State) (cb : Word) (arg : CbArg) : (s.logCall cb arg).callbacks = s.callbacks := rfl
@[simp] theorem State.logCall_fg (s : State) (cb : Word) (arg : CbArg) : (s.logCall cb arg).fg = s.fg := rfl
@[simp] theorem State.logCall_prog (s : State) (cb : Word) (arg : CbArg) : (s.logCall cb arg).prog = s.prog := rfl
@[simp] theorem State.logCall_ret (s : State) (cb : Word) (arg : CbArg) : (s.logCall cb arg).ret = s.ret := rfl
@[simp] theorem State.logCall_isrRet (s : State) (cb : Word) (arg : CbArg) : (s.logCall cb arg).isrRet = s.isrRet := rfl
@[simp] theorem State.logCall_isr (s : State) (cb : Word) (arg : CbArg) : (s.logCall cb arg).isr = s.isr := rfl
@[simp] theorem State.logCall_turns (s : State) (cb : Word) (arg : CbArg) : (s.logCall cb arg).turns = s.turns := rfl
@[simp] theorem State.logCall_answers (s : State) (cb : Word) (arg : CbArg) : (s.logCall cb arg).answers = s.answers := rfl
@[simp] theorem State.logCall_draws (s : State) (cb : Word) (arg : CbArg) : (s.logCall cb arg).draws = s.draws := rfl
@[simp] theorem State.logCall_dirty (s : State) (cb : Word) (arg : CbArg) : (s.logCall cb arg).dirty = s.dirty := rfl
@[simp] theorem State.logCall_ext (s : State) (cb : Word) (arg : CbArg) : (s.logCall cb arg).ext = s.ext := rfl
@[simp] theorem State.logCall_wire (s : State) (cb : Word) (arg : CbArg) : (s.logCall cb arg).wire = s.wire := rfl
@[simp] theorem State.logCall_faults (s : State) (cb : Word) (arg : CbArg) : (s.logCall cb arg).faults = s.faults := rfl
@[simp] theorem State.logCall_hung (s : State) (cb : Word) (arg : CbArg) : (s.logCall cb arg).hung = s.hung := rfl
@[simp] theorem State.fut_logCall (s : State) (cb : Word) (arg : CbArg) (n : Nat) : (s.logCall cb arg).fut n = s.fut n := rfl
@[simp] theorem State.bus_logCall (s : State) (cb : Word) (arg : CbArg) (n : Nat) : (s.logCall cb arg).bus n = s.bus n := rfl
@[simp] theorem State.chan_logCall (s : State) (cb : Word) (arg : CbArg) (n : Nat) : (s.logCall cb arg).chan n = s.chan n := rfl
@[simp] theorem State.lock_logCall (s : State) (cb : Word) (arg : CbArg) (n : Nat) : (s.logCall cb arg).lock n = s.lock n := rfl
@[simp] theorem State.extLock_logCall (s : State) (cb : Word) (arg : CbArg) (n : Nat) : (s.logCall cb arg).extLock n = s.extLock n := rfl
@[simp] theorem State.ses_logCall (s : State) (cb : Word) (arg : CbArg) (n : Nat) : (s.logCall cb arg).ses n = s.ses n := rfl
@[simp] theorem State.adp_logCall (s : State) (cb : Word) (arg : CbArg) (n : Nat) : (s.logCall cb arg).adp n = s.adp n := rfl
@[simp] theorem State.busCfg_logCall (s : State) (cb : Word) (arg : CbArg) (n : Nat) : (s.logCall cb arg).busCfg n = s.busCfg n := rfl
@[simp] theorem State.sesCfg_logCall (s : State) (cb : Word) (arg : CbArg) (n : Nat) : (s.logCall cb arg).sesCfg n = s.sesCfg n := rfl
@[simp] theorem State.adpCfg_logCall (s : State) (cb : Word) (arg : CbArg) (n : Nat) : (s.logCall cb arg).adpCfg n = s.adpCfg n := rfl
@[simp] theorem State.sesBus_logCall (s : State) (cb : Word) (arg : CbArg) (n : Nat) : (s.logCall cb arg).sesBus n = s.sesBus n := rfl
@[simp] theorem State.numBuses_logCall (s : State) (cb : Word) (arg : CbArg) : (s.logCall cb arg).numBuses = s.numBuses := rfl
@[simp] theorem State.desc_logCall (s : State) (cb : Word) (arg : CbArg) (q : Word) (n : Nat) : (s.logCall cb arg).desc q n = s.desc q n := rfl
@[simp] theorem State.busy_logCall (s : State) (cb : Word) (arg : CbArg) (n : Nat) : (s.logCall cb arg).busy n = s.busy n := rfl
@[simp] theorem State.callback_logCall (s : State) (cb : Word) (arg : CbArg) (n : Nat) : (s.logCall cb arg).callback n = s.callback n := rfl
@[simp] theorem State.answersOf_logCall (s : State) (cb : Word) (arg : CbArg) (n : Nat) : (s.logCall cb arg).answersOf n = s.answersOf n := rfl
@[simp] theorem State.wireOf_logCall (s : State) (cb : Word) (arg : CbArg) (n : Nat) : (s.logCall cb arg).wireOf n = s.wireOf n := rfl
@[simp] theorem State.opRec_logCall (s : State) (cb : Word) (arg : CbArg) (n : Nat) : (s.logCall cb arg).opRec n = s.opRec n := rfl

/-! ## setFaults -/

@[simp] theorem State.setFaults_cfg (s : State) (x : List (Agent × Fault)) : (s.setFaults x).cfg = s.cfg := rfl
@[simp] theorem State.setFaults_futs (s : State) (x : List (Agent × Fault)) : (s.setFaults x).futs = s.futs := rfl
@[simp] theorem State.setFaults_buses (s : State) (x : List (Agent × Fault)) : (s.setFaults x).buses = s.buses := rfl
@[simp] theorem State.setFaults_chans (s : State) (x : List (Agent × Fault)) : (s.setFaults x).chans = s.chans := rfl
@[simp] theorem State.setFaults_locks (s : State) (x : List (Agent × Fault)) : (s.setFaults x).locks = s.locks := rfl
@[simp] theorem State.setFaults_sess (s : State) (x : List (Agent × Fault)) : (s.setFaults x).sess = s.sess := rfl
@[simp] theorem State.setFaults_adps (s : State) (x : List (Agent × Fault)) : (s.setFaults x).adps = s.adps := rfl
@[simp] theorem State.setFaults_mem (s : State) (x : List (Agent × Fault)) : (s.setFaults x).mem = s.mem := rfl
@[simp] theorem State.setFaults_descs (s : State) (x : List (Agent × Fault)) : (s.setFaults x).descs = s.descs := rfl
@[simp] theorem State.setFaults_opRecs (s : State) (x : List (Agent × Fault)) : (s.setFaults x).opRecs = s.opRecs := rfl
@[simp] theorem State.setFaults_callbacks (s : State) (x : List (Agent × Fault)) : (s.setFaults x).callbacks = s.callbacks := rfl
@[simp] theorem State.setFaults_fg (s : State) (x : List (Agent × Fault)) : (s.setFaults x).fg = s.fg := rfl
@[simp] theorem State.setFaults_prog (s : State) (x : List (Agent × Fault)) : (s.setFaults x).prog = s.prog := rfl
@[simp] theorem State.setFaults_ret (s : State) (x : List (Agent × Fault)) : (s.setFaults x).ret = s.ret := rfl
@[simp] theorem State.setFaults_isrRet (s : State) (x : List (Agent × Fault)) : (s.setFaults x).isrRet = s.isrRet := rfl
@[simp] theorem State.setFaults_isr (s : State) (x : List (Agent × Fault)) : (s.setFaults x).isr = s.isr := rfl
@[simp] theorem State.setFaults_turns (s : State) (x : List (Agent × Fault)) : (s.setFaults x).turns = s.turns := rfl
@[simp] theorem State.setFaults_answers (s : State) (x : List (Agent × Fault)) : (s.setFaults x).answers = s.answers := rfl
@[simp] theorem State.setFaults_draws (s : State) (x : List (Agent × Fault)) : (s.setFaults x).draws = s.draws := rfl
@[simp] theorem State.setFaults_dirty (s : State) (x : List (Agent × Fault)) : (s.setFaults x).dirty = s.dirty := rfl
@[simp] theorem State.setFaults_ext (s : State) (x : List (Agent × Fault)) : (s.setFaults x).ext = s.ext := rfl
@[simp] theorem State.setFaults_wire (s : State) (x : List (Agent × Fault)) : (s.setFaults x).wire = s.wire := rfl
@[simp] theorem State.setFaults_calls (s : State) (x : List (Agent × Fault)) : (s.setFaults x).calls = s.calls := rfl
@[simp] theorem State.setFaults_hung (s : State) (x : List (Agent × Fault)) : (s.setFaults x).hung = s.hung := rfl
@[simp] theorem State.setFaults_faults (s : State) (x : List (Agent × Fault)) : (s.setFaults x).faults = x := rfl
@[simp] theorem State.fut_setFaults (s : State) (x : List (Agent × Fault)) (n : Nat) : (s.setFaults x).fut n = s.fut n := rfl
@[simp] theorem State.bus_setFaults (s : State) (x : List (Agent × Fault)) (n : Nat) : (s.setFaults x).bus n = s.bus n := rfl
@[simp] theorem State.chan_setFaults (s : State) (x : List (Agent × Fault)) (n : Nat) : (s.setFaults x).chan n = s.chan n := rfl
@[simp] theorem State.lock_setFaults (s : State) (x : List (Agent × Fault)) (n : Nat) : (s.setFaults x).lock n = s.lock n := rfl
@[simp] theorem State.extLock_setFaults (s : State) (x : List (Agent × Fault)) (n : Nat) : (s.setFaults x).extLock n = s.extLock n := rfl
@[simp] theorem State.ses_setFaults (s : State) (x : List (Agent × Fault)) (n : Nat) : (s.setFaults x).ses n = s.ses n := rfl
@[simp] theorem State.adp_setFaults (s : State) (x : List (Agent × Fault)) (n : Nat) : (s.setFaults x).adp n = s.adp n := rfl
@[simp] theorem State.busCfg_setFaults (s : State) (x : List (Agent × Fault)) (n : Nat) : (s.setFaults x).busCfg n = s.busCfg n := rfl
@[simp] theorem State.sesCfg_setFaults (s : State) (x : List (Agent × Fault)) (n : Nat) : (s.setFaults x).sesCfg n = s.sesCfg n := rfl
@[simp] theorem State.adpCfg_setFaults (s : State) (x : List (Agent × Fault)) (n : Nat) : (s.setFaults x).adpCfg n = s.adpCfg n := rfl
@[simp] theorem State.sesBus_setFaults (s : State) (x : List (Agent × Fault)) (n : Nat) : (s.setFaults x).sesBus n = s.sesBus n := rfl
@[simp] theorem State.numBuses_setFaults (s : State) (x : List (Agent × Fault)) : (s.setFaults x).numBuses = s.numBuses := rfl
@[simp] theorem State.desc_setFaults (s : State) (x : List (Agent × Fault)) (q : Word) (n : Nat) : (s.setFaults x).desc q n = s.desc q n := rfl
@[simp] theorem State.busy_setFaults (s : State) (x : List (Agent × Fault)) (n : Nat) : (s.setFaults x).busy n = s.busy n := rfl
@[simp] theorem State.callback_setFaults (s : State) (x : List (Agent × Fault)) (n : Nat) : (s.setFaults x).callback n = s.callback n := rfl
@[simp] theorem State.answersOf_setFaults (s : State) (x : List (Agent × Fault)) (n : Nat) : (s.setFaults x).answersOf n = s.answersOf n := rfl
@[simp] theorem State.wireOf_setFaults (s : State) (x : List (Agent × Fault)) (n : Nat) : (s.setFaults x).wireOf n = s.wireOf n := rfl
@[simp] theorem State.opRec_setFaults (s : State) (x : List (Agent × Fault)) (n : Nat) : (s.setFaults x).opRec n = s.opRec n := rfl

/-! ## setHung -/

@[simp] theorem State.setHung_cfg (s : State) (x : Bool) : (s.setHung x).cfg = s.cfg := rfl
@[simp] theorem State.setHung_futs (s : State) (x : Bool) : (s.setHung x).futs = s.futs := rfl
@[simp] theorem State.setHung_buses (s : State) (x : Bool) : (s.setHung x).buses = s.buses := rfl
@[simp] theorem State.setHung_chans (s : State) (x : Bool) : (s.setHung x).chans = s.chans := rfl
@[simp] theorem State.setHung_locks (s : State) (x : Bool) : (s.setHung x).locks = s.locks := rfl
@[simp] theorem State.setHung_sess (s : State) (x : Bool) : (s.setHung x).sess = s.sess := rfl
@[simp] theorem State.setHung_adps (s : State) (x : Bool) : (s.setHung x).adps = s.adps := rfl
@[simp] theorem State.setHung_mem (s : State) (x : Bool) : (s.setHung x).mem = s.mem := rfl
@[simp] theorem State.setHung_descs (s : State) (x : Bool) : (s.setHung x).descs = s.descs := rfl
@[simp] theorem State.setHung_opRecs (s : State) (x : Bool) : (s.setHung x).opRecs = s.opRecs := rfl
@[simp] theorem State.setHung_callbacks (s : State) (x : Bool) : (s.setHung x).callbacks = s.callbacks := rfl
@[simp] theorem State.setHung_fg (s : State) (x : Bool) : (s.setHung x).fg = s.fg := rfl
@[simp] theorem State.setHung_prog (s : State) (x : Bool) : (s.setHung x).prog = s.prog := rfl
@[simp] theorem State.setHung_ret (s : State) (x : Bool) : (s.setHung x).ret = s.ret := rfl
@[simp] theorem State.setHung_isrRet (s : State) (x : Bool) : (s.setHung x).isrRet = s.isrRet := rfl
@[simp] theorem State.setHung_isr (s : State) (x : Bool) : (s.setHung x).isr = s.isr := rfl
@[simp] theorem State.setHung_turns (s : State) (x : Bool) : (s.setHung x).turns = s.turns := rfl
@[simp] theorem State.setHung_answers (s : State) (x : Bool) : (s.setHung x).answers = s.answers := rfl
@[simp] theorem State.setHung_draws (s : State) (x : Bool) : (s.setHung x).draws = s.draws := rfl
@[simp] theorem State.setHung_dirty (s : State) (x : Bool) : (s.setHung x).dirty = s.dirty := rfl
@[simp] theorem State.setHung_ext (s : State) (x : Bool) : (s.setHung x).ext = s.ext := rfl
@[simp] theorem State.setHung_wire (s : State) (x : Bool) : (s.setHung x).wire = s.wire := rfl
@[simp] theorem State.setHung_calls (s : State) (x : Bool) : (s.setHung x).calls = s.calls := rfl
@[simp] theorem State.setHung_faults (s : State) (x : Bool) : (s.setHung x).faults = s.faults := rfl
@[simp] theorem State.setHung_hung (s : State) (x : Bool) : (s.setHung x).hung = x := rfl
@[simp] theorem State.fut_setHung (s : State) (x : Bool) (n : Nat) : (s.setHung x).fut n = s.fut n := rfl
@[simp] theorem State.bus_setHung (s : State) (x : Bool) (n : Nat) : (s.setHung x).bus n = s.bus n := rfl
@[simp] theorem State.chan_setHung (s : State) (x : Bool) (n : Nat) : (s.setHung x).chan n = s.chan n := rfl
@[simp] theorem State.lock_setHung (s : State) (x : Bool) (n : Nat) : (s.setHung x).lock n = s.lock n := rfl
@[simp] theorem State.extLock_setHung (s : State) (x : Bool) (n : Nat) : (s.setHung x).extLock n = s.extLock n := rfl
@[simp] theorem State.ses_setHung (s : State) (x : Bool) (n : Nat) : (s.setHung x).ses n = s.ses n := rfl
@[simp] theorem State.adp_setHung (s : State) (x : Bool) (n : Nat) : (s.setHung x).adp n = s.adp n := rfl
@[simp] theorem State.busCfg_setHung (s : State) (x : Bool) (n : Nat) : (s.setHung x).busCfg n = s.busCfg n := rfl
@[simp] theorem State.sesCfg_setHung (s : State) (x : Bool) (n : Nat) : (s.setHung x).sesCfg n = s.sesCfg n := rfl
@[simp] theorem State.adpCfg_setHung (s : State) (x : Bool) (n : Nat) : (s.setHung x).adpCfg n = s.adpCfg n := rfl
@[simp] theorem State.sesBus_setHung (s : State) (x : Bool) (n : Nat) : (s.setHung x).sesBus n = s.sesBus n := rfl
@[simp] theorem State.numBuses_setHung (s : State) (x : Bool) : (s.setHung x).numBuses = s.numBuses := rfl
@[simp] theorem State.desc_setHung (s : State) (x : Bool) (q : Word) (n : Nat) : (s.setHung x).desc q n = s.desc q n := rfl
@[simp] theorem State.busy_setHung (s : State) (x : Bool) (n : Nat) : (s.setHung x).busy n = s.busy n := rfl
@[simp] theorem State.callback_setHung (s : State) (x : Bool) (n : Nat) : (s.setHung x).callback n = s.callback n := rfl
@[simp] theorem State.answersOf_setHung (s : State) (x : Bool) (n : Nat) : (s.setHung x).answersOf n = s.answersOf n := rfl
@[simp] theorem State.wireOf_setHung (s : State) (x : Bool) (n : Nat) : (s.setHung x).wireOf n = s.wireOf n := rfl
@[simp] theorem State.opRec_setHung (s : State) (x : Bool) (n : Nat) : (s.setHung x).opRec n = s.opRec n := rfl

/-! ## setRet -/

@[simp] theorem State.setRet_cfg (s : State) (r : Result) : (s.setRet r).cfg = s.cfg := by
  unfold State.setRet; split <;> rfl
@[simp] theorem State.setRet_futs (s : State) (r : Result) : (s.setRet r).futs = s.futs := by
  unfold State.setRet; split <;> rfl
@[simp] theorem State.setRet_buses (s : State) (r : Result) : (s.setRet r).buses = s.buses := by
  unfold State.setRet; split <;> rfl
@[simp] theorem State.setRet_chans (s : State) (r : Result) : (s.setRet r).chans = s.chans := by
  unfold State.setRet; split <;> rfl
@[simp] theorem State.setRet_locks (s : State) (r : Result) : (s.setRet r).locks = s.locks := by
  unfold State.setRet; split <;> rfl
@[simp] theorem State.setRet_sess (s : State) (r : Result) : (s.setRet r).sess = s.sess := by
  unfold State.setRet; split <;> rfl
@[simp] theorem State.setRet_adps (s : State) (r : Result) : (s.setRet r).adps = s.adps := by
  unfold State.setRet; split <;> rfl
@[simp] theorem State.setRet_mem (s : State) (r : Result) : (s.setRet r).mem = s.mem := by
  unfold State.setRet; split <;> rfl
@[simp] theorem State.setRet_descs (s : State) (r : Result) : (s.setRet r).descs = s.descs := by
  unfold State.setRet; split <;> rfl
@[simp] theorem State.setRet_opRecs (s : State) (r : Result) : (s.setRet r).opRecs = s.opRecs := by
  unfold State.setRet; split <;> rfl
@[simp] theorem State.setRet_callbacks (s : State) (r : Result) : (s.setRet r).callbacks = s.callbacks := by
  unfold State.setRet; split <;> rfl
@[simp] theorem State.setRet_fg (s : State) (r : Result) : (s.setRet r).fg = s.fg := by
  unfold State.setRet; split <;> rfl
@[simp] theorem State.setRet_prog (s : State) (r : Result) : (s.setRet r).prog = s.prog := by
  unfold State.setRet; split <;> rfl
@[simp] theorem State.setRet_isr (s : State) (r : Result) : (s.setRet r).isr = s.isr := by
  unfold State.setRet; split <;> rfl
@[simp] theorem State.setRet_turns (s : State) (r : Result) : (s.setRet r).turns = s.turns := by
  unfold State.setRet; split <;> rfl
@[simp] theorem State.setRet_answers (s : State) (r : Result) : (s.setRet r).answers = s.answers := by
  unfold State.setRet; split <;> rfl
@[simp] theorem State.setRet_draws (s : State) (r : Result) : (s.setRet r).draws = s.draws := by
  unfold State.setRet; split <;> rfl
@[simp] theorem State.setRet_dirty (s : State) (r : Result) : (s.setRet r).dirty = s.dirty := by
  unfold State.setRet; split <;> rfl
@[simp] theorem State.setRet_ext (s : State) (r : Result) : (s.setRet r).ext = s.ext := by
  unfold State.setRet; split <;> rfl
@[simp] theorem State.setRet_wire (s : State) (r : Result) : (s.setRet r).wire = s.wire := by
  unfold State.setRet; split <;> rfl
@[simp] theorem State.setRet_calls (s : State) (r : Result) : (s.setRet r).calls = s.calls := by
  unfold State.setRet; split <;> rfl
@[simp] theorem State.setRet_faults (s : State) (r : Result) : (s.setRet r).faults = s.faults := by
  unfold State.setRet; split <;> rfl
@[simp] theorem State.setRet_hung (s : State) (r : Result) : (s.setRet r).hung = s.hung := by
  unfold State.setRet; split <;> rfl
@[simp] theorem State.fut_setRet (s : State) (r : Result) (n : Nat) : (s.setRet r).fut n = s.fut n := by
  unfold State.setRet; split <;> rfl
@[simp] theorem State.bus_setRet (s : State) (r : Result) (n : Nat) : (s.setRet r).bus n = s.bus n := by
  unfold State.setRet; split <;> rfl
@[simp] theorem State.chan_setRet (s : State) (r : Result) (n : Nat) : (s.setRet r).chan n = s.chan n := by
  unfold State.setRet; split <;> rfl
@[simp] theorem State.lock_setRet (s : State) (r : Result) (n : Nat) : (s.setRet r).lock n = s.lock n := by
  unfold State.setRet; split <;> rfl
@[simp] theorem State.extLock_setRet (s : State) (r : Result) (n : Nat) : (s.setRet r).extLock n = s.extLock n := by
  unfold State.setRet; split <;> rfl
@[simp] theorem State.ses_setRet (s : State) (r : Result) (n : Nat) : (s.setRet r).ses n = s.ses n := by
  unfold State.setRet; split <;> rfl
@[simp] theorem State.adp_setRet (s : State) (r : Result) (n : Nat) : (s.setRet r).adp n = s.adp n := by
  unfold State.setRet; split <;> rfl
@[simp] theorem State.busCfg_setRet (s : State) (r : Result) (n : Nat) : (s.setRet r).busCfg n = s.busCfg n := by
  unfold State.setRet; split <;> rfl
@[simp] theorem State.sesCfg_setRet (s : State) (r : Result) (n : Nat) : (s.setRet r).sesCfg n = s.sesCfg n := by
  unfold State.setRet; split <;> rfl
@[simp] theorem State.adpCfg_setRet (s : State) (r : Result) (n : Nat) : (s.setRet r).adpCfg n = s.adpCfg n := by
  unfold State.setRet; split <;> rfl
@[simp] theorem State.sesBus_setRet (s : State) (r : Result) (n : Nat) : (s.setRet r).sesBus n = s.sesBus n := by
  unfold State.setRet; split <;> rfl
@[simp] theorem State.busy_setRet (s : State) (r : Result) (n : Nat) : (s.setRet r).busy n = s.busy n := by
  unfold State.setRet; split <;> rfl
@[simp] theorem State.callback_setRet (s : State) (r : Result) (n : Nat) : (s.setRet r).callback n = s.callback n := by
  unfold State.setRet; split <;> rfl
@[simp] theorem State.opRec_setRet (s : State) (r : Result) (n : Nat) : (s.setRet r).opRec n = s.opRec n := by
  unfold State.setRet; split <;> rfl
@[simp] theorem State.answersOf_setRet (s : State) (r : Result) (n : Nat) : (s.setRet r).answersOf n = s.answersOf n := by
  unfold State.setRet; split <;> rfl
@[simp] theorem State.wireOf_setRet (s : State) (r : Result) (n : Nat) : (s.setRet r).wireOf n = s.wireOf n := by
  unfold State.setRet; split <;> rfl
@[simp] theorem State.desc_setRet (s : State) (r : Result) (p : Word) (n : Nat) : (s.setRet r).desc p n = s.desc p n := by
  unfold State.setRet; split <;> rfl
@[simp] theorem State.numBuses_setRet (s : State) (r : Result) : (s.setRet r).numBuses = s.numBuses := by
  unfold State.setRet; split <;> rfl
theorem State.setRet_ret (s : State) (r : Result) (h : s.isr = false) : (s.setRet r).ret = r := by
  simp [State.setRet, h]
theorem State.setRet_isrRet (s : State) (r : Result) (h : s.isr = true) : (s.setRet r).isrRet = r := by
  simp [State.setRet, h]

/-! ## The descriptor store -/

theorem descKey_inj {p q : Word} {i j : Nat} (hi : i < 2 ^ 32) (hj : j < 2 ^ 32) :
    descKey p i = descKey q j ↔ p = q ∧ i = j := by
  constructor
  · intro h
    unfold descKey at h
    exact ⟨BitVec.eq_of_toNat_eq (by omega), by omega⟩
  · rintro ⟨rfl, rfl⟩; rfl

theorem State.desc_setDesc (s : State) (p i : Word) (m : Msg) (q : Word) {j : Nat} (hj : j < 2 ^ 32) :
    (s.setDesc p i m).desc q j = if p = q ∧ i.toNat = j then m else s.desc q j := by
  simp only [State.desc, State.setDesc, Table.get_put, descKey_inj i.isLt hj]

@[simp] theorem State.desc_setDesc_self (s : State) (p i : Word) (m : Msg) :
    (s.setDesc p i m).desc p i.toNat = m := by
  simp [State.desc_setDesc s p i m p i.isLt]

@[simp] theorem State.answersOf_setAnswers_self (s : State) (b : Nat) (x : List Byte) :
    (s.setAnswers b x).answersOf b = x := by
  simp [State.answersOf_setAnswers]

@[simp] theorem State.wireOf_send_self (s : State) (b : Nat) (t : Byte) : (s.send b t).wireOf b = t :: s.wireOf b := by
  simp [State.wireOf_send]

@[simp] theorem State.callback_setCallback_self (s : State) (cb : Nat) (x : Callback) :
    (s.setCallback cb x).callback cb = x := by
  simp [State.callback_setCallback]

theorem State.descsFrom_congr {s t : State} {p : Word} (h : ∀ n, t.desc p n = s.desc p n) (i n : Nat) :
    t.descsFrom p i n = s.descsFrom p i n := by
  induction n generalizing i with
  | zero => rfl
  | succ n ih => simp only [State.descsFrom, h, ih]

theorem State.mem_descsFrom {s : State} {p : Word} {m : Msg} (i n : Nat) :
    m ∈ s.descsFrom p i n ↔ ∃ j, j < n ∧ m = s.desc p (i + j) := by
  induction n generalizing i with
  | zero => simp [State.descsFrom]
  | succ n ih =>
    simp only [State.descsFrom, List.mem_cons, ih]
    constructor
    · rintro (rfl | ⟨j, hj, rfl⟩)
      · exact ⟨0, by omega, rfl⟩
      · exact ⟨j + 1, by omega, by rw [Nat.add_right_comm, Nat.add_assoc]⟩
    · rintro ⟨j, hj, rfl⟩
      cases j with
      | zero => exact .inl rfl
      | succ j => exact .inr ⟨j, by omega, by rw [Nat.add_right_comm, Nat.add_assoc]⟩

theorem State.mem_descList {s : State} {p : Word} {m : Msg} (n : Nat) :
    m ∈ s.descList p n ↔ ∃ j, j < n ∧ m = s.desc p j := by
  simp [State.descList, State.mem_descsFrom]

end Sys2Proof.Machine
end

