-- ==== Sys2Proof/Laws/Ops.lean ====
section
/-! SUPPORT. What each shared operation of Machine/Ops.lean can do, said once: its effect on every record file it
writes, and that it leaves the others alone. -/

namespace Sys2Proof.Machine

/-! ## Guards -/

theorem withBus_eq {α : Type} {b : Nat} {s : State} (k : Res α) (hb : b < s.numBuses)
    (hi : (s.bus b).inited = true) : withBus b s k = k := by simp [withBus, hb, hi]

theorem withSession_eq {α : Type} {i : Nat} {s : State} (k : Res α) (hi : i < s.cfg.sessions.length) :
    withSession i s k = k := by simp [withSession, hi]

theorem withAdapter_eq {α : Type} {a : Nat} {s : State} (k : Res α) (ha : a < s.cfg.adapters.length) :
    withAdapter a s k = k := by simp [withAdapter, ha]

theorem withChannel_eq {α : Type} {c : Nat} {s : State} (k : Res α) (hc : c < s.cfg.numDmaCh) :
    withChannel c s k = k := by simp [withChannel, hc]

@[simp] theorem andThen_next {α β : Type} (a : α) (k : α → Res β) : andThen (.next a) k = k a := rfl
@[simp] theorem andThen_fault {α β : Type} (e : Fault) (k : α → Res β) : andThen (.fault e) k = .fault e := rfl
@[simp] theorem andThen_refused {α β : Type} (e : Refusal) (k : α → Res β) : andThen (.refused e) k = .refused e := rfl

/-! ## Memory -/

/-- A read after a write gives the byte written at its address and the old byte everywhere else. -/
theorem Memory.read_write (m : Memory) (a c : Word) (v : Byte) :
    (m.write a v).read c = if a = c then v else m.read c := by
  simp only [Memory.read, Memory.write, Table.get_put, BitVec.toNat_inj]

/-- A write keeps the canonical form. -/
theorem Memory.wf_write (m : Memory) (a : Word) (v : Byte) (h : m.wf = true) : (m.write a v).wf = true :=
  Table.wf_put _ _ _ _ h

@[simp] theorem State.storeByte_mem (s : State) (a : Word) (v : Byte) : (s.storeByte a v).mem = s.mem.write a v := rfl

theorem State.descsFrom_eq {s t : State} (h : t.descs = s.descs) (p : Word) (i n : Nat) :
    t.descsFrom p i n = s.descsFrom p i n := by
  induction n generalizing i with
  | zero => rfl
  | succ n ih => simp [State.descsFrom, State.desc, h, ih]

/-- Some descriptor of a list has a property exactly when one of its indices does. -/
theorem State.descsFrom_any (s : State) (p : Word) (q : Msg → Bool) (i n : Nat) :
    (s.descsFrom p i n).any q = true ↔ ∃ k, i ≤ k ∧ k < i + n ∧ q (s.desc p k) = true := by
  induction n generalizing i with
  | zero => simp [State.descsFrom]; omega
  | succ n ih =>
    simp only [State.descsFrom, List.any_cons, Bool.or_eq_true, ih]
    constructor
    · rintro (h | ⟨k, h1, h2, h3⟩)
      · exact ⟨i, by omega, by omega, h⟩
      · exact ⟨k, by omega, by omega, h3⟩
    · rintro ⟨k, h1, h2, h3⟩
      by_cases e : k = i
      · exact .inl (e ▸ h3)
      · exact .inr ⟨k, by omega, by omega, h3⟩

theorem State.descsFrom_drop (s : State) (p : Word) (d i n : Nat) :
    (s.descsFrom p i n).drop d = s.descsFrom p (i + d) (n - d) := by
  induction n generalizing i d with
  | zero => simp [State.descsFrom]
  | succ n ih =>
    cases d with
    | zero => simp
    | succ d => simp only [State.descsFrom, List.drop_succ_cons, ih]; congr 1 <;> omega

/-- What is in flight depends on the configuration, the buses and the descriptors alone. -/
theorem State.dstInFlight_eq {s t : State} (hc : t.cfg = s.cfg) (hb : t.buses = s.buses) (hd : t.descs = s.descs)
    (a : Word) : t.dstInFlight a = s.dstInFlight a := by
  simp [State.dstInFlight, State.dstInFlightOn, State.transfer, State.descList, State.descsFrom_eq hd, State.bus,
    State.numBuses, hc, hb]

theorem inDst_mono {a : Word} {l k : List Msg} (h : l ⊆ k) (ha : inDst a l = true) : inDst a k = true := by
  simp only [inDst, List.any_eq_true] at ha ⊢
  exact ha.imp fun m hm => ⟨h hm.1, hm.2⟩

/-- A destination byte still to arrive is one in flight. -/
theorem State.dstInFlightOn_of_pending {s : State} {b : Nat} {a : Word} (h : s.dstPendingOn b a = true) :
    s.dstInFlightOn b a = true := by
  simp only [State.dstPendingOn, State.dstInFlightOn, Bool.and_eq_true, Bool.or_eq_true] at h ⊢
  refine ⟨h.1, ?_⟩
  rcases h.2 with ⟨-, h⟩ | ⟨h, -⟩
  · exact inDst_mono (fun m hm => List.mem_of_mem_drop (List.mem_of_mem_take hm)) h
  · exact inDst_mono (fun m hm => List.mem_of_mem_drop hm) h

/-- A byte that no transfer is writing reads as stored, in every context. -/
theorem State.readOpen_of_free {s : State} {a : Word} (h : s.dstInFlight a = false) : s.readOpen a = false := by
  unfold State.readOpen; split
  · simp only [State.dstInFlight, List.any_eq_false] at h ⊢
    exact fun b hb hp => h b hb (State.dstInFlightOn_of_pending hp)
  · exact h

/-- Where no transfer is writing the byte, software's write leaves the byte written. -/
theorem State.leftByte_eq {s : State} {a : Word} (v : Byte) (h : s.dstInFlight a = false) : s.leftByte a v = (v, s) := by
  simp [State.leftByte, h]

/-- Software's write of one byte leaves a byte at its address and changes memory there, the record of writes in flight
and the counter of draws, nothing else. -/
theorem State.writeByte_eq (s : State) (a : Word) (v : Byte) :
    ∃ t w, (t = s ∨ t = s.bumpDraws) ∧ s.writeByte a v = (t.storeByte a w).setDirty (s.touched a ++ s.dirty) := by
  unfold State.writeByte State.leftByte; split
  · exact ⟨_, _, .inr rfl, rfl⟩
  · exact ⟨_, _, .inl rfl, rfl⟩

/-- Where no transfer is writing the byte, it is a plain store. -/
theorem State.writeByte_of_free {s : State} {a : Word} (v : Byte) (h : s.dstInFlight a = false) :
    s.writeByte a v = (s.storeByte a v).setDirty (s.touched a ++ s.dirty) := by
  simp [State.writeByte, State.leftByte_eq v h]

theorem State.writeByte_mem_of_ne (s : State) {a c : Word} (v : Byte) (h : a ≠ c) :
    (s.writeByte a v).mem.read c = s.mem.read c := by
  obtain ⟨t, w, rfl | rfl, e⟩ := s.writeByte_eq a v <;> simp [e, Memory.read_write, h]

theorem Memory.wf_writeByte (s : State) (a : Word) (v : Byte) (h : s.mem.wf = true) :
    (s.writeByte a v).mem.wf = true := by
  obtain ⟨t, w, rfl | rfl, e⟩ := s.writeByte_eq a v <;> simpa [e] using Memory.wf_write _ _ _ h

/-- Software's write of a byte moves no transfer. -/
@[simp] theorem State.writeByte_dstInFlight (s : State) (a c : Word) (v : Byte) :
    (s.writeByte a v).dstInFlight c = s.dstInFlight c := by
  obtain ⟨t, w, rfl | rfl, e⟩ := s.writeByte_eq a v <;> rw [e] <;>
    exact State.dstInFlight_eq (by rfl) (by rfl) (by rfl) c

theorem Memory.wf_writeBytes (l : List Byte) (a : Word) (s : State) (h : s.mem.wf = true) :
    (State.writeBytes a l s).mem.wf = true := by
  induction l generalizing a s with
  | nil => exact h
  | cons v l ih => exact ih _ _ (Memory.wf_writeByte _ _ _ h)

/-- A write of a list of bytes that does not reach address `c` leaves its byte alone. -/
theorem State.writeBytes_mem_of_not_covered (l : List Byte) (a c : Word) (s : State)
    (h : l.length ≤ (c - a).toNat) (hl : l.length < 2 ^ 32) :
    (State.writeBytes a l s).mem.read c = s.mem.read c := by
  induction l generalizing a s with
  | nil => rfl
  | cons v l ih =>
    simp only [List.length_cons] at h hl
    have h1 : (c - (a + 1)).toNat = (c - a).toNat - 1 := by bv_omega
    have h2 : a ≠ c := by intro e; subst e; simp at h
    simp only [State.writeBytes]
    rw [ih (a + 1) _ (by omega) (by omega), State.writeByte_mem_of_ne _ _ h2]

/-- The byte of a written list that address `c`, where no transfer is writing, reads as. -/
theorem State.writeBytes_mem_of_covered (l : List Byte) (a c : Word) (s : State)
    (h : (c - a).toNat < l.length) (hl : l.length < 2 ^ 32) (hc : s.dstInFlight c = false) :
    (State.writeBytes a l s).mem.read c = l.getD (c - a).toNat 0 := by
  induction l generalizing a s with
  | nil => simp at h
  | cons v l ih =>
    simp only [List.length_cons] at h hl
    simp only [State.writeBytes]
    by_cases e : a = c
    · subst e
      rw [State.writeBytes_mem_of_not_covered _ _ _ _ (by bv_omega) (by omega), State.writeByte_of_free v hc]
      simp [Memory.read_write]
    · have h1 : (c - a).toNat = (c - (a + 1)).toNat + 1 := by bv_omega
      rw [ih (a + 1) _ (by omega) (by omega) (by simpa using hc), h1]
      simp

/-- A write of a list of bytes none of which a transfer is writing takes no draw. -/
theorem State.writeBytes_draws (l : List Byte) (a : Word) (s : State)
    (h : ∀ i, i < l.length → s.dstInFlight (a + BitVec.ofNat 32 i) = false) :
    (State.writeBytes a l s).draws = s.draws := by
  induction l generalizing a s with
  | nil => rfl
  | cons v l ih =>
    have e : ∀ i, a + 1 + BitVec.ofNat 32 i = a + BitVec.ofNat 32 (i + 1) := by
      intro i; rw [BitVec.add_assoc, BitVec.ofNat_add, BitVec.add_comm (BitVec.ofNat 32 i)]; rfl
    have h0 := h 0 (by simp)
    simp only [BitVec.add_zero] at h0
    simp only [State.writeBytes]
    rw [ih (a + 1) _ fun i hi => by rw [State.writeByte_dstInFlight, e]; exact h (i + 1) (by simpa using hi),
      State.writeByte_of_free v h0]
    rfl

theorem State.backedRange_iff (s : State) (a : Word) (n : Nat) :
    s.backedRange a n = true ↔ ∀ i, i < n → s.backed (a + BitVec.ofNat 32 i) = true := by
  induction n with
  | zero => simp [State.backedRange]
  | succ n ih =>
    simp only [State.backedRange, Bool.and_eq_true, ih]
    constructor
    · rintro ⟨h1, h2⟩ i hi
      rcases Nat.lt_succ_iff_lt_or_eq.mp hi with h | h
      · exact h1 i h
      · exact h ▸ h2
    · exact fun h => ⟨fun i hi => h i (by omega), h n (by omega)⟩

theorem State.needBacked_eq {α : Type} {s : State} {a : Word} {n : Nat} (k : Res α)
    (h : ∀ i, i < n → s.backed (a + BitVec.ofNat 32 i) = true) : s.needBacked a n k = k := by
  simp [State.needBacked, (State.backedRange_iff s a n).mpr h]

/-- Where no read is open, software's read gives the bytes of memory and changes nothing. -/
theorem State.readBytes_eq (n : Nat) (a : Word) (s : State)
    (h : ∀ i, i < n → s.readOpen (a + BitVec.ofNat 32 i) = false) :
    State.readBytes n a s = ((List.range n).map (fun i => s.mem.read (a + BitVec.ofNat 32 i)), s) := by
  induction n generalizing a with
  | zero => rfl
  | succ n ih =>
    have h0 := h 0 (by omega)
    simp only [BitVec.add_zero] at h0
    have hr : s.readByte a = (s.mem.read a, s) := by simp [State.readByte, h0]
    have e : ∀ i, a + 1 + BitVec.ofNat 32 i = a + BitVec.ofNat 32 (i + 1) := by
      intro i; rw [BitVec.add_assoc, BitVec.ofNat_add, BitVec.add_comm (BitVec.ofNat 32 i)]; rfl
    have h' : ∀ i, i < n → s.readOpen (a + 1 + BitVec.ofNat 32 i) = false := fun i hi => by
      rw [e]; exact h (i + 1) (by omega)
    simp only [State.readBytes, hr, ih (a + 1) h', e, List.range_succ_eq_map, List.map_cons, List.map_map]
    simp [Function.comp_def]

/-- What a read of software finds open depends on the context, the configuration, the buses and the descriptors alone. -/
theorem State.readOpen_eq {s t : State} (hi : t.isr = s.isr) (hc : t.cfg = s.cfg) (hb : t.buses = s.buses)
    (hd : t.descs = s.descs) (a : Word) : t.readOpen a = s.readOpen a := by
  have h1 : ∀ b, t.bus b = s.bus b := fun b => by simp [State.bus, hb]
  have h2 : ∀ b, t.transfer b = s.transfer b := fun b => by
    simp [State.transfer, State.descList, State.descsFrom_eq hd, h1]
  have h3 : ∀ b, t.current b = s.current b := fun b => by simp [State.current, State.desc, hd, h1]
  simp only [State.readOpen, State.dstInFlight, State.dstInFlightOn, State.dstPendingOn, State.numBuses, hi, hc, h1, h2, h3]

/-- What software's read of bytes gives: those in memory where no read is open, with a draw for each that is. -/
theorem State.readBytes_spec (n : Nat) (a : Word) (s : State) :
    (State.readBytes n a s).1.length = n
      ∧ (∀ i, i < n → s.readOpen (a + BitVec.ofNat 32 i) = false →
        (State.readBytes n a s).1.getD i 0 = s.mem.read (a + BitVec.ofNat 32 i)) := by
  induction n generalizing a s with
  | zero => exact ⟨rfl, fun i hi => absurd hi (by omega)⟩
  | succ n ih =>
    have e : ∀ i, a + 1 + BitVec.ofNat 32 i = a + BitVec.ofNat 32 (i + 1) := by
      intro i; rw [BitVec.add_assoc, BitVec.ofNat_add, BitVec.add_comm (BitVec.ofNat 32 i)]; rfl
    have hs : (s.readByte a).2.mem = s.mem ∧ ∀ c, (s.readByte a).2.readOpen c = s.readOpen c := by
      unfold State.readByte; split
      · exact ⟨rfl, State.readOpen_eq (by rfl) (by rfl) (by rfl) (by rfl)⟩
      · exact ⟨rfl, fun _ => rfl⟩
    refine ⟨by simp [State.readBytes, (ih _ _).1], fun i hi ho => ?_⟩
    cases i with
    | zero =>
      simp only [BitVec.add_zero] at ho ⊢
      simp [State.readBytes, State.readByte, ho]
    | succ i =>
      rw [← e] at ho ⊢
      simpa [State.readBytes, hs.1] using (ih (a + 1) (s.readByte a).2).2 i (by omega) (by rw [hs.2]; exact ho)

/-- A list write that reaches a descriptor in flight faults. -/
theorem State.writeDescs_inFlight (p : Word) (ms : List Msg) (i : Word) (s : State) (hl : i.toNat + ms.length < 2 ^ 32)
    (h : ∃ k : Word, i.toNat ≤ k.toNat ∧ k.toNat < i.toNat + ms.length ∧ s.descInFlight p k = true) :
    State.writeDescs p i ms s = .fault .descriptorWrittenInFlight := by
  induction ms generalizing i s with
  | nil => obtain ⟨k, h1, h2, -⟩ := h; simp at h2; omega
  | cons m ms ih =>
    simp only [State.writeDescs, State.writeDesc]
    split
    · rfl
    · next hn =>
      obtain ⟨k, h1, h2, h3⟩ := h
      simp only [List.length_cons] at h2 hl
      have e : (i + 1).toNat = i.toNat + 1 := by bv_omega
      have hne : i.toNat ≠ k.toNat := fun q => hn (by rw [BitVec.eq_of_toNat_eq q]; exact h3)
      simp only [andThen_next]
      refine ih (i + 1) _ (by omega) ⟨k, by omega, by omega, ?_⟩
      exact h3

/-! ## Locks -/

/-- The lock table after the channels of `w` are taken on bus `b`. -/
def State.takeLocks (s : State) (b : Nat) (w : ChanSet) : State :=
  let s1 := if w.rx then s.setLock (s.busCfg b).rxCh true else s
  if w.tx then s1.setLock (s.busCfg b).txCh true else s1

/-- A successful acquisition found every needed channel free, and takes exactly those. -/
theorem acquire_some {b : Nat} {w : ChanSet} {s t : State} (h : acquire b w s = some t) :
    (w.rx = true → s.lock (s.busCfg b).rxCh = false) ∧ (w.tx = true → s.lock (s.busCfg b).txCh = false)
      ∧ (w.rx = true → w.tx = true → (s.busCfg b).rxCh ≠ (s.busCfg b).txCh) ∧ t = s.takeLocks b w := by
  obtain ⟨rx, tx⟩ := w
  unfold acquire tryLock at h
  cases rx <;> cases tx <;> simp only [Bool.false_eq_true, if_false, if_true, Option.bind_eq_some_iff] at h
  · simp_all [State.takeLocks]
  · obtain ⟨s1, h1, h2⟩ := h
    cases h1
    by_cases hl : s.lock (s.busCfg b).txCh = true <;> simp_all [State.takeLocks]
  · obtain ⟨s1, h1, h2⟩ := h
    by_cases hl : s.lock (s.busCfg b).rxCh = true <;> simp_all [State.takeLocks]
  · obtain ⟨s1, h1, h2⟩ := h
    by_cases hl : s.lock (s.busCfg b).rxCh = true
    · simp_all
    · simp only [hl, if_false, Option.some.injEq, Bool.false_eq_true] at h1
      subst h1
      by_cases e : (s.busCfg b).rxCh = (s.busCfg b).txCh
      · simp [e] at h2
      · by_cases hl2 : s.lock (s.busCfg b).txCh = true <;> simp_all [State.takeLocks, State.lock_setLock]

/-- An acquisition fails only where a needed channel is taken, or both needs are one channel. -/
theorem acquire_none {b : Nat} {w : ChanSet} {s : State} (h : acquire b w s = none) :
    w.rx = true ∧ s.lock (s.busCfg b).rxCh = true ∨ w.tx = true ∧ s.lock (s.busCfg b).txCh = true
      ∨ w.rx = true ∧ w.tx = true ∧ (s.busCfg b).rxCh = (s.busCfg b).txCh := by
  obtain ⟨rx, tx⟩ := w
  unfold acquire tryLock at h
  cases rx <;> cases tx <;> by_cases h1 : s.lock (s.busCfg b).rxCh = true <;>
    by_cases h2 : s.lock (s.busCfg b).txCh = true <;> by_cases e : (s.busCfg b).rxCh = (s.busCfg b).txCh <;>
    simp_all [State.lock_setLock]

theorem State.lock_takeLocks (s : State) (b : Nat) (w : ChanSet) (c : Nat) :
    (s.takeLocks b w).lock c
      = (s.lock c || (w.rx && c == (s.busCfg b).rxCh) || (w.tx && c == (s.busCfg b).txCh)) := by
  obtain ⟨rx, tx⟩ := w
  have e : ∀ d : Nat, (c == d) = decide (d = c) := fun d => by by_cases h : d = c <;> simp [h, @eq_comm _ c]
  cases rx <;> cases tx <;>
    by_cases h1 : (s.busCfg b).rxCh = c <;> by_cases h2 : (s.busCfg b).txCh = c <;>
    simp [State.takeLocks, State.lock_setLock, h1, h2, e]

@[simp] theorem State.numBuses_takeLocks (s : State) (b : Nat) (w : ChanSet) :
    (s.takeLocks b w).numBuses = s.numBuses := by
  unfold State.takeLocks; dsimp only; split <;> split <;> simp

@[simp] theorem State.bus_takeLocks (s : State) (b : Nat) (w : ChanSet) (n : Nat) :
    (s.takeLocks b w).bus n = s.bus n := by
  unfold State.takeLocks; dsimp only; split <;> split <;> simp

@[simp] theorem State.busCfg_takeLocks (s : State) (b : Nat) (w : ChanSet) (n : Nat) :
    (s.takeLocks b w).busCfg n = s.busCfg n := by
  unfold State.takeLocks; dsimp only; split <;> split <;> simp

@[simp] theorem State.cfg_takeLocks (s : State) (b : Nat) (w : ChanSet) : (s.takeLocks b w).cfg = s.cfg := by
  unfold State.takeLocks; dsimp only; split <;> split <;> simp

@[simp] theorem State.chan_takeLocks (s : State) (b : Nat) (w : ChanSet) (n : Nat) :
    (s.takeLocks b w).chan n = s.chan n := by
  unfold State.takeLocks; dsimp only; split <;> split <;> simp

@[simp] theorem State.desc_takeLocks (s : State) (b : Nat) (w : ChanSet) (p : Word) (n : Nat) :
    (s.takeLocks b w).desc p n = s.desc p n := by
  unfold State.takeLocks; dsimp only; split <;> split <;> simp

@[simp] theorem State.extLock_takeLocks (s : State) (b : Nat) (w : ChanSet) (n : Nat) :
    (s.takeLocks b w).extLock n = s.extLock n := by
  unfold State.takeLocks; dsimp only; split <;> split <;> simp

@[simp] theorem State.callback_takeLocks (s : State) (b : Nat) (w : ChanSet) (n : Nat) :
    (s.takeLocks b w).callback n = s.callback n := by
  unfold State.takeLocks; dsimp only; split <;> split <;> simp

/-! ## Arm -/

theorem State.bus_arm (s : State) (b : Nat) (m : Msg) (n : Nat) :
    (arm b m s).bus n =
      if b = n then
        { s.bus b with
          pos := 0, rxdmaen := (need (s.busCfg b).mode m.dir).rx, txdmaen := (need (s.busCfg b).mode m.dir).tx }
      else s.bus n := by
  simp [arm, State.bus_setBus]

theorem State.chan_arm (s : State) (b : Nat) (m : Msg) (hd : (s.busCfg b).rxCh ≠ (s.busCfg b).txCh) (c : Nat) :
    (arm b m s).chan c =
      if c = (s.busCfg b).rxCh then
        (if (need (s.busCfg b).mode m.dir).rx then armRx m (s.chan c) else { s.chan c with en := false })
      else if c = (s.busCfg b).txCh then
        (if (need (s.busCfg b).mode m.dir).tx then armTx m (s.chan c) else { s.chan c with en := false })
      else s.chan c := by
  by_cases h1 : c = (s.busCfg b).rxCh
  · subst h1; simp [arm, State.chan_setChan, hd, Ne.symm hd]
  · by_cases h2 : c = (s.busCfg b).txCh
    · subst h2; simp [arm, State.chan_setChan, hd, Ne.symm hd]
    · simp [arm, State.chan_setChan, h1, h2, Ne.symm h1, Ne.symm h2]

@[simp] theorem State.cfg_arm (s : State) (b : Nat) (m : Msg) : (arm b m s).cfg = s.cfg := rfl
@[simp] theorem State.numBuses_arm (s : State) (b : Nat) (m : Msg) : (arm b m s).numBuses = s.numBuses := rfl
@[simp] theorem State.busCfg_arm (s : State) (b : Nat) (m : Msg) (n : Nat) : (arm b m s).busCfg n = s.busCfg n := rfl
@[simp] theorem State.lock_arm (s : State) (b : Nat) (m : Msg) (n : Nat) : (arm b m s).lock n = s.lock n := rfl
@[simp] theorem State.extLock_arm (s : State) (b : Nat) (m : Msg) (n : Nat) : (arm b m s).extLock n = s.extLock n := rfl
@[simp] theorem State.callback_arm (s : State) (b : Nat) (m : Msg) (n : Nat) :
    (arm b m s).callback n = s.callback n := rfl
@[simp] theorem State.desc_arm (s : State) (b : Nat) (m : Msg) (p : Word) (n : Nat) :
    (arm b m s).desc p n = s.desc p n := rfl

/-! ## BUS.XFER -/

/-- The state of an accepted BUS.XFER. -/
def State.startedXfer (s : State) (b : Nat) (p n : Word) : State :=
  let want := needAll (s.busCfg b).mode (s.descList p n.toNat)
  let s1 := s.takeLocks b want
  arm b (s.desc p 0) ((s1.setBus b ((s1.bus b).started p n want (s.desc p 0).dir)).cleanDirty b)

/-- BUS.XFER either refuses and changes nothing, or found the bus idle, the list valid and every needed channel free,
and starts the transfer. -/
theorem startXfer_cases (b : Nat) (p n : Word) (s : State) :
    (∃ c, c ≠ .noError ∧ startXfer b p n s = (c, s))
      ∨ (p ≠ 0 ∧ n ≠ 0 ∧ s.busy b = false
        ∧ (∀ i, i < n.toNat → Msg.valid (s.desc p i) (s.busCfg b).mode = true)
        ∧ ((needAll (s.busCfg b).mode (s.descList p n.toNat)).rx = true → s.lock (s.busCfg b).rxCh = false)
        ∧ ((needAll (s.busCfg b).mode (s.descList p n.toNat)).tx = true → s.lock (s.busCfg b).txCh = false)
        ∧ startXfer b p n s = (.noError, s.startedXfer b p n)) := by
  unfold startXfer
  by_cases hp : p = 0
  · exact .inl ⟨_, by simp, if_pos hp⟩
  by_cases hn : n = 0
  · exact .inl ⟨.invalidValue, by simp, by rw [if_neg hp, if_pos hn]⟩
  by_cases hb : s.busy b = true
  · exact .inl ⟨.busy, by simp, by rw [if_neg hp, if_neg hn, if_pos hb]⟩
  by_cases hv : ((s.descList p n.toNat).all fun m => Msg.valid m (s.busCfg b).mode) = true
  · simp only [hp, hn, hb, hv, if_false, Bool.not_true, Bool.false_eq_true]
    cases ha : acquire b (needAll (s.busCfg b).mode (s.descList p n.toNat)) s with
    | none => exact .inl ⟨.busy, by simp, rfl⟩
    | some t =>
      obtain ⟨h1, h2, -, rfl⟩ := acquire_some ha
      refine .inr ⟨hp, hn, by simp, ?_, h1, h2, rfl⟩
      intro i hi
      simp only [List.all_eq_true] at hv
      exact hv _ ((State.mem_descList _).mpr ⟨i, hi, rfl⟩)
  · exact .inl ⟨.invalidValue, by simp, by rw [if_neg hp, if_neg hn, if_neg hb, if_pos (by simp [hv])]⟩

theorem State.bus_startedXfer (s : State) (b : Nat) (p n : Word) (k : Nat) :
    (s.startedXfer b p n).bus k =
      if b = k then
        { s.bus b with
          heldRx := (needAll (s.busCfg b).mode (s.descList p n.toNat)).rx
          heldTx := (needAll (s.busCfg b).mode (s.descList p n.toNat)).tx
          messages := p, count := n, index := 0, errors := 0, status := .transferring
          phase := phaseOfDir (s.desc p 0).dir, errie := true, pos := 0
          rxdmaen := (need (s.busCfg b).mode (s.desc p 0).dir).rx
          txdmaen := (need (s.busCfg b).mode (s.desc p 0).dir).tx }
      else s.bus k := by
  unfold State.startedXfer State.cleanDirty
  dsimp only
  rw [State.bus_arm]
  by_cases h : b = k <;> simp [h, State.bus_setBus, Bus.started]

@[simp] theorem State.numBuses_startedXfer (s : State) (b : Nat) (p n : Word) :
    (s.startedXfer b p n).numBuses = s.numBuses := by simp [State.startedXfer, State.cleanDirty]

@[simp] theorem State.busCfg_startedXfer (s : State) (b : Nat) (p n : Word) (k : Nat) :
    (s.startedXfer b p n).busCfg k = s.busCfg k := by simp [State.startedXfer, State.cleanDirty]

@[simp] theorem State.cfg_startedXfer (s : State) (b : Nat) (p n : Word) : (s.startedXfer b p n).cfg = s.cfg := by
  simp [State.startedXfer, State.cleanDirty]

theorem State.lock_startedXfer (s : State) (b : Nat) (p n : Word) (c : Nat) :
    (s.startedXfer b p n).lock c =
      (s.lock c || ((needAll (s.busCfg b).mode (s.descList p n.toNat)).rx && c == (s.busCfg b).rxCh)
        || ((needAll (s.busCfg b).mode (s.descList p n.toNat)).tx && c == (s.busCfg b).txCh)) := by
  simp [State.startedXfer, State.cleanDirty, State.lock_takeLocks]

@[simp] theorem State.desc_startedXfer (s : State) (b : Nat) (p n q : Word) (k : Nat) :
    (s.startedXfer b p n).desc q k = s.desc q k := by simp [State.startedXfer, State.cleanDirty]

@[simp] theorem State.extLock_startedXfer (s : State) (b : Nat) (p n : Word) (k : Nat) :
    (s.startedXfer b p n).extLock k = s.extLock k := by simp [State.startedXfer, State.cleanDirty]

@[simp] theorem State.callback_startedXfer (s : State) (b : Nat) (p n : Word) (k : Nat) :
    (s.startedXfer b p n).callback k = s.callback k := by simp [State.startedXfer, State.cleanDirty]

/-! ## BUS.INIT -/

theorem State.bus_initBus (s : State) (b n : Nat) :
    (initBus b s).bus n = if b = n then Bus.afterInit else s.bus n := by
  simp [initBus, State.bus_setBus]

theorem State.chan_initBus (s : State) (b c : Nat) :
    (initBus b s).chan c =
      if c = (s.busCfg b).rxCh ∨ c = (s.busCfg b).txCh then (s.chan c).initialised else s.chan c := by
  by_cases h1 : (s.busCfg b).rxCh = c <;> by_cases h2 : (s.busCfg b).txCh = c <;>
    simp [initBus, State.chan_setChan, Chan.initialised, h1, h2, @eq_comm _ c]

/-! ## Disarm and release -/

/-- The state of a bus's registers, channels and locks after a terminal transition, before its callback. -/
def State.ended (s : State) (b : Nat) (st : Status) (e : BitVec 4) : State :=
  let t := releaseHeld b (disarm b s)
  t.setBus b { t.bus b with phase := .idle, status := st, errors := e }

theorem State.bus_ended (s : State) (b : Nat) (st : Status) (e : BitVec 4) (n : Nat) :
    (s.ended b st e).bus n =
      if b = n then
        { s.bus b with
          heldRx := false, heldTx := false, phase := .idle, status := st, errors := e, errie := false,
          rxdmaen := false, txdmaen := false }
      else s.bus n := by
  unfold State.ended releaseHeld disarm
  by_cases h : b = n
  · subst h
    dsimp only
    split <;> split <;> simp
  · dsimp only
    split <;> split <;> simp [h, State.bus_setBus]

theorem State.chan_ended (s : State) (b : Nat) (st : Status) (e : BitVec 4) (c : Nat) :
    (s.ended b st e).chan c =
      if c = (s.busCfg b).rxCh ∨ c = (s.busCfg b).txCh then (s.chan c).disarmed else s.chan c := by
  unfold State.ended releaseHeld disarm
  by_cases h1 : (s.busCfg b).rxCh = c <;> by_cases h2 : (s.busCfg b).txCh = c <;> dsimp only <;>
    split <;> split <;> simp [State.chan_setChan, Chan.disarmed, h1, h2, @eq_comm _ c]

theorem State.lock_ended (s : State) (b : Nat) (st : Status) (e : BitVec 4) (c : Nat) :
    (s.ended b st e).lock c =
      if (s.bus b).heldRx = true ∧ c = (s.busCfg b).rxCh ∨ (s.bus b).heldTx = true ∧ c = (s.busCfg b).txCh then false
      else s.lock c := by
  unfold State.ended releaseHeld disarm
  by_cases h1 : (s.busCfg b).rxCh = c <;> by_cases h2 : (s.busCfg b).txCh = c <;>
    cases h3 : (s.bus b).heldRx <;> cases h4 : (s.bus b).heldTx <;>
    simp [State.lock_setLock, h1, h2, h3, h4, @eq_comm _ c]

@[simp] theorem State.cfg_ended (s : State) (b : Nat) (st : Status) (e : BitVec 4) :
    (s.ended b st e).cfg = s.cfg := by
  unfold State.ended releaseHeld disarm; dsimp only; split <;> split <;> simp

@[simp] theorem State.numBuses_ended (s : State) (b : Nat) (st : Status) (e : BitVec 4) :
    (s.ended b st e).numBuses = s.numBuses := by
  unfold State.ended releaseHeld disarm; dsimp only; split <;> split <;> simp

@[simp] theorem State.busCfg_ended (s : State) (b : Nat) (st : Status) (e : BitVec 4) (n : Nat) :
    (s.ended b st e).busCfg n = s.busCfg n := by
  unfold State.ended releaseHeld disarm; dsimp only; split <;> split <;> simp

@[simp] theorem State.desc_ended (s : State) (b : Nat) (st : Status) (e : BitVec 4) (p : Word) (n : Nat) :
    (s.ended b st e).desc p n = s.desc p n := by
  unfold State.ended releaseHeld disarm; dsimp only; split <;> split <;> simp

@[simp] theorem State.extLock_ended (s : State) (b : Nat) (st : Status) (e : BitVec 4) (n : Nat) :
    (s.ended b st e).extLock n = s.extLock n := by
  unfold State.ended releaseHeld disarm; dsimp only; split <;> split <;> simp

@[simp] theorem State.callback_ended (s : State) (b : Nat) (st : Status) (e : BitVec 4) (n : Nat) :
    (s.ended b st e).callback n = s.callback n := by
  unfold State.ended releaseHeld disarm; dsimp only; split <;> split <;> simp

end Sys2Proof.Machine
end

