-- ==== Sys2Proof/Laws/Stable.lean ====
section
/-! SUPPORT. What a step can do, said once: a property of states that every single update of the machine keeps is kept
by every step (`step_sat`). -/

namespace Sys2Proof.Machine

/-- Property `P` holds of the state. -/
def Sat (P : State → Prop) (s : State) : Prop := P s

/-- Property `Q` holds of the value if the outcome is a next one. -/
def Post {α : Type} (Q : α → Prop) (r : Res α) : Prop := ∀ a, r = .next a → Q a

/-- Bus record `y` agrees with `x` in the registers a transfer is made of. -/
def sameTransfer (x y : Bus) : Prop :=
  y.phase = x.phase ∧ y.status = x.status ∧ y.messages = x.messages ∧ y.count = x.count ∧ y.index = x.index
    ∧ y.heldRx = x.heldRx ∧ y.heldTx = x.heldTx ∧ y.inited = x.inited

/-- A property that the updates of every operation but the handlers keep. -/
structure OpStable (P : State → Prop) : Prop where
  futInit : ∀ s f, P s → P (initFuture f s)
  futStart : ∀ s f, P s → P (startFuture f s)
  futFinish : ∀ s f r, P s → P (finishFuture f r s)
  futResult : ∀ s f r, P s → P (setFutureResult f r s)
  bus : ∀ s b v, sameTransfer (s.bus b) v → P s → P (s.setBus b v)
  init : ∀ s b, b < s.numBuses → ((s.bus b).inited = false ∨ s.busy b = false) → P s → P (initBus b s)
  xfer : ∀ s b p n, b < s.numBuses → (s.bus b).inited = true → P s → P (startXfer b p n s).2
  lockTake : ∀ s c, s.lock c = false → P s → P (s.setLock c true)
  lockFree : ∀ s c, s.heldByBus c = false → P s → P ((s.setLock c false).setExt c false)
  ses : ∀ s i v, P s → P (s.setSes i v)
  adp : ∀ s a v, P s → P (s.setAdp a v)
  fgWait : ∀ s x, s.isr = false → P s → P (s.setFg x)
  ret : ∀ s r, P s → P (s.setRet r)
  draws : ∀ s, P s → P s.bumpDraws
  dirty : ∀ s x, P s → P (s.setDirty x)
  answers : ∀ s b x, P s → P (s.setAnswers b x)
  tape : ∀ s cb acts rest, s.callback cb = .tape (acts :: rest) → P s → P (s.setCallback cb (.tape rest))
  opRec : ∀ s op r, P s → P (s.setOpRec op r)
  desc : ∀ s p i m, s.descInFlight p i = false → P s → P (s.setDesc p i m)
  mem : ∀ s a v, P s → P (s.storeByte a v)
  send : ∀ s b t, P s → P (s.send b t)
  call : ∀ s cb arg, P s → P (s.logCall cb arg)

/-- A property that the updates of a handler keep. -/
structure HandlerStable (P : State → Prop) : Prop extends OpStable P where
  anyBus : ∀ s b v, P s → P (s.setBus b v)
  chan : ∀ s c v, P s → P (s.setChan c v)
  anyLock : ∀ s c v, P s → P (s.setLock c v)
  enter : ∀ s, P s → P (s.setIsr true)
  leave : ∀ s t, P s → P t → P (t.setIsr s.isr)

/-- A property that every single update of the machine keeps. -/
structure Stable (P : State → Prop) : Prop extends HandlerStable P where
  ext : ∀ s c v, P s → P (s.setExt c v)
  fg : ∀ s x, P s → P (s.setFg x)
  prog : ∀ s x, P s → P (s.setProg x)
  turns : ∀ s x, P s → P (s.setTurns x)
  keep : ∀ s a e, P s → P (s.setFaults (s.faults ++ [(a, e)]))
  hang : ∀ s, P s → P (s.setHung true)

variable {P : State → Prop}

/-! ## Outcomes -/

@[simp] theorem post_next {α : Type} (Q : α → Prop) (a : α) : Post Q (.next a) ↔ Q a :=
  ⟨fun h => h a rfl, fun h _ hb => by cases hb; exact h⟩

@[simp] theorem post_fault {α : Type} (Q : α → Prop) (e : Fault) : Post Q (.fault e) := fun _ h => by cases h

@[simp] theorem post_refused {α : Type} (Q : α → Prop) (e : Refusal) : Post Q (.refused e) := fun _ h => by cases h

theorem post_andThen {α β : Type} {Q : α → Prop} {R : β → Prop} {r : Res α} {k : α → Res β} (hr : Post Q r)
    (hk : ∀ a, Q a → Post R (k a)) : Post R (andThen r k) := by
  cases r with
  | next a => exact hk a (hr a rfl)
  | fault e => exact post_fault _ _
  | refused e => exact post_refused _ _

theorem post_withBus_of {α : Type} {Q : α → Prop} {b : Nat} {s : State} {k : Res α}
    (hk : b < s.numBuses → (s.bus b).inited = true → Post Q k) : Post Q (withBus b s k) := by
  unfold withBus; split
  · next hb =>
    split
    · next hi => exact hk hb hi
    · exact post_fault _ _
  · exact post_refused _ _

theorem post_withBus {α : Type} {Q : α → Prop} {b : Nat} {s : State} {k : Res α} (hk : Post Q k) :
    Post Q (withBus b s k) := post_withBus_of fun _ _ => hk

theorem post_withSession {α : Type} {Q : α → Prop} {i : Nat} {s : State} {k : Res α} (hk : Post Q k) :
    Post Q (withSession i s k) := by
  unfold withSession; split
  · exact hk
  · exact post_refused _ _

theorem post_withAdapter {α : Type} {Q : α → Prop} {a : Nat} {s : State} {k : Res α} (hk : Post Q k) :
    Post Q (withAdapter a s k) := by
  unfold withAdapter; split
  · exact hk
  · exact post_refused _ _

theorem post_withChannel {α : Type} {Q : α → Prop} {c : Nat} {s : State} {k : Res α} (hk : Post Q k) :
    Post Q (withChannel c s k) := by
  unfold withChannel; split
  · exact hk
  · exact post_refused _ _

theorem post_needBacked {α : Type} {Q : α → Prop} {s : State} {a : Word} {n : Nat} {k : Res α} (hk : Post Q k) :
    Post Q (s.needBacked a n k) := by
  unfold State.needBacked; split
  · exact hk
  · exact post_fault _ _

theorem post_withCard {α : Type} {Q : α → Prop} {i : Nat} {s : State} {k : Res α} (hk : Post Q k) :
    Post Q (withCard i s k) := post_withSession (post_withBus hk)

theorem post_withSdSession {α : Type} {Q : α → Prop} {i : Nat} {s : State} {k : Res α} (hk : Post Q k) :
    Post Q (withSdSession i s k) := by
  unfold withSdSession
  refine post_withSession ?_
  split
  · exact post_fault _ _
  · exact post_withBus hk

theorem post_withSdBus {α : Type} {Q : α → Prop} {i : Nat} {s : State} {k : Res α} (hk : Post Q k) :
    Post Q (withSdBus i s k) := by
  unfold withSdBus; split
  · exact post_fault _ _
  · exact hk

/-! ## Single updates -/

section
variable (h : OpStable P) {s : State} (hs : Sat P s)
include h hs

@[simp] theorem sat_futInit (f : Nat) : Sat P (initFuture f s) := h.futInit s f hs
@[simp] theorem sat_futStart (f : Nat) : Sat P (startFuture f s) := h.futStart s f hs
@[simp] theorem sat_futFinish (f : Nat) (r : Word) : Sat P (finishFuture f r s) := h.futFinish s f r hs
@[simp] theorem sat_futResult (f : Nat) (r : Word) : Sat P (setFutureResult f r s) := h.futResult s f r hs
theorem sat_bus (b : Nat) (v : Bus) (hv : sameTransfer (s.bus b) v) : Sat P (s.setBus b v) := h.bus s b v hv hs
@[simp] theorem sat_ses (i : Nat) (v : Session) : Sat P (s.setSes i v) := h.ses s i v hs
@[simp] theorem sat_adp (a : Nat) (v : Adapter) : Sat P (s.setAdp a v) := h.adp s a v hs
@[simp] theorem sat_draws : Sat P s.bumpDraws := h.draws s hs
@[simp] theorem sat_dirty (x : List (Nat × Nat)) : Sat P (s.setDirty x) := h.dirty s x hs
@[simp] theorem sat_answers (b : Nat) (x : List Byte) : Sat P (s.setAnswers b x) := h.answers s b x hs
@[simp] theorem sat_opRec (op : Nat) (r : OpRec) : Sat P (s.setOpRec op r) := h.opRec s op r hs
@[simp] theorem sat_mem (a : Word) (v : Byte) : Sat P (s.storeByte a v) := h.mem s a v hs
@[simp] theorem sat_send (b : Nat) (t : Byte) : Sat P (s.send b t) := h.send s b t hs
@[simp] theorem sat_call (cb : Word) (arg : CbArg) : Sat P (s.logCall cb arg) := h.call s cb arg hs
@[simp] theorem sat_setRet (r : Result) : Sat P (s.setRet r) := h.ret s r hs

@[simp] theorem sat_drawByte : Sat P s.drawByte.2 := sat_draws h hs
@[simp] theorem sat_drawWord : Sat P s.drawWord.2 := sat_draws h hs

@[simp] theorem sat_takeAnswer (b : Nat) : Sat P (s.takeAnswer b).2 := by
  unfold State.takeAnswer; split <;> simp [*]

@[simp] theorem sat_takeActs (cb : Word) : Sat P (s.takeActs cb).2 := by
  unfold State.takeActs; split
  · exact hs
  · exact hs
  · next hc => exact h.tape s _ _ _ hc hs

/-! ## Memory and descriptors -/

@[simp] theorem sat_writeByte (a : Word) (v : Byte) : Sat P (s.writeByte a v) := by
  obtain ⟨t, w, rfl | rfl, e⟩ := s.writeByte_eq a v <;> rw [e]
  · exact sat_dirty h (sat_mem h hs _ _) _
  · exact sat_dirty h (sat_mem h (sat_draws h hs) _ _) _

@[simp] theorem sat_readByte (a : Word) : Sat P (s.readByte a).2 := by
  unfold State.readByte; split <;> simp [*]

theorem post_writeDesc (p i : Word) (m : Msg) : Post (Sat P) (s.writeDesc p i m) := by
  unfold State.writeDesc; split
  · simp
  · next hi => exact (post_next _ _).mpr (h.desc s p i m (by simpa using hi) hs)

theorem post_hostAccess (x : Access) : Post (Sat P) (hostAccess x s) := by
  cases x with
  | store a v => exact post_needBacked (by simp [*])
  | load a => exact post_needBacked (by simp [*])
  | desc p i m => exact post_writeDesc h hs _ _ _
  | opRec op r => simp [hostAccess, *]

/-! ## The bus engine -/

@[simp] theorem sat_setTransferId (b : Nat) (id : Byte) : Sat P (setTransferId b id s).2 := by
  unfold setTransferId; split
  · exact hs
  · exact sat_bus h hs _ _ ⟨rfl, rfl, rfl, rfl, rfl, rfl, rfl, rfl⟩

@[simp] theorem sat_setSpeed (b : Nat) (sp : Speed) : Sat P (setSpeed b sp s).2 := by
  unfold setSpeed; split
  · exact hs
  · exact sat_bus h hs _ _ ⟨rfl, rfl, rfl, rfl, rfl, rfl, rfl, rfl⟩

@[simp] theorem sat_setTxDefault (b : Nat) (v : Byte) : Sat P (setTxDefault b v s) :=
  sat_bus h hs _ _ ⟨rfl, rfl, rfl, rfl, rfl, rfl, rfl, rfl⟩

@[simp] theorem sat_exchange (b : Nat) (t : Byte) : Sat P (exchange b t s).2 := sat_takeAnswer h (sat_send h hs _ _) _

@[simp] theorem sat_xmit (b : Nat) (t : Byte) : Sat P (xmit b t s).2.2 := by
  unfold xmit; split <;> simp [*]

end

/-! ## Lists of bytes -/

theorem sat_writeBytes (h : OpStable P) (l : List Byte) (a : Word) {s : State} (hs : Sat P s) :
    Sat P (State.writeBytes a l s) := by
  induction l generalizing a s with
  | nil => exact hs
  | cons v l ih => exact ih _ (sat_writeByte h hs _ _)

theorem sat_readBytes (h : OpStable P) (n : Nat) (a : Word) {s : State} (hs : Sat P s) :
    Sat P (State.readBytes n a s).2 := by
  induction n generalizing a s with
  | zero => exact hs
  | succ n ih => exact ih _ (sat_readByte h hs _)

theorem post_writeDescs (h : OpStable P) (p : Word) (ms : List Msg) (i : Word) {s : State} (hs : Sat P s) :
    Post (Sat P) (State.writeDescs p i ms s) := by
  induction ms generalizing i s with
  | nil => simpa [State.writeDescs] using hs
  | cons m ms ih => exact post_andThen (post_writeDesc h hs _ _ _) (fun t ht => ih _ ht)

/-! ## Operations that take one step -/

section
variable (h : OpStable P) {s : State} (hs : Sat P s)
include h hs

theorem sat_startXfer {b : Nat} (p n : Word) (hb : b < s.numBuses) (hi : (s.bus b).inited = true) :
    Sat P (startXfer b p n s).2 := h.xfer s b p n hb hi hs

theorem post_waitFuture (f : Nat) (k : Finish) : Post (Sat P) (waitFuture f k s) := by
  unfold waitFuture
  split
  · split
    · simp
    · next hr => exact (post_next _ _).mpr (h.fgWait s _ (by simpa using hr) hs)
  · simp [*]

theorem post_execBusInit (b : Word) : Post (Sat P) (execBusInit b s) := by
  unfold execBusInit
  split
  · next hb =>
    split
    · simp
    · next hi =>
      refine (post_next _ _).mpr (sat_setRet h (h.init s _ hb ?_ hs) _)
      simp only [Bool.and_eq_true, not_and, Bool.not_eq_true] at hi
      by_cases hin : (s.bus b.toNat).inited = true
      · exact .inr (hi hin)
      · exact .inl (by simpa using hin)
  · simp

theorem post_execBusXfer (b p n : Word) : Post (Sat P) (execBusXfer b p n s) :=
  post_withBus_of fun hb hi => (post_next _ _).mpr (sat_setRet h (sat_startXfer h hs p n hb hi) _)

theorem post_execBusXmit (b : Word) (t : Byte) (ra : Word) : Post (Sat P) (execBusXmit b t ra s) := by
  refine post_withBus ?_
  split
  · simp [*]
  · dsimp only
    split
    · simp [*]
    · exact post_needBacked (by simpa using sat_setRet h (sat_writeByte h (sat_exchange h hs _ _) _ _) _)

theorem post_execBusWait (b : Word) : Post (Sat P) (execBusWait b s) := by
  refine post_withBus ?_
  split
  · split
    · simp
    · next hr => exact (post_next _ _).mpr (h.fgWait s _ (by simpa using hr) hs)
  · simp [*]

theorem post_execDmaTryLock (c : Word) : Post (Sat P) (execDmaTryLock c s) := by
  refine post_withChannel ?_
  unfold tryLock
  by_cases hl : s.lock c.toNat = true
  · simp [*]
  · simp only [hl, if_false, Bool.false_eq_true, post_next]
    exact sat_setRet h (h.lockTake s _ (by simpa using hl) hs) _

theorem post_execDmaUnlock (c : Word) : Post (Sat P) (execDmaUnlock c s) := by
  refine post_withChannel ?_
  split
  · simp
  · next hh => exact (post_next _ _).mpr (sat_setRet h (h.lockFree s _ (by simpa using hh) hs) _)

theorem post_readOp (addr n : Word) (g : List Byte → Result) :
    Post (Sat P) (s.needBacked addr n.toNat
      (.next ((State.readBytes n.toNat addr s).2.setRet (g (State.readBytes n.toNat addr s).1)))) :=
  post_needBacked (by simpa using sat_setRet h (sat_readBytes h _ _ hs) _)

theorem post_copyRegister (reg : BitVec 128) (ini : Bool) (dst : Word) :
    Post (Sat P) (copyRegister reg ini dst s) := by
  unfold copyRegister
  split
  · simp [*]
  split
  · simp [*]
  · exact post_needBacked (by simpa using sat_setRet h (sat_writeBytes h _ _ hs) _)

@[simp] theorem sat_setAdapterCs (a : Nat) (v : Bool) : Sat P (setAdapterCs a v s) := by simp [setAdapterCs, *]

theorem sat_beginXfer (a n : Nat) (hb : (s.adpCfg a).bus < s.numBuses)
    (hi : (s.bus (s.adpCfg a).bus).inited = true) : Sat P (beginXfer a n s).2 := by
  unfold beginXfer
  dsimp only
  split
  · exact sat_startXfer h hs _ _ hb hi
  · exact sat_futFinish h (sat_setAdapterCs h (sat_startXfer h hs _ _ hb hi) _ _) _ _

end

/-- A property of the configuration and of one bus that the operations keep beside `P`. -/
theorem OpStable.andBus (h : OpStable P) (c : Config) (k : Nat) (R : Bus → Prop)
    (hsame : ∀ x y, sameTransfer x y → R x → R y)
    (hinit : ∀ x, (x.inited = false ∨ x.phase = .idle) → R x → R Bus.afterInit)
    (hxfer : ∀ x y : Bus, x.phase = .idle → x.inited = true → y.inited = true → R x → R y) :
    OpStable (fun t => P t ∧ t.cfg = c ∧ R (t.bus k)) where
  futInit s f hs := ⟨h.futInit s f hs.1, hs.2⟩
  futStart s f hs := ⟨h.futStart s f hs.1, hs.2⟩
  futFinish s f r hs := ⟨h.futFinish s f r hs.1, hs.2⟩
  futResult s f r hs := ⟨h.futResult s f r hs.1, hs.2⟩
  bus s b v hv hs := by
    refine ⟨h.bus s b v hv hs.1, hs.2.1, ?_⟩
    rw [State.bus_setBus]
    split
    · next e => subst e; exact hsame _ _ hv hs.2.2
    · exact hs.2.2
  init s b hb hi hs := by
    refine ⟨h.init s b hb hi hs.1, hs.2.1, ?_⟩
    rw [State.bus_initBus]
    split
    · next e =>
      subst e
      exact hinit _ (hi.imp_right (by simp [State.busy])) hs.2.2
    · exact hs.2.2
  xfer s b p n hb hi hs := by
    refine ⟨h.xfer s b p n hb hi hs.1, ?_⟩
    rcases startXfer_cases b p n s with ⟨c', -, e⟩ | ⟨-, -, hidle, -, -, -, e⟩
    · rw [e]; exact hs.2
    · rw [e]
      refine ⟨by simpa using hs.2.1, ?_⟩
      rw [State.bus_startedXfer]
      split
      · next e' =>
        subst e'
        exact hxfer _ _ (by simpa [State.busy] using hidle) hi hi hs.2.2
      · exact hs.2.2
  lockTake s c hl hs := ⟨h.lockTake s c hl hs.1, hs.2⟩
  lockFree s c hl hs := ⟨h.lockFree s c hl hs.1, hs.2⟩
  ses s i v hs := ⟨h.ses s i v hs.1, hs.2⟩
  adp s a v hs := ⟨h.adp s a v hs.1, hs.2⟩
  fgWait s x hr hs := ⟨h.fgWait s x hr hs.1, hs.2⟩
  ret s r hs := ⟨h.ret s r hs.1, by simpa using hs.2⟩
  draws s hs := ⟨h.draws s hs.1, hs.2⟩
  dirty s x hs := ⟨h.dirty s x hs.1, hs.2⟩
  answers s b x hs := ⟨h.answers s b x hs.1, hs.2⟩
  tape s cb acts rest hc hs := ⟨h.tape s cb acts rest hc hs.1, hs.2⟩
  opRec s op r hs := ⟨h.opRec s op r hs.1, hs.2⟩
  desc s p i m hi hs := ⟨h.desc s p i m hi hs.1, hs.2⟩
  mem s a v hs := ⟨h.mem s a v hs.1, hs.2⟩
  send s b t hs := ⟨h.send s b t hs.1, hs.2⟩
  call s cb arg hs := ⟨h.call s cb arg hs.1, hs.2⟩

/-- An initialised bus stays one. -/
theorem OpStable.ready (h : OpStable P) (c : Config) (k : Nat) :
    OpStable (fun t => P t ∧ t.cfg = c ∧ (t.bus k).inited = true) :=
  h.andBus c k (fun x => x.inited = true) (fun _ _ hv hx => by rw [hv.2.2.2.2.2.2.2]; exact hx) (fun _ _ _ => rfl)
    (fun _ _ _ _ hy _ => hy)

/-- A bus in a transfer keeps the registers its transfer is made of. -/
theorem OpStable.track (h : OpStable P) (c : Config) (k : Nat) (x : Bus) (hx : x.phase ≠ .idle)
    (hi : x.inited = true) : OpStable (fun t => P t ∧ t.cfg = c ∧ sameTransfer x (t.bus k)) :=
  h.andBus c k (sameTransfer x)
    (fun y z hyz hxy => by
      obtain ⟨a1, a2, a3, a4, a5, a6, a7, a8⟩ := hxy
      obtain ⟨b1, b2, b3, b4, b5, b6, b7, b8⟩ := hyz
      exact ⟨b1.trans a1, b2.trans a2, b3.trans a3, b4.trans a4, b5.trans a5, b6.trans a6, b7.trans a7, b8.trans a8⟩)
    (fun y hy hxy => by
      obtain ⟨a1, -, -, -, -, -, -, a8⟩ := hxy
      rcases hy with hy | hy
      · rw [a8, hi] at hy; cases hy
      · exact absurd (a1.symm.trans hy) hx)
    (fun y z hy _ _ hxy => absurd (hxy.1.symm.trans hy) hx)

section
variable (h : OpStable P) {s : State} (hs : Sat P s)
include h hs

theorem post_beginWrites (a : Nat) (ms : List Msg) (scratch : List Byte) (hb : (s.adpCfg a).bus < s.numBuses)
    (hi : (s.bus (s.adpCfg a).bus).inited = true) : Post (fun r => Sat P r.2) (beginWrites a ms scratch s) := by
  have h' := h.ready s.cfg (s.adpCfg a).bus
  have hs' : Sat (fun t => P t ∧ t.cfg = s.cfg ∧ (t.bus (s.adpCfg a).bus).inited = true) s := ⟨hs, rfl, hi⟩
  refine post_needBacked (post_andThen (post_writeDescs h' _ _ _ (sat_writeBytes h' _ _ hs')) ?_)
  intro t ht
  have h3 := sat_futStart h' (sat_futResult h' (sat_setAdapterCs h' (sat_setTransferId h' ht
    (s.adpCfg a).bus (s.adpCfg a).id) a true) (s.adpCfg a).fut (codeWord .noError)) (s.adpCfg a).fut
  obtain ⟨hp, hc, hin⟩ := h3
  refine (post_next _ _).mpr ?_
  generalize startFuture _ _ = u at hp hc hin ⊢
  have e : u.adpCfg a = s.adpCfg a := by simp only [State.adpCfg, hc]
  exact sat_beginXfer h hp _ _ (by rw [e]; simpa only [State.numBuses, hc] using hb) (by rw [e]; exact hin)

theorem post_beginOp (a op : Nat) : Post (fun r => Sat P r.2) (beginOp a op s) := by
  refine post_withAdapter ?_
  split
  · simp
  split
  · simp [*]
  · unfold beginBuilt
    dsimp only
    split
    · simp [*]
    · refine post_withBus_of fun hb hi => ?_
      split
      · simp [*]
      split
      · simp [*]
      split
      · simp
      · exact post_beginWrites h hs _ _ _ hb hi

theorem post_execAdpBegin (a op : Word) : Post (Sat P) (execAdpBegin a op s) :=
  post_andThen (post_beginOp h hs _ _) (fun r hr => by simp [*])

theorem post_execAdpSync (a op : Word) : Post (Sat P) (execAdpSync a op s) := by
  refine post_andThen (post_beginOp h hs _ _) (fun r hr => ?_)
  split
  · exact post_waitFuture h hr _ _
  · simp [*]

@[simp] theorem sat_completeOp (a : Nat) : Sat P (completeOp a s).2 := by
  unfold completeOp
  dsimp only
  split <;> simp [*]

end

theorem sat_dispatch (h : OpStable P) (l : List Nat) {s : State} (hs : Sat P s) : Sat P (dispatch l s) := by
  induction l generalizing s with
  | nil => exact hs
  | cons a l ih =>
    unfold dispatch
    dsimp only
    split
    · exact sat_completeOp h hs _
    · exact ih (sat_completeOp h hs _)

/-! ## Callbacks and handlers -/

/-- An operation that a callback issues keeps what its updates keep. -/
theorem post_callOp (h : OpStable P) (i : Instr) {s : State} (hs : Sat P s) : Post (Sat P) (callOp i s) := by
  cases i with
  | futInit f => simp [callOp, execFutInit, *]
  | futStart f => simp [callOp, execFutStart, *]
  | futFinish f r => simp [callOp, execFutFinish, *]
  | futRunning f => simp [callOp, execFutRunning, *]
  | futDone f => simp [callOp, execFutDone, *]
  | futResult f => simp [callOp, execFutResult, *]
  | futWait f => exact post_waitFuture h hs _ _
  | futSetResult f r => simp [callOp, execFutSetResult, *]
  | busInit b => exact post_execBusInit h hs _
  | busSetId b id => exact post_withBus (by simp [*])
  | busId b => exact post_withBus (by simp [*])
  | busXfer b p n => exact post_execBusXfer h hs _ _ _
  | busXmit b t ra => exact post_execBusXmit h hs _ _ _
  | busWait b => exact post_execBusWait h hs _
  | busStatus b => exact post_withBus (by simp [*])
  | busErrors b => exact post_withBus (by simp [*])
  | busBusy b => exact post_withBus (by simp [*])
  | busSetCb b cb =>
    refine post_withBus ((post_next _ _).mpr (sat_setRet h (sat_bus h hs _ _ ?_) _))
    exact ⟨rfl, rfl, rfl, rfl, rfl, rfl, rfl, rfl⟩
  | busSetTxDef b v => exact post_withBus (by simp [*])
  | busSetSpeed b sp => exact post_withBus (by simp [*])
  | irqSpi b => exact post_withBus (by simp [*])
  | irqDmaRx b => exact post_withBus (by simp [*])
  | irqDmaTx b => exact post_withBus (by simp [*])
  | dmaTryLock c => exact post_execDmaTryLock h hs _
  | dmaUnlock c => exact post_execDmaUnlock h hs _
  | sdSectors x => exact post_withCard (by simp [*])
  | sdType x => exact post_withCard (by simp [*])
  | sdInited x => exact post_withCard (by simp [*])
  | sdBlkLen x => exact post_withCard (by simp [*])
  | sdEraseSz x => exact post_withCard (by simp [*])
  | sdCid x dst => exact post_withCard (post_copyRegister h hs _ _ _)
  | sdCsd x dst => exact post_withCard (post_copyRegister h hs _ _ _)
  | sdCrcEn x => exact post_withCard (by simp [*])
  | sdiCrc7 a n => exact post_readOp h hs a n (fun l => .value ((crc7 l).setWidth 32))
  | sdiCrc16 a n => exact post_readOp h hs a n (fun l => .value ((crc16 l).setWidth 32))
  | sdiFrame x arg => simp [callOp, execSdiFrame, *]
  | sdiDecode r1 r2 ai => simp [callOp, execSdiDecode, *]
  | sdiErrTok t => simp [callOp, execSdiErrTok, *]
  | adpBegin a op => exact post_execAdpBegin h hs _ _
  | adpSync a op => exact post_execAdpSync h hs _ _
  | adpComplete a => exact post_withAdapter (post_withBus (by simp [*]))
  | adpDispatch b => exact post_withBus (by simpa using sat_setRet h (sat_dispatch h _ hs) _)
  | _ => exact post_withSession (by simp)

theorem post_runActs (h : OpStable P) (acts : List Act) {s : State} (hs : Sat P s) :
    Post (Sat P) (runActs acts s) := by
  induction acts generalizing s with
  | nil => simpa [runActs] using hs
  | cons x acts ih =>
    cases x with
    | op i => exact post_andThen (post_callOp h i hs) (fun t ht => ih ht)
    | access x => exact post_andThen (post_hostAccess h hs _) (fun t ht => ih ht)
    | hang => exact post_fault _ _

/-- An invocation keeps what the operations keep. -/
theorem post_invoke (h : OpStable P) (cb : Word) (arg : CbArg) {s : State} (hs : Sat P s) :
    Post (Sat P) (invoke cb arg s) := by
  unfold invoke
  split
  · simpa using hs
  · exact post_runActs h _ (by simp [*])

section
variable (h : HandlerStable P) {s : State} (hs : Sat P s)
include h

theorem sat_disarm (b : Nat) (hs : Sat P s) : Sat P (disarm b s) :=
  h.anyBus _ _ _ (h.chan _ _ _ (h.chan _ _ _ hs))

theorem sat_arm (b : Nat) (m : Msg) (hs : Sat P s) : Sat P (arm b m s) :=
  h.chan _ _ _ (h.chan _ _ _ (h.anyBus _ _ _ hs))

theorem sat_releaseHeld (b : Nat) (hs : Sat P s) : Sat P (releaseHeld b s) := by
  unfold releaseHeld
  dsimp only
  apply h.anyBus
  split
  · apply h.anyLock
    split
    · exact h.anyLock _ _ _ hs
    · exact hs
  · split
    · exact h.anyLock _ _ _ hs
    · exact hs

include hs

theorem post_terminalSuccess (b : Nat) : Post (Sat P) (terminalSuccess b s) :=
  post_invoke h.toOpStable _ _ (h.anyBus _ _ _ (sat_releaseHeld h _ (sat_disarm h _ hs)))

theorem post_terminalError (b : Nat) (e : BitVec 4) : Post (Sat P) (terminalError b e s) :=
  post_invoke h.toOpStable _ _ (h.anyBus _ _ _ (sat_releaseHeld h _ (sat_disarm h _ hs)))

theorem post_messageDone (b : Nat) : Post (Sat P) (messageDone b s) := by
  unfold messageDone
  dsimp only
  split
  · refine post_andThen (post_invoke h.toOpStable _ _ hs) (fun t ht => ?_)
    exact (post_next _ _).mpr (sat_arm h _ _ (h.anyBus _ _ _ ht))
  · refine post_andThen (Q := Sat P) ?_ (fun t ht => post_terminalSuccess h ht _)
    split
    · exact post_invoke h.toOpStable _ _ hs
    · exact (post_next _ _).mpr hs

theorem post_spiHandler (b : Nat) : Post (Sat P) (spiHandler b s) := by
  unfold spiHandler
  dsimp only
  split
  · exact (post_next _ _).mpr hs
  split
  · exact (post_next _ _).mpr (h.anyBus _ _ _ (h.anyBus _ _ _ hs))
  · exact post_terminalError h (h.anyBus _ _ _ hs) _ _

theorem post_dmaHandler (b c : Nat) (mine : Phase → Bool) : Post (Sat P) (dmaHandler b c mine s) := by
  unfold dmaHandler
  dsimp only
  split
  · split
    · exact (post_next _ _).mpr (h.anyBus _ _ _ (h.chan _ _ _ hs))
    · exact post_terminalError h (h.chan _ _ _ hs) _ _
  split
  · split
    · exact post_messageDone h (h.chan _ _ _ hs) _
    · exact (post_next _ _).mpr (h.chan _ _ _ hs)
  · exact (post_next _ _).mpr hs

end

theorem post_takeInterrupt (he : ∀ s, P s → P (s.setIsr true)) (hl : ∀ s t, P s → P t → P (t.setIsr s.isr))
    {body : State → Res State} (hb : ∀ s, Sat P s → Post (Sat P) (body s)) {s : State} (hs : Sat P s) :
    Post (Sat P) (takeInterrupt body s) :=
  post_andThen (hb _ (he s hs)) (fun t ht => (post_next _ _).mpr (hl s t hs ht))

theorem post_handlerOp (h : OpStable P) {body : Nat → State → Res State}
    (hb : ∀ b s, b < s.numBuses → Sat P s → Post (Sat P) (takeInterrupt (body b) s)) (b : Word) {s : State}
    (hs : Sat P s) : Post (Sat P) (handlerOp body b s) :=
  post_withBus_of fun hlt _ => post_andThen (hb _ _ hlt hs) (fun t ht => by simp [*])

/-- A handler's step keeps what its updates keep. -/
theorem post_irq (h : HandlerStable P) (b : Nat) {s : State} (hs : Sat P s) :
    Post (Sat P) (takeInterrupt (spiHandler b) s) ∧ Post (Sat P) (takeInterrupt (rxHandler b) s)
      ∧ Post (Sat P) (takeInterrupt (txHandler b) s) :=
  ⟨post_takeInterrupt h.enter h.leave (fun _ hs => post_spiHandler h hs b) hs,
    post_takeInterrupt h.enter h.leave (fun _ hs => post_dmaHandler h hs b _ _) hs,
    post_takeInterrupt h.enter h.leave (fun _ hs => post_dmaHandler h hs b _ _) hs⟩

end Sys2Proof.Machine
end

