-- ==== Sys2Proof/Laws/StableStep.lean ====
section
/-! SUPPORT. `Stable` through the procedures of the SD engine, FG's steps and the whole machine: `step_sat`. -/

set_option linter.unusedSectionVars false

namespace Sys2Proof.Machine

variable {P : State → Prop}

/-- A property that every step of the machine keeps, with what a handler does taken as one update. -/
structure StepStable (P : State → Prop) : Prop extends OpStable P where
  chan : ∀ s c v, P s → P (s.setChan c v)
  fg : ∀ s x, P s → P (s.setFg x)
  prog : ∀ s x, P s → P (s.setProg x)
  turns : ∀ s x, P s → P (s.setTurns x)
  keep : ∀ s a e, P s → P (s.setFaults (s.faults ++ [(a, e)]))
  hang : ∀ s, P s → P (s.setHung true)
  extTake : ∀ s c, s.lock c = false → P s → P ((s.setLock c true).setExt c true)
  extFree : ∀ s c, s.extLock c = true → P s → P ((s.setLock c false).setExt c false)
  irq : ∀ s b, b < s.numBuses → Sat P s →
    Post (Sat P) (takeInterrupt (spiHandler b) s)
      ∧ Post (Sat P) (takeInterrupt (rxHandler b) s)
      ∧ Post (Sat P) (takeInterrupt (txHandler b) s)

theorem Stable.toStepStable (h : Stable P) : StepStable P where
  toOpStable := h.toOpStable
  chan := h.chan
  fg := h.fg
  prog := h.prog
  turns := h.turns
  keep := h.keep
  hang := h.hang
  extTake _ _ _ hs := h.ext _ _ _ (h.anyLock _ _ _ hs)
  extFree _ _ _ hs := h.ext _ _ _ (h.anyLock _ _ _ hs)
  irq _ b _ hs := post_irq h.toHandlerStable b hs

/-- Property `P` holds of the state a procedure has got to. -/
def FlowSat (P : State → Prop) : Flow → Prop
  | .ret _ s => Sat P s
  | .wait _ _ s => Sat P s

/-- Property `P` holds of the state a callback has got to. -/
def ScriptSat (P : State → Prop) : Script → Prop
  | .done s => Sat P s
  | .stay _ _ s => Sat P s

@[simp] theorem flowSat_ret (v : Ret) (s : State) : FlowSat P (.ret v s) ↔ Sat P s := Iff.rfl
@[simp] theorem flowSat_wait (p : Pending) (k : List Frame) (s : State) : FlowSat P (.wait p k s) ↔ Sat P s := Iff.rfl
@[simp] theorem scriptSat_done (s : State) : ScriptSat P (.done s) ↔ Sat P s := Iff.rfl
@[simp] theorem scriptSat_stay (p : Pending) (l : List Act) (s : State) : ScriptSat P (.stay p l s) ↔ Sat P s := Iff.rfl

theorem flowSat_of_ret {v : Ret} {t : State} (hf : Post (FlowSat P) (.next (.ret v t))) : Sat P t := hf _ rfl
theorem flowSat_of_wait {p : Pending} {k : List Frame} {t : State}
    (hf : Post (FlowSat P) (.next (.wait p k t))) : Sat P t := hf _ rfl

theorem post_fgScript (h : OpStable P) (acts : List Act) {s : State} (hs : Sat P s) :
    Post (ScriptSat P) (fgScript acts s) := by
  induction acts generalizing s with
  | nil => simpa [fgScript] using hs
  | cons x acts ih =>
    cases x with
    | op i =>
      unfold fgScript
      split
      · simpa using hs
      · exact post_andThen (post_callOp h _ hs) (fun t ht => ih ht)
    | access x => exact post_andThen (post_hostAccess h hs _) (fun t ht => ih ht)
    | hang => simpa [fgScript] using hs

theorem post_fgInvoke (h : OpStable P) (cb arg : Word) (k : List Frame) {next : State → Res Flow}
    (hn : ∀ t, Sat P t → Post (FlowSat P) (next t)) {s : State} (hs : Sat P s) :
    Post (FlowSat P) (fgInvoke cb arg k next s) := by
  unfold fgInvoke
  split
  · exact hn _ hs
  · refine post_andThen (post_fgScript h _ (sat_takeActs h (sat_call h hs _ _) _)) (fun x hx => ?_)
    cases x with
    | done t => exact hn _ hx
    | stay p rest t => simpa using hx

theorem post_resumeScript (h : OpStable P) (rest : List Act) (v : Ret) {s : State} (hs : Sat P s) :
    Post (FlowSat P) (resumeScript rest v s) := by
  refine post_andThen (post_fgScript h _ hs) (fun x hx => ?_)
  cases x with
  | done t => simpa using hx
  | stay p rest t => simpa using hx

section
variable (h : OpStable P) {s : State} (hs : Sat P s)
include h hs

@[simp] theorem post_askByte (i : Nat) (t : Byte) (k : List Frame) : Post (FlowSat P) (askByte i t k s) := by
  simp [askByte, *]

@[simp] theorem post_endWith (c : Code) : Post (FlowSat P) (endWith c s) := by simp [endWith, *]

@[simp] theorem post_endFreeReply (c : Code) : Post (FlowSat P) (endFreeReply c s) := by
  simp only [endFreeReply, post_next, flowSat_ret]
  exact sat_drawWord h (sat_drawByte h hs)

@[simp] theorem post_endFreeByte (c : Code) : Post (FlowSat P) (endFreeByte c s) := by
  simp [endFreeByte, *]

theorem post_openWindow (i : Nat) (arg : Word) (k : List Frame) {next : State → Res Flow}
    (hn : ∀ t, Sat P t → Post (FlowSat P) (next t)) : Post (FlowSat P) (openWindow i arg k next s) :=
  post_fgInvoke h _ _ _ hn (sat_ses h hs _ _)

theorem post_closeWindow (i : Nat) (v : Ret) (k : List Frame) {next : Ret → State → Res Flow}
    (hn : ∀ t, Sat P t → Post (FlowSat P) (next v t)) : Post (FlowSat P) (closeWindow i v k next s) :=
  post_fgInvoke h _ _ _ (fun _ ht => hn _ (sat_ses h ht _ _)) hs

@[simp] theorem post_closeAndEnd (i : Nat) (c : Code) : Post (FlowSat P) (closeAndEnd i c s) :=
  post_closeWindow h hs _ _ _ (fun _ ht => by simpa using ht)

@[simp] theorem post_startR1Poll (i : Nat) (k : List Frame) : Post (FlowSat P) (startR1Poll i k s) :=
  post_askByte h hs _ _ _

@[simp] theorem post_startCmd (i : Nat) (x : BitVec 6) (arg : Word) (sh : Shape) (ai : Bool) (k : List Frame) :
    Post (FlowSat P) (startCmd i x arg sh ai k s) :=
  post_askByte h hs _ _ _

@[simp] theorem post_busyLoop (i : Nat) (k : List Frame) : Post (FlowSat P) (busyLoop i k s) := post_askByte h hs _ _ _

@[simp] theorem post_tokenLoop (i : Nat) (k : List Frame) : Post (FlowSat P) (tokenLoop i k s) :=
  post_askByte h hs _ _ _

end

section
variable (h : OpStable P) {s : State} (hs : Sat P s)
include h hs

@[simp] theorem post_startBusyWait (i : Nat) (k : List Frame) : Post (FlowSat P) (startBusyWait i k s) :=
  post_openWindow h hs _ _ _ (fun _ ht => post_busyLoop h ht _ _)

@[simp] theorem post_startWaitToken (i : Nat) (k : List Frame) : Post (FlowSat P) (startWaitToken i k s) :=
  post_openWindow h hs _ _ _ (fun _ ht => post_tokenLoop h ht _ _)

@[simp] theorem post_startRdBlk (i : Nat) (dst n : Word) (check : Bool) (k : List Frame) :
    Post (FlowSat P) (startRdBlk i dst n check k s) := post_startWaitToken h hs _ _

@[simp] theorem post_startWrBlk (i : Nat) (src : Word) (token : Byte) (k : List Frame) :
    Post (FlowSat P) (startWrBlk i src token k s) := post_askByte h hs _ _ _

@[simp] theorem post_startStopR (i : Nat) (k : List Frame) : Post (FlowSat P) (startStopR i k s) :=
  post_startCmd h hs _ _ _ _ _ _

@[simp] theorem post_startStopW (i : Nat) (k : List Frame) : Post (FlowSat P) (startStopW i k s) :=
  post_askByte h hs _ _ _

@[simp] theorem post_startRdReg (i : Nat) (x : BitVec 6) (dst : Word) (k : List Frame) :
    Post (FlowSat P) (startRdReg i x dst k s) := post_startCmd h hs _ _ _ _ _ _

@[simp] theorem sat_setSdCs (i : Nat) (v : Bool) : Sat P (setSdCs i v s) := sat_ses h hs _ _

theorem post_checkBlock (crcbuf dst n : Word) : Post (FlowSat P) (checkBlock crcbuf dst n s) :=
  post_needBacked (post_needBacked
    (post_endWith h (sat_readByte h (sat_readByte h (sat_readBytes h _ _ hs) _) _) _))

theorem post_assignType (i : Nat) (t : CardType) : Post (FlowSat P) (assignType i t s) :=
  post_startRdReg h (sat_ses h hs _ _) _ _ _ _

theorem post_resumeV2End (i : Nat) (v : Ret) : Post (FlowSat P) (resumeV2End i v s) := by
  unfold resumeV2End; split <;> simp [*]

theorem post_exitV2 (i : Nat) (c : Code) : Post (FlowSat P) (exitV2 i c s) :=
  post_closeWindow h hs _ _ _ (fun _ ht => post_resumeV2End h ht _ _)

theorem post_resumeV1End (i : Nat) (t : CardType) (v : Ret) : Post (FlowSat P) (resumeV1End i t v s) := by
  unfold resumeV1End; split
  · simp [*]
  · exact post_assignType h hs _ _

theorem post_exitV1 (i : Nat) (t : CardType) (c : Code) : Post (FlowSat P) (exitV1 i t c s) :=
  post_closeWindow h hs _ _ _ (fun _ ht => post_resumeV1End h ht _ _ _)

end

theorem post_v1Pass (h : OpStable P) (i : Nat) (t : CardType) (r1 : Byte) (k : List Frame) {s : State} (hs : Sat P s) :
    Post (FlowSat P) (v1Pass i t r1 k s) := by
  unfold v1Pass
  split
  · split
    · exact post_exitV1 h hs _ _ _
    split
    · exact post_exitV1 h hs _ _ _
    · simp [*]
  · simp [*]

theorem post_resumeV1Probe (h : OpStable P) (i : Nat) (v : Ret) {s : State} (hs : Sat P s) :
    Post (FlowSat P) (resumeV1Probe i v s) := by
  unfold resumeV1Probe
  split
  · exact post_openWindow h hs _ _ _ (fun _ ht => post_v1Pass h _ _ _ _ ht)
  split
  · simp [*]
  · exact post_openWindow h hs _ _ _ (fun _ ht => post_v1Pass h _ _ _ _ ht)

theorem post_initDone (h : OpStable P) (i : Nat) {s : State} (hs : Sat P s) : Post (FlowSat P) (initDone i s) :=
  post_endWith h (sat_ses h hs _ _) _

theorem post_finalise (h : OpStable P) (i : Nat) {s : State} (hs : Sat P s) : Post (FlowSat P) (finalise i s) := by
  unfold finalise
  dsimp only
  split
  · exact post_startCmd h (sat_ses h hs _ _) _ _ _ _ _ _
  · exact post_initDone h _ (sat_ses h hs _ _)

theorem post_readnLoop (h : OpStable P) (i : Nat) (sector count dst : Word) (n : Nat) {s : State} (hs : Sat P s) :
    Post (FlowSat P) (readnLoop i sector count dst n s) := by
  unfold readnLoop; split <;> simp [*]

theorem post_writenLoop (h : OpStable P) (i : Nat) (count src : Word) (n : Nat) {s : State} (hs : Sat P s) :
    Post (FlowSat P) (writenLoop i count src n s) := by
  unfold writenLoop; split <;> simp [*]

theorem post_resume (h : OpStable P) (f : Frame) (v : Ret) {s : State} (hs : Sat P s) :
    Post (FlowSat P) (resume f v s) := by
  cases f with
  | script rest => exact post_resumeScript h _ _ hs
  | windowEnd i w => exact (post_next _ _).mpr (sat_ses h hs _ _)
  | finish k => exact (post_next _ _).mpr (sat_setRet h hs _)
  | r1Poll i n => simp only [resume, resumeR1Poll]; (repeat' split) <;> simp [*]
  | cmdSend i x arg sh ai n => simp only [resume, resumeCmdSend]; (repeat' split) <;> simp [*]
  | cmdStuff i sh ai => simp only [resume, resumeCmdStuff]; (repeat' split) <;> simp [*]
  | cmdR1 i sh ai => simp only [resume, resumeCmdR1]; (repeat' split) <;> simp [*]
  | cmdBusy r1 ai => simpa [resume] using hs
  | cmdStatus r1 ai => simp only [resume, resumeCmdStatus]; (repeat' split) <;> simp [*]
  | cmdPayload i r1 ai got => simp only [resume, resumeCmdPayload]; (repeat' split) <;> simp [*]
  | busyStart i => exact post_busyLoop h hs _ _
  | busyPoll i => simp only [resume, resumeBusyPoll]; (repeat' split) <;> simp [*]
  | tokenStart i => exact post_tokenLoop h hs _ _
  | tokenPoll i => simp only [resume, resumeTokenPoll]; (repeat' split) <;> simp [*]
  | rdToken i dst n check =>
    simp only [resume, resumeRdToken]
    split
    · simp [*]
    · exact post_andThen (post_writeDescs h _ _ _ (sat_setTxDefault h hs _ _)) (fun _ ht => by simpa using ht)
  | rdXfer i dst n check => simp only [resume, resumeRdXfer]; (repeat' split) <;> simp [*]
  | rdWait i dst n check =>
    simp only [resume, resumeRdWait]
    split
    · simp [*]
    split
    · exact post_checkBlock h hs _ _ _
    · simp [*]
  | dataResp i n => simp only [resume, resumeDataResp]; (repeat' split) <;> simp [*]
  | wrToken i src =>
    simp only [resume, resumeWrToken]
    split
    · simp [*]
    · exact post_andThen (post_writeDescs h _ _ _ hs) (fun _ ht => by simpa using ht)
  | wrXfer i src => simp only [resume, resumeWrXfer]; (repeat' split) <;> simp [*]
  | wrWait i src =>
    simp only [resume, resumeWrWait]
    split
    · simp [*]
    · exact post_needBacked (post_askByte h (sat_readBytes h _ _ hs) _ _ _)
  | wrCrcHi i lo => simp only [resume, resumeWrCrcHi]; (repeat' split) <;> simp [*]
  | wrCrcLo i => simp only [resume, resumeWrCrcLo]; (repeat' split) <;> simp [*]
  | wrResp i => simp only [resume, resumeWrResp]; (repeat' split) <;> simp [*]
  | wrBusy sss => exact post_endWith h hs _
  | stopCmd i => simp only [resume, resumeStopCmd]; (repeat' split) <;> simp [*]
  | stopToken i => simp only [resume, resumeStopToken]; (repeat' split) <;> simp [*]
  | regCmd i dst => simp only [resume, resumeRegCmd]; (repeat' split) <;> simp [*]
  | regToken i dst => simp only [resume, resumeRegToken]; (repeat' split) <;> simp [*]
  | regByte i dst got => simp only [resume, resumeRegByte]; (repeat' split) <;> simp [*]
  | regTail i dst w n =>
    simp only [resume, resumeRegTail]
    split
    · simp [*]
    split
    · simp [*]
    split
    · simp [*]
    · exact post_needBacked (post_endWith h (sat_writeBytes h _ _ hs) _)
  | initDummy i n => simp only [resume, resumeInitDummy]; (repeat' split) <;> simp [*]
  | initCmd0 i => simp only [resume, resumeInitCmd0]; (repeat' split) <;> simp [*]
  | initCmd8 i => simp only [resume, resumeInitCmd8]; (repeat' split) <;> simp [*]
  | v2Ocr i =>
    simp only [resume, resumeV2Ocr]
    split
    · simp [*]
    split
    · simp [*]
    · exact post_openWindow h hs _ _ _ (fun _ ht => post_startCmd h ht _ _ _ _ _ _)
  | v2Start i => exact post_startCmd h hs _ _ _ _ _ _
  | v2App i =>
    simp only [resume, resumeV2App]
    split
    · exact post_exitV2 h hs _ _
    · simp [*]
  | v2Acmd i =>
    simp only [resume, resumeV2Acmd]
    split
    · exact post_exitV2 h hs _ _
    split
    · exact post_exitV2 h hs _ _
    split
    · exact post_exitV2 h hs _ _
    · exact post_startCmd h hs _ _ _ _ _ _
  | v2End i => exact post_resumeV2End h hs _ _
  | v2Ccs i =>
    simp only [resume, resumeV2Ccs]
    split
    · simp [*]
    · exact post_assignType h hs _ _
  | v1Ocr i => simp only [resume, resumeV1Ocr]; (repeat' split) <;> simp [*]
  | v1App i =>
    simp only [resume, resumeV1App]
    split
    · simp [*]
    · exact post_resumeV1Probe h _ _ hs
  | v1Probe i => exact post_resumeV1Probe h _ _ hs
  | v1Start i t r1 => exact post_v1Pass h _ _ _ _ hs
  | v1LoopApp i =>
    simp only [resume, resumeV1LoopApp]
    split
    · exact post_exitV1 h hs _ _ _
    · simp [*]
  | v1LoopAcmd i =>
    simp only [resume, resumeV1LoopAcmd]
    split
    · exact post_exitV1 h hs _ _ _
    · exact post_v1Pass h _ _ _ _ hs
  | v1LoopMmc i =>
    simp only [resume, resumeV1LoopMmc]
    split
    · exact post_exitV1 h hs _ _ _
    split
    · exact post_exitV1 h hs _ _ _
    split
    · exact post_exitV1 h hs _ _ _
    · exact post_v1Pass h _ _ _ _ hs
  | v1End i t => exact post_resumeV1End h hs _ _ _
  | initCid i =>
    simp only [resume, resumeInitCid]
    split
    · simp [*]
    · exact post_needBacked (post_startRdReg h (sat_ses h (sat_readBytes h _ _ hs) _ _) _ _ _ _)
  | initCsd i =>
    simp only [resume, resumeInitCsd]
    split
    · simp [*]
    · refine post_needBacked ?_
      split
      · exact post_startCmd h (sat_ses h (sat_readBytes h _ _ hs) _ _) _ _ _ _ _ _
      · exact post_finalise h _ (sat_ses h (sat_readBytes h _ _ hs) _ _)
  | initBlkLen i =>
    simp only [resume, resumeInitBlkLen]
    split
    · simp [*]
    · exact post_finalise h _ hs
  | initCrc i =>
    simp only [resume, resumeInitCrc]
    split
    · simp [*]
    · exact post_initDone h _ hs
  | initExit i => exact post_endWith h (sat_setSpeed h (sat_setSdCs h hs _ _) _ _) _
  | sdEnd i => exact post_endWith h (sat_setSdCs h hs _ _) _
  | readCmd i dst => simp only [resume, resumeReadCmd]; (repeat' split) <;> simp [*]
  | writeCmd i src => simp only [resume, resumeWriteCmd]; (repeat' split) <;> simp [*]
  | readnCmd i sector count dst =>
    simp only [resume, resumeReadnCmd]
    split
    · simp [*]
    · exact post_readnLoop h _ _ _ _ _ hs
  | readnBlk i sector count dst n =>
    simp only [resume, resumeReadnBlk]
    split
    · simp [*]
    · exact post_readnLoop h _ _ _ _ _ hs
  | readnStop i eb sector n => exact post_endWith h hs _
  | writenCmd i count src =>
    simp only [resume, resumeWritenCmd]
    split
    · simp [*]
    · exact post_writenLoop h _ _ _ _ hs
  | writenBlk i count src n =>
    simp only [resume, resumeWritenBlk]
    split
    · simp [*]
    · exact post_writenLoop h _ _ _ _ hs
  | writenStop eb => exact post_endWith h hs _
  | setCrc i en =>
    simp only [resume, resumeSetCrc]
    split
    · simp [*]
    · exact post_endWith h (sat_ses h hs _ _) _

theorem sat_fg (hp : StepStable P) {s : State} (hs : Sat P s) (x : Fg) : Sat P (s.setFg x) := hp.fg s x hs
theorem sat_prog (hp : StepStable P) {s : State} (hs : Sat P s) (x : List Byte) : Sat P (s.setProg x) := hp.prog s x hs
theorem sat_turns (hp : StepStable P) {s : State} (hs : Sat P s) (x : List Turn) : Sat P (s.setTurns x) :=
  hp.turns s x hs
theorem sat_chan (hp : StepStable P) {s : State} (hs : Sat P s) (c : Nat) (v : Chan) : Sat P (s.setChan c v) :=
  hp.chan s c v hs

theorem sat_takeTurn (hp : StepStable P) {s : State} (hs : Sat P s) : Sat P s.takeTurn.2 := by
  unfold State.takeTurn; split
  · exact sat_turns hp hs _
  · exact sat_draws hp.toOpStable hs

theorem post_unwind (hp : StepStable P) (k : List Frame) (v : Ret) {s : State} (hs : Sat P s) :
    Post (Sat P) (unwind k v s) := by
  have h := hp.toOpStable
  induction k generalizing v s with
  | nil => exact (post_next _ _).mpr (sat_fg hp hs _)
  | cons f k ih =>
    unfold unwind
    have hf := post_resume h f v hs
    split
    · next w t e => rw [e] at hf; exact ih w (flowSat_of_ret hf)
    · next p fs t e => rw [e] at hf; exact (post_next _ _).mpr (sat_fg hp (flowSat_of_wait hf) _)
    · simp
    · simp

theorem post_enterFlow (hp : StepStable P) {r : Res Flow} (hr : Post (FlowSat P) r) : Post (Sat P) (enterFlow r) := by
  unfold enterFlow
  split
  · exact (post_next _ _).mpr (sat_fg hp (flowSat_of_ret hr) _)
  · exact (post_next _ _).mpr (sat_fg hp (flowSat_of_wait hr) _)
  · simp
  · simp

/-! ## The operations issued by FG -/

theorem sat_sdBegin (h : OpStable P) (i : Nat) {s : State} (hs : Sat P s) : Sat P (sdBegin i s).2 := by
  unfold sdBegin
  dsimp only
  split
  · exact sat_setSdCs h (sat_setTransferId h hs _ _) _ _
  · exact hs

theorem post_claimed (hp : StepStable P) (i : Nat) {start : State → Res Flow}
    (hst : ∀ t, Sat P t → Post (FlowSat P) (start t)) {s : State} (hs : Sat P s) :
    Post (Sat P) (claimed i start s) := by
  have h := hp.toOpStable
  refine post_withSdBus ?_
  dsimp only
  split
  · exact post_enterFlow hp (hst _ (sat_sdBegin h i hs))
  · simp [*]

theorem post_unclaimed (hp : StepStable P) (i : Nat) {start : State → Res Flow}
    (hst : ∀ t, Sat P t → Post (FlowSat P) (start t)) {s : State} (hs : Sat P s) :
    Post (Sat P) (unclaimed i start s) :=
  have h := hp.toOpStable
  post_withSdSession (post_withSdBus (post_enterFlow hp (hst _ hs)))

theorem post_dataOp (hp : StepStable P) (i : Nat) (buf sector count : Word) {start : State → Res Flow}
    (hst : ∀ t, Sat P t → Post (FlowSat P) (start t)) {s : State} (hs : Sat P s) :
    Post (Sat P) (dataOp i buf sector count start s) := by
  have h := hp.toOpStable
  refine post_withSdSession ?_
  split
  · simp [*]
  · exact post_claimed hp i hst hs

theorem post_initStart (hp : StepStable P) (i : Nat) {s : State} (hs : Sat P s) : Post (Sat P) (initStart i s) := by
  have h := hp.toOpStable
  unfold initStart
  dsimp only
  split
  · exact post_enterFlow hp (post_askByte h (sat_setSdCs h (sat_setSpeed h (sat_ses h hs _ _) _ _) _ _) _ _ _)
  · exact post_unwind hp _ _ (sat_ses h hs _ _)

theorem post_exec (hp : StepStable P) (i : Instr) {s : State} (hs : Sat P s) : Post (Sat P) (exec i s) := by
  have h := hp.toOpStable
  cases i with
  | futInit f => simp [exec, execFutInit, *]
  | futStart f => simp [exec, execFutStart, *]
  | futFinish f r => simp [exec, execFutFinish, *]
  | futRunning f => simp [exec, execFutRunning, *]
  | futDone f => simp [exec, execFutDone, *]
  | futResult f => simp [exec, execFutResult, *]
  | futWait f => exact post_waitFuture h hs _ _
  | futSetResult f r => simp [exec, execFutSetResult, *]
  | busInit b => exact post_execBusInit h hs _
  | busSetId b id => exact post_withBus (by simp [*])
  | busId b => exact post_withBus (by simp [*])
  | busXfer b p n => exact post_execBusXfer h hs _ _ _
  | busXmit b t ra => exact post_execBusXmit h hs _ _ _
  | busWait b => exact post_execBusWait h hs _
  | busStatus b => exact post_withBus (by simp [*])
  | busErrors b => exact post_withBus (by simp [*])
  | busBusy b => exact post_withBus (by simp [*])
  | busSetCb b cb =>
    refine post_withBus ((post_next _ _).mpr (sat_setRet h (sat_bus h hs _ _ ?_) _))
    exact ⟨rfl, rfl, rfl, rfl, rfl, rfl, rfl, rfl⟩
  | busSetTxDef b v => exact post_withBus (by simp [*])
  | busSetSpeed b sp => exact post_withBus (by simp [*])
  | irqSpi b => exact post_handlerOp h (fun b t hb ht => (hp.irq t b hb ht).1) b hs
  | irqDmaRx b => exact post_handlerOp h (fun b t hb ht => (hp.irq t b hb ht).2.1) b hs
  | irqDmaTx b => exact post_handlerOp h (fun b t hb ht => (hp.irq t b hb ht).2.2) b hs
  | dmaTryLock c => exact post_execDmaTryLock h hs _
  | dmaUnlock c => exact post_execDmaUnlock h hs _
  | sdInit x =>
    refine post_withSdSession (post_withSdBus ?_)
    dsimp only
    split
    · exact post_initStart hp _ (sat_setTransferId h hs _ _)
    · simp [*]
  | sdRead1 x sector dst => exact post_dataOp hp _ _ _ _ (fun _ ht => post_startCmd h ht _ _ _ _ _ _) hs
  | sdReadN x sector count dst => exact post_dataOp hp _ _ _ _ (fun _ ht => post_startCmd h ht _ _ _ _ _ _) hs
  | sdWrite1 x sector src => exact post_dataOp hp _ _ _ _ (fun _ ht => post_startCmd h ht _ _ _ _ _ _) hs
  | sdWriteN x sector count src => exact post_dataOp hp _ _ _ _ (fun _ ht => post_startCmd h ht _ _ _ _ _ _) hs
  | sdSetCrc x en =>
    refine post_withSdSession ?_
    split
    · simp [*]
    · exact post_claimed hp _ (fun _ ht => post_startCmd h ht _ _ _ _ _ _) hs
  | sdSectors x => exact post_withCard (by simp [*])
  | sdType x => exact post_withCard (by simp [*])
  | sdInited x => exact post_withCard (by simp [*])
  | sdBlkLen x => exact post_withCard (by simp [*])
  | sdEraseSz x => exact post_withCard (by simp [*])
  | sdCid x dst => exact post_withCard (post_copyRegister h hs _ _ _)
  | sdCsd x dst => exact post_withCard (post_copyRegister h hs _ _ _)
  | sdCrcEn x => exact post_withCard (by simp [*])
  | sdiCrc7 a n => exact post_readOp h hs a n (fun l => .value ((crc7 l).setWidth 32))
  | sdiCrc16 a n => exact post_readOp h hs a n (fun l => .value ((crc16 l).setWidth 32))
  | sdiFrame x arg => simp [exec, execSdiFrame, *]
  | sdiCmd x index arg sh ai => exact post_unclaimed hp _ (fun _ ht => post_startCmd h ht _ _ _ _ _ _) hs
  | sdiR1Poll x => exact post_unclaimed hp _ (fun _ ht => post_startR1Poll h ht _ _) hs
  | sdiBusyWait x => exact post_unclaimed hp _ (fun _ ht => post_startBusyWait h ht _ _) hs
  | sdiRdBlk x dst n check => exact post_unclaimed hp _ (fun _ ht => post_startRdBlk h ht _ _ _ _ _) hs
  | sdiWrBlk x src token => exact post_unclaimed hp _ (fun _ ht => post_startWrBlk h ht _ _ _ _) hs
  | sdiStopR x => exact post_unclaimed hp _ (fun _ ht => post_startStopR h ht _ _) hs
  | sdiStopW x => exact post_unclaimed hp _ (fun _ ht => post_startStopW h ht _ _) hs
  | sdiDecode r1 r2 ai => simp [exec, execSdiDecode, *]
  | sdiErrTok t => simp [exec, execSdiErrTok, *]
  | sdiRdReg x index dst => exact post_unclaimed hp _ (fun _ ht => post_startRdReg h ht _ _ _ _) hs
  | adpBegin a op => exact post_execAdpBegin h hs _ _
  | adpSync a op => exact post_execAdpSync h hs _ _
  | adpComplete a => exact post_withAdapter (post_withBus (by simp [*]))
  | adpDispatch b => exact post_withBus (by simpa using sat_setRet h (sat_dispatch h _ hs) _)

/-! ## The agents -/

theorem post_performAct (hp : StepStable P) (p : Pending) (k : List Frame) {s : State} (hs : Sat P s) :
    Post (Sat P) (performAct exec p k s) := by
  have h := hp.toOpStable
  cases p with
  | xchg b t => exact post_withBus (post_unwind hp _ _ (sat_xmit h hs _ _))
  | xfer b d n => exact post_withBus_of fun hb hi => post_unwind hp _ _ (sat_startXfer h hs _ _ hb hi)
  | busWait b =>
    refine post_withBus ?_
    split
    · simpa using hs
    · exact post_unwind hp _ _ hs
  | futWait f =>
    simp only [performAct]
    split
    · simpa using hs
    · exact post_unwind hp _ _ hs
  | enter i =>
    simp only [performAct]
    split
    · refine post_unwind hp _ _ ?_
      unfold turnAway
      split
      · exact sat_setRet h (sat_draws h (sat_draws h hs)) _
      · exact sat_setRet h hs _
    refine post_andThen (post_exec hp i (sat_fg hp hs _)) (fun t ht => ?_)
    split
    · exact post_unwind hp _ _ ht
    · exact (post_next _ _).mpr (sat_fg hp ht _)
  | hang => simpa [performAct] using hs

theorem post_fgTurn (hp : StepStable P) {s : State} (hs : Sat P s) : Post (Sat P) (fgTurn exec s) := by
  have h := hp.toOpStable
  unfold fgTurn
  split
  · unfold issueNext
    split
    · simpa using hs
    split
    · exact post_exec hp _ (sat_prog hp hs _)
    · simp
  · exact post_performAct hp _ _ hs

theorem sat_dpExchange (h : OpStable P) (b : Nat) (m : Msg) (k : Word) {s : State} (hs : Sat P s) :
    Sat P (dpExchange b m k s).2 := by
  unfold dpExchange
  split
  · exact sat_takeAnswer h hs _
  · refine sat_exchange h ?_ _ _
    unfold sourceFrame
    split
    · exact hs
    split
    · exact sat_drawByte h hs
    · exact hs

theorem sat_countFrame (hp : StepStable P) (b : Nat) (n : ChanSet) (size : Word) {s : State} (hs : Sat P s) :
    Sat P (countFrame b n size s) := by
  unfold countFrame
  have hb : Sat P (s.setBus b { s.bus b with pos := (s.bus b).pos + 1 }) :=
    sat_bus hp.toOpStable hs _ _ ⟨rfl, rfl, rfl, rfl, rfl, rfl, rfl, rfl⟩
  dsimp only
  have h1 : ∀ c v, Sat P ((s.setBus b { s.bus b with pos := (s.bus b).pos + 1 }).setChan c v) :=
    fun c v => sat_chan hp hb c v
  split
  · apply sat_chan hp
    split
    · exact h1 _ _
    · exact hb
  · split
    · exact h1 _ _
    · exact hb

theorem post_dpTurn (hp : StepStable P) (b : Nat) {s : State} (hs : Sat P s) : Post (Sat P) (dpTurn b s) := by
  have h := hp.toOpStable
  refine (post_next _ _).mpr ?_
  split
  · refine sat_countFrame hp _ _ _ ?_
    split
    · exact sat_dpExchange h _ _ _ hs
    · refine sat_mem h ?_ _ _
      unfold storedByte
      split
      · exact sat_drawByte h (sat_dpExchange h _ _ _ hs)
      · exact sat_dpExchange h _ _ _ hs
  · exact hs

theorem post_ite {Q : State → Prop} {c : Prop} [Decidable c] {x y : Res State} (hx : c → Post Q x) (hy : Post Q y) :
    Post Q (if c then x else y) := by
  split
  · next h => exact hx h
  · exact hy

theorem post_agentStep (hp : StepStable P) (t : Turn) {s : State} (hs : Sat P s) : Post (Sat P) (agentStep exec t s) := by
  have h := hp.toOpStable
  cases t with
  | fg => exact post_fgTurn hp hs
  | host x =>
    simp only [agentStep, hostTurn]
    split
    · exact post_hostAccess h hs _
    · simpa using hs
  | irqSpi b =>
    exact post_ite (fun hc => (hp.irq s b (by simp_all) hs).1) (by simpa using hs)
  | irqDmaRx b =>
    exact post_ite (fun hc => (hp.irq s b (by simp_all [State.chanPending]) hs).2.1) (by simpa using hs)
  | irqDmaTx b =>
    exact post_ite (fun hc => (hp.irq s b (by simp_all [State.chanPending]) hs).2.2) (by simpa using hs)
  | dp b => exact post_dpTurn hp b hs
  | envOvr b =>
    simp only [agentStep, envOvr, post_next]; split
    · exact sat_bus h hs _ _ ⟨rfl, rfl, rfl, rfl, rfl, rfl, rfl, rfl⟩
    · exact hs
  | envModf b =>
    simp only [agentStep, envModf, post_next]; split
    · exact sat_bus h hs _ _ ⟨rfl, rfl, rfl, rfl, rfl, rfl, rfl, rfl⟩
    · exact hs
  | envCrcErr b =>
    simp only [agentStep, envCrcErr, post_next]; split
    · exact sat_bus h hs _ _ ⟨rfl, rfl, rfl, rfl, rfl, rfl, rfl, rfl⟩
    · exact hs
  | envTe c =>
    simp only [agentStep, envTe, post_next]; split
    · exact sat_chan hp hs _ _
    · exact hs
  | envExpire i =>
    simp only [agentStep, envExpire, post_next]; split
    · exact sat_ses h hs _ _
    · exact hs
  | envLock c =>
    simp only [agentStep, envLock, post_next]; split
    · next hc => exact hp.extTake s c hc.2 hs
    · exact hs
  | envUnlock c =>
    simp only [agentStep, envUnlock, post_next]; split
    · next hc => exact hp.extFree s c hc hs
    · exact hs

theorem post_settle (hp : StepStable P) (a : Agent) {s : State} (hs : Sat P s) {r : Res State} (hr : Post (Sat P) r) :
    Post (Sat P) (settle a s r) := by
  cases r with
  | next t => exact hr
  | fault e =>
    simp only [settle, post_next]
    split
    · exact hp.hang s hs
    · exact hp.keep s a e hs
  | refused e => exact post_refused _ _

theorem post_takeStep (hp : StepStable P) (t : Turn) {s : State} (hs : Sat P s) : Post (Sat P) (takeStep exec t s) := by
  unfold takeStep
  split
  · exact (post_next _ _).mpr hs
  · exact post_settle hp _ hs (post_agentStep hp t hs)

/-- What every step of a `StepStable` property's updates keeps, every step of the machine keeps. -/
theorem step_keeps (hp : StepStable P) {s t : State} (hs : P s) (hst : step s = .next t) : P t := by
  have key : Post (Sat P) (step s) := by
    unfold step stepWith
    split
    · simp
    · exact post_takeStep hp _ (sat_takeTurn hp hs)
  exact key t hst

/-- Every property that single updates keep is kept by every step. -/
theorem step_sat (h : Stable P) {s t : State} (hs : P s) (hst : step s = .next t) : P t :=
  step_keeps h.toStepStable hs hst

end Sys2Proof.Machine
end

