-- ==== Sys2Proof/Laws/Engine.lean ====
section
/-! SUPPORT. What a step can do to the transfers, said once: a property that the transitions of the bus engine keep is kept by every step (`step_engine`). -/

namespace Sys2Proof.Machine

/-- A property that the operations and the transitions of the bus engine keep. -/
structure EngineStable (P : State → Prop) : Prop extends OpStable P where
  inited : ∀ s b, P s → s.busy b = true → (s.bus b).inited = true
  chan : ∀ s c v, P s → P (s.setChan c v)
  fg : ∀ s x, P s → P (s.setFg x)
  prog : ∀ s x, P s → P (s.setProg x)
  turns : ∀ s x, P s → P (s.setTurns x)
  keep : ∀ s a e, P s → P (s.setFaults (s.faults ++ [(a, e)]))
  hang : ∀ s, P s → P (s.setHung true)
  extTake : ∀ s c, s.lock c = false → P s → P ((s.setLock c true).setExt c true)
  extFree : ∀ s c, s.extLock c = true → P s → P ((s.setLock c false).setExt c false)
  enter : ∀ s, P s → P (s.setIsr true)
  leave : ∀ s t, P s → P t → P (t.setIsr s.isr)
  ended : ∀ s b st e, b < s.numBuses → s.busy b = true → st ≠ .transferring → P s → P (s.ended b st e)
  advance : ∀ s b, b < s.numBuses → s.busy b = true → (s.bus b).index.toNat + 1 < (s.bus b).count.toNat → P s →
    P (advance b ((s.bus b).index + 1) s)

variable {P : State → Prop}

theorem sameTransfer_refl (x : Bus) : sameTransfer x x := ⟨rfl, rfl, rfl, rfl, rfl, rfl, rfl, rfl⟩

section
variable (h : EngineStable P) {s : State} {b : Nat} (hb : b < s.numBuses)
  (hbusy : s.busy b = true) (hs : Sat P s)
include h hb hbusy hs

theorem engine_terminal (st : Status) (e : BitVec 4) (hst : st ≠ .transferring) :
    Post (Sat P) (invoke ((s.ended b st e).bus b).callback (.bus b) (s.ended b st e)) :=
  post_invoke h.toOpStable _ _ (h.ended s b st e hb hbusy hst hs)

theorem engine_terminalSuccess : Post (Sat P) (terminalSuccess b s) := by
  have e : terminalSuccess b s = invoke ((s.ended b .transferred (s.bus b).errors).bus b).callback (.bus b)
      (s.ended b .transferred (s.bus b).errors) := by
    have he : ((releaseHeld b (disarm b s)).bus b).errors = (s.bus b).errors := by
      unfold releaseHeld disarm
      cases h3 : (s.bus b).heldRx <;> cases h4 : (s.bus b).heldTx <;> simp [h3, h4]
    simp only [terminalSuccess, State.ended, ← he]
  rw [e]
  exact engine_terminal h hb hbusy hs _ _ (by simp)

theorem engine_terminalError (e : BitVec 4) : Post (Sat P) (terminalError b e s) := by
  have e' : terminalError b e s = invoke ((s.ended b .error ((s.bus b).errors ||| e)).bus b).callback (.bus b)
      (s.ended b .error ((s.bus b).errors ||| e)) := by
    have he : ((releaseHeld b (disarm b s)).bus b).errors = (s.bus b).errors := by
      unfold releaseHeld disarm
      cases h3 : (s.bus b).heldRx <;> cases h4 : (s.bus b).heldTx <;> simp [h3, h4]
    simp only [terminalError, State.ended, ← he]
  rw [e']
  exact engine_terminal h hb hbusy hs _ _ (by simp)

/-- What a callback keeps of a bus in a transfer. -/
theorem engine_invoke (cb : Word) (arg : CbArg) :
    Post (fun t => Sat P t ∧ t.cfg = s.cfg ∧ sameTransfer (s.bus b) (t.bus b)) (invoke cb arg s) := by
  have hx : (s.bus b).phase ≠ .idle := by simpa [State.busy] using hbusy
  exact post_invoke (h.toOpStable.track s.cfg b (s.bus b) hx (h.inited s b hs hbusy)) cb arg
    ⟨hs, rfl, sameTransfer_refl _⟩

theorem engine_messageDone : Post (Sat P) (messageDone b s) := by
  have key : ∀ t, Sat P t ∧ t.cfg = s.cfg ∧ sameTransfer (s.bus b) (t.bus b) →
      b < t.numBuses ∧ t.busy b = true := by
    rintro t ⟨-, hc, hsame⟩
    refine ⟨by simpa only [State.numBuses, hc] using hb, ?_⟩
    simpa only [State.busy, hsame.1] using hbusy
  unfold messageDone
  dsimp only
  split
  · next hlt =>
    refine post_andThen (engine_invoke h hb hbusy hs _ _) (fun t ht => (post_next _ _).mpr ?_)
    obtain ⟨k1, k2⟩ := key t ht
    obtain ⟨hp, -, -, -, -, hcount, hindex, -⟩ := ht
    have := h.advance t b k1 k2 (by rw [hcount, hindex]; exact hlt) hp
    rwa [hindex] at this
  · refine post_andThen (Q := fun t => Sat P t ∧ t.cfg = s.cfg ∧ sameTransfer (s.bus b) (t.bus b)) ?_ (fun t ht => ?_)
    · split
      · exact engine_invoke h hb hbusy hs _ _
      · exact (post_next _ _).mpr ⟨hs, rfl, sameTransfer_refl _⟩
    · obtain ⟨k1, k2⟩ := key t ht
      exact engine_terminalSuccess h k1 k2 ht.1

end

section
variable (h : EngineStable P) {s : State} {b : Nat} (hb : b < s.numBuses)
  (hs : Sat P s)
include h hb hs

theorem engine_spiHandler : Post (Sat P) (spiHandler b s) := by
  have h1 := sat_bus h.toOpStable hs b { s.bus b with ovr := false, modf := false, crcerr := false }
    ⟨rfl, rfl, rfl, rfl, rfl, rfl, rfl, rfl⟩
  unfold spiHandler
  dsimp only
  split
  · exact (post_next _ _).mpr hs
  split
  · exact (post_next _ _).mpr (sat_bus h.toOpStable h1 _ _ ⟨rfl, rfl, rfl, rfl, rfl, rfl, rfl, rfl⟩)
  · next hp => exact engine_terminalError (s := s.setBus b _) h hb (by simpa [State.busy] using hp) h1 _

theorem engine_dmaHandler (c : Nat) (mine : Phase → Bool) (hm : mine .idle = false) :
    Post (Sat P) (dmaHandler b c mine s) := by
  unfold dmaHandler
  dsimp only
  split
  · split
    · exact (post_next _ _).mpr
        (sat_bus h.toOpStable (h.chan _ _ _ hs) _ _ ⟨rfl, rfl, rfl, rfl, rfl, rfl, rfl, rfl⟩)
    · next hp =>
      exact engine_terminalError (s := s.setChan c _) h hb (by simpa [State.busy] using hp) (h.chan _ _ _ hs) _
  split
  · split
    · next hp =>
      refine engine_messageDone (s := s.setChan c _) h hb ?_ (h.chan _ _ _ hs)
      simp only [State.busy, State.bus_setChan, bne_iff_ne]
      intro e; rw [e, hm] at hp; cases hp
    · exact (post_next _ _).mpr (h.chan _ _ _ hs)
  · exact (post_next _ _).mpr hs

end

theorem engine_irq (h : EngineStable P) {s : State} {b : Nat}
    (hb : b < s.numBuses) (hs : Sat P s) :
    Post (Sat P) (takeInterrupt (spiHandler b) s) ∧ Post (Sat P) (takeInterrupt (rxHandler b) s)
      ∧ Post (Sat P) (takeInterrupt (txHandler b) s) := by
  have hl : ∀ t, Sat P t → Post (Sat P) (.next (t.leaveIsr s.isr)) := fun t ht => (post_next _ _).mpr (h.leave s t hs ht)
  exact ⟨post_andThen (engine_spiHandler h (by exact hb) (h.enter s hs)) hl,
    post_andThen (engine_dmaHandler h (by exact hb) (h.enter s hs) _ _ rfl) hl,
    post_andThen (engine_dmaHandler h (by exact hb) (h.enter s hs) _ _ rfl) hl⟩

theorem EngineStable.toStepStable (h : EngineStable P) : StepStable P where
  toOpStable := h.toOpStable
  chan := h.chan
  fg := h.fg
  prog := h.prog
  turns := h.turns
  keep := h.keep
  hang := h.hang
  extTake := h.extTake
  extFree := h.extFree
  irq _ _ hb hs := engine_irq h hb hs

/-- What the transitions of the bus engine keep, every step of the machine keeps. -/
theorem step_engine (h : EngineStable P) {s t : State} (hs : P s) (hst : step s = .next t) : P t :=
  step_keeps h.toStepStable hs hst

end Sys2Proof.Machine
end

