-- ==== Sys2Proof/Laws/BusInv.lean ====
section
/-! SUPPORT. The transitions of the bus engine one by one, over the invariants of 10_state.md R46: each keeps them. -/

namespace Sys2Proof.Machine

theorem sameTransfer.cur {s t : State} {b : Nat} (h : sameTransfer (s.bus b) (t.bus b)) (hd : ∀ p i, t.desc p i = s.desc p i) :
    t.current b = s.current b := by
  simp [State.current, h.2.2.1, h.2.2.2.2.1, hd]

theorem busInv_congr {s t : State} (hb : ∀ b, sameTransfer (s.bus b) (t.bus b)) (hl : ∀ c, t.lock c = s.lock c)
    (he : ∀ c, t.extLock c = true → s.extLock c = true) (hd : ∀ p i, t.desc p i = s.desc p i) (hc : t.cfg = s.cfg) (h : s.BusInv) :
    t.BusInv := by
  have hn : t.numBuses = s.numBuses := by simp [State.numBuses, hc]
  have hcf : ∀ b, t.busCfg b = s.busCfg b := by simp [State.busCfg, hc]
  refine ⟨?_, ?_, ?_, ?_, ?_, ?_, ?_⟩
  · intro b; rw [(hb b).1, (hb b).2.1]; exact h.status b
  · intro b hp
    obtain ⟨h1, h2, h3, h4, h5, h6, h7, h8⟩ := hb b
    rw [h1] at hp
    rw [h4, h5, h1, (hb b).cur hd]; exact h.index b hp
  · intro b
    obtain ⟨h1, h2, h3, h4, h5, h6, h7, h8⟩ := hb b
    rw [h6, h7, h1]; exact h.held b
  · intro b hlt
    obtain ⟨h1, h2, h3, h4, h5, h6, h7, h8⟩ := hb b
    rw [h6, h7, hcf, hl, hl]; exact h.locks b (by rwa [hn] at hlt)
  · intro b hp i hi
    obtain ⟨h1, h2, h3, h4, h5, h6, h7, h8⟩ := hb b
    rw [h1] at hp; rw [h4] at hi
    rw [h3, hd, hcf]; exact h.lists b hp i hi
  · intro c hext
    have := h.ext c (he c hext)
    rw [hl]
    refine ⟨this.1, ?_⟩
    rw [← this.2]
    unfold State.heldByBus
    rw [hn]
    congr 1
    funext b
    obtain ⟨h1, h2, h3, h4, h5, h6, h7, h8⟩ := hb b
    rw [h6, h7, hcf]
  · intro b hp
    obtain ⟨h1, h2, h3, h4, h5, h6, h7, h8⟩ := hb b
    rw [h1] at hp
    rw [hn, h8]; exact h.inited b hp

/-- No DMA channel is bound twice (60_exceptions.md R408). -/
def chansOk (c : Config) : Prop := (boundChans c).Nodup

theorem chans_ne {s : State} (h : chansOk s.cfg) {b b' : Nat} (hb : b < s.numBuses) (hb' : b' < s.numBuses) :
    (s.busCfg b).rxCh ≠ (s.busCfg b).txCh ∧ (b ≠ b' → (s.busCfg b).rxCh ≠ (s.busCfg b').rxCh ∧ (s.busCfg b).rxCh ≠ (s.busCfg b').txCh
      ∧ (s.busCfg b).txCh ≠ (s.busCfg b').rxCh ∧ (s.busCfg b).txCh ≠ (s.busCfg b').txCh) := by
  unfold chansOk boundChans at h
  rw [List.nodup_flatMap] at h
  obtain ⟨h1, h2⟩ := h
  have e : ∀ k (hk : k < s.cfg.buses.length), s.busCfg k = s.cfg.buses[k]'hk := by
    intro k hk; unfold State.busCfg; rw [List.getD_eq_getElem _ _ (by exact hk)]
  constructor
  · have := h1 _ (List.getElem_mem (l := s.cfg.buses) (n := b) hb)
    rw [e b hb]; simpa using this
  · intro hne
    rw [e b hb, e b' hb']
    rcases Nat.lt_or_gt_of_ne hne with hlt | hlt
    · have := List.pairwise_iff_getElem.mp h2 b b' hb hb' hlt
      simp [Function.onFun, List.disjoint_left] at this
      tauto
    · have := List.pairwise_iff_getElem.mp h2 b' b hb' hb hlt
      simp [Function.onFun, List.disjoint_left] at this
      constructor; · tauto
      refine ⟨?_, ?_, ?_⟩ <;> tauto

theorem heldByBus_false {s : State} {c : Nat} : s.heldByBus c = false ↔ ∀ b, b < s.numBuses →
    ¬ ((s.bus b).heldRx = true ∧ (s.busCfg b).rxCh = c) ∧ ¬ ((s.bus b).heldTx = true ∧ (s.busCfg b).txCh = c) := by
  simp only [State.heldByBus, List.any_eq_false, List.mem_range, Bool.or_eq_true, Bool.and_eq_true, beq_iff_eq, not_or]

theorem valid_dir {m : Msg} {mode : Mode} (h : Msg.valid m mode = true) : phaseOfDir m.dir ≠ .idle ∧
    ((need mode m.dir).rx = true ∨ (need mode m.dir).tx = true) := by
  obtain ⟨dir, tx, rx, size, cb, sd⟩ := m
  unfold Msg.valid buffersOk modeOk at h
  have : dir = 0 ∨ dir = 1 ∨ dir = 2 ∨ dir = 3 := by
    clear h; revert dir; decide
  rcases this with rfl | rfl | rfl | rfl <;> cases mode <;> simp_all [phaseOfDir, need]

/-- The bus invariants in a state whose buses have channels of their own. -/
def TransferInv (s : State) : Prop := s.BusInv ∧ chansOk s.cfg

theorem transferInv_congr {s t : State} (h : TransferInv s) (hb : ∀ b, t.bus b = s.bus b) (hl : ∀ c, t.lock c = s.lock c)
    (he : ∀ c, t.extLock c = s.extLock c) (hd : ∀ p i, t.desc p i = s.desc p i) (hc : t.cfg = s.cfg) :
    TransferInv t := by
  refine ⟨busInv_congr (fun b => by rw [hb]; exact sameTransfer_refl _) hl (fun c => by rw [he]; exact id) hd hc h.1, ?_⟩
  rw [hc]; exact h.2

theorem transferInv_init {s : State} {b : Nat} (hb : b < s.numBuses) (hi : (s.bus b).inited = false ∨ s.busy b = false) (h : TransferInv s) : TransferInv (initBus b s) := by
  obtain ⟨hI, hch⟩ := h
  have hidle : (s.bus b).phase = .idle := by
    rcases hi with hi | hi
    · by_contra hp; have := hI.inited b hp; simp [hi] at this
    · simpa [State.busy] using hi
  have hheld : (s.bus b).heldRx = false ∧ (s.bus b).heldTx = false := by
    have := hI.held b; simp [hidle] at this; exact this
  have hbus : ∀ k, k ≠ b → (initBus b s).bus k = s.bus k := fun k hk => by rw [State.bus_initBus, if_neg (Ne.symm hk)]
  have hself : (initBus b s).bus b = Bus.afterInit := by rw [State.bus_initBus, if_pos rfl]
  have hn : (initBus b s).numBuses = s.numBuses := rfl
  refine ⟨⟨?_, ?_, ?_, ?_, ?_, ?_, ?_⟩, hch⟩
  · intro k
    by_cases e : k = b
    · subst e; rw [hself]; simp [Bus.afterInit]
    · rw [hbus k e]; exact hI.status k
  · intro k hp
    by_cases e : k = b
    · subst e; rw [hself] at hp; simp [Bus.afterInit] at hp
    · rw [hbus k e] at hp
      unfold State.current
      rw [hbus k e]; exact hI.index k hp
  · intro k
    by_cases e : k = b
    · subst e; rw [hself]; simp [Bus.afterInit]
    · rw [hbus k e]; exact hI.held k
  · intro k hk
    by_cases e : k = b
    · subst e; rw [hself]; simp [Bus.afterInit]
    · rw [hbus k e]; exact hI.locks k hk
  · intro k hp
    by_cases e : k = b
    · subst e; rw [hself] at hp; simp [Bus.afterInit] at hp
    · rw [hbus k e] at hp ⊢; exact hI.lists k hp
  · intro c hext
    refine ⟨(hI.ext c hext).1, ?_⟩
    have := (hI.ext c hext).2
    rw [heldByBus_false] at this ⊢
    intro k hk
    by_cases e : k = b
    · subst e; rw [hself]; simp [Bus.afterInit]
    · rw [hbus k e]; exact this k hk
  · intro k hp
    by_cases e : k = b
    · subst e; rw [hself] at hp; simp [Bus.afterInit] at hp
    · rw [hbus k e] at hp ⊢; exact hI.inited k hp

theorem transferInv_xfer {s : State} {b : Nat} (p n : Word) (hb : b < s.numBuses) (hi : (s.bus b).inited = true) (h : TransferInv s) : TransferInv (startXfer b p n s).2 := by
  rcases startXfer_cases b p n s with ⟨c, -, e⟩ | ⟨hp0, hn0, hidle, hval, hrx, htx, e⟩
  · rw [e]; exact h
  rw [e]
  obtain ⟨hI, hch⟩ := h
  have hbus : ∀ k, k ≠ b → (s.startedXfer b p n).bus k = s.bus k := fun k hk => by rw [State.bus_startedXfer, if_neg (Ne.symm hk)]
  have hself := State.bus_startedXfer s b p n b
  rw [if_pos rfl] at hself
  have hn : 0 < n.toNat := by have : n.toNat ≠ 0 := fun h0 => hn0 (BitVec.eq_of_toNat_eq (by simpa using h0)); omega
  have hv0 := valid_dir (hval 0 hn)
  have hne : (s.busCfg b).rxCh ≠ (s.busCfg b).txCh := (chans_ne hch hb hb).1
  refine ⟨⟨?_, ?_, ?_, ?_, ?_, ?_, ?_⟩, by simpa using hch⟩
  · intro k
    by_cases e : k = b
    · subst e; rw [hself]; simpa using hv0.1
    · rw [hbus k e]; exact hI.status k
  · intro k hp
    by_cases e : k = b
    · subst e; unfold State.current; rw [hself]; simp; exact hn
    · rw [hbus k e] at hp
      unfold State.current
      rw [hbus k e]; simpa [State.current] using hI.index k hp
  · intro k
    by_cases e : k = b
    · subst e; rw [hself]
      simp only [ne_eq, hv0.1, not_false_eq_true, iff_true]
      rcases hv0.2 with h1 | h1
      · left; simp only [needAll, List.any_eq_true]; exact ⟨_, (State.mem_descList _).mpr ⟨0, hn, rfl⟩, h1⟩
      · right; simp only [needAll, List.any_eq_true]; exact ⟨_, (State.mem_descList _).mpr ⟨0, hn, rfl⟩, h1⟩
    · rw [hbus k e]; exact hI.held k
  · intro k hk
    rw [State.numBuses_startedXfer] at hk
    rw [State.lock_startedXfer, State.lock_startedXfer, State.busCfg_startedXfer]
    by_cases e : k = b
    · subst e; rw [hself]; dsimp only
      constructor
      · intro h; simp [h]
      · intro h; simp [h]
    · rw [hbus k e]
      have := hI.locks k hk
      constructor
      · intro h; simp [this.1 h]
      · intro h; simp [this.2 h]
  · intro k hp
    by_cases e : k = b
    · subst e; rw [hself]; simpa using hval
    · rw [hbus k e] at hp ⊢; simpa using hI.lists k hp
  · intro c hext
    rw [State.extLock_startedXfer] at hext
    have hx := hI.ext c hext
    refine ⟨by rw [State.lock_startedXfer]; simp [hx.1], ?_⟩
    have := hx.2
    rw [heldByBus_false] at this ⊢
    intro k hk
    rw [State.numBuses_startedXfer] at hk
    rw [State.busCfg_startedXfer]
    by_cases e : k = b
    · subst e; rw [hself]
      constructor
      · rintro ⟨h1, rfl⟩; have := hrx h1; rw [hx.1] at this; cases this
      · rintro ⟨h1, rfl⟩; have := htx h1; rw [hx.1] at this; cases this
    · rw [hbus k e]; exact this k hk
  · intro k hp
    by_cases e : k = b
    · subst e; rw [hself]; simpa using ⟨hb, hi⟩
    · rw [hbus k e] at hp ⊢; simpa using hI.inited k hp

theorem transferInv_ended {s : State} {b : Nat} (st : Status) (e : BitVec 4) (hb : b < s.numBuses) (hst : st ≠ .transferring) (h : TransferInv s) : TransferInv (s.ended b st e) := by
  obtain ⟨hI, hch⟩ := h
  have hbus : ∀ k, k ≠ b → (s.ended b st e).bus k = s.bus k := fun k hk => by rw [State.bus_ended, if_neg (Ne.symm hk)]
  have hself := State.bus_ended s b st e b
  rw [if_pos rfl] at hself
  refine ⟨⟨?_, ?_, ?_, ?_, ?_, ?_, ?_⟩, by simpa using hch⟩
  · intro k
    by_cases e : k = b
    · subst e; rw [hself]; simpa using hst
    · rw [hbus k e]; exact hI.status k
  · intro k hp
    by_cases e : k = b
    · subst e; rw [hself] at hp; simp at hp
    · rw [hbus k e] at hp
      unfold State.current
      rw [hbus k e]; simpa [State.current] using hI.index k hp
  · intro k
    by_cases e : k = b
    · subst e; rw [hself]; simp
    · rw [hbus k e]; exact hI.held k
  · intro k hk
    rw [State.numBuses_ended] at hk
    rw [State.lock_ended, State.lock_ended, State.busCfg_ended]
    by_cases e : k = b
    · subst e; rw [hself]; simp
    · rw [hbus k e]
      have := hI.locks k hk
      have hne := (chans_ne hch hb hk).2 (Ne.symm e)
      constructor
      · intro h; rw [if_neg]; · exact this.1 h
        rintro (⟨_, h2⟩ | ⟨_, h2⟩)
        · exact hne.1 h2.symm
        · exact hne.2.2.1 h2.symm
      · intro h; rw [if_neg]; · exact this.2 h
        rintro (⟨_, h2⟩ | ⟨_, h2⟩)
        · exact hne.2.1 h2.symm
        · exact hne.2.2.2 h2.symm
  · intro k hp
    by_cases e : k = b
    · subst e; rw [hself] at hp; simp at hp
    · rw [hbus k e] at hp ⊢; simpa using hI.lists k hp
  · intro c hext
    rw [State.extLock_ended] at hext
    have hx := hI.ext c hext
    have h2 := hx.2
    rw [heldByBus_false] at h2
    refine ⟨?_, ?_⟩
    · rw [State.lock_ended, if_neg]; · exact hx.1
      rintro (⟨h3, rfl⟩ | ⟨h3, rfl⟩)
      · exact (h2 b hb).1 ⟨h3, rfl⟩
      · exact (h2 b hb).2 ⟨h3, rfl⟩
    · rw [heldByBus_false]
      intro k hk
      rw [State.numBuses_ended] at hk
      rw [State.busCfg_ended]
      by_cases e : k = b
      · subst e; rw [hself]; simp
      · rw [hbus k e]; exact h2 k hk
  · intro k hp
    by_cases e : k = b
    · subst e; rw [hself] at hp; simp at hp
    · rw [hbus k e] at hp ⊢; simpa using hI.inited k hp

theorem transferInv_advance {s : State} {b : Nat} (hb : b < s.numBuses) (hbusy : s.busy b = true) (hlt : (s.bus b).index.toNat + 1 < (s.bus b).count.toNat)
    (h : TransferInv s) : TransferInv (advance b ((s.bus b).index + 1) s) := by
  obtain ⟨hI, hch⟩ := h
  have hp : (s.bus b).phase ≠ .idle := by simpa [State.busy] using hbusy
  have hidx : ((s.bus b).index + 1).toNat = (s.bus b).index.toNat + 1 := by
    have := (s.bus b).count.isLt; bv_omega
  have hv := hI.lists b hp ((s.bus b).index.toNat + 1) hlt
  have hd := valid_dir hv
  have hself : ((advance b ((s.bus b).index + 1) s).bus b) =
      let m := s.desc (s.bus b).messages ((s.bus b).index.toNat + 1)
      { s.bus b with
        index := (s.bus b).index + 1, phase := phaseOfDir m.dir, pos := 0,
        rxdmaen := (need (s.busCfg b).mode m.dir).rx, txdmaen := (need (s.busCfg b).mode m.dir).tx } := by
    unfold advance; simp only [hidx]; rw [State.bus_arm]; simp
  have hbus : ∀ k, k ≠ b → (advance b ((s.bus b).index + 1) s).bus k = s.bus k := fun k hk => by
    unfold advance; rw [State.bus_arm, if_neg (Ne.symm hk), State.bus_setBus, if_neg (Ne.symm hk)]
  have hn : (advance b ((s.bus b).index + 1) s).numBuses = s.numBuses := rfl
  have hdesc : ∀ q i, (advance b ((s.bus b).index + 1) s).desc q i = s.desc q i := fun _ _ => rfl
  have hlock : ∀ c, (advance b ((s.bus b).index + 1) s).lock c = s.lock c := fun _ => rfl
  have hcfg : ∀ c, (advance b ((s.bus b).index + 1) s).busCfg c = s.busCfg c := fun _ => rfl
  have hext : ∀ c, (advance b ((s.bus b).index + 1) s).extLock c = s.extLock c := fun _ => rfl
  generalize ht : advance b ((s.bus b).index + 1) s = t at *
  have hcc : chansOk t.cfg := by rw [← ht]; exact hch
  refine ⟨⟨?_, ?_, ?_, ?_, ?_, ?_, ?_⟩, hcc⟩
  · intro k
    by_cases e : k = b
    · subst e; rw [hself]; simp only [ne_eq, hd.1, not_false_eq_true, iff_true]; exact (hI.status k).mpr hp
    · rw [hbus k e]; exact hI.status k
  · intro k hp'
    by_cases e : k = b
    · subst e; unfold State.current; rw [hdesc, hself]; dsimp only; rw [hidx]; exact ⟨hlt, rfl⟩
    · rw [hbus k e] at hp'
      unfold State.current
      rw [hbus k e, hdesc]; exact hI.index k hp'
  · intro k
    by_cases e : k = b
    · subst e; rw [hself]; simp only [ne_eq, hd.1, not_false_eq_true, iff_true]; exact (hI.held k).mpr hp
    · rw [hbus k e]; exact hI.held k
  · intro k hk
    rw [hlock, hlock, hcfg]
    have := hI.locks k (by rwa [hn] at hk)
    by_cases e : k = b
    · subst e; rw [hself]; exact this
    · rw [hbus k e]; exact this
  · intro k hp' i
    rw [hdesc, hcfg]
    by_cases e : k = b
    · subst e; rw [hself]; exact hI.lists k hp i
    · rw [hbus k e] at hp' ⊢; exact hI.lists k hp' i
  · intro c hx
    rw [hext] at hx
    have hx := hI.ext c hx
    refine ⟨by rw [hlock]; exact hx.1, ?_⟩
    have h2 := hx.2
    rw [heldByBus_false] at h2 ⊢
    intro k hk
    rw [hcfg]
    have := h2 k (by rwa [hn] at hk)
    by_cases e : k = b
    · subst e; rw [hself]; exact this
    · rw [hbus k e]; exact this
  · intro k hp'
    by_cases e : k = b
    · subst e; rw [hself, hn]; exact hI.inited k hp
    · rw [hbus k e] at hp' ⊢; rw [hn]; exact hI.inited k hp'

theorem transferInv_desc {s : State} (p i : Word) (m : Msg) (hd : s.descInFlight p i = false) (h : TransferInv s) : TransferInv (s.setDesc p i m) := by
  obtain ⟨hI, hch⟩ := h
  have key : ∀ b, (s.bus b).phase ≠ .idle → ∀ j, j < (s.bus b).count.toNat → (s.setDesc p i m).desc (s.bus b).messages j = s.desc (s.bus b).messages j := by
    intro b hp j hj
    rw [State.desc_setDesc _ _ _ _ _ (by have := (s.bus b).count.isLt; omega), if_neg]
    rintro ⟨rfl, rfl⟩
    unfold State.descInFlight at hd
    rw [List.any_eq_false] at hd
    have := hd b (by simpa using (hI.inited b hp).1)
    simp [hp, BitVec.lt_def] at this
    omega
  refine ⟨⟨hI.status, ?_, hI.held, hI.locks, ?_, hI.ext, hI.inited⟩, hch⟩
  · intro b hp
    have := hI.index b hp
    refine ⟨this.1, ?_⟩
    show _ = phaseOfDir ((s.setDesc p i m).desc (s.bus b).messages (s.bus b).index.toNat).dir
    rw [key b hp _ this.1]; exact this.2
  · intro b hp j hj
    show Msg.valid ((s.setDesc p i m).desc (s.bus b).messages j) _ = true
    rw [key b hp j hj]; exact hI.lists b hp j hj

theorem transferInv_lock {s : State} {c : Nat} (hl : s.lock c = false) (h : TransferInv s) : TransferInv (s.setLock c true) := by
  obtain ⟨hI, hch⟩ := h
  refine ⟨⟨hI.status, hI.index, hI.held, ?_, hI.lists, ?_, hI.inited⟩, hch⟩
  · intro b hb
    have := hI.locks b hb
    simp only [State.lock_setLock]
    constructor
    · intro h; split; · rfl
      exact this.1 h
    · intro h; split; · rfl
      exact this.2 h
  · intro d hx
    have := hI.ext d hx
    refine ⟨?_, this.2⟩
    rw [State.lock_setLock]; split; · rfl
    exact this.1

theorem transferInv_unlock {s : State} {c : Nat} (hl : s.heldByBus c = false) (h : TransferInv s) : TransferInv ((s.setLock c false).setExt c false) := by
  obtain ⟨hI, hch⟩ := h
  have hl' := heldByBus_false.mp hl
  refine ⟨⟨hI.status, hI.index, hI.held, ?_, hI.lists, ?_, hI.inited⟩, hch⟩
  · intro b hb
    have := hI.locks b hb
    have h3 := hl' b hb
    simp only [State.lock_setExt, State.lock_setLock]
    constructor
    · intro h; rw [if_neg]; · exact this.1 h
      intro e; exact h3.1 ⟨h, e.symm⟩
    · intro h; rw [if_neg]; · exact this.2 h
      intro e; exact h3.2 ⟨h, e.symm⟩
  · intro d hx
    rw [State.extLock_setExt] at hx
    split at hx; · cases hx
    next hne =>
    have := hI.ext d hx
    refine ⟨?_, this.2⟩
    simp [State.lock_setLock, hne, this.1]

theorem transferInv_envLock {s : State} {c : Nat} (hl : s.lock c = false) (h : TransferInv s) : TransferInv ((s.setLock c true).setExt c true) := by
  have h1 := transferInv_lock hl h
  obtain ⟨hI, hch⟩ := h
  refine ⟨⟨hI.status, hI.index, hI.held, h1.1.locks, hI.lists, ?_, hI.inited⟩, hch⟩
  intro d hx
  rw [State.extLock_setExt] at hx
  by_cases e : c = d
  · subst e
    refine ⟨by simp, ?_⟩
    show s.heldByBus c = false
    rw [heldByBus_false]
    intro b hb
    have := hI.locks b hb
    constructor
    · rintro ⟨h, rfl⟩; rw [this.1 h] at hl; cases hl
    · rintro ⟨h, rfl⟩; rw [this.2 h] at hl; cases hl
  · rw [if_neg e] at hx; exact h1.1.ext d hx

theorem chansOk_of_step {s t : State} (h : step s = .next t) : chansOk s.cfg := by
  unfold step stepWith at h
  split at h
  · cases h
  · next hc =>
    unfold configRefusal at hc
    by_contra hn
    unfold chansOk at hn
    simp only [hn, not_false_eq_true, if_true] at hc
    split at hc
    · cases hc
    split at hc
    · cases hc
    split at hc
    · cases hc
    · cases hc

end Sys2Proof.Machine
end

