-- ==== Sys2Proof/Laws/Frame.lean ====
section
/-! SUPPORT. What each update and each shared operation leaves unchanged, in the terms of `changesOnly`. -/

namespace Sys2Proof.Machine

/-! ## Composition -/

theorem samePart_refl (p : Part) (s : State) : samePart p s s := by cases p <;> simp [samePart]

theorem samePart_trans {p : Part} {s t u : State} (h1 : samePart p s t) (h2 : samePart p t u) : samePart p s u := by
  cases p <;> simp only [samePart] at * <;>
    first
    | exact h2.trans h1
    | exact fun a => (h2 a).trans (h1 a)
    | exact fun a b => (h2 a b).trans (h1 a b)
    | exact ⟨h2.1.trans h1.1, h2.2.trans h1.2⟩
    | exact ⟨h2.1.trans h1.1, h2.2.1.trans h1.2.1, h2.2.2.trans h1.2.2⟩

theorem changesOnly_refl (ps : List Part) (s : State) : changesOnly ps s s := fun p _ => samePart_refl p s

theorem changesOnly.mono {ps qs : List Part} {s t : State} (h : changesOnly ps s t) (hq : ps ⊆ qs) :
    changesOnly qs s t := fun p hp => h p (fun hm => hp (hq hm))

theorem changesOnly.trans {ps qs : List Part} {s t u : State} (h1 : changesOnly ps s t) (h2 : changesOnly qs t u) :
    changesOnly (ps ++ qs) s u := fun p hp =>
  samePart_trans (h1 p (fun hm => hp (List.mem_append_left _ hm))) (h2 p (fun hm => hp (List.mem_append_right _ hm)))

/-- Two changes within the same parts. -/
theorem changesOnly.then {ps : List Part} {s t u : State} (h1 : changesOnly ps s t) (h2 : changesOnly ps t u) :
    changesOnly ps s u := fun p hp => samePart_trans (h1 p hp) (h2 p hp)

/-! ## Single updates -/

theorem frame_setFut (s : State) (f : Nat) (v : Future) : changesOnly [.futs] s (s.setFut f v) := by
  intro p hp; cases p <;> simp_all [samePart]

theorem frame_setBus (s : State) (b : Nat) (v : Bus) : changesOnly [.buses] s (s.setBus b v) := by
  intro p hp; cases p <;> simp_all [samePart]

theorem frame_setChan (s : State) (c : Nat) (v : Chan) : changesOnly [.chans] s (s.setChan c v) := by
  intro p hp; cases p <;> simp_all [samePart]

theorem frame_setLock (s : State) (c : Nat) (v : Bool) : changesOnly [.locks] s (s.setLock c v) := by
  intro p hp; cases p <;> simp_all [samePart]

theorem frame_setExt (s : State) (c : Nat) (v : Bool) : changesOnly [.ext] s (s.setExt c v) := by
  intro p hp; cases p <;> simp_all [samePart]

theorem frame_setSes (s : State) (i : Nat) (v : Session) : changesOnly [.sess] s (s.setSes i v) := by
  intro p hp; cases p <;> simp_all [samePart]

theorem frame_setAdp (s : State) (a : Nat) (v : Adapter) : changesOnly [.adps] s (s.setAdp a v) := by
  intro p hp; cases p <;> simp_all [samePart]

theorem frame_setFg (s : State) (x : Fg) : changesOnly [.control] s (s.setFg x) := by
  intro p hp; cases p <;> simp_all [samePart]

theorem frame_setProg (s : State) (x : List Byte) : changesOnly [.control] s (s.setProg x) := by
  intro p hp; cases p <;> simp_all [samePart]

theorem frame_setIsr (s : State) (x : Bool) : changesOnly [.control] s (s.setIsr x) := by
  intro p hp; cases p <;> simp_all [samePart]

theorem frame_setTurns (s : State) (x : List Turn) : changesOnly [.turns] s (s.setTurns x) := by
  intro p hp; cases p <;> simp_all [samePart]

theorem frame_setFgRet (s : State) (x : Result) : changesOnly [.result] s (s.setFgRet x) := by
  intro p hp; cases p <;> simp_all [samePart]

theorem frame_setIsrRet (s : State) (x : Result) : changesOnly [.result] s (s.setIsrRet x) := by
  intro p hp; cases p <;> simp_all [samePart]

theorem frame_bumpDraws (s : State) : changesOnly [.draws] s s.bumpDraws := by
  intro p hp; cases p <;> simp_all [samePart]

theorem frame_setDirty (s : State) (x : List (Nat × Nat)) : changesOnly [.dirty] s (s.setDirty x) := by
  intro p hp; cases p <;> simp_all [samePart]

theorem frame_setAnswers (s : State) (b : Nat) (x : List Byte) : changesOnly [.answers] s (s.setAnswers b x) := by
  intro p hp; cases p <;> simp_all [samePart]

theorem frame_setCallback (s : State) (cb : Nat) (x : Callback) : changesOnly [.callbacks] s (s.setCallback cb x) := by
  intro p hp; cases p <;> simp_all [samePart]

theorem frame_setOpRec (s : State) (op : Nat) (r : OpRec) : changesOnly [.opRecs] s (s.setOpRec op r) := by
  intro p hp; cases p <;> simp_all [samePart]

theorem frame_setDesc (s : State) (p i : Word) (m : Msg) : changesOnly [.descs] s (s.setDesc p i m) := by
  intro p hp; cases p <;> simp_all [samePart]

theorem frame_storeByte (s : State) (a : Word) (v : Byte) : changesOnly [.mem] s (s.storeByte a v) := by
  intro p hp; cases p <;> simp_all [samePart]

theorem frame_send (s : State) (b : Nat) (t : Byte) : changesOnly [.wire] s (s.send b t) := by
  intro p hp; cases p <;> simp_all [samePart]

theorem frame_logCall (s : State) (cb : Word) (arg : CbArg) : changesOnly [.calls] s (s.logCall cb arg) := by
  intro p hp; cases p <;> simp_all [samePart]

theorem frame_setFaults (s : State) (x : List (Agent × Fault)) : changesOnly [.faults] s (s.setFaults x) := by
  intro p hp; cases p <;> simp_all [samePart]

theorem frame_setHung (s : State) (x : Bool) : changesOnly [.faults] s (s.setHung x) := by
  intro p hp; cases p <;> simp_all [samePart]

theorem frame_setRet (s : State) (r : Result) : changesOnly [.result] s (s.setRet r) := by
  unfold State.setRet; split
  · exact frame_setIsrRet _ _
  · exact frame_setFgRet _ _

@[simp] theorem result_setRet (s : State) (r : Result) : (s.setRet r).result = r := by
  unfold State.result State.setRet
  by_cases h : s.isr = true <;> simp [h]

/-- An operation that ends by recording its result completes with it. -/
theorem completes_of {i : Instr} {s t : State} {r : Result} {ps : List Part} {q : State → Prop}
    (h : exec i s = .next (t.setRet r)) (hc : changesOnly ps s t) (hq : q (t.setRet r)) : completes i s r ps q :=
  ⟨_, h, result_setRet _ _, (hc.trans (frame_setRet _ _)).mono (by intro p hp; simp at hp ⊢; tauto), hq⟩

/-! ## Shared operations -/

theorem frame_writeByte (s : State) (a : Word) (v : Byte) : changesOnly [.mem, .dirty, .draws] s (s.writeByte a v) := by
  obtain ⟨t, w, rfl | rfl, e⟩ := s.writeByte_eq a v <;> rw [e]
  · exact ((frame_storeByte t a w).trans (frame_setDirty _ _)).mono (by simp)
  · exact (((frame_bumpDraws s).trans (frame_storeByte _ a w)).trans (frame_setDirty _ _)).mono (by simp)

theorem frame_writeBytes (l : List Byte) (a : Word) (s : State) :
    changesOnly [.mem, .dirty, .draws] s (State.writeBytes a l s) := by
  induction l generalizing a s with
  | nil => exact changesOnly_refl _ _
  | cons v l ih => exact (frame_writeByte s a v).then (ih _ _)

/-- Software's write of a list of bytes does what `wroteBytes` says. -/
theorem wroteBytes_writeBytes (l : List Byte) (a : Word) (s : State) (hl : l.length < 2 ^ 32) :
    wroteBytes a l s (State.writeBytes a l s) := by
  refine ⟨fun c => ?_, fun c hc hf => s.writeBytes_mem_of_covered l a c hc hl hf, fun h => ?_⟩
  · by_cases hc : (c - a).toNat < l.length
    · exact .inr hc
    · exact .inl (s.writeBytes_mem_of_not_covered l a c (by omega) hl)
  · refine s.writeBytes_draws l a fun i hi => h _ ?_
    have : i % 2 ^ 32 = i := Nat.mod_eq_of_lt (by omega)
    rw [BitVec.add_comm, BitVec.add_sub_cancel]
    rw [BitVec.toNat_ofNat, this]; exact hi

theorem wroteBytes_writeByte (a : Word) (v : Byte) (s : State) : wroteBytes a [v] s (s.writeByte a v) :=
  wroteBytes_writeBytes [v] a s (by simp)

theorem frame_readByte (s : State) (a : Word) : changesOnly [.draws] s (s.readByte a).2 := by
  unfold State.readByte; split
  · exact frame_bumpDraws s
  · exact changesOnly_refl _ _

theorem frame_readBytes (n : Nat) (a : Word) (s : State) : changesOnly [.draws] s (State.readBytes n a s).2 := by
  induction n generalizing a s with
  | zero => exact changesOnly_refl _ _
  | succ n ih => exact (frame_readByte s a).then (ih _ _)

theorem frame_takeAnswer (s : State) (b : Nat) : changesOnly [.answers, .draws] s (s.takeAnswer b).2 := by
  unfold State.takeAnswer; split
  · exact (frame_setAnswers s b _).mono (by simp)
  · exact (frame_bumpDraws s).mono (by simp)

/-- An exchange with an answer queued. -/
theorem exchange_eq {s : State} {b : Nat} {r : Byte} {rs : List Byte} (t : Byte) (h : s.answersOf b = r :: rs) :
    exchange b t s = (r, (s.send b t).setAnswers b rs) := by
  unfold exchange State.takeAnswer
  rw [State.answersOf_send, h]

/-- A byte exchange of an idle bus with an answer queued. -/
theorem xmit_eq {s : State} {b : Nat} {r : Byte} {rs : List Byte} (t : Byte) (hb : s.busy b = false)
    (h : s.answersOf b = r :: rs) : xmit b t s = (.noError, r, (s.send b t).setAnswers b rs) := by
  simp [xmit, hb, exchange_eq t h]

theorem frame_exchange (s : State) (b : Nat) (t : Byte) :
    changesOnly [.wire, .answers, .draws] s (exchange b t s).2 :=
  ((frame_send s b t).trans (frame_takeAnswer _ b)).mono (by simp)

theorem frame_setTransferId (s : State) (b : Nat) (id : Byte) :
    changesOnly [.buses] s (setTransferId b id s).2 := by
  unfold setTransferId; split
  · exact changesOnly_refl _ _
  · exact frame_setBus s b _

theorem frame_setSpeed (s : State) (b : Nat) (sp : Speed) : changesOnly [.buses] s (setSpeed b sp s).2 := by
  unfold setSpeed; split
  · exact changesOnly_refl _ _
  · exact frame_setBus s b _

theorem frame_initBus (s : State) (b : Nat) : changesOnly [.buses, .chans] s (initBus b s) :=
  ((frame_setBus s b _).trans ((frame_setChan _ _ _).trans (frame_setChan _ _ _))).mono (by simp)

theorem frame_arm (s : State) (b : Nat) (m : Msg) : changesOnly [.buses, .chans] s (arm b m s) :=
  ((frame_setBus s b _).trans ((frame_setChan _ _ _).trans (frame_setChan _ _ _))).mono (by simp)

theorem frame_disarm (s : State) (b : Nat) : changesOnly [.buses, .chans] s (disarm b s) :=
  ((frame_setChan s _ _).trans ((frame_setChan _ _ _).trans (frame_setBus _ _ _))).mono (by simp)

theorem frame_takeLocks (s : State) (b : Nat) (w : ChanSet) : changesOnly [.locks] s (s.takeLocks b w) := by
  unfold State.takeLocks; dsimp only
  split <;> split
  · exact (frame_setLock s _ _).then (frame_setLock _ _ _)
  · exact frame_setLock s _ _
  · exact frame_setLock s _ _
  · exact changesOnly_refl _ _

theorem frame_releaseHeld (s : State) (b : Nat) : changesOnly [.buses, .locks] s (releaseHeld b s) := by
  unfold releaseHeld; dsimp only
  refine changesOnly.then ?_ ((frame_setBus _ b _).mono (by simp))
  split <;> split
  · exact ((frame_setLock s _ _).then (frame_setLock _ _ _)).mono (by simp)
  · exact (frame_setLock s _ _).mono (by simp)
  · exact (frame_setLock s _ _).mono (by simp)
  · exact changesOnly_refl _ _

theorem frame_startedXfer (s : State) (b : Nat) (p n : Word) :
    changesOnly [.buses, .chans, .locks, .dirty] s (s.startedXfer b p n) :=
  ((frame_takeLocks s b _).trans ((frame_setBus _ b _).trans ((frame_setDirty _ _).trans (frame_arm _ b _)))).mono
    (by simp)

theorem frame_ended (s : State) (b : Nat) (st : Status) (e : BitVec 4) :
    changesOnly [.buses, .chans, .locks] s (s.ended b st e) :=
  ((frame_disarm s b).trans ((frame_releaseHeld _ b).trans (frame_setBus _ b _))).mono (by simp)

/-- The transition to success, up to its callback, is `ended` with the errors as they were. -/
theorem terminalSuccess_eq (b : Nat) (s : State) :
    terminalSuccess b s =
      invoke (s.bus b).callback (.bus b) (s.ended b .transferred (s.bus b).errors) := by
  have he : ((releaseHeld b (disarm b s)).bus b).errors = (s.bus b).errors := by
    unfold releaseHeld disarm
    cases h3 : (s.bus b).heldRx <;> cases h4 : (s.bus b).heldTx <;> simp [h3, h4]
  have hc : ((s.ended b .transferred (s.bus b).errors).bus b).callback = (s.bus b).callback := by
    rw [State.bus_ended]; simp
  rw [← hc]
  simp only [terminalSuccess, State.ended, ← he]

/-- The transition to error, up to its callback, is `ended` with the error accumulated. -/
theorem terminalError_eq (b : Nat) (e : BitVec 4) (s : State) :
    terminalError b e s =
      invoke (s.bus b).callback (.bus b) (s.ended b .error ((s.bus b).errors ||| e)) := by
  have he : ((releaseHeld b (disarm b s)).bus b).errors = (s.bus b).errors := by
    unfold releaseHeld disarm
    cases h3 : (s.bus b).heldRx <;> cases h4 : (s.bus b).heldTx <;> simp [h3, h4]
  have hc : ((s.ended b .error ((s.bus b).errors ||| e)).bus b).callback = (s.bus b).callback := by
    rw [State.bus_ended]; simp
  rw [← hc]
  simp only [terminalError, State.ended, ← he]

/-- An invocation that issues nothing is recorded, and NONE is not. -/
theorem invoke_silent (cb : Word) (arg : CbArg) (s : State) (h : s.silent cb) :
    ∃ t, invoke cb arg s = .next t ∧ changesOnly [.calls] s t ∧ t.calls = callsAfter cb arg s.calls := by
  unfold invoke callsAfter
  split
  · exact ⟨s, rfl, changesOnly_refl _ _, rfl⟩
  · next hcb =>
    rcases h with h | h
    · exact absurd h hcb
    · have e : (s.logCall cb arg).takeActs cb = ([], s.logCall cb arg) := by
        unfold State.takeActs; rw [State.callback_logCall]; rcases h with h | h <;> rw [h]
      exact ⟨s.logCall cb arg, by rw [e]; rfl, frame_logCall s cb arg, rfl⟩

/-! ## Guards -/

theorem withBus_ready {α : Type} {s : State} {b : Nat} (h : s.busReady b) (k : Res α) : withBus b s k = k :=
  withBus_eq k h.1 h.2

/-- The entry of an SD operation on a session that is ready. -/
theorem withSdSession_ready {α : Type} {s : State} {i : Nat} (h : s.sdReady i) (k : Res α) :
    withSdSession i s k = k := by
  simp [withSdSession, withSession, h.1, h.2.1, withBus_ready h.2.2.2]

theorem withSdBus_ready {α : Type} {s : State} {i : Nat} (h : s.sdReady i) (k : Res α) : withSdBus i s k = k := by
  simp [withSdBus, h.2.2.1]

/-! ## Runs of FG -/

theorem fgRun_succ (n : Nat) (s : State) : fgRun (n + 1) s = andThen (fgTurn exec s) (fgRun n) := rfl

theorem fgRun_add (m n : Nat) (s : State) : fgRun (m + n) s = andThen (fgRun m s) (fgRun n) := by
  induction m generalizing s with
  | zero => simp [fgRun]
  | succ m ih =>
    rw [Nat.succ_add, fgRun_succ, fgRun_succ]
    cases h : fgTurn exec s with
    | next t => simp [ih]
    | fault e => rfl
    | refused e => rfl

/-- FG's turn at an exchange with an answer queued goes on at the exchange's frames. -/
theorem fgTurn_xchg {s : State} {b : Nat} {t r : Byte} {rs : List Byte} {k : List Frame}
    (hf : s.fg = .busy (.xchg b t) k) (hb : s.busReady b) (hi : s.busy b = false) (ha : s.answersOf b = r :: rs) :
    fgTurn exec s =
      unwind k { code := .noError, byte := r, val := 0 } ((s.send b t).setAnswers b rs) := by
  simp only [fgTurn, hf, performAct]
  rw [withBus_ready hb, xmit_eq t hi ha]
  rfl

end Sys2Proof.Machine
end

