-- ==== Sys2Proof/Laws/Irq.lean ====
section
/-! SUPPORT. What each handler does in each of its cases, up to the callback it invokes. -/

namespace Sys2Proof.Machine

/-- An IRQ operation whose handler goes on is the handler's state with the context restored and no result. -/
theorem handlerOp_next {body : Nat → State → Res State} {b : Word} {s t : State} (hr : s.busReady b.toNat)
    (h : body b.toNat s.enterIsr = .next t) : handlerOp body b s = .next ((t.setIsr s.isr).setRet .none) := by
  unfold handlerOp takeInterrupt
  rw [withBus_ready hr, h]; rfl

/-- An invocation whose only act is an IRQ operation on a bus that is ready is recorded, and no handler runs in it. -/
theorem invoke_irq {s : State} {cb b : Word} {j : Instr} (arg : CbArg) (hcb : cb ≠ 0) (hr : s.busReady b.toNat)
    (hj : j = .irqSpi b ∨ j = .irqDmaRx b ∨ j = .irqDmaTx b) (h : s.callback cb.toNat = .always [.op j]) :
    invoke cb arg s = .next ((s.logCall cb arg).setRet .none) := by
  have e : (s.logCall cb arg).takeActs cb = ([.op j], s.logCall cb arg) := by
    unfold State.takeActs; rw [State.callback_logCall, h]
  have hr' : (s.logCall cb arg).busReady b.toNat := hr
  unfold invoke
  rw [if_neg hcb, e]
  rcases hj with rfl | rfl | rfl <;> simp [runActs, callOp, laterHandler, withBus_ready hr', andThen]

/-- Leaving a handler restores the context that entering it changed. -/
theorem frame_handler {s t : State} {ps : List Part} (h : changesOnly ps s.enterIsr t)
    (hf : t.fg = s.fg) (hp : t.prog = s.prog) : changesOnly ps s (t.setIsr s.isr) := by
  intro p hm
  have hs := h p hm
  cases p
  case control => exact ⟨hf, hp, rfl⟩
  all_goals exact hs

/-- A transfer error on a bus in a transfer: both flags of the channel are cleared, and the transfer ends in ERROR. -/
theorem dmaHandler_error {b c : Nat} {mine : Phase → Bool} {s : State} (hte : (s.chan c).te = true)
    (hie : (s.chan c).teie = true) (hp : s.busy b = true) :
    dmaHandler b c mine s =
      invoke (s.bus b).callback (.bus b)
        ((s.setChan c { s.chan c with te := false, tc := (s.chan c).tc && !(s.chan c).tcie }).ended b .error
          ((s.bus b).errors ||| errDma)) := by
  have hp' : (s.bus b).phase ≠ .idle := by simpa [State.busy] using hp
  unfold dmaHandler
  dsimp only
  rw [hte, hie, Bool.and_self, if_pos rfl, if_neg hp', terminalError_eq, State.bus_setChan]

/-- A transfer error on an IDLE bus is accumulated. -/
theorem dmaHandler_error_idle {b c : Nat} {mine : Phase → Bool} {s : State}
    (hte : (s.chan c).te = true) (hie : (s.chan c).teie = true) (hp : (s.bus b).phase = .idle) :
    dmaHandler b c mine s =
      .next ((s.setChan c { s.chan c with te := false, tc := (s.chan c).tc && !(s.chan c).tcie }).setBus b
        { s.bus b with errors := (s.bus b).errors ||| errDma }) := by
  unfold dmaHandler
  dsimp only
  rw [hte, hie, Bool.and_self, if_pos rfl, if_pos hp, State.bus_setChan]

/-- A transfer-complete of the completing channel completes the message. -/
theorem dmaHandler_complete {b c : Nat} {mine : Phase → Bool} {s : State}
    (hte : (s.chan c).te = false ∨ (s.chan c).teie = false) (htc : (s.chan c).tc = true)
    (hie : (s.chan c).tcie = true) (hp : mine (s.bus b).phase = true) :
    dmaHandler b c mine s = messageDone b (s.setChan c { s.chan c with tc := false }) := by
  have h : ((s.chan c).te && (s.chan c).teie) = false := by rcases hte with h | h <;> simp [h]
  unfold dmaHandler
  dsimp only
  rw [h, htc, hie, if_neg Bool.false_ne_true, Bool.and_self, if_pos rfl, if_pos hp]

/-- A transfer-complete of another channel is cleared. -/
theorem dmaHandler_other {b c : Nat} {mine : Phase → Bool} {s : State}
    (hte : (s.chan c).te = false ∨ (s.chan c).teie = false) (htc : (s.chan c).tc = true)
    (hie : (s.chan c).tcie = true) (hp : mine (s.bus b).phase = false) :
    dmaHandler b c mine s = .next (s.setChan c { s.chan c with tc := false }) := by
  have h : ((s.chan c).te && (s.chan c).teie) = false := by rcases hte with h | h <;> simp [h]
  unfold dmaHandler
  dsimp only
  rw [h, htc, hie, if_neg Bool.false_ne_true, Bool.and_self, if_pos rfl, hp, if_neg Bool.false_ne_true]

/-- A handler with nothing pending and enabled does nothing. -/
theorem dmaHandler_none {b c : Nat} {mine : Phase → Bool} {s : State}
    (h : (s.chan c).pending = false) : dmaHandler b c mine s = .next s := by
  simp only [Chan.pending, Bool.or_eq_false_iff] at h
  unfold dmaHandler
  dsimp only
  rw [h.1, h.2, if_neg Bool.false_ne_true, if_neg Bool.false_ne_true]

/-- The end of a message that is not the last: its callback, then the advance. -/
theorem messageDone_more {b : Nat} {s : State}
    (h : (s.bus b).index.toNat + 1 < (s.bus b).count.toNat) :
    messageDone b s =
      andThen (invoke (s.current b).callback (.msg (s.current b)) s)
        (fun t => .next (advance b ((s.bus b).index + 1) t)) := by
  unfold messageDone
  dsimp only
  rw [if_pos h]; rfl

/-- The end of the last message: its callback, then the transition to success. -/
theorem messageDone_last {b : Nat} {s : State}
    (h : (s.bus b).count.toNat ≤ (s.bus b).index.toNat + 1) :
    messageDone b s =
      andThen (invoke (s.current b).callback (.msg (s.current b)) s) (terminalSuccess b) := by
  unfold messageDone
  dsimp only
  rw [if_neg (by omega)]; rfl

/-- A pending SPI error on a bus in a transfer: the flags are cleared, and the transfer ends in ERROR. -/
theorem spiHandler_error {b : Nat} {s : State} (h : s.spiPending b = true) (hp : s.busy b = true) :
    spiHandler b s =
      invoke (s.bus b).callback (.bus b)
        ((s.setBus b { s.bus b with ovr := false, modf := false, crcerr := false }).ended b .error
          ((s.bus b).errors ||| spiErrors (s.bus b).ovr (s.bus b).modf (s.bus b).crcerr)) := by
  have hp' : (s.bus b).phase ≠ .idle := by simpa [State.busy] using hp
  simp only [State.spiPending, Bool.and_eq_true] at h
  have hg : ¬((s.bus b).errie = false ∨ spiErrors (s.bus b).ovr (s.bus b).modf (s.bus b).crcerr = 0) := by
    rintro (h1 | h1)
    · rw [h1] at h; exact absurd h.1 (by simp)
    · have h2 := h.2
      revert h1 h2
      cases (s.bus b).ovr <;> cases (s.bus b).modf <;> cases (s.bus b).crcerr <;> decide
  unfold spiHandler
  dsimp only
  rw [if_neg hg, if_neg hp', terminalError_eq, State.bus_setBus_self]

/-- A pending SPI error on an IDLE bus is cleared and accumulated. -/
theorem spiHandler_error_idle {b : Nat} {s : State} (h : s.spiPending b = true)
    (hp : (s.bus b).phase = .idle) :
    spiHandler b s =
      .next ((s.setBus b { s.bus b with ovr := false, modf := false, crcerr := false }).setBus b
        { s.bus b with
          ovr := false, modf := false, crcerr := false,
          errors := (s.bus b).errors ||| spiErrors (s.bus b).ovr (s.bus b).modf (s.bus b).crcerr }) := by
  simp only [State.spiPending, Bool.and_eq_true] at h
  have hg : ¬((s.bus b).errie = false ∨ spiErrors (s.bus b).ovr (s.bus b).modf (s.bus b).crcerr = 0) := by
    rintro (h1 | h1)
    · rw [h1] at h; exact absurd h.1 (by simp)
    · have h2 := h.2
      revert h1 h2
      cases (s.bus b).ovr <;> cases (s.bus b).modf <;> cases (s.bus b).crcerr <;> decide
  unfold spiHandler
  dsimp only
  rw [if_neg hg, if_pos hp, State.bus_setBus_self]

/-- IRQ.SPI with nothing pending and enabled does nothing. -/
theorem spiHandler_none {b : Nat} {s : State} (h : s.spiPending b = false) :
    spiHandler b s = .next s := by
  have hg : (s.bus b).errie = false ∨ spiErrors (s.bus b).ovr (s.bus b).modf (s.bus b).crcerr = 0 := by
    simp only [State.spiPending, Bool.and_eq_false_iff] at h
    rcases h with h | h
    · exact .inl h
    · right
      revert h
      cases (s.bus b).ovr <;> cases (s.bus b).modf <;> cases (s.bus b).crcerr <;> decide
  unfold spiHandler
  dsimp only
  rw [if_pos hg]

end Sys2Proof.Machine
end

