-- ==== Sys2Proof/Laws/PerInstr.lean ====
section
/-! SUPPORT. The per-operation family EncodeLength: an operation's encoding is its opcode byte and four bytes for each
operand slot of its row of the opcode map (30_encoding.md R110, R111). -/

namespace Sys2Proof.Laws.EncodeLength

/-- The operation's encoding has one opcode byte and its row's slots, and the row is the one of its opcode byte. -/
def Statement (i : Instr) : Prop :=
  ∃ row, rowOfByte i.word.1.code = some row ∧ row.op = i.word.1 ∧ (encode i).length = 1 + 4 * row.slots

theorem futInit (f : Word) : Statement (.futInit f) := ⟨_, rfl, rfl, rfl⟩

theorem futStart (f : Word) : Statement (.futStart f) := ⟨_, rfl, rfl, rfl⟩

theorem futFinish (f : Word) (result : Word) : Statement (.futFinish f result) := ⟨_, rfl, rfl, rfl⟩

theorem futRunning (f : Word) : Statement (.futRunning f) := ⟨_, rfl, rfl, rfl⟩

theorem futDone (f : Word) : Statement (.futDone f) := ⟨_, rfl, rfl, rfl⟩

theorem futResult (f : Word) : Statement (.futResult f) := ⟨_, rfl, rfl, rfl⟩

theorem futWait (f : Word) : Statement (.futWait f) := ⟨_, rfl, rfl, rfl⟩

theorem futSetResult (f : Word) (result : Word) : Statement (.futSetResult f result) := ⟨_, rfl, rfl, rfl⟩

theorem busInit (b : Word) : Statement (.busInit b) := ⟨_, rfl, rfl, rfl⟩

theorem busSetId (b : Word) (id : Byte) : Statement (.busSetId b id) := ⟨_, rfl, rfl, rfl⟩

theorem busId (b : Word) : Statement (.busId b) := ⟨_, rfl, rfl, rfl⟩

theorem busXfer (b : Word) (messages : Word) (count : Word) : Statement (.busXfer b messages count) := ⟨_, rfl, rfl, rfl⟩

theorem busXmit (b : Word) (tx : Byte) (rxaddr : Word) : Statement (.busXmit b tx rxaddr) := ⟨_, rfl, rfl, rfl⟩

theorem busWait (b : Word) : Statement (.busWait b) := ⟨_, rfl, rfl, rfl⟩

theorem busStatus (b : Word) : Statement (.busStatus b) := ⟨_, rfl, rfl, rfl⟩

theorem busErrors (b : Word) : Statement (.busErrors b) := ⟨_, rfl, rfl, rfl⟩

theorem busBusy (b : Word) : Statement (.busBusy b) := ⟨_, rfl, rfl, rfl⟩

theorem busSetCb (b : Word) (callback : Word) : Statement (.busSetCb b callback) := ⟨_, rfl, rfl, rfl⟩

theorem busSetTxDef (b : Word) (value : Byte) : Statement (.busSetTxDef b value) := ⟨_, rfl, rfl, rfl⟩

theorem busSetSpeed (b : Word) (speed : Speed) : Statement (.busSetSpeed b speed) := ⟨_, rfl, rfl, rfl⟩

theorem irqSpi (b : Word) : Statement (.irqSpi b) := ⟨_, rfl, rfl, rfl⟩

theorem irqDmaRx (b : Word) : Statement (.irqDmaRx b) := ⟨_, rfl, rfl, rfl⟩

theorem irqDmaTx (b : Word) : Statement (.irqDmaTx b) := ⟨_, rfl, rfl, rfl⟩

theorem dmaTryLock (c : Word) : Statement (.dmaTryLock c) := ⟨_, rfl, rfl, rfl⟩

theorem dmaUnlock (c : Word) : Statement (.dmaUnlock c) := ⟨_, rfl, rfl, rfl⟩

theorem sdInit (s : Word) : Statement (.sdInit s) := ⟨_, rfl, rfl, rfl⟩

theorem sdRead1 (s : Word) (sector : Word) (dst : Word) : Statement (.sdRead1 s sector dst) := ⟨_, rfl, rfl, rfl⟩

theorem sdReadN (s : Word) (sector : Word) (count : Word) (dst : Word) : Statement (.sdReadN s sector count dst) := ⟨_, rfl, rfl, rfl⟩

theorem sdWrite1 (s : Word) (sector : Word) (src : Word) : Statement (.sdWrite1 s sector src) := ⟨_, rfl, rfl, rfl⟩

theorem sdWriteN (s : Word) (sector : Word) (count : Word) (src : Word) : Statement (.sdWriteN s sector count src) := ⟨_, rfl, rfl, rfl⟩

theorem sdSetCrc (s : Word) (en : Bool) : Statement (.sdSetCrc s en) := ⟨_, rfl, rfl, rfl⟩

theorem sdSectors (s : Word) : Statement (.sdSectors s) := ⟨_, rfl, rfl, rfl⟩

theorem sdType (s : Word) : Statement (.sdType s) := ⟨_, rfl, rfl, rfl⟩

theorem sdInited (s : Word) : Statement (.sdInited s) := ⟨_, rfl, rfl, rfl⟩

theorem sdBlkLen (s : Word) : Statement (.sdBlkLen s) := ⟨_, rfl, rfl, rfl⟩

theorem sdEraseSz (s : Word) : Statement (.sdEraseSz s) := ⟨_, rfl, rfl, rfl⟩

theorem sdCid (s : Word) (dst : Word) : Statement (.sdCid s dst) := ⟨_, rfl, rfl, rfl⟩

theorem sdCsd (s : Word) (dst : Word) : Statement (.sdCsd s dst) := ⟨_, rfl, rfl, rfl⟩

theorem sdCrcEn (s : Word) : Statement (.sdCrcEn s) := ⟨_, rfl, rfl, rfl⟩

theorem sdiCrc7 (addr : Word) (n : Word) : Statement (.sdiCrc7 addr n) := ⟨_, rfl, rfl, rfl⟩

theorem sdiCrc16 (addr : Word) (n : Word) : Statement (.sdiCrc16 addr n) := ⟨_, rfl, rfl, rfl⟩

theorem sdiFrame (index : BitVec 6) (arg : Word) : Statement (.sdiFrame index arg) := ⟨_, rfl, rfl, rfl⟩

theorem sdiCmd (s : Word) (index : BitVec 6) (arg : Word) (shape : Shape) (allowIdle : Bool) : Statement (.sdiCmd s index arg shape allowIdle) := ⟨_, rfl, rfl, rfl⟩

theorem sdiR1Poll (s : Word) : Statement (.sdiR1Poll s) := ⟨_, rfl, rfl, rfl⟩

theorem sdiBusyWait (s : Word) : Statement (.sdiBusyWait s) := ⟨_, rfl, rfl, rfl⟩

theorem sdiRdBlk (s : Word) (dst : Word) (n : Word) (check : Bool) : Statement (.sdiRdBlk s dst n check) := ⟨_, rfl, rfl, rfl⟩

theorem sdiWrBlk (s : Word) (src : Word) (token : Byte) : Statement (.sdiWrBlk s src token) := ⟨_, rfl, rfl, rfl⟩

theorem sdiStopR (s : Word) : Statement (.sdiStopR s) := ⟨_, rfl, rfl, rfl⟩

theorem sdiStopW (s : Word) : Statement (.sdiStopW s) := ⟨_, rfl, rfl, rfl⟩

theorem sdiDecode (r1 : Byte) (r2 : Byte) (allowIdle : Bool) : Statement (.sdiDecode r1 r2 allowIdle) := ⟨_, rfl, rfl, rfl⟩

theorem sdiErrTok (token : Byte) : Statement (.sdiErrTok token) := ⟨_, rfl, rfl, rfl⟩

theorem sdiRdReg (s : Word) (index : BitVec 6) (dst : Word) : Statement (.sdiRdReg s index dst) := ⟨_, rfl, rfl, rfl⟩

theorem adpBegin (a : Word) (op : Word) : Statement (.adpBegin a op) := ⟨_, rfl, rfl, rfl⟩

theorem adpSync (a : Word) (op : Word) : Statement (.adpSync a op) := ⟨_, rfl, rfl, rfl⟩

theorem adpComplete (a : Word) : Statement (.adpComplete a) := ⟨_, rfl, rfl, rfl⟩

theorem adpDispatch (b : Word) : Statement (.adpDispatch b) := ⟨_, rfl, rfl, rfl⟩

end Sys2Proof.Laws.EncodeLength
end

