-- ==== Sys2Proof/Laws/Unwind.lean ====
section
/-! SUPPORT. How FG goes on inside an operation: what a frame's outcome makes of `unwind`, the states it leaves in the
terms of `sesMoves`, `sesEnds` and `initEnds`, and what a turn makes of its agent's outcome. -/

namespace Sys2Proof.Machine

/-! ## Frames -/

theorem unwind_wait {f : Frame} {k fs : List Frame} {v : Ret} {p : Pending} {s t : State}
    (h : resume f v s = .next (.wait p fs t)) : unwind (f :: k) v s = .next (t.setFg (.busy p (fs ++ k))) := by
  simp [unwind, h]

theorem unwind_ret {f : Frame} {k : List Frame} {v w : Ret} {s t : State} (h : resume f v s = .next (.ret w t)) :
    unwind (f :: k) v s = unwind k w t := by
  simp [unwind, h]

theorem unwind_finish (k : Finish) (v : Ret) (s : State) :
    unwind [.finish k] v s = .next ((s.setRet (finishResult k v)).setFg .idle) := rfl

theorem fgInvoke_none (arg : Word) (after : List Frame) (next : State → Res Flow) (s : State) :
    fgInvoke 0 arg after next s = next s := rfl

/-- In FG context a silent callback is recorded and the invoker goes on in the same step. -/
theorem fgInvoke_silent {cb : Word} {s : State} (h : s.silent cb) (arg : Word) (after : List Frame)
    (next : State → Res Flow) : fgInvoke cb arg after next s = next (s.called cb arg) := by
  unfold fgInvoke State.called callsAfter
  split
  · rfl
  · next hcb =>
    have e : (s.logCall cb (.word arg)).takeActs cb = ([], s.logCall cb (.word arg)) := by
      unfold State.takeActs
      rw [State.callback_logCall]
      rcases h with h | h | h
      · exact absurd h hcb
      all_goals rw [h]
    rw [e]; rfl

/-- A window whose begin callback is silent opens within the step. -/
theorem openWindow_silent {i : Nat} {s : State} (h : s.silent (s.sesCfg i).timeoutBegin) (arg : Word)
    (after : List Frame) (next : State → Res Flow) :
    openWindow i arg after next s =
      next ((s.beginCalled i arg).setSes i { s.ses i with expired := false, winOpen := true }) :=
  fgInvoke_silent (s := s.setSes i { s.ses i with expired := false, winOpen := true }) h arg after next

/-- A window whose end callback is silent closes within the step, the callback first. -/
theorem closeWindow_silent {i : Nat} {s : State} (h : s.silent (s.sesCfg i).timeoutEnd) (v : Ret) (k : List Frame)
    (next : Ret → State → Res Flow) : closeWindow i v k next s = next v (shutWindow i (s.endCalled i)) :=
  fgInvoke_silent h 0 _ _

/-! ## Silent callbacks of a window (44_sd_protocol.md R311) -/

/-- A silent callback changes the record of invocations alone. -/
theorem frame_called (s : State) (cb arg : Word) : changesOnly [.calls] s (s.called cb arg) := by
  unfold State.called callsAfter
  split
  · exact changesOnly_refl _ s
  · exact frame_logCall s cb (.word arg)

@[simp] theorem ses_beginCalled (s : State) (i j : Nat) (k : Word) : (s.beginCalled i k).ses j = s.ses j := rfl

@[simp] theorem ses_endCalled (s : State) (i j : Nat) : (s.endCalled i).ses j = s.ses j := rfl

@[simp] theorem cfg_beginCalled (s : State) (i : Nat) (k : Word) : (s.beginCalled i k).cfg = s.cfg := rfl

@[simp] theorem cfg_endCalled (s : State) (i : Nat) : (s.endCalled i).cfg = s.cfg := rfl

@[simp] theorem sesCfg_beginCalled (s : State) (i j : Nat) (k : Word) :
    (s.beginCalled i k).sesCfg j = s.sesCfg j := rfl

@[simp] theorem sesCfg_endCalled (s : State) (i j : Nat) : (s.endCalled i).sesCfg j = s.sesCfg j := rfl

@[simp] theorem endCalled_setSes (s : State) (i j : Nat) (S : Session) :
    (s.setSes j S).endCalled i = (s.endCalled i).setSes j S := rfl

@[simp] theorem silent_beginCalled (s : State) (i : Nat) (k cb : Word) :
    (s.beginCalled i k).silent cb ↔ s.silent cb := Iff.rfl

@[simp] theorem silent_endCalled (s : State) (i : Nat) (cb : Word) : (s.endCalled i).silent cb ↔ s.silent cb := Iff.rfl

@[simp] theorem silent_setSes (s : State) (i : Nat) (S : Session) (cb : Word) :
    (s.setSes i S).silent cb ↔ s.silent cb := Iff.rfl

/-! ## An exchange on a bus that another party made busy (43_sd_framing.md, introduction) -/

/-- FG's turn at an exchange on a busy bus hands E_BUSY to the exchange's frames, with nothing sent. -/
theorem fgTurn_xchg_busy {s : State} {b : Nat} {t : Byte} {k : List Frame} (hf : s.fg = .busy (.xchg b t) k)
    (hb : s.busReady b) (hi : s.busy b = true) :
    fgTurn exec s = unwind k { code := .busy, byte := 0, val := 0 } s := by
  simp only [fgTurn, hf, performAct]
  rw [withBus_ready hb]
  simp [xmit, hi, xchgRet]

/-! ## The states FG leaves -/

theorem sesMoves_self {i : Nat} {s : State} (f : Fg) : sesMoves i f (s.ses i) s (s.setFg f) :=
  ⟨⟨rfl, rfl, rfl, (frame_setFg s f).mono (by simp)⟩, rfl, fun _ _ => rfl⟩

theorem sesMoves_setSes {i : Nat} {s : State} (S : Session) (f : Fg) : sesMoves i f S s ((s.setSes i S).setFg f) :=
  ⟨⟨rfl, rfl, rfl, ((frame_setSes s i S).trans (frame_setFg _ f)).mono (by simp)⟩, by simp,
    fun j hj => by simp [State.ses_setSes_ne _ _ (Ne.symm hj)]⟩

theorem sesEnds_setSes {i : Nat} {s : State} (hs : s.isr = false) (S : Session) (c : Code) :
    sesEnds i c S s (((s.setSes i S).setRet (.code c)).setFg .idle) := by
  refine ⟨⟨⟨rfl, ?_, ?_, ?_⟩, ?_⟩, ?_, ?_⟩
  · simp [State.setRet, hs]
  · simp [State.setRet, hs]
  · exact ((frame_setSes s i S).trans ((frame_setRet _ _).trans (frame_setFg _ _))).mono (by simp)
  · simp [State.setRet, hs]
  · simp
  · intro j hj; simp [State.ses_setSes_ne _ _ (Ne.symm hj)]

/-- SD.INIT's exit lines from a state that differs from `s` in session `i` alone (44_sd_protocol.md R319, R329). -/
theorem initEnds_unwind {i : Nat} {s : State} (hs : s.isr = false) (hb : s.busy (s.sesBus i) = false) (S : Session)
    (v : Ret) :
    ∃ t, unwind [.initExit i, .finish .code] v (s.setSes i S) = .next t ∧ initEnds i v.code S s t := by
  let u := (s.setSes i S).setSes i { S with csAsserted := false }
  let w := u.setBus (s.sesBus i) { u.bus (s.sesBus i) with speed := .high }
  have h : (setSpeed (s.sesBus i) .high u).2 = w := by
    have hu : ((s.setSes i S).setSes i { S with csAsserted := false }).busy (s.sesBus i) = false := hb
    simp [setSpeed, u, w, hu]
  have hx : resume (.initExit i) v (s.setSes i S) = .next (.ret (.ofCode v.code) w) := by
    simp only [resume, resumeInitExit, endWith, setSdCs, ← h, u]
    simp
  have hc : changesOnly [.buses, .sess] s w :=
    ((frame_setSes s i _).trans ((frame_setSes _ i _).trans (frame_setBus _ _ _))).mono (by simp)
  have hr : (w.setRet (.code v.code)) = w.setFgRet (.code v.code) := by simp [State.setRet, w, u, hs]
  refine ⟨(w.setFgRet (.code v.code)).setFg .idle, ?_, ⟨⟨rfl, rfl, rfl, ?_⟩, rfl⟩, ?_, ?_, ?_, ?_⟩
  · rw [unwind_ret hx, unwind_finish, ← hr]; rfl
  · exact (hc.trans ((frame_setFgRet _ _).trans (frame_setFg _ _))).mono (by simp)
  · simp [w, u]
  · intro j hj; simp [w, u, State.ses_setSes_ne _ _ (Ne.symm hj)]
  · simp [w, u]
  · intro b hb'; simp [w, u, State.bus_setBus_ne _ _ (Ne.symm hb')]

/-! ## Turns (60_exceptions.md R414, R415) -/

/-- In an admitted configuration a step is the turn at the head of the queue (log 5). -/
theorem step_queued {s : State} {x : Turn} {ts : List Turn} (hc : configRefusal s.cfg = none) (ht : s.turns = x :: ts) :
    step s = takeStep exec x (s.setTurns ts) := by
  simp [step, stepWith, hc, State.takeTurn, ht]

theorem stopped_iff (s : State) (a : Agent) : s.stopped a = true ↔ s.hung = true ∨ ∃ e, (a, e) ∈ s.faults := by
  simp [State.stopped]

theorem takeStep_stopped {s : State} {x : Turn} (h : s.stopped (turnAgent x) = true) : takeStep exec x s = .next s := by
  simp [takeStep, h]

theorem takeStep_running {s : State} {x : Turn} (h : s.stopped (turnAgent x) = false) :
    takeStep exec x s = settle (turnAgent x) s (agentStep exec x s) := by
  simp [takeStep, h]

@[simp] theorem settle_next (a : Agent) (s t : State) : settle a s (.next t) = .next t := rfl

@[simp] theorem settle_refused (a : Agent) (s : State) (r : Refusal) : settle a s (.refused r) = .refused r := rfl

theorem settle_fault (a : Agent) (s : State) {e : Fault} (h : e ≠ .callbackHang) :
    settle a s (.fault e) = .next (s.setFaults (s.faults ++ [(a, e)])) := by
  simp [settle, h]

@[simp] theorem settle_hang (a : Agent) (s : State) : settle a s (.fault .callbackHang) = .next (s.setHung true) := rfl

end Sys2Proof.Machine
end

