-- ==== Sys2Proof/Tests/Slice0.lean ====
section
/-! SUPPORT. The model's own tests: the checks of WellFormed, decoding of words written out from 30_encoding.md, single
steps with the results that 95_test_vectors.md gives, and a witness for the hypotheses of every statement. -/

namespace Sys2Proof.Tests

open Sys2Proof Sys2Proof.Machine

/-! ## States -/

/-- K0 of 95_test_vectors.md section 1: reset, then BUS.INIT on both buses. -/
def k0 : State := { State.reset with buses := [(0, Bus.afterInit), (1, Bus.afterInit)] }

/-- A bus in a transfer of the list at 0x100, claimed under id 1. -/
def inXfer (p : Phase) (n i : Word) (rx : Bool) : Bus :=
  { Bus.afterInit with
    phase := p, status := .transferring, transferId := 1, messages := 0x100, count := n, index := i, heldRx := rx,
    heldTx := true, errie := true, rxdmaen := rx, txdmaen := true }

/-- A READ descriptor. -/
def rd (dst n cb : Word) : Msg := { dir := 1, tx := 0, rx := dst, size := n, callback := cb, senderData := 0 }

/-- A WRITE descriptor. -/
def wr (src n cb : Word) : Msg := { dir := 2, tx := src, rx := 0, size := n, callback := cb, senderData := 0 }

/-- A channel in use. -/
def armed (dir : ChanDir) (a : Word) (n : BitVec 16) (tcie tc te : Bool) : Chan :=
  { en := true, dir := dir, maddr := a, minc := true, cnt := n, tcie := tcie, teie := true, tc := tc, te := te }

/-- K0 with the list of P2 (95_test_vectors.md) stored. -/
def p2 : State :=
  { k0 with
    descs := [(descKey 0x100 0, wr 0x2000 3 0), (descKey 0x100 1, rd 0x3000 4 0)]
    mem := [(0x2000, 3)]
    answers := [(0, [0x11, 0x22, 0x33, 0x44])] }

/-- P2 in its message 0, WRITING; the TX channel's transfer-complete and transfer-error as given. -/
def p2w (tc te : Bool) : State :=
  { p2 with
    buses := [(0, { inXfer .writing 2 0 true with rxdmaen := false }), (1, Bus.afterInit)]
    chans := [(1, armed .m2p 0x2000 0 true tc te)]
    locks := [(0, true), (1, true)] }

/-- P2 in its message 1, READING, the last; the RX channel's transfer-complete and transfer-error as given. -/
def p2r (tc te : Bool) : State :=
  { p2 with
    buses := [(0, inXfer .reading 2 1 true), (1, Bus.afterInit)]
    chans := [(0, armed .p2m 0x3000 4 true tc te), (1, { armed .m2p 0x2000 4 false tc false with minc := false })]
    locks := [(0, true), (1, true)] }

/-- A state with FG at a place inside an operation. -/
def at_ (p : Pending) (k : List Frame) (s : State) : State := s.setFg (.busy p k)

/-- An initialised session whose CSD is the stored form of `csd`, received first byte first. -/
def card (t : CardType) (csd : List Byte) : Session :=
  { Session.powerOn with
    cardType := t, csd := regOfBytes csd.reverse, blockLen := 512, eraseSize := 512, initialized := true }

/-- CSD-TINY of V-SDI-4: four sectors. -/
def csdTiny : List Byte :=
  [0x00, 0x26, 0x00, 0x32, 0x5B, 0x59, 0x00, 0x00, 0x00, 0x00, 0x7F, 0x80, 0x02, 0x40, 0x00, 0x71]

/-- CSD-V2 of V-SDI-4. -/
def csdV2 : List Byte :=
  [0x40, 0x0E, 0x00, 0x32, 0x5B, 0x59, 0x00, 0x00, 0x3B, 0x37, 0x7F, 0x80, 0x0A, 0x40, 0x00, 0x67]

/-- CSD-V1E of V-SDI-4. -/
def csdV1E : List Byte :=
  [0x00, 0x26, 0x00, 0x32, 0x5F, 0x59, 0x83, 0xC8, 0xBE, 0xFB, 0x8F, 0xFF, 0x92, 0x40, 0x40, 0x43]

/-- CSD-MMC of V-SDI-4. -/
def csdMmc : List Byte :=
  [0x4C, 0x0E, 0x00, 0x32, 0x1F, 0x59, 0x01, 0xE9, 0xC0, 0x02, 0xFF, 0xE0, 0x02, 0x40, 0x00, 0x77]

/-- K0 with session 0 on the CSD-TINY card of P5, an SDSCv1. -/
def tiny : State := { k0 with sess := [(0, card .sdscV1 csdTiny)] }

/-- K0 with DEV's answers queued on bus 0. -/
def ans (l : List Byte) (s : State) : State := { s with answers := [(0, l)] }

/-- K0 with bus 0's callback the dispatcher and the operation record of P2b. -/
def adpS : State :=
  { k0 with
    buses := [(0, { Bus.afterInit with callback := 9 }), (1, Bus.afterInit)]
    callbacks := [(9, .always [.op (.adpDispatch 0)])]
    opRecs := [(1, some (.m95xRead 0 0x3000 4)), (2, some (.m95xRead 0 0 4)), (3, some (.rejected .state))] }

/-- The state with bus 0 in another duplex mode. -/
def halfDuplex (m : Mode) (s : State) : State :=
  { s with cfg := { s.cfg with buses := [{ s.busCfg 0 with mode := m }, s.busCfg 1] } }

/-- P2 in its message 0 with SPI errors pending. -/
def p2e : State := (p2w false false).setBus 0 { inXfer .writing 2 0 true with ovr := true, crcerr := true }

/-- P7 of 95_test_vectors.md at its last handler, with the bus callback's acts as given. -/
def p7 (acts : List Act) : State :=
  (((p2w true false).setBus 0 { inXfer .writing 1 0 false with callback := 1 }).setCallback 1
    (.always acts)).setFut 0 { result := 0, done := false, running := true }

/-- K0 with timeout callbacks configured for session 0, with the acts as given. -/
def timedBoth (first last : List Act) : State :=
  { k0 with
    cfg := { k0.cfg with sessions := [{ k0.sesCfg 0 with timeoutBegin := 3, timeoutEnd := 4 }] }
    callbacks := [(3, .always first), (4, .always last)] }

/-- Such a state whose end callback does nothing. -/
def timed (acts : List Act) : State := timedBoth acts []

/-! ## WellFormed refuses -/

theorem test_wellFormed_errtok : (Instr.sdiErrTok 0x10).wellFormed = false := by decide

theorem test_wellFormed_wrblk : (Instr.sdiWrBlk 0 0xA000 0xFD).wellFormed = false := by decide

theorem test_wellFormed_rdreg : (Instr.sdiRdReg 0 8 0x5010).wellFormed = false := by decide

theorem test_wellFormed_accepts :
    [Instr.sdiErrTok 0x0F, .sdiWrBlk 0 0 0xFC, .sdiWrBlk 0 0 0xFE, .sdiRdReg 0 9 0, .sdiRdReg 0 10 0,
      .futInit 7].all Instr.wellFormed = true := by decide

/-! ## Decoding: words written out from 30_encoding.md R110, R111, R133 -/

theorem test_decode_fut_done : decode [0x04, 1, 0, 0, 0] = .ok (.futDone 1, []) := by decide

theorem test_decode_bus_setSpeed :
    decode [0x2B, 1, 0, 0, 0, 1, 0, 0, 0] = .ok (.busSetSpeed 1 .high, []) := by decide

theorem test_decode_bus_xmit :
    decode [0x24, 0, 0, 0, 0, 0xA5, 0, 0, 0, 0, 0x31, 0, 0] = .ok (.busXmit 0 0xA5 0x3100, []) := by decide

theorem test_decode_irq_dmaRx : decode [0x41, 1, 0, 0, 0] = .ok (.irqDmaRx 1, []) := by decide

theorem test_decode_dma_unlock : decode [0x61, 3, 0, 0, 0] = .ok (.dmaUnlock 3, []) := by decide

theorem test_decode_sd_setCrc : decode [0x85, 0, 0, 0, 0, 1, 0, 0, 0] = .ok (.sdSetCrc 0 true, []) := by decide

theorem test_decode_sd_write1 :
    decode [0x83, 0, 0, 0, 0, 7, 0, 0, 0, 0, 0xA0, 0, 0] = .ok (.sdWrite1 0 7 0xA000, []) := by decide

theorem test_decode_sdi_rdblk :
    decode [0xA6, 0, 0, 0, 0, 0, 0x90, 0, 0, 0, 2, 0, 0, 1, 0, 0, 0] = .ok (.sdiRdBlk 0 0x9000 512 true, []) := by
  decide

theorem test_decode_sdi_decode :
    decode [0xAA, 0x44, 0, 0, 0, 0x80, 0, 0, 0, 0, 0, 0, 0] = .ok (.sdiDecode 0x44 0x80 false, []) := by decide

theorem test_decode_adp_begin : decode [0xC0, 1, 0, 0, 0, 2, 0, 0, 0] = .ok (.adpBegin 1 2, []) := by decide

theorem test_decode_next_left : decode [0x00, 1, 0, 0, 0, 0xFF] = .ok (.futInit 1, [0xFF]) := by decide

theorem test_decode_refuses :
    decode [0xE0, 0, 0, 0, 0] = .error .reservedOpcode ∧ decode [0x08, 0, 0, 0, 0] = .error .reservedOpcode
      ∧ decode [0xA2, 0x40, 0, 0, 0, 0, 0, 0, 0] = .error .operandTooWide
      ∧ decode [0x2B, 0, 0, 0, 0, 2, 0, 0, 0] = .error .operandTooWide
      ∧ decode [0x00, 0, 0] = .error .truncated ∧ decode [] = .error .truncated := by decide

theorem test_tableWord : decodeTableWord 8 0x61 = some (.dmaUnlock 0) ∧ decodeTableWord 8 0x62 = none := by decide

theorem test_withFetchWord :
    onNext (fun t => t.fut 0 == { result := 0, done := false, running := true } && t.fg == .idle)
      (step (State.reset.withFetchWord 8 0x01)) = true := by decide

/-! ## FUT (95_test_vectors.md section 3) -/

/-- K0 with future 0 as given. -/
def fut (r : Word) (d n : Bool) : State := { k0 with futs := [(0, { result := r, done := d, running := n })] }

theorem test_fut_1_to_3 :
    onNext (fun t => t.fut 0 == { result := 0, done := false, running := false }) (exec (.futInit 0) (fut 7 true false))
        = true
      ∧ onNext (fun t => t.fut 0 == { result := 5, done := false, running := true })
        (exec (.futStart 0) (fut 5 true false)) = true
      ∧ onNext (fun t => t.fut 0 == { result := 5, done := true, running := false })
        (exec (.futFinish 0 5) (fut 0 false true)) = true := by decide

theorem test_fut_8_to_11 :
    onNext (fun t => t.fut 0 == { result := 3, done := true, running := false })
        (exec (.futSetResult 0 3) (fut 9 true false)) = true
      ∧ onNext (fun t => t.ret == .value 1) (exec (.futRunning 0) (fut 0 false true)) = true
      ∧ onNext (fun t => t.ret == .value 0) (exec (.futDone 0) (fut 0 false true)) = true
      ∧ onNext (fun t => t.ret == .value 5) (exec (.futResult 0) (fut 5 true false)) = true := by decide

theorem test_fut_12_to_16 :
    onNext (fun t => t.ret == .value 5 && t.fg == .idle) (exec (.futWait 0) (fut 5 true false)) = true
      ∧ onNext (fun t => t.fg == .busy (.futWait 0) [.finish .value]) (exec (.futWait 0) (fut 0 false true)) = true
      ∧ exec (.futWait 0) ((fut 0 false true).setIsr true) = .fault .waitInInterrupt := by
  refine ⟨by decide, by decide, rfl⟩

/-! ## BUS (95_test_vectors.md section 4) -/

theorem test_bus_48_init :
    onNext (fun t => t.bus 0 == Bus.afterInit && t.ret == .code .noError) (exec (.busInit 0) State.reset) = true := by
  decide

theorem test_bus_47_init_busy : exec (.busInit 0) (p2w false false) = .fault .initWhileBusy := rfl

theorem test_bus_1_2_claims :
    onNext (fun t => t.ret == .code .noError && (t.bus 0).transferId == 5) (exec (.busSetId 0 5) k0) = true
      ∧ onNext (fun t => t.ret == .code .busy && (t.bus 0).transferId == 1) (exec (.busSetId 0 2) (p2w false false))
        = true := by decide

theorem test_bus_3_to_6 :
    onNext (fun t => t.ret == .code .noError) (exec (.busSetId 0 1) (p2w false false)) = true
      ∧ onNext (fun t => t.ret == .value 1) (exec (.busId 0) (p2w false false)) = true
      ∧ onNext (fun t => t.ret == .value 1) (exec (.busBusy 0) (p2w false false)) = true := by decide

theorem test_bus_10_to_20_xfer_checks :
    onNext (fun t => t.ret == .code .nullPointer) (exec (.busXfer 0 0 0) k0) = true
      ∧ onNext (fun t => t.ret == .code .invalidValue) (exec (.busXfer 0 0x100 0) k0) = true
      ∧ onNext (fun t => t.ret == .code .invalidValue && t.chans == [])
        (exec (.busXfer 0 0x100 2) (k0.setDesc 0x100 0 (wr 0x2000 3 0))) = true := by decide

theorem test_bus_30_partial_release :
    onNext (fun t => t.ret == .code .busy && !t.lock 0 && t.lock 1 && t.bus 0 == Bus.afterInit)
      (exec (.busXfer 0 0x100 2) (p2.setLock 1 true)) = true := by decide

theorem test_bus_32_accepted :
    onNext (fun t => t.ret == .code .noError && t.lock 0 && t.lock 1 && (t.bus 0).phase == .writing
        && (t.bus 0).status == .transferring && (t.bus 0).txdmaen && !(t.bus 0).rxdmaen
        && t.chan 1 == armed .m2p 0x2000 3 true false false && !(t.chan 0).en)
      (exec (.busXfer 0 0x100 2) p2) = true := by decide

theorem test_bus_41_42_xmit :
    onNext (fun t => t.ret == .codeByte .noError 0x5A && t.mem.read 0x3100 == 0x5A && t.wireOf 0 == [0xA5])
        (exec (.busXmit 0 0xA5 0x3100) (ans [0x5A] k0)) = true
      ∧ onNext (fun t => t.ret == .codeByte .busy 0 && t.wireOf 0 == [])
        (exec (.busXmit 0 0xFF 0x3100) (p2w false false)) = true := by decide

theorem test_bus_43_44_speed :
    onNext (fun t => t.ret == .code .noError && (t.bus 0).speed == .low) (exec (.busSetSpeed 0 .low) k0) = true
      ∧ onNext (fun t => t.ret == .code .busy && (t.bus 0).speed == .high)
        (exec (.busSetSpeed 0 .low) (p2w false false)) = true := by decide

theorem test_bus_45_46_wait :
    onNext (fun t => t.ret == .none && t.fg == .idle) (exec (.busWait 0) k0) = true
      ∧ onNext (fun t => t.fg == .busy (.busWait 0) [.finish .none]) (exec (.busWait 0) (p2w false false)) = true := by
  decide

theorem test_bus_49_setters :
    onNext (fun t => (t.bus 0).txDefault == 0x00) (exec (.busSetTxDef 0 0x00) (p2w false false)) = true
      ∧ onNext (fun t => (t.bus 0).callback == 1) (exec (.busSetCb 0 1) (p2w false false)) = true := by decide

theorem test_bus_50_errors :
    onNext (fun t => t.ret == .value 8) (exec (.busErrors 0) (k0.setBus 0 { Bus.afterInit with errors := 8 })) = true
      ∧ onNext (fun t => t.ret == .value 3)
        (exec (.busStatus 0) (k0.setBus 0 { Bus.afterInit with status := .error })) = true := by decide

/-! ## DP and IRQ (95_test_vectors.md sections 5 and 10) -/

/-- P2 with a single WRITE frame left to send. -/
def p2last : State := (p2w false false).setBus 0 { inXfer .writing 2 0 true with rxdmaen := false, pos := 2 }

theorem test_dp_last_frame :
    onNext (fun t => (t.chan 1).tc && (t.bus 0).pos == 3 && t.wireOf 0 == [0] && t.answersOf 0 == [0x22, 0x33, 0x44])
      (agentStep exec (.dp 0) p2last) = true := by decide

theorem test_dp_stores_answer :
    onNext (fun t => t.mem.read 0x3000 == 0x11 && t.wireOf 0 == [0xFF] && !(t.chan 0).tc)
      (agentStep exec (.dp 0) (p2r false false)) = true := by decide

theorem test_irq_dmaTx_advances :
    onNext (fun t => (t.bus 0).index == 1 && (t.bus 0).phase == .reading
        && t.chan 0 == armed .p2m 0x3000 4 true false false && (t.chan 1).en && !(t.chan 1).minc && !(t.chan 1).tcie
        && (t.chan 1).cnt == 4)
      (exec (.irqDmaTx 0) (p2w true false)) = true := by decide

theorem test_irq_dmaRx_terminal :
    onNext (fun t => (t.bus 0).phase == .idle && (t.bus 0).status == .transferred && !t.lock 0 && !t.lock 1
        && !(t.chan 0).en && !(t.chan 1).en && !(t.chan 0).tc && (t.chan 1).tc && !(t.bus 0).errie)
      (exec (.irqDmaRx 0) (p2r true false)) = true := by decide

theorem test_irq_3_te_before_tc :
    onNext (fun t => (t.bus 0).status == .error && (t.bus 0).errors == 8 && !(t.chan 0).te && !(t.chan 0).tc
        && t.calls == [])
      (exec (.irqDmaRx 0) (p2r true true)) = true := by decide

theorem test_irq_2_spi :
    onNext (fun t => (t.bus 0).status == .error && (t.bus 0).errors == 5 && !(t.bus 0).ovr && !(t.bus 0).crcerr
        && !t.lock 1 && !(t.bus 0).heldTx)
      (exec (.irqSpi 0) ((p2w false false).setBus 0 { inXfer .writing 2 0 true with ovr := true, crcerr := true }))
      = true := by decide

theorem test_irq_8_no_match :
    onNext (fun t => !(t.chan 0).tc && t.bus 0 == Bus.afterInit)
      (exec (.irqDmaRx 0) (k0.setChan 0 (armed .p2m 0 0 true true false))) = true := by decide

/-! ## DMA (95_test_vectors.md section 6) -/

theorem test_dma_1_to_3 :
    onNext (fun t => t.ret == .value 1 && t.lock 2) (exec (.dmaTryLock 2) k0) = true
      ∧ onNext (fun t => t.ret == .value 0 && t.lock 2) (exec (.dmaTryLock 2) (k0.setLock 2 true)) = true
      ∧ onNext (fun t => !t.lock 2) (exec (.dmaUnlock 2) (k0.setLock 2 true)) = true := by decide

theorem test_dma_4_5_stops :
    exec (.dmaTryLock 4) k0 = .refused .badChannel ∧ exec (.dmaUnlock 1) (p2w false false) = .fault .foreignUnlock :=
  ⟨rfl, rfl⟩

/-! ## SDI (95_test_vectors.md section 7) -/

theorem test_crc7 :
    crc7 [] = 0 ∧ crc7 [0x01] = 0x09 ∧ crc7 [0x80] = 0x41 ∧ crc7 [0x40, 0, 0, 0, 0] = 0x4A
      ∧ crc7 [0x40, 1, 0, 0, 0] = 0x49 := by decide +kernel

theorem test_crc16 :
    crc16 [] = 0 ∧ crc16 [0x01] = 0x1021
      ∧ crc16 [0x31, 0x32, 0x33, 0x34, 0x35, 0x36, 0x37, 0x38, 0x39] = 0x31C3 := by decide +kernel

theorem test_crc_operations :
    onNext (fun t => t.ret == .value 0x1021) (exec (.sdiCrc16 0x4000 1) (k0.storeByte 0x4000 1)) = true
      ∧ onNext (fun t => t.ret == .value 0x09) (exec (.sdiCrc7 0x4000 1) (k0.storeByte 0x4000 1)) = true := by decide

theorem test_frame :
    commandFrame 17 0x200 = [0x51, 0, 0, 2, 0, 0x79] ∧ commandFrame 0 0 = [0x40, 0, 0, 0, 0, 0x95]
      ∧ commandFrame 8 0x1AA = [0x48, 0, 0, 1, 0xAA, 0x87] ∧ commandFrame 59 1 = [0x7B, 0, 0, 0, 1, 0x83]
      ∧ commandFrame 24 0x12345678 = [0x58, 0x12, 0x34, 0x56, 0x78, 0x67] := by decide +kernel

theorem test_decode_status :
    decodeStatus 0x44 0 false = .sdParameter ∧ decodeStatus 0x0C 0 false = .crc
      ∧ decodeStatus 0x05 0 true = .sdIllegalCmd ∧ decodeStatus 0x01 0 true = .noError ∧ decodeStatus 0x01 0x80 false = .sdInIdle
      ∧ decodeStatus 0 0x41 false = .sdEraseParam ∧ decodeStatus 0 0x02 false = .sdWpEraseSkip := by decide

theorem test_errtok :
    decodeErrToken 0x0F = .sdOutOfRange ∧ decodeErrToken 0x06 = .sdEccFailed ∧ decodeErrToken 0x02 = .sdCcError
      ∧ decodeErrToken 0x00 = .sdError := by decide

theorem test_registers :
    registerOk csdV2 = true ∧ registerOk csdV1E = true ∧ registerOk csdMmc = true ∧ registerOk csdTiny = true
      ∧ registerOk (csdV2.take 15 ++ [0x65]) = false := by decide +kernel

theorem test_sdi_10_r1poll :
    onNext (fun t => t.ret == .codeByte .noError 0x01 && t.wireOf 0 == [0xFF, 0xFF, 0xFF])
      (runOp (.sdiR1Poll 0) 3 (ans [0xFF, 0xFF, 0x01] k0)) = true := by decide

theorem test_sdi_16_no_payload :
    onNext (fun t => t.ret == .reply .sdIllegalCmd 0x05 0 && (t.wireOf 0).length == 7)
      (runOp (.sdiCmd 0 8 0x1AA .r7 true) 7 (ans [0xFF, 0xFF, 0xFF, 0xFF, 0xFF, 0xFF, 0x05] k0)) = true := by decide

theorem test_sdi_19_stuff_and_busy :
    onNext (fun t => t.ret == .reply .noError 0 0 && (t.wireOf 0).length == 11)
      (runOp (.sdiCmd 0 12 0 .r1b false) 11 (ans [0xFF, 0xFF, 0xFF, 0xFF, 0xFF, 0xFF, 0xFF, 0, 0, 0, 0xFF] k0))
      = true := by decide

theorem test_sdi_23_token :
    onNext (fun t => t.ret == .code .sdOutOfRange)
        (runOp (.sdiRdBlk 0 0x9000 512 true) 3 (ans [0xFF, 0xFF, 0x08] k0)) = true
      ∧ onNext (fun t => t.ret == .code .ioError) (runOp (.sdiRdBlk 0 0x9000 512 true) 1 (ans [0x7E] k0)) = true := by
  decide

theorem test_sdi_32_busywait :
    onNext (fun t => t.ret == .code .noError && t.fg == .idle && !(t.ses 0).winOpen)
      (runOp (.sdiBusyWait 0) 3 (ans [0, 0, 0xFF] k0)) = true := by decide

theorem test_window_callbacks :
    onNext (fun t => t.ret == .code .noError && t.calls == [{ cb := 4, arg := .word 0 }, { cb := 3, arg := .word k0.cfg.timeoutBusy }])
        (runOp (.sdiBusyWait 0) 1 (ans [0xFF] (timed []))) = true
      ∧ onNext (fun t => t.calls == [{ cb := 3, arg := .word k0.cfg.timeoutToken }]) (exec (.sdiRdBlk 0 0x9000 4 true) (timed []))
        = true := by decide

theorem test_cmd_no_reply :
    onNext (fun t => t.ret == .reply .timeout 0xFF 0 && (t.wireOf 0).length == 14)
      (runOp (.sdiCmd 0 0 0 .r7 true) 14 (ans (List.replicate 14 0xFF) k0)) = true := by decide

theorem test_cmd_bus_taken :
    onNext (fun t => (match t.ret with | .reply c _ _ => c == .busy | _ => false) && t.wireOf 0 == [] && t.fg == .idle)
      (runOp (.sdiCmd 0 13 0 .r2 false) 1 (p2w false false)) = true := by decide

theorem test_sdi_40_data_response :
    onNext (fun t => t.fg == .busy (.xchg 0 0xFF) [.busyPoll 0, .wrBusy 2, .finish .code])
      (fgRun 1 (at_ (.xchg 0 0xFF) [.dataResp 0 1, .wrResp 0, .finish .code] (ans [0xE5] k0))) = true := by decide

theorem test_sdi_41_token_sent :
    onNext (fun t => t.wireOf 0 == [0xFE] && t.desc 0x600 0 == wr 0xA000 512 0
        && t.fg == .busy (.xfer 0 0x600 1) [.wrXfer 0 0xA000, .finish .code])
      (runOp (.sdiWrBlk 0 0xA000 0xFE) 1 (ans [0xFF] k0)) = true := by decide

theorem test_sdi_43_stopr :
    onNext (fun t => t.ret == .code .noError && (t.wireOf 0).length == 9)
      (runOp (.sdiStopR 0) 9 (ans [0xFF, 0xFF, 0xFF, 0xFF, 0xFF, 0xFF, 0xFF, 0, 0xFF] k0)) = true := by decide

theorem test_sdi_44_stopw :
    onNext (fun t => t.ret == .code .noError && t.wireOf 0 == [0xFF, 0xFF, 0xFD])
      (runOp (.sdiStopW 0) 3 (ans [0xFF, 0, 0xFF] k0)) = true := by decide

theorem test_sdi_47_rdreg :
    onNext (fun t => t.ret == .code .sdIllegalCmd)
      (runOp (.sdiRdReg 0 9 0x5010) 7 (ans [0xFF, 0xFF, 0xFF, 0xFF, 0xFF, 0xFF, 0x04] k0)) = true := by decide

/-! ## SD (95_test_vectors.md section 8) -/

theorem test_sizes :
    sectorCount (card .sdhcSdxc csdV2) = 15523840 ∧ sectorCount (card .mmc csdMmc) = 250880
      ∧ sectorCount (card .sdscV1 csdV1E) = 1984000 ∧ sectorCount (card .sdscV1 csdTiny) = 4
      ∧ eraseSizeOf (card .mmc csdMmc) = 524288 ∧ eraseSizeOf (card .sdscV1 csdV1E) = 16384 := by decide

theorem test_sd_accessors :
    onNext (fun t => t.ret == .value 4) (exec (.sdSectors 0) tiny) = true
      ∧ onNext (fun t => t.ret == .value 2) (exec (.sdType 0) tiny) = true
      ∧ onNext (fun t => t.ret == .value 1) (exec (.sdInited 0) tiny) = true
      ∧ onNext (fun t => t.ret == .value 512) (exec (.sdBlkLen 0) tiny) = true
      ∧ onNext (fun t => t.ret == .value 512) (exec (.sdEraseSz 0) tiny) = true
      ∧ onNext (fun t => t.ret == .value 0) (exec (.sdCrcEn 0) tiny) = true := by decide

theorem test_sd_37_to_39_copies :
    onNext (fun t => t.ret == .code .nullPointer) (exec (.sdCid 0 0) tiny) = true
      ∧ onNext (fun t => t.ret == .code .state) (exec (.sdCsd 0 0x8000) k0) = true
      ∧ onNext (fun t => t.mem.read 0x8000 == 0x71 && t.mem.read 0x8003 == 0x02 && t.mem.read 0x800E == 0x26)
        (exec (.sdCsd 0 0x8000) tiny) = true := by decide

theorem test_sd_30_to_35_checks :
    onNext (fun t => t.ret == .code .nullPointer) (exec (.sdReadN 0 0 0 0) tiny) = true
      ∧ onNext (fun t => t.ret == .code .invalidValue) (exec (.sdReadN 0 0 0 0x9000) tiny) = true
      ∧ onNext (fun t => t.ret == .code .state) (exec (.sdRead1 0 0 0x9000) k0) = true
      ∧ onNext (fun t => t.ret == .code .outOfRange) (exec (.sdRead1 0 4 0x9000) tiny) = true
      ∧ onNext (fun t => t.ret == .code .outOfRange) (exec (.sdWriteN 0 2 3 0x9000) tiny) = true := by decide

theorem test_sd_43_claims_and_addresses :
    onNext (fun t => (t.ses 0).csAsserted && (t.bus 0).transferId == 2
        && t.fg == .busy (.xchg 0 0x52)
          [.cmdSend 0 18 0x400 .r1 false 0, .readnCmd 0 2 2 0x9000, .sdEnd 0, .finish .code])
      (exec (.sdReadN 0 2 2 0x9000) tiny) = true := by decide

theorem test_sd_40_42_stop_result :
    onNext (fun t => t.ret == .code .noError)
        (unwind [.readnStop 0 .noError 0 4, .sdEnd 0, .finish .code] (Ret.ofCode .sdOutOfRange) tiny) = true
      ∧ onNext (fun t => t.ret == .code .sdOutOfRange)
        (unwind [.readnStop 0 .noError 0 2, .sdEnd 0, .finish .code] (Ret.ofCode .sdOutOfRange) tiny) = true := by decide

theorem test_sd_init_p4_steps_1_to_3 :
    onNext (fun t => t.wireOf 0 == List.replicate 10 0xFF && (t.bus 0).speed == .low && (t.ses 0).csAsserted
        && (t.bus 0).transferId == 2
        && t.fg == .busy (.xchg 0 0x40) [.cmdSend 0 0 0 .r1 true 0, .initCmd0 0, .initExit 0, .finish .code])
      (runOp (.sdInit 0) 10 (ans (List.replicate 10 0xFF) k0)) = true := by decide

theorem test_sd_init_bus_taken :
    onNext (fun t => t.ret == .code .busy && !(t.ses 0).csAsserted && t.fg == .idle && t.wireOf 0 == [])
      (fgRun 1 (at_ (.xchg 0 0xFF) [.initDummy 0 4, .initExit 0, .finish .code] (p2w false false))) = true := by decide

theorem test_sd_11_invalid_card :
    onNext (fun t => t.ret == .code .sdInvalidCard && !(t.ses 0).csAsserted && (t.bus 0).speed == .high)
      (unwind [.initCmd0 0, .initExit 0, .finish .code] { code := .noError, byte := 0x00, val := 0 } k0) = true := by
  decide

theorem test_sd_52_setcrc :
    onNext (fun t => t.ret == .code .noError && (t.ses 0).crcEnabled && t.wireOf 0 == []) (exec (.sdSetCrc 0 true) k0)
      = true := by decide

theorem test_sd_54_setcrc_refused :
    onNext (fun t => t.ret == .code .sdIllegalCmd && !(t.ses 0).crcEnabled)
      (fgRun 7 (match exec (.sdSetCrc 0 true) (ans [0xFF, 0xFF, 0xFF, 0xFF, 0xFF, 0xFF, 0x04] tiny) with
        | .next t => t
        | _ => k0)) = true := by decide

theorem test_sd_write1_begins :
    onNext (fun t => t.fg == .busy (.xchg 0 0x58)
        [.cmdSend 0 24 0x200 .r1 false 0, .writeCmd 0 0xA000, .sdEnd 0, .finish .code])
      (exec (.sdWrite1 0 1 0xA000) tiny) = true := by decide

theorem test_sd_57_half_duplex :
    exec (.sdInit 0) (halfDuplex .halfDuplexRx k0) = .fault .sdBusMode := rfl

/-! ## ADP (95_test_vectors.md section 9, P2b, P7) -/

theorem test_adp_begin_p2b :
    onNext (fun t => t.ret == .code .noError && t.mem.read 0x7000 == 3 && t.desc 0x700 0 == wr 0x7000 3 0
        && t.desc 0x700 1 == rd 0x3000 4 0 && (t.bus 0).transferId == 1 && (t.adp 0).csAsserted
        && t.fut 0 == { result := 0, done := false, running := true } && (t.bus 0).phase == .writing)
      (exec (.adpBegin 0 1) adpS) = true := by decide

theorem test_adp_3_6 :
    onNext (fun t => t.ret == .code .invalidValue || t.ret == .code .nullPointer) (exec (.adpBegin 0 2) adpS) = true
      ∧ onNext (fun t => t.ret == .code .busy && t.mem.read 0x7000 == 3 && (t.bus 0).transferId == 1
          && !(t.adp 0).csAsserted && t.fut 0 == { result := 4, done := true, running := false })
        (exec (.adpBegin 0 1) (adpS.setLock 1 true)) = true := by decide

theorem test_adp_sync_waits :
    onNext (fun t => t.fg == .busy (.futWait 0) [.finish .wordCode]) (exec (.adpSync 0 1) adpS) = true := by decide

theorem test_adp_sync_returns :
    onNext (fun t => t.ret == .code .crc && t.fg == .idle)
      (fgRun 1 (at_ (.futWait 0) [.finish .wordCode] (fut 6 true false))) = true := by decide

theorem test_adp_1_not_mine :
    onNext (fun t => t.ret == .value 0 && t.adps == []) (exec (.adpComplete 1) (p2w false false)) = true := by decide

theorem test_adp_8_dispatch :
    onNext (fun t => t.fut 0 == { result := 6, done := true, running := false } && t.fut 1 == Future.zero)
      (exec (.adpDispatch 0)
        (k0.setBus 0 { Bus.afterInit with transferId := 1, status := .error, errors := 0xC })) = true := by decide

theorem test_p7_wait_in_callback : exec (.irqDmaTx 0) (p7 [.op (.futWait 0)]) = .fault .waitInInterrupt := rfl

/-- P2 in its message 1 on a platform that backs only the source buffer. -/
def stuck : State := { p2r false false with cfg := { Config.standard with backed := [{ base := 0x2000, size := 16 }] } }

theorem test_dp_stuck_keeps_no_fault :
    onNext (fun t => t.faults == [] && !t.stopped (.dp 0) && t.bus 0 == stuck.bus 0 && t.answersOf 0 == stuck.answersOf 0)
      (step (stuck.setTurns [.dp 0])) = true := by decide

/-! ## Buffers in flight (20_memory.md R96, R97; 70_reset_and_hazards.md R460) -/

/-- P2 in its message 1 with every frame moved, as the handler that completes it finds it. -/
def p2arrived : State := (p2r true false).setBus 0 { inXfer .reading 2 1 true with pos := 4 }

theorem test_read_in_flight :
    (p2r false false).readOpen 0x3000 = true ∧ ((p2r false false).setIsr true).readOpen 0x3003 = true
      ∧ ((p2w false false).setIsr true).readOpen 0x3000 = true ∧ (p2arrived.setIsr true).readOpen 0x3000 = false
      ∧ p2arrived.readOpen 0x3000 = true := by decide

theorem test_write_in_flight :
    onNext (fun t => t.draws == 1 && t.dirty == [(0, 0x3002)]) (agentStep exec (.host (.store 0x3002 7)) (p2w false false))
        = true
      ∧ onNext (fun t => t.draws == 0 && t.dirty == [(0, 0x2000)] && t.mem == [(0x2000, 9)])
        (hostAccess (.store 0x2000 9) ((p2w false false).setIsr true)) = true
      ∧ onNext (fun t => t.draws == 1 && t.answersOf 0 == [0x22, 0x33, 0x44])
        (agentStep exec (.dp 0) ((p2r false false).setDirty [(0, 0x3000)])) = true := by decide

/-! ## Faults, stops and the end of a run (60_exceptions.md R414, R415; 70_reset_and_hazards.md R455, R456) -/

theorem test_fault_stops_its_agent :
    onNext (fun t => t.faults == [(.isr, .waitInInterrupt)] && t.stopped .isr && !t.stopped .fg && t.turns == [])
        (step ((p7 [.op (.futWait 0)]).setTurns [.irqDmaTx 0])) = true
      ∧ onNext (fun t => t.bus 0 == p2e.bus 0 && t.turns == [.dp 0])
        (step ((p2e.setFaults [(.isr, .waitInInterrupt)]).setTurns [.irqSpi 0, .dp 0])) = true := by decide

theorem test_callback_hang :
    exec (.irqDmaTx 0) (p7 [.hang]) = .fault .callbackHang
      ∧ onNext (fun t => t.hung && t.stopped .fg && t.faults == []) (step ((p7 [.hang]).setTurns [.irqDmaTx 0])) = true :=
  ⟨rfl, by decide⟩

theorem test_sd_before_bus_init :
    exec (.sdType 0) State.reset = .fault .uninitialisedBus
      ∧ exec (.sdRead1 0 0 0) State.reset = .fault .uninitialisedBus := ⟨rfl, rfl⟩

theorem test_command_outside_table :
    onNext (fun t => t.fg == .busy (.xchg 0 0x45) [.cmdSend 0 5 0 .r1 false 0, .finish .reply])
        (exec (.sdiCmd 0 5 0 .r1 false) k0) = true
      ∧ onNext (fun t => t.fg == .busy (.xchg 0 0x4B) [.cmdSend 0 11 0 .r1 false 0, .regCmd 0 0x5010, .finish .code])
        (exec (.sdiRdReg 0 11 0x5010) k0) = true := by decide

theorem test_run_over :
    k0.runOver = true ∧ (fut 0 false true).runOver = false ∧ (fut 5 true false).runOver = true
      ∧ (p2w false false).runOver = false ∧ (k0.setFaults [(.fg, .waitInInterrupt)]).runOver = false := by decide

/-! ## Witnesses: a state and operands that meet the hypotheses of each statement, clause by clause -/

theorem witness_EncodeDecode : decode (encode (.futInit 7) ++ [1]) = .ok (.futInit 7, [1]) := by decide

theorem witness_DecoderRefuses :
    (∀ r ∈ opRows, r.code ≠ (0x08 : Byte)) ∧ (∀ r ∈ opRows, r.code ≠ (0xFF : Byte)) ∧ 2 ≤ (2 : Word).toNat
      ∧ 64 ≤ (64 : Word).toNat ∧ 256 ≤ (256 : Word).toNat ∧ 16 ≤ (16 : Word).toNat
      ∧ 5 ≤ ((5 : Word).extractLsb' 0 3).toNat := by decide

theorem witness_StepIsTheNextTurn :
    configRefusal State.reset.cfg = none ∧ (State.reset.setTurns [.dp 0]).turns = .dp 0 :: []
      ∧ (k0.setFaults [(.fg, .waitInInterrupt)]).stopped .fg = true ∧ (k0.setHung true).stopped (.dp 0) = true
      ∧ (k0.setFaults [(.fg, .waitInInterrupt)]).stopped (.dp 0) = false
      ∧ faultsWith .uninitialisedBus (agentStep exec .fg ((State.reset.setTurns []).setProg (encode (.busId 0)))) = true
      ∧ faultsWith .callbackHang (agentStep exec (.irqDmaTx 0) (p7 [.hang])) = true
      ∧ refusesWith .reservedOpcode (agentStep exec .fg ((k0.setTurns []).setProg [0x08])) = true := by
  refine ⟨by decide, by decide, by decide, by decide, by decide, rfl, rfl, by decide⟩

/-- K0 with FG's turn next and `bytes` its program. -/
def fgNext (bytes : List Byte) : State := (k0.setTurns [.fg]).setProg bytes

theorem witness_StepRunsDecodedOperation :
    configRefusal (fgNext []).cfg = none ∧ (fgNext []).turns = .fg :: [] ∧ (fgNext []).fg = .idle
      ∧ (fgNext []).stopped .fg = false
      ∧ decode (fgNext [0x00, 1, 0, 0, 0, 9]).prog = .ok (.futInit 1, [9])
      ∧ decode (fgNext [0x08]).prog = .error .reservedOpcode
      ∧ decode (fgNext [0xA2, 0x40, 0, 0, 0, 0, 0, 0, 0]).prog = .error .operandTooWide := by decide

/-- The standard configuration with bus 0's record replaced. -/
def withBus0 (x : BusCfg) : Config := { Config.standard with buses := x :: Config.standard.buses.drop 1 }

theorem witness_BadConfigurationsRefused_frames :
    inRange (withBus0 { k0.busCfg 0 with frameBits := .sixteen }) = true
      ∧ (withBus0 { k0.busCfg 0 with frameBits := .sixteen }).buses.any (fun x => x.frameBits == .sixteen) = true := by
  decide

theorem witness_BadConfigurationsRefused_channels :
    inRange (withBus0 { k0.busCfg 0 with rxCh := 3 }) = true
      ∧ (∀ x ∈ (withBus0 { k0.busCfg 0 with rxCh := 3 }).buses, x.frameBits = .eight)
      ∧ (∀ c ∈ boundChans (withBus0 { k0.busCfg 0 with rxCh := 3 }), c < Config.standard.numDmaCh)
      ∧ ¬ (boundChans (withBus0 { k0.busCfg 0 with rxCh := 3 })).Nodup := by decide

theorem witness_BadConfigurationsRefused_one_bus :
    inRange (withBus0 { k0.busCfg 0 with rxCh := 2, txCh := 2 }) = true
      ∧ (∀ x ∈ (withBus0 { k0.busCfg 0 with rxCh := 2, txCh := 2 }).buses, x.frameBits = .eight)
      ∧ (∀ c ∈ boundChans (withBus0 { k0.busCfg 0 with rxCh := 2, txCh := 2 }), c < Config.standard.numDmaCh)
      ∧ ¬ (boundChans (withBus0 { k0.busCfg 0 with rxCh := 2, txCh := 2 })).Nodup := by decide

theorem witness_FutureWait :
    ((fut 5 true false).fut (0 : Word).toNat).running = false
      ∧ ((fut 0 false true).fut (0 : Word).toNat).running = true ∧ (fut 0 false true).isr = false
      ∧ ((fut 0 false true).setIsr true).isr = true
      ∧ (at_ (.futWait 0) [.finish .value] (fut 0 false true)).fg = .busy (.futWait (0 : Word).toNat) [.finish .value]
      ∧ ((at_ (.futWait 0) [.finish .value] (fut 5 true false)).fut 0).running = false := by decide

theorem witness_FutureLaws :
    (∀ o ∈ [Instr.futRunning 0, .futDone 0, .futResult 0],
        o = .futRunning 0 ∨ o = .futDone 0 ∨ o = .futResult 0 ∨ ∃ x, o = .futSetResult 0 x)
      ∧ (∀ o ∈ [Instr.futSetResult 0 3], o = .futRunning 0 ∨ o = .futDone 0 ∨ o = .futResult 0
        ∨ ∃ x, o = .futSetResult 0 x)
      ∧ ∀ x, Instr.futSetResult 0 x ∉ [Instr.futRunning 0, .futDone 0, .futResult 0] := by simp

theorem witness_BusInit :
    (1 : Word).toNat < k0.numBuses ∧ (State.reset.bus (1 : Word).toNat).inited = false
      ∧ (k0.bus (1 : Word).toNat).phase = .idle ∧ ((p2w false false).bus (0 : Word).toNat).inited = true
      ∧ ((p2w false false).bus (0 : Word).toNat).phase ≠ .idle := by decide

theorem witness_busReady :
    k0.busReady (1 : Word).toNat ∧ (p2w true false).busReady (0 : Word).toNat
      ∧ (p2r true false).busReady (0 : Word).toNat := by
  unfold State.busReady; decide

theorem witness_BusClaim :
    (p2w false false).busy (0 : Word).toNat = true ∧ ((p2w false false).bus (0 : Word).toNat).transferId ≠ 2
      ∧ k0.busy (1 : Word).toNat = false ∧ ((p2w false false).bus (0 : Word).toNat).transferId = 1 := by decide

theorem witness_BusRegisters : k0.busy (1 : Word).toNat = false ∧ (p2w false false).busy (0 : Word).toNat = true := by
  decide

theorem witness_XferRefused :
    (0x100 : Word) ≠ 0 ∧ (2 : Word) ≠ 0 ∧ (p2w false false).busy 0 = true ∧ k0.busy 0 = false
      ∧ (1 < (2 : Word).toNat ∧ Msg.valid ((k0.setDesc 0x100 0 (wr 0x2000 3 0)).desc 0x100 1) .fullDuplex = false)
      ∧ (∀ i, i < (2 : Word).toNat → Msg.valid (p2.desc 0x100 i) (p2.busCfg 0).mode = true)
      ∧ (p2.busCfg 0).rxCh ≠ (p2.busCfg 0).txCh
      ∧ (1 < (2 : Word).toNat ∧ (need (p2.busCfg 0).mode (p2.desc 0x100 1).dir).rx = true
        ∧ (p2.setLock 0 true).lock (p2.busCfg 0).rxCh = true)
      ∧ (0 < (2 : Word).toNat ∧ (need (p2.busCfg 0).mode (p2.desc 0x100 0).dir).tx = true
        ∧ (p2.setLock 1 true).lock (p2.busCfg 0).txCh = true) := by decide

theorem witness_XferAccepted_both :
    p2.busy 0 = false ∧ (∀ i, i < (2 : Word).toNat → Msg.valid (p2.desc 0x100 i) (p2.busCfg 0).mode = true)
      ∧ (p2.busCfg 0).rxCh ≠ (p2.busCfg 0).txCh
      ∧ (1 < (2 : Word).toNat ∧ (need (p2.busCfg 0).mode (p2.desc 0x100 1).dir).rx = true)
      ∧ (0 < (2 : Word).toNat ∧ (need (p2.busCfg 0).mode (p2.desc 0x100 0).dir).tx = true)
      ∧ p2.lock (p2.busCfg 0).rxCh = false ∧ p2.lock (p2.busCfg 0).txCh = false := by decide

theorem witness_XferAccepted_writeOnly :
    (∀ i, i < (1 : Word).toNat → Msg.valid (p2.desc 0x100 i) (p2.busCfg 0).mode = true)
      ∧ (¬ ∃ i, i < (1 : Word).toNat ∧ (need (p2.busCfg 0).mode (p2.desc 0x100 i).dir).rx = true)
      ∧ (0 < (1 : Word).toNat ∧ (need (p2.busCfg 0).mode (p2.desc 0x100 0).dir).tx = true)
      ∧ (p2.setLock 0 true).lock (p2.busCfg 0).txCh = false := by
  refine ⟨by decide, ?_, by decide⟩
  rintro ⟨i, hi, h⟩
  have : i = 0 := by simpa using hi
  subst this
  revert h
  decide

theorem witness_BusXmit :
    (p2w false false).busy 0 = true ∧ k0.busy 0 = false ∧ (ans [0x5A] k0).answersOf 0 = 0x5A :: []
      ∧ (ans [0x5A] k0).backed 0xFFFFFFFF = true ∧ (ans [0x5A] k0).dstInFlight 0xFFFFFFFF = false := by decide

theorem witness_BusWait :
    (k0.bus 0).status ≠ .transferring ∧ ((p2w false false).bus 0).status = .transferring ∧ (p2w false false).isr = false
      ∧ ((p2w false false).setIsr true).isr = true
      ∧ (at_ (.busWait 0) [.finish .none] k0).fg = .busy (.busWait (0 : Word).toNat) [.finish .none] := by decide

theorem witness_UninitialisedBusFaults :
    ((1 : Word).toNat < State.reset.numBuses ∧ (State.reset.bus (1 : Word).toNat).inited = false)
      ∧ ((0 : Word).toNat < State.reset.cfg.sessions.length ∧ State.reset.sesBus 0 < State.reset.numBuses
        ∧ (State.reset.bus (State.reset.sesBus 0)).inited = false ∧ State.reset.isr = false)
      ∧ ((1 : Word).toNat < { adpS with buses := [] }.cfg.adapters.length
        ∧ ({ adpS with buses := [] }.adpCfg 1).bus < { adpS with buses := [] }.numBuses
        ∧ ({ adpS with buses := [] }.bus ({ adpS with buses := [] }.adpCfg 1).bus).inited = false
        ∧ { adpS with buses := [] }.opRec 1 = some (.m95xRead 0 0x3000 4)
        ∧ build ({ adpS with buses := [] }.adpCfg 0).buf (.m95xRead 0 0x3000 4)
          = .built [wr 0x7000 3 0, rd 0x3000 4 0] [3, 0, 0]
        ∧ ({ adpS with buses := [] }.fut ({ adpS with buses := [] }.adpCfg 1).fut).running = false) := by decide

theorem witness_DmaLocks :
    (3 : Word).toNat < k0.cfg.numDmaCh ∧ k0.lock (3 : Word).toNat = false ∧ (k0.setLock 3 true).lock 3 = true
      ∧ k0.heldByBus (3 : Word).toNat = false ∧ (p2w false false).heldByBus (1 : Word).toNat = true
      ∧ k0.cfg.numDmaCh ≤ (4 : Word).toNat := by decide

/-- An idle bus with an SPI error pending and enabled, set up by hand as V-IRQ-8's channel flag is. -/
def idleErr : State := k0.setBus 0 { Bus.afterInit with ovr := true, errie := true }

theorem witness_HandlersWithoutTransition :
    k0.spiPending 0 = false ∧ (idleErr.spiPending 0 = true ∧ (idleErr.bus 0).phase = .idle)
      ∧ k0.chanPending 0 (k0.busCfg 0).rxCh = false
      ∧ (((k0.setChan 1 (armed .m2p 0 0 true true true)).chan (k0.busCfg 0).txCh).te = true
        ∧ ((k0.setChan 1 (armed .m2p 0 0 true true true)).chan (k0.busCfg 0).txCh).teie = true
        ∧ ((k0.setChan 1 (armed .m2p 0 0 true true true)).bus 0).phase = .idle)
      ∧ (((p2w true false).chan 1).te = false ∧ ((p2w true false).chan 1).tc = true
        ∧ ((p2w true false).chan 1).tcie = true ∧ (((p2w true false).setBus 0 Bus.afterInit).bus 0).phase ∉ [Phase.writing])
      ∧ (((p2r true false).chan 0).te = false ∧ ((p2r true false).chan 0).tc = true
        ∧ ((p2r true false).chan 0).tcie = true
        ∧ (((p2r true false).setBus 0 (inXfer .writing 2 0 true)).bus 0).phase ∉ [Phase.reading, .readingWriting]) := by
  decide

theorem witness_IrqSpiEndsTransfer :
    p2e.spiPending 0 = true ∧ p2e.busy 0 = true ∧ p2e.silent (p2e.bus 0).callback ∧ p2e.silent 5 :=
  ⟨by decide, by decide, .inl rfl, .inr (.inl rfl)⟩

theorem witness_IrqDmaErrorEndsTransfer :
    (p2r true true).busy 0 = true ∧ (p2r true true).silent ((p2r true true).bus 0).callback
      ∧ ((p2r true true).chan ((p2r true true).busCfg 0).rxCh).te = true
      ∧ ((p2r true true).chan ((p2r true true).busCfg 0).rxCh).teie = true
      ∧ ((p2w false true).chan ((p2w false true).busCfg 0).txCh).te = true
      ∧ ((p2w false true).chan ((p2w false true).busCfg 0).txCh).teie = true :=
  ⟨by decide, .inl rfl, by decide⟩

theorem witness_completing_rx : completingEvent 0 (p2r true false) (.irqDmaRx 0) 0 :=
  ⟨.inl ⟨rfl, rfl, .inl rfl⟩, by decide⟩

theorem witness_completing_tx : completingEvent 0 (p2w true false) (.irqDmaTx 0) 1 :=
  ⟨.inr ⟨rfl, rfl, rfl⟩, by decide⟩

theorem witness_LastMessageEndsTransfer :
    ((p2r true false).bus 0).count.toNat ≤ ((p2r true false).bus 0).index.toNat + 1
      ∧ (p2r true false).silent ((p2r true false).current 0).callback
      ∧ (p2r true false).silent ((p2r true false).bus 0).callback :=
  ⟨by decide, .inl rfl, .inl rfl⟩

theorem witness_MessageAdvances :
    ((p2w true false).bus 0).index.toNat + 1 < ((p2w true false).bus 0).count.toNat
      ∧ ((p2w true false).busCfg 0).rxCh ≠ ((p2w true false).busCfg 0).txCh
      ∧ (p2w true false).silent ((p2w true false).current 0).callback
      ∧ (need ((p2w true false).busCfg 0).mode ((p2w true false).desc 0x100 1).dir).rx = true
      ∧ (need ((p2w true false).busCfg 0).mode ((p2w true false).desc 0x100 0).dir).rx = false :=
  ⟨by decide, by decide, .inl rfl, by decide⟩

/-- P2 in its message 0 with a transfer-complete, and an SPI error of the same bus pending; the message's callback
issues IRQ.SPI of that bus. -/
def p2call : State :=
  ((((p2w true false).setBus 0 { inXfer .writing 2 0 true with ovr := true }).setDesc 0x100 0 (wr 0x2000 3 1)).setCallback 1
    (.always [.op (.irqSpi 0)]))

theorem test_irq_in_callback_waits :
    onNext (fun t => (t.bus 0).phase == .reading && (t.bus 0).status == .transferring && (t.bus 0).ovr && t.lock 0
        && t.calls.length == 1 && t.spiPending 0) (exec (.irqDmaTx 0) p2call) = true
      ∧ onNext (fun t => (t.bus 0).status == .error && (t.bus 0).errors == 1)
        (andThen (exec (.irqDmaTx 0) p2call) (exec (.irqSpi 0))) = true := by decide

theorem test_irq_in_timeout_callback_is_a_step :
    onNext (fun t => t.fg == .busy (.enter (.irqSpi 0)) [.script [], .busyStart 0, .finish .code])
      (exec (.sdiBusyWait 0) (timed [.op (.irqSpi 0)])) = true := by decide

theorem witness_InterruptKeepsForeground :
    onNext (fun t => (t.bus 0).status == .transferred) (agentStep exec (.irqDmaRx 0) (p2r true false)) = true
      ∧ p2call.busReady 0 ∧ completingEvent 0 p2call (.irqDmaTx 0) 1
      ∧ (p2call.bus 0).index.toNat + 1 < (p2call.bus 0).count.toNat ∧ (p2call.current 0).callback ≠ 0
      ∧ p2call.callback (p2call.current 0).callback.toNat = .always [.op (.irqSpi 0)] := by
  refine ⟨by decide, ⟨by decide, by decide⟩, ?_, by decide, by decide, rfl⟩
  unfold completingEvent; decide

theorem witness_CallbacksThatStop :
    (completingEvent 0 (p7 [.op (.futWait 0)]) (.irqDmaTx 0) 1 ∧ completingEvent 0 (p7 [.hang]) (.irqDmaTx 0) 1)
      ∧ ((p7 [.op (.futWait 0)]).bus 0).count.toNat ≤ ((p7 [.op (.futWait 0)]).bus 0).index.toNat + 1
      ∧ ((p7 [.op (.futWait 0)]).current 0).callback = 0 ∧ ((p7 [.hang]).bus 0).callback ≠ 0
      ∧ (p7 [.op (.futWait 0)]).callback ((p7 [.op (.futWait 0)]).bus 0).callback.toNat = .always [.op (.futWait 0)]
      ∧ ((p7 [.op (.futWait 0)]).fut 0).running = true
      ∧ (p7 [.hang]).callback ((p7 [.hang]).bus 0).callback.toNat = .always (.hang :: [])
      ∧ ((timed [.hang]).sdReady (0 : Word).toNat ∧ ((timed [.hang]).sesCfg 0).timeoutBegin ≠ 0
        ∧ (timed [.hang]).callback ((timed [.hang]).sesCfg 0).timeoutBegin.toNat = .always (.hang :: []))
      ∧ ((timedBoth [] [.hang]).isr = false ∧ (timedBoth [] [.hang]).busy 0 = false
        ∧ ((timedBoth [] [.hang]).sesCfg 0).timeoutEnd ≠ 0
        ∧ (timedBoth [] [.hang]).callback ((timedBoth [] [.hang]).sesCfg 0).timeoutEnd.toNat = .always (.hang :: [])
        ∧ (at_ (.xchg 0 0xFF) [.busyPoll 0, .finish .code] (timedBoth [] [.hang])).fg
          = .busy (.xchg ((timedBoth [] [.hang]).sesBus 0) 0xFF) [.busyPoll 0, .finish .code]
        ∧ (ans [0xFF] (timedBoth [] [.hang])).answersOf ((timedBoth [] [.hang]).sesBus 0) = 0xFF :: [])
      ∧ (at_ .hang [.finish .code] k0).fg = .busy .hang [.finish .code] := by
  refine ⟨⟨⟨.inr ⟨rfl, rfl, rfl⟩, by decide⟩, ⟨.inr ⟨rfl, rfl, rfl⟩, by decide⟩⟩, ?_⟩
  unfold State.sdReady State.busReady
  decide

theorem witness_DatapathFrame_write :
    dpReady p2last 0 = true ∧ p2last.answersOf 0 = 0x11 :: [0x22, 0x33, 0x44]
      ∧ (p2last.busCfg 0).rxCh ≠ (p2last.busCfg 0).txCh
      ∧ (0, ((p2last.current 0).tx + (p2last.bus 0).pos).toNat) ∉ p2last.dirty
      ∧ (p2last.current 0).tx ≠ 0 ∧ p2last.backed ((p2last.current 0).tx + (p2last.bus 0).pos) = true
      ∧ (p2last.bus 0).pos + 1 = (p2last.current 0).size := by decide

theorem witness_DatapathFrame_read :
    dpReady (p2r false false) 0 = true ∧ ((p2r false false).current 0).rx ≠ 0
      ∧ (p2r false false).backed (((p2r false false).current 0).rx + ((p2r false false).bus 0).pos) = true
      ∧ (0, (((p2r false false).current 0).rx + ((p2r false false).bus 0).pos).toNat) ∉ (p2r false false).dirty
      ∧ dpReady (halfDuplex .halfDuplexRx (p2r false false)) 0 = true := by decide

theorem witness_DatapathFrame_stuck :
    dpReady stuck 0 = true ∧ (stuck.current 0).rx ≠ 0
      ∧ stuck.backed ((stuck.current 0).rx + (stuck.bus 0).pos) = false ∧ dpReady k0 0 = false := by decide

theorem witness_EnvironmentEvents :
    k0.busy 1 = false ∧ ((0 < (p2w false false).numBuses) ∧ (p2w false false).busy 0 = true)
      ∧ (k0.chan 3).en = false ∧ (1 < (p2w false false).cfg.numDmaCh ∧ ((p2w false false).chan 1).en = true)
      ∧ (3 < k0.cfg.numDmaCh ∧ k0.lock 3 = false) ∧ ((k0.setLock 3 true).setExt 3 true).extLock 3 = true
      ∧ (k0.ses 0).winOpen = false ∧ k0.extLock 3 = false ∧ (k0.setLock 3 true).lock 3 = true := by decide

/-- K0 with timeout callbacks configured and a window of session 0 open. -/
def winS : State :=
  { k0 with
    cfg := { k0.cfg with sessions := [{ k0.sesCfg 0 with timeoutBegin := 3, timeoutEnd := 4 }] }
    sess := [(0, { Session.powerOn with winOpen := true })] }

theorem witness_EnvironmentEvents_expire :
    0 < winS.cfg.sessions.length ∧ (winS.ses 0).winOpen = true ∧ (winS.sesCfg 0).timeoutBegin ≠ 0 := by decide

theorem witness_DescriptorWrites :
    (p2w false false).fg = .idle
      ∧ (0 < (p2w false false).numBuses ∧ (p2w false false).busy 0 = true ∧ ((p2w false false).bus 0).messages = 0x100
        ∧ (1 : Word).toNat < ((p2w false false).bus 0).count.toNat)
      ∧ (∀ b, b < (p2w false false).numBuses → (p2w false false).busy b = true →
        ((p2w false false).bus b).messages = 0x100 → ((p2w false false).bus b).count.toNat ≤ (2 : Word).toNat)
      ∧ (p2w false false).backed 0x3003 = true ∧ (p2w false false).dstInFlight 0x3003 = true
      ∧ (p2w false false).dstInFlight 0x3004 = false ∧ (p2w false false).readOpen 0x3004 = false := by decide

theorem witness_CrcOperations :
    (∀ k, k < (3 : Word).toNat → k0.backed (0xFFFFFFFE + BitVec.ofNat 32 k) = true)
      ∧ (∀ k, k < (3 : Word).toNat → k0.readOpen (0xFFFFFFFE + BitVec.ofNat 32 k) = false)
      ∧ (∀ k, k < (3 : Word).toNat → (p2r false false).readOpen (0x3004 + BitVec.ofNat 32 k) = false)
      ∧ (∀ k, k < (4 : Word).toNat → (p2arrived.setIsr true).readOpen (0x3000 + BitVec.ofNat 32 k) = false) := by decide

theorem witness_FramesAndStatus :
    (0x0F : Byte).extractLsb' 4 4 = 0 ∧ ([(false, Code.crc), (true, Code.noError)].find? Prod.fst) = some (true, .noError) := by
  decide

theorem witness_SessionReads :
    (0 : Word).toNat < tiny.cfg.sessions.length ∧ tiny.busReady (tiny.sesBus (0 : Word).toNat)
      ∧ (k0.ses 0).initialized = false
      ∧ ((card .sdhcSdxc csdV2).initialized = true ∧ (card .sdhcSdxc csdV2).cardType ≠ .mmc
        ∧ ((card .sdhcSdxc csdV2).csd.extractLsb' 126 2).toNat = 1)
      ∧ ((card .mmc csdMmc).cardType = .mmc) ∧ ((tiny.ses 0).csd.extractLsb' 126 2).toNat ≠ 1 := by
  unfold State.busReady; decide

theorem witness_RegisterCopies :
    tiny.busReady (tiny.sesBus (0 : Word).toNat) ∧ (k0.ses 0).initialized = false ∧ (tiny.ses 0).initialized = true
      ∧ (∀ k, k < 16 → tiny.backed (0xFFFFFFF8 + BitVec.ofNat 32 k) = true)
      ∧ (∀ k, k < 16 → tiny.dstInFlight (0xFFFFFFF8 + BitVec.ofNat 32 k) = false) := by
  unfold State.busReady; decide

theorem witness_SdEntryStops_isr : (k0.setIsr true).isr = true ∧ (0 : Word).toNat < k0.cfg.sessions.length := by decide

theorem witness_SdEntryStops_mode :
    (halfDuplex .halfDuplexTx tiny).isr = false ∧ (0 : Word).toNat < (halfDuplex .halfDuplexTx tiny).cfg.sessions.length
      ∧ (halfDuplex .halfDuplexTx tiny).busReady ((halfDuplex .halfDuplexTx tiny).sesBus (0 : Word).toNat)
      ∧ ((halfDuplex .halfDuplexTx tiny).busCfg ((halfDuplex .halfDuplexTx tiny).sesBus 0)).mode ≠ .fullDuplex
      ∧ ((halfDuplex .halfDuplexTx tiny).ses 0).initialized = true
      ∧ (3 : Word).toNat + 1 ≤ sectorCount ((halfDuplex .halfDuplexTx tiny).ses 0)
      ∧ (1 : Word).toNat + (3 : Word).toNat ≤ sectorCount ((halfDuplex .halfDuplexTx tiny).ses 0) := by
  unfold State.busReady; decide

/-- The initialised card with bus 0 in a transfer of another owner. -/
def tinyBusy : State := tiny.setBus 0 (inXfer .writing 2 0 true)

theorem witness_SdEntryStops_claim :
    tinyBusy.sdReady (0 : Word).toNat ∧ tinyBusy.busy (tinyBusy.sesBus 0) = true
      ∧ (tinyBusy.bus (tinyBusy.sesBus 0)).transferId ≠ (tinyBusy.sesCfg 0).sdId
      ∧ (tinyBusy.ses 0).initialized = true ∧ (3 : Word).toNat + 1 ≤ sectorCount (tinyBusy.ses 0)
      ∧ (0 : Word).toNat + (4 : Word).toNat ≤ sectorCount (tinyBusy.ses 0) := by
  unfold State.sdReady State.busReady; decide

/-- FG about to enter `i`, which the begin callback of a busy wait of session 0 issued. -/
def nested (i : Instr) : State := at_ (.enter i) [.script [], .busyStart 0, .finish .code] tiny

theorem test_nested_init_turned_away :
    onNext (fun t => t.ses 0 == tiny.ses 0 && t.fg == .busy (.xchg 0 0xFF) [.busyPoll 0, .finish .code])
        (agentStep exec .fg (nested (.sdInit 0))) = true
      ∧ onNext (fun t => t.fg == .busy (.xchg 0 0xFF) [.r1Poll 0 1, .finish .codeByte, .script [], .busyStart 0, .finish .code])
        (agentStep exec .fg (nested (.sdiR1Poll 0))) = true
      ∧ onNext (fun t => t.ses 0 == tiny.ses 0) (agentStep exec .fg (nested (.sdiCmd 0 12 0 .r1b false))) = true := by
  decide

theorem test_nested_set_crc_runs :
    onNext (fun t => t.fg == .busy (.xchg 0 0x7B)
        [.cmdSend 0 59 1 .r1 false 0, .sdEnd 0, .setCrc 0 true, .finish .code, .script [], .busyStart 0, .finish .code]
        && (t.ses 0).csAsserted) (agentStep exec .fg (nested (.sdSetCrc 0 true))) = true := by decide

theorem witness_SdEntryStops_nested :
    (∃ g ∈ [Frame.script [], .busyStart 0, .finish .code], g.session = some (0 : Word).toNat)
      ∧ (nested (.sdInit 0)).fg = .busy (.enter (.sdInit 0)) [.script [], .busyStart 0, .finish .code]
      ∧ ((nested (.sdSetCrc 0 true)).ses 0).initialized = true
      ∧ (3 : Word).toNat + 1 ≤ sectorCount ((nested (.sdRead1 0 3 1)).ses 0)
      ∧ (1 : Word).toNat + (3 : Word).toNat ≤ sectorCount ((nested (.sdReadN 0 1 3 1)).ses 0) := by
  refine ⟨⟨.busyStart 0, by decide, rfl⟩, by decide⟩

theorem witness_DataChecks :
    (0 : Word).toNat < tiny.cfg.sessions.length ∧ tiny.isr = false ∧ tiny.busReady (tiny.sesBus (0 : Word).toNat)
      ∧ (k0.ses 0).initialized = false
      ∧ (tiny.ses 0).initialized = true ∧ sectorCount (tiny.ses 0) < (4 : Word).toNat + (1 : Word).toNat := by
  unfold State.busReady; decide

theorem witness_DataOperationsBegin :
    tiny.sdReady (0 : Word).toNat ∧ tiny.claimable (0 : Word).toNat ∧ (tiny.ses 0).initialized = true
      ∧ (3 : Word).toNat + 1 ≤ sectorCount (tiny.ses 0)
      ∧ (1 : Word).toNat + (3 : Word).toNat ≤ sectorCount (tiny.ses 0) := by
  unfold State.sdReady State.claimable State.busReady; decide

theorem witness_InitBegins :
    k0.sdReady (0 : Word).toNat ∧ k0.busy (k0.sesBus 0) = false
      ∧ (k0.setBus 0 { inXfer .reading 1 0 true with transferId := 2 }).busy 0 = true
      ∧ ((k0.setBus 0 { inXfer .reading 1 0 true with transferId := 2 }).bus 0).transferId = (k0.sesCfg 0).sdId
      ∧ k0.fg = .idle := by
  unfold State.sdReady State.busReady; decide

theorem witness_InitSteps :
    k0.isr = false ∧ k0.busy (k0.sesBus 0) = false ∧ k0.busReady (k0.sesBus 0)
      ∧ (at_ (.xchg 0 0xFF) [.initDummy 0 9, .initExit 0, .finish .code] k0).fg
        = .busy (.xchg (k0.sesBus 0) 0xFF) (.initDummy 0 9 :: [.initExit 0, .finish .code])
      ∧ (at_ (.xchg 0 0xFF) [.initDummy 0 10, .initExit 0, .finish .code] k0).fg
        = .busy (.xchg (k0.sesBus 0) 0xFF) (.initDummy 0 10 :: [.initExit 0, .finish .code])
      ∧ (ans [0] k0).answersOf (k0.sesBus 0) = 0 :: []
      ∧ ((p2w false false).busReady ((p2w false false).sesBus 0)
        ∧ (p2w false false).busy ((p2w false false).sesBus 0) = true)
      ∧ (Ret.ofCode .timeout).code ≠ .noError
      ∧ (Ret.ofCode .noError).byte ≠ 1 ∧ ({ code := .noError, byte := 1, val := 0 } : Ret).byte = 1
      ∧ (Ret.ofCode .sdIllegalCmd).code = .sdIllegalCmd ∧ (0x2AA : Word).extractLsb' 0 12 ≠ 0x1AA
      ∧ (0xFFFFF1AA : Word).extractLsb' 0 12 = 0x1AA := by
  unfold State.busReady; decide

/-- The OCR's voltage bits in rule R322's replies, with and without one the standard mask accepts. -/
theorem witness_InitVersion2 :
    k0.isr = false ∧ k0.busy (k0.sesBus 0) = false ∧ (Ret.ofCode .crc).code ≠ .noError
      ∧ (0x00FF8000 : Word) &&& k0.cfg.ocrVoltageMask ≠ 0 ∧ (0 : Word) &&& k0.cfg.ocrVoltageMask = 0
      ∧ (k0.sesCfg 0).timeoutBegin = 0 ∧ (k0.sesCfg 0).timeoutEnd = 0 ∧ (0x01 : Byte).getLsbD 0 = true
      ∧ (0x00 : Byte).getLsbD 0 = false ∧ (k0.ses 0).expired = false
      ∧ (k0.silent (k0.sesCfg 0).timeoutBegin ∧ k0.silent (k0.sesCfg 0).timeoutEnd)
      ∧ ((timed []).sesCfg 0).timeoutBegin ≠ 0 ∧ (timed []).silent ((timed []).sesCfg 0).timeoutBegin
      ∧ ((timed []).sesCfg 0).timeoutEnd ≠ 0 ∧ (timed []).silent ((timed []).sesCfg 0).timeoutEnd
      ∧ (((timed []).setSes 0 { Session.powerOn with winOpen := true, expired := true }).ses 0).expired = true := by
  unfold State.silent; decide

theorem witness_InitVersion1 :
    (Ret.ofCode .sdIllegalCmd).code = .sdIllegalCmd
      ∧ ((Ret.ofCode .timeout).code ≠ .sdIllegalCmd ∧ (Ret.ofCode .timeout).code ≠ .noError)
      ∧ ({ code := .noError, byte := 1, val := 0 } : Ret).byte.getLsbD 0 = true
      ∧ ({ code := .noError, byte := 0, val := 0 } : Ret).byte.getLsbD 0 = false
      ∧ ({ code := .noError, byte := 0, val := 0x80FF8000 } : Ret).val &&& k0.cfg.ocrVoltageMask ≠ 0
      ∧ (k0.ses 0).expired = false
      ∧ (((timed []).setSes 0 { Session.powerOn with winOpen := true, expired := true }).ses 0).expired = true := by
  decide

theorem witness_InitFinishes :
    (k0.ses 0).crcEnabled = false ∧ ({ card .mmc csdMmc with crcEnabled := true }).crcEnabled = true
      ∧ (Ret.ofCode .noError).code = .noError ∧ (Ret.ofCode .crc).code ≠ .noError
      ∧ (card .sdhcSdxc csdV2).cardType = .sdhcSdxc ∧ (tiny.ses 0).cardType ≠ .sdhcSdxc
      ∧ (∀ n, n < 16 → k0.backed ((k0.sesCfg 0).regbuf + BitVec.ofNat 32 n) = true
        ∧ k0.dstInFlight ((k0.sesCfg 0).regbuf + BitVec.ofNat 32 n) = false
        ∧ (0 : BitVec 128).extractLsb' (8 * n) 8 = k0.mem.read ((k0.sesCfg 0).regbuf + BitVec.ofNat 32 n)) := by
  decide

theorem witness_SetCrc :
    (k0.ses 0).initialized = false ∧ (tiny.ses 0).initialized = true ∧ tiny.sdReady (0 : Word).toNat
      ∧ k0.busReady (k0.sesBus (0 : Word).toNat) ∧ tiny.claimable (0 : Word).toNat := by
  unfold State.sdReady State.claimable State.busReady; decide

theorem witness_ProceduresBegin :
    k0.sdReady (0 : Word).toNat ∧ k0.silent (k0.sesCfg 0).timeoutBegin
      ∧ (timed []).sdReady (0 : Word).toNat ∧ (timed []).silent ((timed []).sesCfg 0).timeoutBegin := by
  unfold State.sdReady State.busReady State.silent; decide

theorem witness_R1PollReplies :
    (∀ v ∈ List.replicate 7 (0xFF : Byte), v.getLsbD 7 = true) ∧ (List.replicate 7 (0x80 : Byte)).length < 8
      ∧ (0x7F : Byte).getLsbD 7 = false
      ∧ (ans (List.replicate 7 0xFF ++ [0x7F, 3]) k0).answersOf (k0.sesBus 0) = List.replicate 7 0xFF ++ 0x7F :: [3]
      ∧ (at_ (.xchg 0 0xFF) [.r1Poll 0 1, .finish .codeByte] (p2w false false)).fg
        = .busy (.xchg ((p2w false false).sesBus 0) 0xFF) [.r1Poll 0 1, .finish .codeByte]
      ∧ (List.replicate 8 (0xFF : Byte)).length = 8 := by decide

theorem witness_CommandReplies :
    ((p2w false false).sdReady (0 : Word).toNat ∧ (p2w false false).busy ((p2w false false).sesBus 0) = true)
      ∧ (List.replicate 8 (0xFF : Byte)).length = 8
      ∧ (ans (List.replicate 7 0 ++ (List.replicate 8 0xFF ++ [1])) k0).answersOf (k0.sesBus 0)
        = List.replicate 7 0 ++ (List.replicate 8 0xFF ++ [1])
      ∧ (∀ f ∈ [Frame.cmdSend 0 12 0 .r1b false 5, .cmdStuff 0 .r1b false, .cmdStatus 0 false, .cmdPayload 0 0 false [1]],
        (at_ (.xchg 0 0xFF) [f, .finish .reply] (p2w false false)).fg
          = .busy (.xchg ((p2w false false).sesBus 0) 0xFF) [f, .finish .reply])
      ∧ (at_ (.xchg 0 0xFF) [.r1Poll 0 8, .cmdR1 0 .r7 false, .finish .reply] (p2w false false)).fg
        = .busy (.xchg ((p2w false false).sesBus 0) 0xFF) [.r1Poll 0 8, .cmdR1 0 .r7 false, .finish .reply]
      ∧ (List.replicate 7 (0 : Byte)).length = 6 + (if (12 : BitVec 6) = 12 then 1 else 0)
      ∧ (List.replicate 6 (0 : Byte)).length = 6 + (if (8 : BitVec 6) = 12 then 1 else 0)
      ∧ (ans (List.replicate 6 0 ++ ([0xFF] ++ 0x01 :: ([0, 0, 1, 0xAA] ++ []))) k0).answersOf (k0.sesBus 0)
        = List.replicate 6 0 ++ ([0xFF] ++ 0x01 :: ([0, 0, 1, 0xAA] ++ []))
      ∧ (0x01 : Byte) &&& 0x7E = 0 ∧ (0x02 : Byte) &&& 0x7E ≠ 0 ∧ (0x01 : Byte).getLsbD 7 = false
      ∧ decodeStatus 0x01 0 true = .noError ∧ (0x000001AA : Word) = (0 : Byte) ++ (0 : Byte) ++ (1 : Byte) ++ (0xAA : Byte) := by
  unfold State.sdReady State.busReady; decide

theorem witness_BusyWaitEnds :
    (k0.sdReady (0 : Word).toNat ∧ k0.busy (k0.sesBus 0) = false)
      ∧ (k0.silent (k0.sesCfg 0).timeoutBegin ∧ k0.silent (k0.sesCfg 0).timeoutEnd)
      ∧ ((timed []).silent ((timed []).sesCfg 0).timeoutBegin ∧ (timed []).silent ((timed []).sesCfg 0).timeoutEnd) ∧ (∀ v ∈ [(0 : Byte), 0xFE], v ≠ 0xFF)
      ∧ (ans ([0, 0xFE] ++ 0xFF :: [1]) k0).answersOf (k0.sesBus 0) = [0, 0xFE] ++ 0xFF :: [1]
      ∧ (at_ (.xchg 0 0xFF) [.busyPoll 0, .finish .code] k0).fg
        = .busy (.xchg (k0.sesBus (0 : Word).toNat) 0xFF) [.busyPoll (0 : Word).toNat, .finish .code]
      ∧ ((k0.ses 0).expired = false ∧ (0x7F : Byte) ≠ 0xFF)
      ∧ (0x00 : Byte).getLsbD 7 = false ∧ (0x01 : Byte) &&& 0x7E = 0 := by
  unfold State.sdReady State.busReady State.silent; decide

/-- Session 0's busy wait, its window opened by a begin callback and expired. -/
def expiredWait : State :=
  at_ (.xchg 0 0xFF) [.busyPoll 0, .finish .code]
    (ans [0x7F] ((timed []).setSes 0 { Session.powerOn with winOpen := true, expired := true }))

theorem witness_BusyWaitEnds_expired :
    expiredWait.sdReady (0 : Word).toNat ∧ expiredWait.busy (expiredWait.sesBus 0) = false
      ∧ expiredWait.silent (expiredWait.sesCfg 0).timeoutEnd ∧ (expiredWait.ses 0).expired = true
      ∧ expiredWait.fg = .busy (.xchg (expiredWait.sesCfg 0).bus 0xFF) [.busyPoll 0, .finish .code]
      ∧ expiredWait.answersOf (expiredWait.sesCfg 0).bus = 0x7F :: []
      ∧ ((expiredWait.setBus 0 (inXfer .writing 2 0 true)).busy (expiredWait.sesBus 0) = true
        ∧ (expiredWait.setBus 0 (inXfer .writing 2 0 true)).fg = expiredWait.fg) := by
  unfold State.sdReady State.busReady State.silent; decide

theorem witness_ReadBlock_token :
    (at_ (.xchg 0 0xFF) [.tokenPoll 0, .rdToken 0 0x9000 512 true, .finish .code] (ans [0xFE] k0)).fg
        = .busy (.xchg (k0.sesCfg 0).bus 0xFF) [.tokenPoll 0, .rdToken 0 0x9000 512 true, .finish .code]
      ∧ k0.busReady (k0.sesCfg 0).bus ∧ k0.busy (k0.sesCfg 0).bus = false ∧ k0.silent (k0.sesCfg 0).timeoutEnd
      ∧ (p2w false false).busy ((p2w false false).sesBus 0) = true
      ∧ (ans [0xFE] k0).answersOf (k0.sesCfg 0).bus = 0xFE :: [] ∧ k0.descInFlight (k0.sesCfg 0).msgs 0 = false
      ∧ k0.descInFlight (k0.sesCfg 0).msgs 1 = false ∧ (k0.ses 0).expired = false ∧ expiredWait.busReady 0
      ∧ (expiredWait.ses 0).expired = true ∧ ((0x10 : Byte) ≠ 0xFF ∧ (0x10 : Byte) ≠ 0xFE)
      ∧ (k0.sesCfg 0).bus < 2 ^ 32
      ∧ (at_ (.xfer 0 0x600 2) [.rdXfer 0 0x9000 512 true, .finish .code] k0).fg
        = .busy (.xfer (k0.sesCfg 0).bus 0x600 2) [.rdXfer 0 0x9000 512 true, .finish .code] := by
  unfold State.busReady State.silent; decide

theorem witness_ReadBlock_wait :
    (at_ (.busWait 0) [.rdWait 0 0x9000 2 true, .finish .code] (k0.setBus 0 { Bus.afterInit with status := .transferred })).fg
        = .busy (.busWait (k0.sesCfg 0).bus) [.rdWait 0 0x9000 2 true, .finish .code]
      ∧ ((p2w false false).bus 0).status = .transferring
      ∧ ((k0.setBus 0 { Bus.afterInit with status := .error }).bus 0).status ≠ .transferred
      ∧ ((k0.setBus 0 { Bus.afterInit with status := .transferred }).bus 0).status = .transferred
      ∧ (∀ k, k < (2 : Word).toNat → k0.backed (0x9000 + BitVec.ofNat 32 k) = true
        ∧ k0.dstInFlight (0x9000 + BitVec.ofNat 32 k) = false)
      ∧ k0.backed (k0.sesCfg 0).crcbuf = true ∧ k0.backed ((k0.sesCfg 0).crcbuf + 1) = true
      ∧ k0.dstInFlight (k0.sesCfg 0).crcbuf = false ∧ k0.dstInFlight ((k0.sesCfg 0).crcbuf + 1) = false := by decide

theorem witness_WriteBlock :
    k0.isr = false ∧ k0.busReady (k0.sesCfg 0).bus ∧ k0.busy (k0.sesCfg 0).bus = false
      ∧ (ans [0xFF] k0).answersOf (k0.sesCfg 0).bus = 0xFF :: [] ∧ k0.descInFlight (k0.sesCfg 0).msgs 0 = false
      ∧ (k0.silent (k0.sesCfg 0).timeoutBegin ∧ k0.silent (k0.sesCfg 0).timeoutEnd ∧ (k0.sesCfg 0).bus < 2 ^ 32)
      ∧ (∀ x ∈ [Fg.busy (.xchg 0 0xFE) [.wrToken 0 0xA000, .finish .code],
          .busy (.xchg 0 0x31) [.wrCrcHi 0 0xC3, .finish .code], .busy (.xchg 0 0xC3) [.wrCrcLo 0, .finish .code],
          .busy (.xchg 0 0xFF) [.dataResp 0 8, .wrResp 0, .finish .code],
          .busy (.xchg 0 0xFF) [.busyPoll 0, .wrBusy ((5 : BitVec 3).setWidth 8), .finish .code],
          .busy (.xfer 0 0x600 1) [.wrXfer 0 0xA000, .finish .code],
          .busy (.busWait 0) [.wrWait 0 0xA000, .finish .code]], ((ans [0xFF] k0).setFg x).fg = x)
      ∧ (0xE5 : Byte) &&& 0x11 = 0x01 ∧ (0xFF : Byte) &&& 0x11 ≠ 0x01
      ∧ ((k0.setBus 0 { Bus.afterInit with status := .transferred }).bus 0).status = .transferred
      ∧ (p2w false false).busy ((p2w false false).sesBus 0) = true
      ∧ (k0.backed 0xA000 = true ∧ k0.dstInFlight 0xA000 = false) := by
  unfold State.busReady State.silent; decide

theorem witness_DataOperationsGoOn :
    tiny.isr = false ∧ (Ret.ofCode .noError).code = .noError ∧ (Ret.ofCode .crc).code ≠ .noError
      ∧ tiny.silent (tiny.sesCfg 0).timeoutBegin ∧ (4 : Word) ≠ 0 ∧ 2 + 1 < (4 : Word).toNat ∧ (4 : Word).toNat ≤ 3 + 1
      ∧ ({ tiny.cfg with stopStatusMode := .r1bThenCmd13 } : Config).stopStatusMode = .r1bThenCmd13
      ∧ ({ tiny.cfg with stopStatusMode := .r1bOnly } : Config).stopStatusMode = .r1bOnly := by
  unfold State.silent; decide

theorem witness_DataOperationsEnd : tiny.isr = false ∧ (0 : Word).toNat + 4 = sectorCount (tiny.ses 0) := by decide

theorem witness_RegisterReads :
    (at_ (.xchg 0 0xFF) [.tokenPoll 0, .regToken 0 0x5010, .finish .code] k0).fg
        = .busy (.xchg (k0.sesBus 0) 0xFF) [.tokenPoll 0, .regToken 0 0x5010, .finish .code]
      ∧ (k0.silent (k0.sesCfg 0).timeoutBegin ∧ k0.silent (k0.sesCfg 0).timeoutEnd ∧ (k0.ses 0).expired = false)
      ∧ (expiredWait.silent (expiredWait.sesCfg 0).timeoutEnd ∧ (expiredWait.ses 0).expired = true)
      ∧ ((p2w false false).busReady ((p2w false false).sesBus 0)
        ∧ (p2w false false).busy ((p2w false false).sesBus 0) = true)
      ∧ (∀ f ∈ [Frame.regByte 0 0x5010 [1], .regTail 0 0x5010 csdV2 2],
        (at_ (.xchg 0 0xFF) [f, .finish .code] (p2w false false)).fg
          = .busy (.xchg ((p2w false false).sesBus 0) 0xFF) [f, .finish .code])
      ∧ csdV2.length = 16 ∧ k0.busReady (k0.sesBus 0) ∧ k0.busy (k0.sesBus 0) = false
      ∧ (at_ (.xchg 0 0xFF) [.regByte 0 0x5010 [], .finish .code] k0).fg
        = .busy (.xchg (k0.sesBus 0) 0xFF) [.regByte 0 0x5010 [], .finish .code]
      ∧ (ans (csdV2 ++ 1 :: 2 :: [3]) k0).answersOf (k0.sesBus 0) = csdV2 ++ 1 :: 2 :: [3]
      ∧ (∀ k, k < 16 → k0.backed (0x5010 + BitVec.ofNat 32 k) = true)
      ∧ (∀ k, k < 16 → k0.dstInFlight (0x5010 + BitVec.ofNat 32 k) = false)
      ∧ crc7 (csdV2.take 15) = (csdV2.getD 15 0).extractLsb' 1 7
      ∧ crc7 ((0 :: csdV2.drop 1).take 15) ≠ ((0 :: csdV2.drop 1).getD 15 0).extractLsb' 1 7 := by
  unfold State.busReady State.silent; decide +kernel

theorem witness_AdapterRefusals :
    (1 : Word).toNat < adpS.cfg.adapters.length ∧ adpS.opRec 2 = some (.m95xRead 0 0 4)
      ∧ build 0x7000 (.m95xRead 0 0 4) = .rejected .nullPointer ∧ Code.nullPointer ≠ .noError
      ∧ build 0x7000 (.m95xRead 0 0x3000 4) = .built [wr 0x7000 3 0, rd 0x3000 4 0] [3, 0, 0]
      ∧ ((fut 0 false true).fut (k0.adpCfg 0).fut).running = true ∧ (adpS.fut (adpS.adpCfg 0).fut).running = false
      ∧ (p2w false false).busy (k0.adpCfg 1).bus = true
      ∧ ((p2w false false).bus (k0.adpCfg 1).bus).transferId ≠ (k0.adpCfg 1).id
      ∧ adpS.busy (adpS.adpCfg 0).bus = false ∧ (adpS.adpCfg 0).bufSize < (List.replicate 9 (0 : Byte)).length
      ∧ (2 ≤ (adpS.adpCfg 0).maxMsgs ∧ 3 ≤ (adpS.adpCfg 0).bufSize)
      ∧ (k0.bus (k0.adpCfg 0).bus).callback = 0
      ∧ (adpS.setCallback 9 (.always [])).callback (adpS.bus (adpS.adpCfg 0).bus).callback.toNat
        ≠ .always [.op (.adpDispatch (BitVec.ofNat 32 (adpS.adpCfg 0).bus))] := by decide

theorem witness_AdapterStarts : adapterReady 0 1 [wr 0x7000 3 0, rd 0x3000 4 0] [3, 0, 0] adpS where
  adapter := by decide
  record := ⟨_, rfl, by decide⟩
  future := by decide
  bus := by unfold State.busReady; decide
  owner := by decide
  idle := by decide
  capacity := by decide
  small := by decide
  dispatcher := by decide
  backed := by decide
  notInFlight := fun _ _ => rfl
  list := by decide
  channels := by decide

theorem witness_AdapterStarts_scratch :
    (∀ k, k < 3 → adpS.dstInFlight ((adpS.adpCfg 0).buf + BitVec.ofNat 32 k) = false) := by decide

theorem witness_AdapterStarts_inFlight :
    adapterChecks 0 1 [wr 0x7000 3 0, rd 0x3000 4 0] [3, 0, 0]
        (adpS.setBus 0 { inXfer .reading 1 0 true with callback := 9, messages := (adpS.adpCfg 0).msgs })
      ∧ (adpS.setBus 0 { inXfer .reading 1 0 true with callback := 9, messages := (adpS.adpCfg 0).msgs }).descInFlight
        (adpS.adpCfg 0).msgs 0 = true :=
  ⟨{ adapter := by decide
     record := ⟨_, rfl, by decide⟩
     future := by decide
     bus := by unfold State.busReady; decide
     owner := by decide
     capacity := by decide
     small := by decide
     dispatcher := by decide
     backed := by decide }, by decide⟩

/-- The adapter's bus in a transfer of a list elsewhere under its own id, for ADP.BEGIN's busy BUS.XFER. -/
def adpBusy : State := adpS.setBus 0 { inXfer .reading 1 0 true with callback := 9 }

theorem witness_AdapterStarts_busy :
    adapterWrites 0 1 [wr 0x7000 3 0, rd 0x3000 4 0] [3, 0, 0] adpBusy ∧ adpBusy.busy (adpBusy.adpCfg 0).bus = true :=
  ⟨{ adapter := by decide
     record := ⟨_, rfl, by decide⟩
     future := by decide
     bus := by unfold State.busReady; decide
     owner := by decide
     capacity := by decide
     small := by decide
     dispatcher := by decide
     backed := by decide
     notInFlight := fun _ _ => rfl }, by decide⟩

/-- Operation records of drivers whose lists BUS.XFER refuses: an empty one and one with a message of size 0. -/
def adpBad : State := { adpS with opRecs := [(1, some (.driver [] [])), (2, some (.driver [rd 0x3000 0 0] []))] }

theorem witness_AdapterStarts_list :
    (build (adpBad.adpCfg 0).buf (.driver [] []) = .built [] []
        ∧ build (adpBad.adpCfg 0).buf (.driver [rd 0x3000 0 0] []) = .built [rd 0x3000 0 0] [])
      ∧ (adpBad.adpCfg 0).msgs ≠ 0 ∧ ({ adpBad.adpCfg 0 with msgs := 0 } : AdpCfg).msgs = 0
      ∧ ¬ (∀ m ∈ [rd 0x3000 0 0], Msg.valid m (adpBad.busCfg (adpBad.adpCfg 0).bus).mode = true)
      ∧ ((adpS.setLock 1 true).lock ((adpS.setLock 1 true).busCfg 0).txCh = true
        ∧ (need .fullDuplex (wr 0x7000 3 0).dir).tx = true)
      ∧ ((adpS.setLock 0 true).lock ((adpS.setLock 0 true).busCfg 0).rxCh = true
        ∧ (need .fullDuplex (rd 0x3000 4 0).dir).rx = true) := by decide

theorem witness_AdapterStarts_wait :
    (at_ (.futWait 0) [.finish .wordCode] (fut 0 false true)).fg
        = .busy (.futWait (k0.adpCfg 0).fut) [.finish .wordCode]
      ∧ ((fut 0 false true).fut (k0.adpCfg 0).fut).running = true ∧ ((fut 4 true false).fut 0).running = false
      ∧ ((fut 4 true false).fut 0).result = codeWord .busy ∧ (∀ c, ((fut 9 true false).fut 0).result ≠ codeWord c) := by
  refine ⟨by decide, by decide, by decide, by decide, ?_⟩
  intro c; cases c <;> decide

theorem witness_AdapterCompletes :
    (0 : Word).toNat < k0.cfg.adapters.length ∧ ((p2w false false).bus ((p2w false false).adpCfg 0).bus).transferId
        = ((p2w false false).adpCfg 0).id
      ∧ ((p2w false false).bus ((p2w false false).adpCfg 1).bus).transferId ≠ ((p2w false false).adpCfg 1).id
      ∧ (∀ n ∈ ((p2w false false).busCfg 0).adapters, ((p2w false false).adpCfg n).bus = 0)
      ∧ ((p2w false false).busCfg 0).adapters = [1] ++ 0 :: []
      ∧ (∀ m ∈ [1], ((p2w false false).adpCfg m).id ≠ ((p2w false false).bus 0).transferId)
      ∧ (∀ n ∈ (k0.busCfg 0).adapters, (k0.adpCfg n).id ≠ (k0.bus 0).transferId) := by decide

/-- P2 in its last message with the dispatcher installed; its SPI overrun as given. -/
def p2d (ovr : Bool) : State :=
  { p2r true false with
    buses := [(0, { inXfer .reading 2 1 true with callback := 9, ovr := ovr }), (1, Bus.afterInit)]
    callbacks := [(9, .always [.op (.adpDispatch 0)])] }

theorem witness_CompletionReachesAdapter :
    completingEvent 0 (p2d false) (.irqDmaRx 0) 0
      ∧ ((p2d false).bus 0).callback ≠ 0
      ∧ (p2d false).callback ((p2d false).bus 0).callback.toNat = .always [.op (.adpDispatch 0)]
      ∧ ((p2d false).busCfg 0).adapters = [1] ++ 0 :: []
      ∧ (∀ m ∈ ((p2d false).busCfg 0).adapters, ((p2d false).adpCfg m).bus = 0)
      ∧ (∀ m ∈ [1], ((p2d false).adpCfg m).id ≠ ((p2d false).bus 0).transferId)
      ∧ ((p2d false).adpCfg 0).id = ((p2d false).bus 0).transferId
      ∧ ((p2d false).bus 0).count.toNat ≤ ((p2d false).bus 0).index.toNat + 1 ∧ ((p2d false).current 0).callback = 0
      ∧ (p2d true).spiPending 0 = true ∧ (p2d true).busy 0 = true
      ∧ ((p2r true true).chan ((p2r true true).busCfg 0).rxCh).te = true
      ∧ ((p2r true true).chan ((p2r true true).busCfg 0).rxCh).teie = true :=
  ⟨⟨.inl ⟨rfl, rfl, .inl rfl⟩, by decide⟩, by decide⟩

theorem witness_TablesStayCanonical :
    (p2w true false).tablesWf
      ∧ onNext (fun t => (t.bus 0).index == 1) (step ((p2w true false).setTurns [.irqDmaTx 0])) = true := by
  unfold State.tablesWf; decide

theorem witness_FuturesAndSessionsStayConsistent :
    (fut 0 false true).futuresOk
      ∧ (at_ (.xchg 0 0xFF) [.initCrc 0, .initExit 0, .finish .code] tiny).SessionInv := by
  refine ⟨?_, ?_, ?_⟩
  · intro f
    rcases f with _ | n
    · decide
    · exact fun h => Bool.noConfusion h.1
  · rintro (_ | n)
    · exact fun _ => by decide
    · exact fun h => Bool.noConfusion h
  · intro p k h f hf
    obtain rfl : [Frame.initCrc 0, .initExit 0, .finish .code] = k := (Fg.busy.inj h).2
    simp only [List.mem_cons, List.not_mem_nil, or_false] at hf
    rcases hf with rfl | rfl | rfl
    · exact ⟨by decide, by decide⟩
    · trivial
    · trivial

theorem witness_BusInvariantsKept : (p2w true false).BusInv ∧ (p2w true false).calm
      ∧ onNext (fun t => (t.bus 0).index == 1) (step ((p2w true false).setTurns [.irqDmaTx 0])) = true := by
  have l : ∀ i, i < 2 → Msg.valid ((p2w true false).desc 0x100 i) .fullDuplex = true := by decide
  refine ⟨⟨?_, ?_, ?_, ?_, ?_, fun _ h => Bool.noConfusion h, ?_⟩, fun _ => rfl, by decide⟩
  · rintro (_ | _ | n)
    · decide
    · decide
    · exact show Bus.powerOn.status = .transferring ↔ Bus.powerOn.phase ≠ .idle by decide
  · rintro (_ | _ | n) h <;> first | decide | exact absurd rfl h
  · rintro (_ | _ | n)
    · decide
    · decide
    · exact show (Bus.powerOn.heldRx = true ∨ Bus.powerOn.heldTx = true) ↔ Bus.powerOn.phase ≠ .idle by decide
  · rintro (_ | _ | n) h
    · decide
    · decide
    · exact absurd h (by simp [State.numBuses, p2w, p2, k0, State.reset, Config.standard])
  · rintro (_ | _ | n) h
    · exact l
    · exact absurd rfl h
    · exact absurd rfl h
  · rintro (_ | _ | n) h <;> first | decide | exact absurd rfl h

end Sys2Proof.Tests
end

section
/-! SUPPORT. The turn at the head of the queue and the refused configurations (00_scope.md R3, R8, R12;
60_exceptions.md R408, R414 to R416). -/

namespace Sys2Proof.Machine

/-! ## Turns -/

/-- Taking a turn off the queue stops nobody and lets nobody go on. -/
@[simp] theorem State.setTurns_stopped (s : State) (ts : List Turn) (a : Agent) :
    (s.setTurns ts).stopped a = s.stopped a := rfl

theorem step_queued_stopped {s : State} {x : Turn} {ts : List Turn} (hc : configRefusal s.cfg = none)
    (ht : s.turns = x :: ts) (h : s.stopped (turnAgent x) = true) : step s = .next (s.setTurns ts) := by
  rw [step_queued hc ht, takeStep_stopped (by simpa using h)]

theorem step_queued_running {s : State} {x : Turn} {ts : List Turn} (hc : configRefusal s.cfg = none)
    (ht : s.turns = x :: ts) (h : s.stopped (turnAgent x) = false) :
    step s = settle (turnAgent x) (s.setTurns ts) (agentStep exec x (s.setTurns ts)) := by
  rw [step_queued hc ht, takeStep_running (by simpa using h)]

/-- Settles O5: a queued turn is `takeStep`, and each clause is one outcome of the agent's step through `settle`. -/
theorem stepIsTheNextTurn : Obligations.StepIsTheNextTurn := by
  intro s x ts hc ht u a
  refine ⟨stopped_iff s a, step_queued_stopped hc ht, fun hrun => ?_⟩
  have hstep : step s = settle a u (agentStep exec x u) := step_queued_running hc ht hrun
  refine ⟨fun t h => ?_, fun e he h => ?_, fun h => ?_, fun r h => ?_⟩
  · rw [hstep, h, settle_next]
  · have hfaults : u.faults = s.faults := State.setTurns_faults s ts
    rw [hstep, h, settle_fault a u he, hfaults]
  · rw [hstep, h, settle_hang]
  · rw [hstep, h, settle_refused]

/-! ## Refused configurations -/

theorem step_of_configRefusal {s : State} {r : Refusal} (h : configRefusal s.cfg = some r) : step s = .refused r := by
  simp [step, stepWith, h]

theorem configRefusal_of_sixteen {c : Config} (hin : inRange c = true) (h : ∃ x ∈ c.buses, x.frameBits = .sixteen) :
    configRefusal c = some .frameBits16 := by
  have hany : c.buses.any (fun x => x.frameBits == .sixteen) = true := by simpa using h
  simp [configRefusal, hin, hany]

theorem configRefusal_of_shared {c : Config} (hin : inRange c = true) (h8 : ∀ x ∈ c.buses, x.frameBits = .eight)
    (hch : ∀ ch ∈ boundChans c, ch < c.numDmaCh) (hdup : ¬ (boundChans c).Nodup) :
    configRefusal c = some .sharedChannel := by
  have hframes : c.buses.any (fun x => x.frameBits == .sixteen) = false := by
    rw [List.any_eq_false]
    intro x hx
    simp [h8 x hx]
  have hchans : (boundChans c).any (fun ch => decide (c.numDmaCh ≤ ch)) = false := by
    rw [List.any_eq_false]
    intro ch hmem
    simpa using hch ch hmem
  simp [configRefusal, hin, hframes, hchans, hdup]

/-- Settles O7: `configRefusal` names the refusal, and a refused configuration has no step. -/
theorem badConfigurationsRefused : Obligations.BadConfigurationsRefused :=
  ⟨fun _ hin h16 => step_of_configRefusal (configRefusal_of_sixteen hin h16),
    fun _ hin h8 hch hdup => step_of_configRefusal (configRefusal_of_shared hin h8 hch hdup)⟩

end Sys2Proof.Machine
end

section
/-! SUPPORT. What further shared operations leave unchanged, in the terms of `changesOnly`. -/

namespace Sys2Proof.Machine

theorem frame_startXfer (b : Nat) (p n : Word) (s : State) :
    changesOnly [.buses, .chans, .locks, .dirty] s (startXfer b p n s).2 := by
  rcases startXfer_cases b p n s with ⟨c, -, e⟩ | ⟨-, -, -, -, -, -, e⟩ <;> rw [e]
  · exact changesOnly_refl _ s
  · exact frame_startedXfer s b p n

theorem frame_xmit (b : Nat) (x : Byte) (s : State) : changesOnly [.wire, .answers, .draws] s (xmit b x s).2.2 := by
  unfold xmit
  split
  · exact changesOnly_refl _ s
  · exact frame_exchange s b x

theorem frame_setAdapterCs (a : Nat) (v : Bool) (s : State) : changesOnly [.adps] s (setAdapterCs a v s) :=
  frame_setAdp s a _

theorem frame_startFuture (f : Nat) (s : State) : changesOnly [.futs] s (startFuture f s) := frame_setFut s f _

theorem frame_finishFuture (f : Nat) (r : Word) (s : State) : changesOnly [.futs] s (finishFuture f r s) :=
  frame_setFut s f _

theorem frame_setFutureResult (f : Nat) (r : Word) (s : State) : changesOnly [.futs] s (setFutureResult f r s) :=
  frame_setFut s f _

end Sys2Proof.Machine
end

section
/-! SUPPORT. What a step keeps of the control part of the state: the futures, the callbacks, the configuration, the
context bit and the faults kept (10_state.md R33, R35; 60_exceptions.md R411, R412, R414). -/

namespace Sys2Proof.Machine

variable {P : State → Prop}

/-! ## Properties of the control part -/

/-- The futures, the callbacks, the configuration, the context bit and the faults kept read the same in `t` as in
`s`. -/
structure sameControl (s t : State) : Prop where
  fut : ∀ f, t.fut f = s.fut f
  callback : ∀ cb, t.callback cb = s.callback cb
  cfg : t.cfg = s.cfg
  isr : t.isr = s.isr
  faults : t.faults = s.faults
  hung : t.hung = s.hung

/-- The parts that `sameControl` says nothing of, but for FG's place and program. -/
def engineParts : List Part :=
  [.buses, .chans, .locks, .sess, .adps, .mem, .descs, .opRecs, .result, .turns, .answers, .draws, .dirty, .ext, .wire,
   .calls]

theorem sameControl_of_frame {s t : State} {ps : List Part} (h : changesOnly ps s t) (hps : ps ⊆ engineParts) :
    sameControl s t := by
  have hc : changesOnly engineParts s t := h.mono hps
  have hctl : samePart .control s t := hc _ (by decide)
  have hflt : samePart .faults s t := hc _ (by decide)
  exact ⟨hc .futs (by decide), hc .callbacks (by decide), hc .config (by decide), hctl.2.2, hflt.1, hflt.2⟩

theorem sameControl_setFg (s : State) (x : Fg) : sameControl s (s.setFg x) :=
  ⟨fun _ => rfl, fun _ => rfl, rfl, rfl, rfl, rfl⟩

theorem sameControl_setProg (s : State) (x : List Byte) : sameControl s (s.setProg x) :=
  ⟨fun _ => rfl, fun _ => rfl, rfl, rfl, rfl, rfl⟩

/-- A property of the control part that its own updates keep. -/
structure ControlStable (P : State → Prop) : Prop where
  congr : ∀ s t, sameControl s t → P s → P t
  futInit : ∀ s f, P s → P (initFuture f s)
  futStart : ∀ s f, P s → P (startFuture f s)
  futFinish : ∀ s f r, P s → P (finishFuture f r s)
  futResult : ∀ s f r, P s → P (setFutureResult f r s)
  tape : ∀ s cb acts rest, s.callback cb = .tape (acts :: rest) → P s → P (s.setCallback cb (.tape rest))
  keep : ∀ s a e, P s → P (s.setFaults (s.faults ++ [(a, e)]))
  hang : ∀ s, P s → P (s.setHung true)

theorem ControlStable.frame (h : ControlStable P) {s t : State} {ps : List Part} (hc : changesOnly ps s t)
    (hps : ps ⊆ engineParts) : P s → P t := h.congr s t (sameControl_of_frame hc hps)

theorem ControlStable.toOpStable (h : ControlStable P) : OpStable P where
  futInit := h.futInit
  futStart := h.futStart
  futFinish := h.futFinish
  futResult := h.futResult
  bus s b v _ := h.frame (frame_setBus s b v) (by decide)
  init s b _ _ := h.frame (frame_initBus s b) (by decide)
  xfer s b p n _ _ := h.frame (frame_startXfer b p n s) (by decide)
  lockTake s c _ := h.frame (frame_setLock s c true) (by decide)
  lockFree s c _ hs := h.frame (frame_setExt _ c false) (by decide) (h.frame (frame_setLock s c false) (by decide) hs)
  ses s i v := h.frame (frame_setSes s i v) (by decide)
  adp s a v := h.frame (frame_setAdp s a v) (by decide)
  fgWait s x _ := h.congr _ _ (sameControl_setFg s x)
  ret s r := h.frame (frame_setRet s r) (by decide)
  draws s := h.frame (frame_bumpDraws s) (by decide)
  dirty s x := h.frame (frame_setDirty s x) (by decide)
  answers s b x := h.frame (frame_setAnswers s b x) (by decide)
  tape := h.tape
  opRec s op r := h.frame (frame_setOpRec s op r) (by decide)
  desc s p i m _ := h.frame (frame_setDesc s p i m) (by decide)
  mem s a v := h.frame (frame_storeByte s a v) (by decide)
  send s b t := h.frame (frame_send s b t) (by decide)
  call s cb arg := h.frame (frame_logCall s cb arg) (by decide)

/-- What every step keeps of the control part, with what a handler does taken as one update. -/
theorem ControlStable.toStepStable (h : ControlStable P)
    (irq : ∀ s b, b < s.numBuses → Sat P s → Post (Sat P) (takeInterrupt (spiHandler b) s)
      ∧ Post (Sat P) (takeInterrupt (rxHandler b) s) ∧ Post (Sat P) (takeInterrupt (txHandler b) s)) :
    StepStable P where
  toOpStable := h.toOpStable
  chan s c v := h.frame (frame_setChan s c v) (by decide)
  fg s x := h.congr _ _ (sameControl_setFg s x)
  prog s x := h.congr _ _ (sameControl_setProg s x)
  turns s x := h.frame (frame_setTurns s x) (by decide)
  keep := h.keep
  hang := h.hang
  extTake s c _ hs := h.frame (frame_setExt _ c true) (by decide) (h.frame (frame_setLock s c true) (by decide) hs)
  extFree s c _ hs := h.frame (frame_setExt _ c false) (by decide) (h.frame (frame_setLock s c false) (by decide) hs)
  irq := irq

/-- Every step keeps a property of the control part that does not speak of the context bit. -/
theorem ControlStable.step_keeps (h : ControlStable P) (hisr : ∀ s x, P s → P (s.setIsr x)) {s t : State} (hs : P s)
    (hst : step s = .next t) : P t := by
  have hh : HandlerStable P :=
    { h.toOpStable with
      anyBus := fun s b v => h.frame (frame_setBus s b v) (by decide)
      chan := fun s c v => h.frame (frame_setChan s c v) (by decide)
      anyLock := fun s c v => h.frame (frame_setLock s c v) (by decide)
      enter := fun s => hisr s true
      leave := fun s t _ => hisr t s.isr }
  exact Machine.step_keeps (h.toStepStable fun _ b _ hs => post_irq hh b hs) hs hst

/-! ## The configuration, the context bit and the faults kept (10_state.md R35; 60_exceptions.md R411, R414, R415) -/

/-- A property that speaks neither of the futures nor of the callbacks. -/
theorem ControlStable.of_rest
    (hc : ∀ s t : State, t.cfg = s.cfg → t.isr = s.isr → t.faults = s.faults → t.hung = s.hung → P s → P t)
    (keep : ∀ s a e, P s → P (s.setFaults (s.faults ++ [(a, e)]))) (hang : ∀ s, P s → P (s.setHung true)) :
    ControlStable P where
  congr s t h := hc s t h.cfg h.isr h.faults h.hung
  futInit s _ := hc s _ rfl rfl rfl rfl
  futStart s _ := hc s _ rfl rfl rfl rfl
  futFinish s _ _ := hc s _ rfl rfl rfl rfl
  futResult s _ _ := hc s _ rfl rfl rfl rfl
  tape s _ _ _ _ := hc s _ rfl rfl rfl rfl
  keep := keep
  hang := hang

theorem controlStable_cfg (c : Config) : ControlStable (fun t => t.cfg = c) :=
  .of_rest (fun _ _ hcfg _ _ _ hs => hcfg.trans hs) (fun _ _ _ hs => hs) (fun _ hs => hs)

theorem controlStable_isr (v : Bool) : ControlStable (fun t => t.isr = v) :=
  .of_rest (fun _ _ _ hisr _ _ hs => hisr.trans hs) (fun _ _ _ hs => hs) (fun _ hs => hs)

theorem controlStable_faults (l : List (Agent × Fault)) : ControlStable (fun t => ∃ m, t.faults = l ++ m) :=
  .of_rest (fun _ _ _ _ hflt _ hs => by rwa [hflt])
    (fun _ a e ⟨m, hm⟩ => ⟨m ++ [(a, e)], by rw [State.setFaults_faults, hm, List.append_assoc]⟩) (fun _ hs => hs)

theorem controlStable_hung : ControlStable (fun t => t.hung = true) :=
  .of_rest (fun _ _ _ _ _ hhung hs => hhung.trans hs) (fun _ _ _ hs => hs) (fun _ _ => rfl)

theorem step_cfg {s t : State} (h : step s = .next t) : t.cfg = s.cfg :=
  (controlStable_cfg s.cfg).step_keeps (fun _ _ hs => hs) rfl h

theorem step_faults {s t : State} (h : step s = .next t) : ∃ l, t.faults = s.faults ++ l :=
  (controlStable_faults s.faults).step_keeps (fun _ _ hs => hs) ⟨[], (List.append_nil _).symm⟩ h

theorem step_hung {s t : State} (h : step s = .next t) (hs : s.hung = true) : t.hung = true :=
  controlStable_hung.step_keeps (fun _ _ hs => hs) hs h

theorem post_takeInterrupt_isr (body : State → Res State) (s : State) :
    Post (fun t => t.isr = s.isr) (takeInterrupt body s) :=
  post_andThen (Q := fun _ => True) (fun _ _ => trivial) (fun _ _ => (post_next _ _).mpr rfl)

/-- A step leaves the context bit as it found it: a handler's step puts it back at its end. -/
theorem step_isr {s t : State} (h : step s = .next t) : t.isr = s.isr := by
  refine Machine.step_keeps (P := fun u => u.isr = s.isr)
    ((controlStable_isr s.isr).toStepStable fun u b _ (hu : u.isr = s.isr) => ?_) rfl h
  have key : ∀ body, Post (fun t => t.isr = s.isr) (takeInterrupt body u) := fun body => by
    rw [← hu]; exact post_takeInterrupt_isr body u
  exact ⟨key _, key _, key _⟩

/-! ## Futures (10_state.md R33) -/

theorem futuresOk_setFut {s : State} (h : s.futuresOk) (f : Nat) (v : Future)
    (hv : ¬ (v.done = true ∧ v.running = true)) : (s.setFut f v).futuresOk := by
  intro n
  rw [State.fut_setFut]
  split
  · exact hv
  · exact h n

theorem futuresStable : ControlStable State.futuresOk where
  congr s t hc hs f := by rw [hc.fut]; exact hs f
  futInit _ _ hs := futuresOk_setFut hs _ _ (by simp [Future.zero])
  futStart _ _ hs := futuresOk_setFut hs _ _ (by simp)
  futFinish _ _ _ hs := futuresOk_setFut hs _ _ (by simp)
  futResult _ f _ hs := futuresOk_setFut hs _ _ (hs f)
  tape _ _ _ _ _ hs := hs
  keep _ _ _ hs := hs
  hang _ hs := hs

theorem step_futuresOk {s t : State} (h : step s = .next t) (hs : s.futuresOk) : t.futuresOk :=
  futuresStable.step_keeps (fun _ _ hs => hs) hs h

/-! ## The callbacks that issue no handler (60_exceptions.md R412) -/

/-- The rest of a tape has no act that the tape has not. -/
theorem callbackCalm_tape {acts : List Act} {rest : List (List Act)} (h : callbackCalm (.tape (acts :: rest)) = true) :
    callbackCalm (.tape rest) = true := by
  simp only [callbackCalm, List.all_cons, Bool.and_eq_true] at h ⊢
  exact h.2

theorem calmStable : ControlStable State.calm where
  congr s t hc hs cb := by rw [hc.callback]; exact hs cb
  futInit _ _ hs := hs
  futStart _ _ hs := hs
  futFinish _ _ _ hs := hs
  futResult _ _ _ hs := hs
  tape s cb acts rest e hs n := by
    rw [State.callback_setCallback]
    split
    · exact callbackCalm_tape (e ▸ hs cb)
    · exact hs n
  keep _ _ _ hs := hs
  hang _ hs := hs

end Sys2Proof.Machine
end

section
/-! SUPPORT. Every write keeps the canonical form of every table, and so does every step. -/

namespace Sys2Proof.Machine

section
variable {s : State} (h : s.tablesWf)
include h

theorem tablesWf_setFut (f : Nat) (v : Future) : (s.setFut f v).tablesWf := by
  simp_all [State.tablesWf, State.setFut, Table.wf_put]

theorem tablesWf_setBus (b : Nat) (v : Bus) : (s.setBus b v).tablesWf := by
  simp_all [State.tablesWf, State.setBus, Table.wf_put]

theorem tablesWf_setChan (c : Nat) (v : Chan) : (s.setChan c v).tablesWf := by
  simp_all [State.tablesWf, State.setChan, Table.wf_put]

theorem tablesWf_setLock (c : Nat) (v : Bool) : (s.setLock c v).tablesWf := by
  simp_all [State.tablesWf, State.setLock, Table.wf_put]

theorem tablesWf_setExt (c : Nat) (v : Bool) : (s.setExt c v).tablesWf := by
  simp_all [State.tablesWf, State.setExt, Table.wf_put]

theorem tablesWf_setSes (i : Nat) (v : Session) : (s.setSes i v).tablesWf := by
  simp_all [State.tablesWf, State.setSes, Table.wf_put]

theorem tablesWf_setAdp (a : Nat) (v : Adapter) : (s.setAdp a v).tablesWf := by
  simp_all [State.tablesWf, State.setAdp, Table.wf_put]

theorem tablesWf_storeByte (a : Word) (v : Byte) : (s.storeByte a v).tablesWf := by
  simp_all [State.tablesWf, State.storeByte, Memory.wf_write]

theorem tablesWf_setDesc (p i : Word) (m : Msg) : (s.setDesc p i m).tablesWf := by
  simp_all [State.tablesWf, State.setDesc, Table.wf_put]

theorem tablesWf_setOpRec (op : Nat) (r : OpRec) : (s.setOpRec op r).tablesWf := by
  simp_all [State.tablesWf, State.setOpRec, Table.wf_put]

theorem tablesWf_setCallback (cb : Nat) (v : Callback) : (s.setCallback cb v).tablesWf := by
  simp_all [State.tablesWf, State.setCallback, Table.wf_put]

theorem tablesWf_setAnswers (b : Nat) (l : List Byte) : (s.setAnswers b l).tablesWf := by
  simp_all [State.tablesWf, State.setAnswers, Table.wf_put]

theorem tablesWf_send (b : Nat) (t : Byte) : (s.send b t).tablesWf := by
  simp_all [State.tablesWf, State.send, Table.wf_put]

theorem tablesWf_setRet (r : Result) : (s.setRet r).tablesWf := by
  unfold State.setRet; split <;> exact h

theorem tablesWf_initBus (b : Nat) : (initBus b s).tablesWf :=
  tablesWf_setChan (tablesWf_setChan (tablesWf_setBus h _ _) _ _) _ _

theorem tablesWf_arm (b : Nat) (m : Msg) : (arm b m s).tablesWf :=
  tablesWf_setChan (tablesWf_setChan (tablesWf_setBus h _ _) _ _) _ _

theorem tablesWf_takeLocks (b : Nat) (w : ChanSet) : (s.takeLocks b w).tablesWf := by
  unfold State.takeLocks; dsimp only
  split <;> split
  · exact tablesWf_setLock (tablesWf_setLock h _ _) _ _
  · exact tablesWf_setLock h _ _
  · exact tablesWf_setLock h _ _
  · exact h

theorem tablesWf_startXfer (b : Nat) (p n : Word) : (startXfer b p n s).2.tablesWf := by
  rcases startXfer_cases b p n s with ⟨c, -, e⟩ | ⟨-, -, -, -, -, -, e⟩ <;> rw [e]
  · exact h
  · exact tablesWf_arm (s := (State.setBus _ _ _).cleanDirty b) (tablesWf_setBus (tablesWf_takeLocks h _ _) _ _) _ _

end

theorem tablesStable : Stable State.tablesWf where
  futInit _ _ hs := tablesWf_setFut hs _ _
  futStart _ _ hs := tablesWf_setFut hs _ _
  futFinish _ _ _ hs := tablesWf_setFut hs _ _
  futResult _ _ _ hs := tablesWf_setFut hs _ _
  bus _ _ _ _ hs := tablesWf_setBus hs _ _
  init _ _ _ _ hs := tablesWf_initBus hs _
  xfer _ _ _ _ _ _ hs := tablesWf_startXfer hs _ _ _
  lockTake _ _ _ hs := tablesWf_setLock hs _ _
  lockFree _ _ _ hs := tablesWf_setExt (tablesWf_setLock hs _ _) _ _
  ses _ _ _ hs := tablesWf_setSes hs _ _
  adp _ _ _ hs := tablesWf_setAdp hs _ _
  fgWait _ _ _ hs := hs
  ret _ _ hs := tablesWf_setRet hs _
  draws _ hs := hs
  dirty _ _ hs := hs
  answers _ _ _ hs := tablesWf_setAnswers hs _ _
  tape _ _ _ _ _ hs := tablesWf_setCallback hs _ _
  opRec _ _ _ hs := tablesWf_setOpRec hs _ _
  desc _ _ _ _ _ hs := tablesWf_setDesc hs _ _ _
  mem _ _ _ hs := tablesWf_storeByte hs _ _
  send _ _ _ hs := tablesWf_send hs _ _
  call _ _ _ hs := hs
  anyBus _ _ _ hs := tablesWf_setBus hs _ _
  chan _ _ _ hs := tablesWf_setChan hs _ _
  anyLock _ _ _ hs := tablesWf_setLock hs _ _
  enter _ hs := hs
  leave _ _ _ hs := hs
  ext _ _ _ hs := tablesWf_setExt hs _ _
  fg _ _ hs := hs
  prog _ _ hs := hs
  turns _ _ hs := hs
  keep _ _ _ hs := hs
  hang _ hs := hs

/-- Settles O58: the tables by `Stable`, the configuration, the context bit and the faults as parts of the control
part. -/
theorem tablesStayCanonical : Obligations.TablesStayCanonical := fun _ _ h =>
  ⟨fun hw => step_sat tablesStable hw h, step_cfg h, step_isr h, step_faults h, step_hung h⟩

end Sys2Proof.Machine
end

section
/-! SUPPORT. The bus invariants of 10_state.md R46 through every step: what leaves them alone, and the transitions
of Laws/BusInv.lean. -/

namespace Sys2Proof.Machine

/-- A write of a bus that leaves its transfer alone. -/
theorem transferInv_bus {s : State} {b : Nat} {v : Bus} (hv : sameTransfer (s.bus b) v) (h : TransferInv s) :
    TransferInv (s.setBus b v) := by
  refine ⟨busInv_congr (s := s) (fun k => ?_) (fun _ => rfl) (fun _ => id) (fun _ _ => rfl) rfl h.1, h.2⟩
  rw [State.bus_setBus]
  split
  · next e => subst e; exact hv
  · exact sameTransfer_refl _

/-- A change of nothing that the bus invariants speak of. -/
theorem transferInv_frame {s t : State} {ps : List Part} (hc : changesOnly ps s t)
    (hps : ps ⊆ [.futs, .chans, .sess, .adps, .mem, .opRecs, .callbacks, .control, .result, .turns, .answers, .draws,
      .dirty, .wire, .calls, .faults]) (h : TransferInv s) : TransferInv t :=
  have hc := hc.mono hps
  transferInv_congr h (hc .buses (by decide)) (hc .locks (by decide)) (hc .ext (by decide)) (hc .descs (by decide))
    (hc .config (by decide))

theorem transferStable : EngineStable TransferInv where
  futInit _ _ := transferInv_frame (frame_setFut _ _ _) (by decide)
  futStart _ _ := transferInv_frame (frame_setFut _ _ _) (by decide)
  futFinish _ _ _ := transferInv_frame (frame_setFut _ _ _) (by decide)
  futResult _ _ _ := transferInv_frame (frame_setFut _ _ _) (by decide)
  bus _ _ _ := transferInv_bus
  init _ _ := transferInv_init
  xfer _ _ p n := transferInv_xfer p n
  lockTake _ _ := transferInv_lock
  lockFree _ _ := transferInv_unlock
  ses s i v := transferInv_frame (frame_setSes s i v) (by decide)
  adp s a v := transferInv_frame (frame_setAdp s a v) (by decide)
  fgWait s x _ := transferInv_frame (frame_setFg s x) (by decide)
  ret s r := transferInv_frame (frame_setRet s r) (by decide)
  draws s := transferInv_frame (frame_bumpDraws s) (by decide)
  dirty s x := transferInv_frame (frame_setDirty s x) (by decide)
  answers s b x := transferInv_frame (frame_setAnswers s b x) (by decide)
  tape s cb _ rest _ := transferInv_frame (frame_setCallback s cb (.tape rest)) (by decide)
  opRec s op r := transferInv_frame (frame_setOpRec s op r) (by decide)
  desc _ p i m := transferInv_desc p i m
  mem s a v := transferInv_frame (frame_storeByte s a v) (by decide)
  send s b t := transferInv_frame (frame_send s b t) (by decide)
  call s cb arg := transferInv_frame (frame_logCall s cb arg) (by decide)
  inited s b hs hbusy := (hs.1.inited b (by simpa [State.busy] using hbusy)).2
  chan s c v := transferInv_frame (frame_setChan s c v) (by decide)
  fg s x := transferInv_frame (frame_setFg s x) (by decide)
  prog s x := transferInv_frame (frame_setProg s x) (by decide)
  turns s x := transferInv_frame (frame_setTurns s x) (by decide)
  keep s _ _ := transferInv_frame (frame_setFaults s _) (by decide)
  hang s := transferInv_frame (frame_setHung s true) (by decide)
  extTake _ _ := transferInv_envLock
  extFree _ c hx hs := transferInv_unlock (hs.1.ext c hx).2 hs
  enter s := transferInv_frame (frame_setIsr s true) (by decide)
  leave s t _ := transferInv_frame (frame_setIsr t s.isr) (by decide)
  ended _ _ st e hb _ hst := transferInv_ended st e hb hst
  advance _ _ := transferInv_advance

/-- Settles O60: the transitions of the bus engine keep the bus invariants in a configuration that has a step, whose
channels are bound once; and the tapes only lose runs. -/
theorem busInvariantsKept : Obligations.BusInvariantsKept := fun _ _ h =>
  ⟨fun hs => (step_engine transferStable ⟨hs, chansOk_of_step h⟩ h).1,
    fun hs => calmStable.step_keeps (fun _ _ hs => hs) hs h⟩

end Sys2Proof.Machine
end

section
/-! SUPPORT. The seven conditions of a valid message (10_state.md R45). -/

namespace Sys2Proof.Machine

theorem buffersOk_iff (m : Msg) : buffersOk m = true ↔
    (m.dir = 1 ∨ m.dir = 2 ∨ m.dir = 3) ∧ (m.dir = 1 → m.rx ≠ 0 ∧ m.tx = 0) ∧ (m.dir = 2 → m.tx ≠ 0 ∧ m.rx = 0)
      ∧ (m.dir = 3 → m.tx ≠ 0 ∧ m.rx ≠ 0) := by
  unfold buffersOk
  by_cases h1 : m.dir = 1
  · simp [h1]
  by_cases h2 : m.dir = 2
  · simp [h2]
  by_cases h3 : m.dir = 3
  · simp [h3]
  · simp only [h1, h2, h3, if_false, or_self, false_and, Bool.false_eq_true]

theorem modeOk_iff (mode : Mode) (m : Msg) : modeOk mode m = true ↔
    (mode = .halfDuplexRx → m.dir = 1) ∧ (mode = .halfDuplexTx → m.dir = 2) := by
  cases mode <;> simp [modeOk]

/-- Settles O15: the direction with its buffers, the size and the mode are the three parts of `Msg.valid`. -/
theorem messageValidity : Obligations.MessageValidity := by
  intro m mode
  unfold Msg.valid Config.maxMsgSize
  simp only [Bool.and_eq_true, decide_eq_true_eq, buffersOk_iff, modeOk_iff, and_assoc]

end Sys2Proof.Machine
end

section
/-! SUPPORT. What leaves the SD sessions and FG's place alone: the operations a callback issues, the handlers and
the datapath. -/

namespace Sys2Proof.Machine

/-! ## The sessions and FG's place -/

/-- The sessions read the same in `t` as in `s`, and FG is where it was or at a wait outside the SD procedures. -/
structure keepsPlace (s t : State) : Prop where
  ses : ∀ i, t.ses i = s.ses i
  fg : t.fg = s.fg ∨ ∃ p k, t.fg = .busy p [.finish k]

/-- The parts that `keepsPlace` says nothing of. -/
def placeParts : List Part :=
  [.futs, .buses, .chans, .locks, .adps, .mem, .descs, .opRecs, .callbacks, .result, .turns, .answers, .draws, .dirty,
   .ext, .wire, .calls, .faults]

theorem keepsPlace_refl (s : State) : keepsPlace s s := ⟨fun _ => rfl, .inl rfl⟩

theorem keepsPlace.trans {s t u : State} (h1 : keepsPlace s t) (h2 : keepsPlace t u) : keepsPlace s u := by
  refine ⟨fun i => (h2.ses i).trans (h1.ses i), ?_⟩
  rcases h2.fg with e | h
  · rw [e]; exact h1.fg
  · exact .inr h

theorem keepsPlace_of_frame {s t : State} {ps : List Part} (h : changesOnly ps s t) (hps : ps ⊆ placeParts) :
    keepsPlace s t := by
  have hc := h.mono hps
  have hctl : samePart .control s t := hc _ (by decide)
  exact ⟨hc .sess (by decide), .inl hctl.1⟩

theorem keepsPlace.frame {s t u : State} (h : keepsPlace s t) {ps : List Part} (hc : changesOnly ps t u)
    (hps : ps ⊆ placeParts) : keepsPlace s u := h.trans (keepsPlace_of_frame hc hps)

theorem keepsPlace.setRet {s t : State} (h : keepsPlace s t) (r : Result) : keepsPlace s (t.setRet r) :=
  h.frame (frame_setRet t r) (by decide)

theorem keepsPlace_setIsr (s : State) (v : Bool) : keepsPlace s (s.setIsr v) := ⟨fun _ => rfl, .inl rfl⟩

/-! ## Operations that take one step -/

theorem post_place_setRet (s : State) (r : Result) : Post (keepsPlace s) (.next (s.setRet r)) :=
  (post_next _ _).mpr ((keepsPlace_refl s).setRet r)

theorem post_place_waitFuture (f : Nat) (k : Finish) {s t : State} (h : keepsPlace s t) :
    Post (keepsPlace s) (waitFuture f k t) := by
  unfold waitFuture
  split
  · split
    · exact post_fault _ _
    · exact (post_next _ _).mpr ⟨h.ses, .inr ⟨_, _, rfl⟩⟩
  · exact (post_next _ _).mpr (h.setRet _)

theorem post_place_writeDesc (p i : Word) (m : Msg) {s t : State} (h : keepsPlace s t) :
    Post (keepsPlace s) (t.writeDesc p i m) := by
  unfold State.writeDesc
  split
  · exact post_fault _ _
  · exact (post_next _ _).mpr (h.frame (frame_setDesc t p i m) (by decide))

theorem post_place_writeDescs (p : Word) (ms : List Msg) (i : Word) {s t : State} (h : keepsPlace s t) :
    Post (keepsPlace s) (State.writeDescs p i ms t) := by
  induction ms generalizing i t with
  | nil => exact (post_next _ _).mpr h
  | cons m ms ih => exact post_andThen (post_place_writeDesc p i m h) (fun _ hu => ih _ hu)

theorem post_place_hostAccess (x : Access) {s t : State} (h : keepsPlace s t) :
    Post (keepsPlace s) (hostAccess x t) := by
  cases x with
  | store a v => exact post_needBacked ((post_next _ _).mpr (h.frame (frame_writeByte t a v) (by decide)))
  | load a => exact post_needBacked ((post_next _ _).mpr ((h.frame (frame_readByte t a) (by decide)).setRet _))
  | desc p i m => exact post_place_writeDesc p i m h
  | opRec op r => exact (post_next _ _).mpr (h.frame (frame_setOpRec t op.toNat r) (by decide))

theorem post_place_readOp (addr n : Word) (g : List Byte → Result) (s : State) :
    Post (keepsPlace s) (s.needBacked addr n.toNat
      (.next ((State.readBytes n.toNat addr s).2.setRet (g (State.readBytes n.toNat addr s).1)))) :=
  post_needBacked ((post_next _ _).mpr ((keepsPlace_of_frame (frame_readBytes n.toNat addr s) (by decide)).setRet _))

theorem post_place_copyRegister (reg : BitVec 128) (ini : Bool) (dst : Word) (s : State) :
    Post (keepsPlace s) (copyRegister reg ini dst s) := by
  unfold copyRegister
  split
  · exact post_place_setRet s _
  split
  · exact post_place_setRet s _
  · exact post_needBacked
      ((post_next _ _).mpr ((keepsPlace_of_frame (frame_writeBytes (regBytes reg) dst s) (by decide)).setRet _))

theorem post_place_busInit (b : Word) (s : State) : Post (keepsPlace s) (execBusInit b s) := by
  unfold execBusInit
  split
  · split
    · exact post_fault _ _
    · exact (post_next _ _).mpr ((keepsPlace_of_frame (frame_initBus s b.toNat) (by decide)).setRet _)
  · exact post_refused _ _

theorem post_place_busXmit (b : Word) (t : Byte) (ra : Word) (s : State) :
    Post (keepsPlace s) (execBusXmit b t ra s) := by
  have hx := keepsPlace_of_frame (frame_exchange s b.toNat t) (by decide)
  refine post_withBus ?_
  split
  · exact post_place_setRet s _
  dsimp only
  split
  · exact (post_next _ _).mpr (hx.setRet _)
  · exact post_needBacked ((post_next _ _).mpr ((hx.frame (frame_writeByte _ ra _) (by decide)).setRet _))

theorem post_place_busWait (b : Word) (s : State) : Post (keepsPlace s) (execBusWait b s) := by
  refine post_withBus ?_
  split
  · split
    · exact post_fault _ _
    · exact (post_next _ _).mpr ⟨fun _ => rfl, .inr ⟨_, _, rfl⟩⟩
  · exact post_place_setRet s _

theorem post_place_dmaTryLock (c : Word) (s : State) : Post (keepsPlace s) (execDmaTryLock c s) := by
  refine post_withChannel ?_
  unfold tryLock
  split
  · next t e =>
    split at e <;> cases e
    exact (post_next _ _).mpr ((keepsPlace_of_frame (frame_setLock s c.toNat true) (by decide)).setRet _)
  · exact post_place_setRet s _

theorem post_place_dmaUnlock (c : Word) (s : State) : Post (keepsPlace s) (execDmaUnlock c s) := by
  refine post_withChannel ?_
  split
  · exact post_fault _ _
  · exact (post_next _ _).mpr (((keepsPlace_of_frame (frame_setLock s c.toNat false) (by decide)).frame
      (frame_setExt _ c.toNat false) (by decide)).setRet _)

/-! ## The adapter contract -/

theorem keepsPlace_beginXfer (a n : Nat) (s : State) : keepsPlace s (beginXfer a n s).2 := by
  have hx := keepsPlace_of_frame (frame_startXfer (s.adpCfg a).bus (s.adpCfg a).msgs (BitVec.ofNat 32 n) s) (by decide)
  unfold beginXfer
  dsimp only
  split
  · exact hx
  · exact (hx.frame (frame_setAdapterCs a false _) (by decide)).frame (frame_finishFuture _ _ _) (by decide)

theorem post_place_beginWrites (a : Nat) (ms : List Msg) (scratch : List Byte) (s : State) :
    Post (fun r => keepsPlace s r.2) (beginWrites a ms scratch s) := by
  have hw := keepsPlace_of_frame (frame_writeBytes scratch (s.adpCfg a).buf s) (by decide)
  refine post_needBacked (post_andThen (post_place_writeDescs _ ms 0 hw) (fun t ht => (post_next _ _).mpr ?_))
  have hid := ht.frame (frame_setTransferId t (s.adpCfg a).bus (s.adpCfg a).id) (by decide)
  have hcs := hid.frame (frame_setAdapterCs a true _) (by decide)
  have hres := hcs.frame (frame_setFutureResult (s.adpCfg a).fut (codeWord .noError) _) (by decide)
  exact (hres.frame (frame_startFuture (s.adpCfg a).fut _) (by decide)).trans (keepsPlace_beginXfer a ms.length _)

theorem post_place_beginOp (a op : Nat) (s : State) : Post (fun r => keepsPlace s r.2) (beginOp a op s) := by
  have stay : ∀ c, Post (fun r : Code × State => keepsPlace s r.2) (.next (c, s)) :=
    fun _ => (post_next _ _).mpr (keepsPlace_refl s)
  refine post_withAdapter ?_
  split
  · exact post_refused _ _
  split
  · exact stay _
  unfold beginBuilt
  dsimp only
  split
  · exact stay _
  refine post_withBus ?_
  split
  · exact stay _
  split
  · exact stay _
  split
  · exact post_refused _ _
  · exact post_place_beginWrites a _ _ s

theorem keepsPlace_completeOp (a : Nat) (s : State) : keepsPlace s (completeOp a s).2 := by
  unfold completeOp
  dsimp only
  split
  · exact keepsPlace_refl s
  · exact (keepsPlace_of_frame (frame_setAdapterCs a false s) (by decide)).frame (frame_finishFuture _ _ _) (by decide)

theorem keepsPlace_dispatch (l : List Nat) (s : State) : keepsPlace s (dispatch l s) := by
  induction l generalizing s with
  | nil => exact keepsPlace_refl s
  | cons a l ih =>
    unfold dispatch
    dsimp only
    split
    · exact keepsPlace_completeOp a s
    · exact (keepsPlace_completeOp a s).trans (ih _)

/-! ## Callbacks -/

/-- An operation that a callback issues inside a step touches no session, and moves FG to a wait at most. -/
theorem post_place_callOp (i : Instr) (s : State) : Post (keepsPlace s) (callOp i s) := by
  have ret := post_place_setRet s
  cases i with
  | futInit f | futStart f | futFinish f r | futSetResult f r =>
    exact (post_next _ _).mpr ((keepsPlace_of_frame (frame_setFut s f.toNat _) (by decide)).setRet _)
  | futRunning f | futDone f | futResult f => exact ret _
  | futWait f => exact post_place_waitFuture _ _ (keepsPlace_refl s)
  | busInit b => exact post_place_busInit b s
  | busSetId b id =>
    exact post_withBus ((post_next _ _).mpr
      ((keepsPlace_of_frame (frame_setTransferId s b.toNat id) (by decide)).setRet _))
  | busXfer b p n =>
    exact post_withBus ((post_next _ _).mpr
      ((keepsPlace_of_frame (frame_startXfer b.toNat p n s) (by decide)).setRet _))
  | busXmit b t ra => exact post_place_busXmit b t ra s
  | busWait b => exact post_place_busWait b s
  | busId b | busStatus b | busErrors b | busBusy b | irqSpi b | irqDmaRx b | irqDmaTx b => exact post_withBus (ret _)
  | busSetCb b v | busSetTxDef b v =>
    exact post_withBus ((post_next _ _).mpr ((keepsPlace_of_frame (frame_setBus s b.toNat _) (by decide)).setRet _))
  | busSetSpeed b sp =>
    exact post_withBus ((post_next _ _).mpr
      ((keepsPlace_of_frame (frame_setSpeed s b.toNat sp) (by decide)).setRet _))
  | dmaTryLock c => exact post_place_dmaTryLock c s
  | dmaUnlock c => exact post_place_dmaUnlock c s
  | sdSectors x | sdType x | sdInited x | sdBlkLen x | sdEraseSz x | sdCrcEn x => exact post_withCard (ret _)
  | sdCid x dst | sdCsd x dst => exact post_withCard (post_place_copyRegister _ _ dst s)
  | sdiCrc7 a n => exact post_place_readOp a n (fun l => .value ((crc7 l).setWidth 32)) s
  | sdiCrc16 a n => exact post_place_readOp a n (fun l => .value ((crc16 l).setWidth 32)) s
  | sdiFrame x arg => exact ret _
  | sdiDecode r1 r2 ai => exact ret _
  | sdiErrTok t => exact ret _
  | adpBegin a op =>
    exact post_andThen (post_place_beginOp a.toNat op.toNat s) (fun _ hr => (post_next _ _).mpr (hr.setRet _))
  | adpSync a op =>
    refine post_andThen (post_place_beginOp a.toNat op.toNat s) (fun _ hr => ?_)
    split
    · exact post_place_waitFuture _ _ hr
    · exact (post_next _ _).mpr (hr.setRet _)
  | adpComplete a =>
    exact post_withAdapter (post_withBus ((post_next _ _).mpr ((keepsPlace_completeOp a.toNat s).setRet _)))
  | adpDispatch b => exact post_withBus ((post_next _ _).mpr ((keepsPlace_dispatch _ s).setRet _))
  | _ => exact post_withSession (post_fault _ _)

theorem post_place_runActs (acts : List Act) {s t : State} (h : keepsPlace s t) :
    Post (keepsPlace s) (runActs acts t) := by
  induction acts generalizing t with
  | nil => exact (post_next _ _).mpr h
  | cons x acts ih =>
    cases x with
    | op i => exact post_andThen (post_place_callOp i t) (fun _ hu => ih (h.trans hu))
    | access x => exact post_andThen (post_place_hostAccess x h) (fun _ hu => ih hu)
    | hang => exact post_fault _ _

theorem keepsPlace_takeActs (s : State) (cb : Word) : keepsPlace s (s.takeActs cb).2 := by
  unfold State.takeActs
  split
  · exact keepsPlace_refl s
  · exact keepsPlace_refl s
  · exact keepsPlace_of_frame (frame_setCallback s _ _) (by decide)

theorem post_place_invoke (cb : Word) (arg : CbArg) {s t : State} (h : keepsPlace s t) :
    Post (keepsPlace s) (invoke cb arg t) := by
  unfold invoke
  split
  · exact (post_next _ _).mpr h
  · exact post_place_runActs _ ((h.frame (frame_logCall t cb arg) (by decide)).trans (keepsPlace_takeActs _ cb))

/-! ## Handlers -/

section
variable {s t : State} (h : keepsPlace s t)
include h

theorem post_place_terminalSuccess (b : Nat) : Post (keepsPlace s) (terminalSuccess b t) := by
  rw [terminalSuccess_eq]
  exact post_place_invoke _ _ (h.frame (frame_ended t b _ _) (by decide))

theorem post_place_terminalError (b : Nat) (e : BitVec 4) : Post (keepsPlace s) (terminalError b e t) := by
  rw [terminalError_eq]
  exact post_place_invoke _ _ (h.frame (frame_ended t b _ _) (by decide))

theorem keepsPlace_advance (b : Nat) (i : Word) : keepsPlace s (advance b i t) :=
  (h.frame (frame_setBus t b _) (by decide)).frame (frame_arm _ b _) (by decide)

theorem post_place_messageDone (b : Nat) : Post (keepsPlace s) (messageDone b t) := by
  unfold messageDone
  dsimp only
  split
  · exact post_andThen (post_place_invoke _ _ h) (fun _ hu => (post_next _ _).mpr (keepsPlace_advance hu b _))
  · refine post_andThen (Q := keepsPlace s) ?_ (fun _ hu => post_place_terminalSuccess hu b)
    split
    · exact post_place_invoke _ _ h
    · exact (post_next _ _).mpr h

theorem post_place_spiHandler (b : Nat) : Post (keepsPlace s) (spiHandler b t) := by
  have hb : ∀ v, keepsPlace s (t.setBus b v) := fun v => h.frame (frame_setBus t b v) (by decide)
  unfold spiHandler
  dsimp only
  split
  · exact (post_next _ _).mpr h
  split
  · exact (post_next _ _).mpr ((hb _).frame (frame_setBus _ b _) (by decide))
  · exact post_place_terminalError (hb _) b _

theorem post_place_dmaHandler (b c : Nat) (mine : Phase → Bool) : Post (keepsPlace s) (dmaHandler b c mine t) := by
  have hc : ∀ v, keepsPlace s (t.setChan c v) := fun v => h.frame (frame_setChan t c v) (by decide)
  unfold dmaHandler
  dsimp only
  split
  · split
    · exact (post_next _ _).mpr ((hc _).frame (frame_setBus _ b _) (by decide))
    · exact post_place_terminalError (hc _) b _
  split
  · split
    · exact post_place_messageDone (hc _) b
    · exact (post_next _ _).mpr (hc _)
  · exact (post_next _ _).mpr h

end

theorem post_place_takeInterrupt {body : State → Res State}
    (hb : ∀ {s t}, keepsPlace s t → Post (keepsPlace s) (body t)) (s : State) :
    Post (keepsPlace s) (takeInterrupt body s) :=
  post_andThen (hb (keepsPlace_setIsr s true)) (fun _ ht => (post_next _ _).mpr (ht.trans (keepsPlace_setIsr _ _)))

theorem post_place_irq (b : Nat) (s : State) :
    Post (keepsPlace s) (takeInterrupt (spiHandler b) s) ∧ Post (keepsPlace s) (takeInterrupt (rxHandler b) s)
      ∧ Post (keepsPlace s) (takeInterrupt (txHandler b) s) :=
  ⟨post_place_takeInterrupt (fun h => post_place_spiHandler h b) s,
    post_place_takeInterrupt (fun h => post_place_dmaHandler h b _ _) s,
    post_place_takeInterrupt (fun h => post_place_dmaHandler h b _ _) s⟩

theorem post_place_handlerOp {body : Nat → State → Res State} {b : Word} {s : State}
    (h : Post (keepsPlace s) (takeInterrupt (body b.toNat) s)) : Post (keepsPlace s) (handlerOp body b s) :=
  post_withBus (post_andThen h (fun _ ht => (post_next _ _).mpr (ht.setRet _)))

/-! ## The datapath -/

theorem keepsPlace_takeAnswer (s : State) (b : Nat) : keepsPlace s (s.takeAnswer b).2 :=
  keepsPlace_of_frame (frame_takeAnswer s b) (by decide)

theorem keepsPlace_drawByte (s : State) : keepsPlace s s.drawByte.2 :=
  keepsPlace_of_frame (frame_bumpDraws s) (by decide)

theorem keepsPlace_drawWord (s : State) : keepsPlace s s.drawWord.2 :=
  keepsPlace_of_frame (frame_bumpDraws s) (by decide)

theorem keepsPlace_sourceFrame (b : Nat) (m : Msg) (k : Word) (s : State) : keepsPlace s (sourceFrame b m k s).2 := by
  unfold sourceFrame
  split
  · exact keepsPlace_refl s
  split
  · exact keepsPlace_drawByte s
  · exact keepsPlace_refl s

theorem keepsPlace_dpExchange (b : Nat) (m : Msg) (k : Word) (s : State) : keepsPlace s (dpExchange b m k s).2 := by
  unfold dpExchange
  split
  · exact keepsPlace_takeAnswer s b
  · exact (keepsPlace_sourceFrame b m k s).frame (frame_exchange _ b _) (by decide)

theorem keepsPlace_storedByte (b : Nat) (a : Word) (r : Byte × State) : keepsPlace r.2 (storedByte b a r).2 := by
  unfold storedByte
  split
  · exact keepsPlace_drawByte r.2
  · exact keepsPlace_refl r.2

theorem keepsPlace_chanMoved (want : Bool) (c : Nat) (v : Chan) (s : State) :
    keepsPlace s (if want then s.setChan c v else s) := by
  split
  · exact keepsPlace_of_frame (frame_setChan s c v) (by decide)
  · exact keepsPlace_refl s

theorem keepsPlace_countFrame (b : Nat) (n : ChanSet) (size : Word) (s : State) :
    keepsPlace s (countFrame b n size s) :=
  ((keepsPlace_of_frame (frame_setBus s b _) (by decide)).trans (keepsPlace_chanMoved _ _ _ _)).trans
    (keepsPlace_chanMoved _ _ _ _)

theorem keepsPlace_dpFrame (b : Nat) (s : State) : keepsPlace s (dpFrame b s) := by
  have hx := keepsPlace_dpExchange b (s.current b) (s.bus b).pos s
  unfold dpFrame
  dsimp only
  split
  · exact hx.trans (keepsPlace_countFrame b _ _ _)
  · exact ((hx.trans (keepsPlace_storedByte b _ _)).frame (frame_storeByte _ _ _) (by decide)).trans
      (keepsPlace_countFrame b _ _ _)

theorem post_place_dpTurn (b : Nat) (s : State) : Post (keepsPlace s) (dpTurn b s) := by
  refine (post_next _ _).mpr ?_
  split
  · exact keepsPlace_dpFrame b s
  · exact keepsPlace_refl s

end Sys2Proof.Machine
end

section
/-! SUPPORT. The SD procedures over 10_state.md R60: what a session may become outside SD.INIT's entry, and that FG's
places inside SD.INIT have what they rest on (44_sd_protocol.md R319 to R326). -/

namespace Sys2Proof.Machine

/-! ## What a session may become -/

/-- Session `y` is what `x` may become while FG is inside SD.INIT after type assignment: it keeps having a type and the
block length 512, and R60 (1). -/
structure Session.Grows (x y : Session) : Prop where
  typed : x.cardType ≠ .unknown → y.cardType ≠ .unknown
  sized : x.blockLen = 512 → y.blockLen = 512
  ready : x.ready → y.ready

/-- Every session of `t` is what that of `s` may become. -/
def State.Grows (s t : State) : Prop := ∀ i, (s.ses i).Grows (t.ses i)

/-- What the places `k` rest on holds. -/
def typedAll (k : List Frame) (s : State) : Prop := ∀ f ∈ k, f.typed s

theorem Session.Grows.refl (x : Session) : x.Grows x := ⟨id, id, id⟩

theorem Session.Grows.trans {x y z : Session} (h1 : x.Grows y) (h2 : y.Grows z) : x.Grows z :=
  ⟨h2.typed ∘ h1.typed, h2.sized ∘ h1.sized, h2.ready ∘ h1.ready⟩

theorem State.Grows.refl (s : State) : s.Grows s := fun i => Session.Grows.refl (s.ses i)

theorem State.Grows.trans {s t u : State} (h1 : s.Grows t) (h2 : t.Grows u) : s.Grows u :=
  fun i => (h1 i).trans (h2 i)

theorem keepsPlace.grows {s t : State} (h : keepsPlace s t) : s.Grows t :=
  fun i => by rw [h.ses i]; exact Session.Grows.refl _

theorem State.Grows.frame {s t u : State} (h : s.Grows t) {ps : List Part} (hc : changesOnly ps t u)
    (hps : ps ⊆ placeParts) : s.Grows u := h.trans (keepsPlace_of_frame hc hps).grows

theorem State.Grows.setSes {s t : State} (h : s.Grows t) {i : Nat} {v : Session} (hv : (t.ses i).Grows v) :
    s.Grows (t.setSes i v) := by
  refine h.trans fun j => ?_
  rw [State.ses_setSes]
  split
  · next e => subst e; exact hv
  · exact Session.Grows.refl _

/-- A place keeps what it rests on while its own session grows. -/
theorem Frame.typed_of_grows {s t : State} {f : Frame} (h : ∀ i, f.session = some i → (s.ses i).Grows (t.ses i))
    (hf : f.typed s) : f.typed t := by
  cases f with
  | initCid i | initCsd i | initBlkLen i => exact (h i rfl).typed hf
  | initCrc i => exact ⟨(h i rfl).typed hf.1, (h i rfl).sized hf.2⟩
  | _ => exact hf

theorem typedAll.grows {k : List Frame} {s t : State} (hk : typedAll k s) (h : s.Grows t) : typedAll k t :=
  fun f hf => Frame.typed_of_grows (fun i _ => h i) (hk f hf)

@[simp] theorem typedAll_nil (s : State) : typedAll [] s := fun _ hf => by cases hf

@[simp] theorem typedAll_cons (f : Frame) (k : List Frame) (s : State) :
    typedAll (f :: k) s ↔ f.typed s ∧ typedAll k s := List.forall_mem_cons

@[simp] theorem typedAll_append (k l : List Frame) (s : State) :
    typedAll (k ++ l) s ↔ typedAll k s ∧ typedAll l s := List.forall_mem_append

/-- A procedure has got to a state whose sessions may have grown from those of `s`, and waits at places that have what
they rest on. -/
def FlowGrows (s : State) : Flow → Prop
  | .ret _ t => s.Grows t
  | .wait _ k t => s.Grows t ∧ typedAll k t

@[simp] theorem flowGrows_ret (s t : State) (v : Ret) : FlowGrows s (.ret v t) ↔ s.Grows t := Iff.rfl

@[simp] theorem flowGrows_wait (s t : State) (p : Pending) (k : List Frame) :
    FlowGrows s (.wait p k t) ↔ s.Grows t ∧ typedAll k t := Iff.rfl

/-! ## Callbacks in FG context -/

/-- A callback has got to a state with the sessions of `s`. -/
def ScriptKeeps (s : State) : Script → Prop
  | .done t => s.Grows t
  | .stay _ _ t => s.Grows t

theorem grows_fgScript (acts : List Act) {s t : State} (h : s.Grows t) : Post (ScriptKeeps s) (fgScript acts t) := by
  induction acts generalizing t with
  | nil => exact (post_next _ _).mpr h
  | cons x acts ih =>
    cases x with
    | op i =>
      unfold fgScript
      split
      · exact (post_next _ _).mpr h
      · exact post_andThen (post_place_callOp i t) (fun _ hu => ih (h.trans hu.grows))
    | access x => exact post_andThen (post_place_hostAccess x (keepsPlace_refl t)) (fun _ hu => ih (h.trans hu.grows))
    | hang => exact (post_next _ _).mpr h

section
variable {s t : State} (h : s.Grows t)
include h

theorem grows_fgInvoke (cb arg : Word) {k : List Frame} (hk : typedAll k t) {next : State → Res Flow}
    (hn : ∀ u, t.Grows u → Post (FlowGrows s) (next u)) : Post (FlowGrows s) (fgInvoke cb arg k next t) := by
  unfold fgInvoke
  split
  · exact hn t (State.Grows.refl t)
  · have hc : t.Grows ((t.logCall cb (.word arg)).takeActs cb).2 :=
      ((keepsPlace_of_frame (frame_logCall t cb (.word arg)) (by decide)).trans (keepsPlace_takeActs _ cb)).grows
    refine post_andThen (grows_fgScript _ hc) (fun x hx => ?_)
    cases x with
    | done u => exact hn u hx
    | stay p rest u =>
      exact (post_next _ _).mpr ⟨h.trans hx, (typedAll_cons _ _ _).mpr ⟨trivial, hk.grows hx⟩⟩

theorem grows_resumeScript (rest : List Act) (v : Ret) : Post (FlowGrows s) (resumeScript rest v t) := by
  refine post_andThen (grows_fgScript rest h) (fun x hx => ?_)
  cases x with
  | done u => exact (post_next _ _).mpr hx
  | stay p rest' u => exact (post_next _ _).mpr ⟨hx, (typedAll_cons _ _ _).mpr ⟨trivial, typedAll_nil u⟩⟩

/-! ## Ends, exchanges and windows -/

@[simp] theorem grows_endWith (c : Code) : Post (FlowGrows s) (endWith c t) := (post_next _ _).mpr h

@[simp] theorem grows_endFreeReply (c : Code) : Post (FlowGrows s) (endFreeReply c t) :=
  (post_next _ _).mpr (h.trans ((keepsPlace_drawByte t).trans (keepsPlace_drawWord _)).grows)

@[simp] theorem grows_endFreeByte (c : Code) : Post (FlowGrows s) (endFreeByte c t) :=
  (post_next _ _).mpr (h.trans (keepsPlace_drawByte t).grows)

@[simp] theorem grows_askByte (i : Nat) (x : Byte) {k : List Frame} (hk : typedAll k t) :
    Post (FlowGrows s) (askByte i x k t) := (post_next _ _).mpr ⟨h, hk⟩

theorem grows_openWindow (i : Nat) (arg : Word) {k : List Frame} (hk : typedAll k t) {next : State → Res Flow}
    (hn : ∀ u, t.Grows u → Post (FlowGrows s) (next u)) : Post (FlowGrows s) (openWindow i arg k next t) := by
  have hw : t.Grows (t.setSes i { t.ses i with expired := false, winOpen := true }) :=
    (State.Grows.refl t).setSes ⟨id, id, id⟩
  exact grows_fgInvoke (h.trans hw) _ _ (hk.grows hw) (fun u hu => hn u (hw.trans hu))

theorem grows_shutWindow (i : Nat) : s.Grows (shutWindow i t) := h.setSes ⟨id, id, id⟩

theorem grows_closeWindow (i : Nat) (v : Ret) {k : List Frame} (hk : typedAll k t) {next : Ret → State → Res Flow}
    (hn : ∀ u, s.Grows u → Post (FlowGrows s) (next v u)) : Post (FlowGrows s) (closeWindow i v k next t) :=
  grows_fgInvoke h _ _ (by simp [Frame.typed, hk]) (fun _ hu => hn _ (grows_shutWindow (h.trans hu) i))

@[simp] theorem grows_closeAndEnd (i : Nat) (c : Code) : Post (FlowGrows s) (closeAndEnd i c t) :=
  grows_closeWindow h i _ (typedAll_nil t) (fun _ hu => (post_next _ _).mpr hu)

theorem grows_setSdCs (i : Nat) (v : Bool) : s.Grows (setSdCs i v t) := h.setSes ⟨id, id, id⟩

theorem grows_setSpeed (b : Nat) (v : Speed) : s.Grows (setSpeed b v t).2 := h.frame (frame_setSpeed t b v) (by decide)

theorem grows_readBytes (n : Nat) (a : Word) : s.Grows (State.readBytes n a t).2 :=
  h.frame (frame_readBytes n a t) (by decide)

end

/-! ## Starts -/

section
variable {s t : State} (h : s.Grows t) {k : List Frame} (hk : typedAll k t)
include h hk

@[simp] theorem grows_startR1Poll (i : Nat) : Post (FlowGrows s) (startR1Poll i k t) :=
  grows_askByte h i _ (by simp [Frame.typed, hk])

@[simp] theorem grows_startCmd (i : Nat) (x : BitVec 6) (arg : Word) (sh : Shape) (ai : Bool) :
    Post (FlowGrows s) (startCmd i x arg sh ai k t) :=
  grows_askByte h i _ (by simp [Frame.typed, hk])

@[simp] theorem grows_busyLoop (i : Nat) : Post (FlowGrows s) (busyLoop i k t) :=
  grows_askByte h i _ (by simp [Frame.typed, hk])

@[simp] theorem grows_tokenLoop (i : Nat) : Post (FlowGrows s) (tokenLoop i k t) :=
  grows_askByte h i _ (by simp [Frame.typed, hk])

@[simp] theorem grows_startBusyWait (i : Nat) : Post (FlowGrows s) (startBusyWait i k t) :=
  grows_openWindow h i _ (by simp [Frame.typed, hk])
    (fun _ hu => grows_busyLoop (h.trans hu) (hk.grows hu) i)

@[simp] theorem grows_startWaitToken (i : Nat) : Post (FlowGrows s) (startWaitToken i k t) :=
  grows_openWindow h i _ (by simp [Frame.typed, hk])
    (fun _ hu => grows_tokenLoop (h.trans hu) (hk.grows hu) i)

@[simp] theorem grows_startRdBlk (i : Nat) (dst n : Word) (check : Bool) :
    Post (FlowGrows s) (startRdBlk i dst n check k t) :=
  grows_startWaitToken h (by simp [Frame.typed, hk]) i

@[simp] theorem grows_startWrBlk (i : Nat) (src : Word) (token : Byte) :
    Post (FlowGrows s) (startWrBlk i src token k t) :=
  grows_askByte h i _ (by simp [Frame.typed, hk])

@[simp] theorem grows_startStopR (i : Nat) : Post (FlowGrows s) (startStopR i k t) :=
  grows_startCmd h (by simp [Frame.typed, hk]) _ _ _ _ _

@[simp] theorem grows_startStopW (i : Nat) : Post (FlowGrows s) (startStopW i k t) :=
  grows_askByte h i _ (by simp [Frame.typed, hk])

@[simp] theorem grows_startRdReg (i : Nat) (x : BitVec 6) (dst : Word) :
    Post (FlowGrows s) (startRdReg i x dst k t) :=
  grows_startCmd h (by simp [Frame.typed, hk]) _ _ _ _ _

end

/-! ## SD.INIT's places (44_sd_protocol.md R322 to R326) -/

section
variable {s t : State} (h : s.Grows t)
include h

theorem grows_assignType (i : Nat) {x : CardType} (hx : x ≠ .unknown) : Post (FlowGrows s) (assignType i x t) := by
  have hv : (t.ses i).Grows { t.ses i with cardType := x } := ⟨fun _ => hx, id, fun hr hi => ⟨hx, (hr hi).2⟩⟩
  exact grows_startRdReg (h.setSes hv) (by simpa [Frame.typed] using hx) _ _ _

theorem grows_resumeV2End (i : Nat) (v : Ret) : Post (FlowGrows s) (resumeV2End i v t) := by
  unfold resumeV2End; split <;> simp [h, Frame.typed]

theorem grows_exitV2 (i : Nat) (c : Code) : Post (FlowGrows s) (exitV2 i c t) :=
  grows_closeWindow h i _ (by simp [Frame.typed]) (fun _ hu => grows_resumeV2End hu i _)

theorem grows_resumeV1End (i : Nat) {x : CardType} (hx : x ≠ .unknown) (v : Ret) :
    Post (FlowGrows s) (resumeV1End i x v t) := by
  unfold resumeV1End; split
  · exact grows_endWith h _
  · exact grows_assignType h i hx

theorem grows_exitV1 (i : Nat) {x : CardType} (hx : x ≠ .unknown) (c : Code) :
    Post (FlowGrows s) (exitV1 i x c t) :=
  grows_closeWindow h i _ (by simpa [Frame.typed] using hx) (fun _ hu => grows_resumeV1End hu i hx _)

theorem grows_v1Pass (i : Nat) {x : CardType} (hx : x ≠ .unknown) (r1 : Byte) :
    Post (FlowGrows s) (v1Pass i x r1 [] t) := by
  unfold v1Pass
  split
  · split
    · exact grows_exitV1 h i hx _
    split
    · exact grows_exitV1 h i hx _
    · simp [h, Frame.typed]
  · simp [h, Frame.typed]

/-- The window of a V1 loop with a type that is not UNKNOWN. -/
theorem grows_v1Window (i : Nat) {x : CardType} (hx : x ≠ .unknown) (arg : Word) (r1 : Byte) :
    Post (FlowGrows s) (openWindow i arg [.v1Start i x r1] (v1Pass i x r1 []) t) :=
  grows_openWindow h i _ (by simpa [Frame.typed] using hx) (fun _ hu => grows_v1Pass (h.trans hu) i hx r1)

theorem grows_resumeV1Probe (i : Nat) (v : Ret) : Post (FlowGrows s) (resumeV1Probe i v t) := by
  unfold resumeV1Probe
  split
  · exact grows_v1Window h i (by decide) _ _
  split
  · exact grows_endWith h _
  · exact grows_v1Window h i (by decide) _ _

/-- The last act of SD.INIT rests on the type and the block length. -/
theorem grows_initDone {i : Nat} (ht : (t.ses i).cardType ≠ .unknown) (hb : (t.ses i).blockLen = 512) :
    Post (FlowGrows s) (initDone i t) := by
  refine grows_endWith (h.setSes ?_) _
  exact ⟨id, id, fun _ _ => ⟨ht, hb⟩⟩

/-- The finalisation rests on the type and sets the block length. -/
theorem grows_finalise {i : Nat} (ht : (t.ses i).cardType ≠ .unknown) : Post (FlowGrows s) (finalise i t) := by
  have hv := h.setSes (i := i) (v := { t.ses i with
    blockLen := Config.sdBlockLen.setWidth 16, eraseSize := BitVec.ofNat 32 (eraseSizeOf (t.ses i)) })
    ⟨id, fun _ => rfl, fun hr hi => ⟨(hr hi).1, rfl⟩⟩
  unfold finalise
  dsimp only
  split
  · exact grows_startCmd hv (by simpa [Frame.typed] using ⟨ht, rfl⟩) _ _ _ _ _
  · exact grows_initDone hv (by simpa using ht) (by rw [State.ses_setSes_self]; rfl)

theorem grows_resumeInitCid {i : Nat} (ht : (t.ses i).cardType ≠ .unknown) (v : Ret) :
    Post (FlowGrows s) (resumeInitCid i v t) := by
  have hr := grows_readBytes (State.Grows.refl t) 16 (t.sesCfg i).regbuf
  unfold resumeInitCid
  split
  · exact grows_endWith h _
  · dsimp only
    generalize State.readBytes 16 (t.sesCfg i).regbuf t = r at hr ⊢
    have hv := (h.trans hr).setSes (i := i) (v := { r.2.ses i with cid := regOfBytes r.1 }) ⟨id, id, id⟩
    have ht' := (hr i).typed ht
    exact post_needBacked (grows_startRdReg hv (by simpa [Frame.typed] using ht') _ _ _)

theorem grows_resumeInitCsd {i : Nat} (ht : (t.ses i).cardType ≠ .unknown) (v : Ret) :
    Post (FlowGrows s) (resumeInitCsd i v t) := by
  have hr := grows_readBytes (State.Grows.refl t) 16 (t.sesCfg i).regbuf
  unfold resumeInitCsd
  split
  · exact grows_endWith h _
  · dsimp only
    generalize State.readBytes 16 (t.sesCfg i).regbuf t = r at hr ⊢
    have hv := (h.trans hr).setSes (i := i) (v := { r.2.ses i with csd := regOfBytes r.1 }) ⟨id, id, id⟩
    have ht' := (hr i).typed ht
    refine post_needBacked ?_
    split
    · exact grows_startCmd hv (by simpa [Frame.typed] using ht') _ _ _ _ _
    · exact grows_finalise hv (by simpa using ht')

/-! ## Data blocks and loops -/

theorem grows_writeDescs (p : Word) (ms : List Msg) (q : Pending) {k : List Frame} (hk : ∀ u, typedAll k u) :
    Post (FlowGrows s) (andThen (State.writeDescs p 0 ms t) fun u => .next (.wait q k u)) :=
  post_andThen (post_place_writeDescs p ms 0 (keepsPlace_refl t))
    (fun u hu => (post_next _ _).mpr ⟨h.trans hu.grows, hk u⟩)

theorem grows_checkBlock (crcbuf dst n : Word) : Post (FlowGrows s) (checkBlock crcbuf dst n t) :=
  post_needBacked (post_needBacked (grows_endWith
    (((grows_readBytes h _ _).frame (frame_readByte _ _) (by decide)).frame (frame_readByte _ _) (by decide)) _))

theorem grows_readnLoop (i : Nat) (sector count dst : Word) (n : Nat) :
    Post (FlowGrows s) (readnLoop i sector count dst n t) := by
  unfold readnLoop; split <;> simp [h, Frame.typed]

theorem grows_writenLoop (i : Nat) (count src : Word) (n : Nat) :
    Post (FlowGrows s) (writenLoop i count src n t) := by
  unfold writenLoop; split <;> simp [h, Frame.typed]

end

/-! ## The frames -/

/-- FG goes on at a place that has what it rests on: the sessions grow, and it waits at places that have theirs. -/
theorem grows_resume (f : Frame) (v : Ret) {s t : State} (h : s.Grows t) (hf : f.typed t) :
    Post (FlowGrows s) (resume f v t) := by
  cases f with
  | script rest => exact grows_resumeScript h _ _
  | windowEnd i w => exact (post_next _ _).mpr (grows_shutWindow h i)
  | finish k => exact (post_next _ _).mpr (h.frame (frame_setRet t _) (by decide))
  | r1Poll i n => simp only [resume, resumeR1Poll]; (repeat' split) <;> simp [h, Frame.typed]
  | cmdSend i x arg sh ai n => simp only [resume, resumeCmdSend]; (repeat' split) <;> simp [h, Frame.typed]
  | cmdStuff i sh ai => simp only [resume, resumeCmdStuff]; split <;> simp [h, Frame.typed]
  | cmdR1 i sh ai => simp only [resume, resumeCmdR1]; (repeat' split) <;> simp [h, Frame.typed]
  | cmdBusy r1 ai => simpa [resume] using h
  | cmdStatus r1 ai => simp only [resume, resumeCmdStatus]; split <;> simp [h]
  | cmdPayload i r1 ai got => simp only [resume, resumeCmdPayload]; (repeat' split) <;> simp [h, Frame.typed]
  | busyStart i => exact grows_busyLoop h (typedAll_nil t) i
  | busyPoll i => simp only [resume, resumeBusyPoll]; (repeat' split) <;> simp [h]
  | tokenStart i => exact grows_tokenLoop h (typedAll_nil t) i
  | tokenPoll i => simp only [resume, resumeTokenPoll]; (repeat' split) <;> simp [h]
  | rdToken i dst n check =>
    simp only [resume, resumeRdToken]
    split
    · exact grows_endWith h _
    · exact grows_writeDescs (h.frame (frame_setBus t _ _) (by decide)) _ _ _ (by simp [Frame.typed])
  | rdXfer i dst n check => simp only [resume, resumeRdXfer]; split <;> simp [h, Frame.typed]
  | rdWait i dst n check =>
    simp only [resume, resumeRdWait]
    split
    · exact grows_endWith h _
    split
    · exact grows_checkBlock h _ _ _
    · exact grows_endWith h _
  | dataResp i n => simp only [resume, resumeDataResp]; (repeat' split) <;> simp [h, Frame.typed]
  | wrToken i src =>
    simp only [resume, resumeWrToken]
    split
    · exact grows_endWith h _
    · exact grows_writeDescs h _ _ _ (by simp [Frame.typed])
  | wrXfer i src => simp only [resume, resumeWrXfer]; split <;> simp [h, Frame.typed]
  | wrWait i src =>
    simp only [resume, resumeWrWait]
    split
    · exact grows_endWith h _
    · exact post_needBacked (grows_askByte (grows_readBytes h _ _) _ _ (by simp [Frame.typed]))
  | wrCrcHi i lo => simp only [resume, resumeWrCrcHi]; split <;> simp [h, Frame.typed]
  | wrCrcLo i => simp only [resume, resumeWrCrcLo]; split <;> simp [h, Frame.typed]
  | wrResp i => simp only [resume, resumeWrResp]; split <;> simp [h, Frame.typed]
  | wrBusy sss => exact grows_endWith h _
  | stopCmd i => simp only [resume, resumeStopCmd]; split <;> simp [h]
  | stopToken i => simp only [resume, resumeStopToken]; split <;> simp [h]
  | regCmd i dst => simp only [resume, resumeRegCmd]; split <;> simp [h, Frame.typed]
  | regToken i dst => simp only [resume, resumeRegToken]; split <;> simp [h, Frame.typed]
  | regByte i dst got => simp only [resume, resumeRegByte]; (repeat' split) <;> simp [h, Frame.typed]
  | regTail i dst w n =>
    simp only [resume, resumeRegTail]
    split
    · exact grows_endWith h _
    split
    · simp [h, Frame.typed]
    split
    · exact grows_endWith h _
    · exact post_needBacked (grows_endWith (h.frame (frame_writeBytes _ _ t) (by decide)) _)
  | initDummy i n =>
    simp only [resume, resumeInitDummy]
    (repeat' split) <;> simp [h, grows_setSdCs, Frame.typed]
  | initCmd0 i => simp only [resume, resumeInitCmd0]; (repeat' split) <;> simp [h, Frame.typed]
  | initCmd8 i => simp only [resume, resumeInitCmd8]; (repeat' split) <;> simp [h, Frame.typed]
  | v2Ocr i =>
    simp only [resume, resumeV2Ocr]
    split
    · exact grows_endWith h _
    split
    · exact grows_endWith h _
    · exact grows_openWindow h i _ (by simp [Frame.typed])
        (fun _ hu => grows_startCmd (h.trans hu) (by simp [Frame.typed]) _ _ _ _ _)
  | v2Start i => exact grows_startCmd h (by simp [Frame.typed]) _ _ _ _ _
  | v2App i =>
    simp only [resume, resumeV2App]
    split
    · exact grows_exitV2 h i _
    · simp [h, Frame.typed]
  | v2Acmd i =>
    simp only [resume, resumeV2Acmd]
    split
    · exact grows_exitV2 h i _
    split
    · exact grows_exitV2 h i _
    split
    · exact grows_exitV2 h i _
    · exact grows_startCmd h (by simp [Frame.typed]) _ _ _ _ _
  | v2End i => exact grows_resumeV2End h i v
  | v2Ccs i =>
    simp only [resume, resumeV2Ccs]
    split
    · exact grows_endWith h _
    · exact grows_assignType h i (by split <;> decide)
  | v1Ocr i => simp only [resume, resumeV1Ocr]; (repeat' split) <;> simp [h, Frame.typed]
  | v1App i =>
    simp only [resume, resumeV1App]
    split
    · simp [h, Frame.typed]
    · exact grows_resumeV1Probe h i v
  | v1Probe i => exact grows_resumeV1Probe h i v
  | v1Start i x r1 => exact grows_v1Pass h i hf r1
  | v1LoopApp i =>
    simp only [resume, resumeV1LoopApp]
    split
    · exact grows_exitV1 h i (by decide) _
    · simp [h, Frame.typed]
  | v1LoopAcmd i =>
    simp only [resume, resumeV1LoopAcmd]
    split
    · exact grows_exitV1 h i (by decide) _
    · exact grows_v1Pass h i (by decide) _
  | v1LoopMmc i =>
    simp only [resume, resumeV1LoopMmc]
    split
    · exact grows_exitV1 h i (by decide) _
    split
    · exact grows_exitV1 h i (by decide) _
    split
    · exact grows_exitV1 h i (by decide) _
    · exact grows_v1Pass h i (by decide) _
  | v1End i x => exact grows_resumeV1End h i hf v
  | initCid i => exact grows_resumeInitCid h hf v
  | initCsd i => exact grows_resumeInitCsd h hf v
  | initBlkLen i =>
    simp only [resume, resumeInitBlkLen]
    split
    · exact grows_endWith h _
    · exact grows_finalise h hf
  | initCrc i =>
    simp only [resume, resumeInitCrc]
    split
    · exact grows_endWith h _
    · exact grows_initDone h hf.1 hf.2
  | initExit i => exact grows_endWith (grows_setSpeed (grows_setSdCs h i false) _ _) _
  | sdEnd i => exact grows_endWith (grows_setSdCs h i false) _
  | readCmd i dst => simp only [resume, resumeReadCmd]; split <;> simp [h]
  | writeCmd i src => simp only [resume, resumeWriteCmd]; split <;> simp [h]
  | readnCmd i sector count dst =>
    simp only [resume, resumeReadnCmd]
    split
    · exact grows_endWith h _
    · exact grows_readnLoop h _ _ _ _ _
  | readnBlk i sector count dst n =>
    simp only [resume, resumeReadnBlk]
    split
    · simp [h, Frame.typed]
    · exact grows_readnLoop h _ _ _ _ _
  | readnStop i eb sector n => exact grows_endWith h _
  | writenCmd i count src =>
    simp only [resume, resumeWritenCmd]
    split
    · exact grows_endWith h _
    · exact grows_writenLoop h _ _ _ _
  | writenBlk i count src n =>
    simp only [resume, resumeWritenBlk]
    split
    · simp [h, Frame.typed]
    · exact grows_writenLoop h _ _ _ _
  | writenStop eb => exact grows_endWith h _
  | setCrc i en =>
    simp only [resume, resumeSetCrc]
    split
    · exact grows_endWith h _
    · refine grows_endWith (h.setSes ?_) _
      exact ⟨id, id, id⟩

end Sys2Proof.Machine
end

section
/-! SUPPORT. FG's steps and the other agents' over 10_state.md R60: SD.INIT's entry alone sets a session back
(44_sd_protocol.md R319), and one that a callback issues inside a procedure of the same session is turned away (log 46). -/

namespace Sys2Proof.Machine

/-! ## The invariant of the sessions -/

/-- Growth and a place with nothing to rest on keep the invariant. -/
theorem sessionInv_of_grows {s t : State} (hs : s.SessionInv) (hg : s.Grows t)
    (hfg : t.fg = s.fg ∨ ∃ p k, t.fg = .busy p [.finish k]) : t.SessionInv := by
  refine ⟨fun i => (hg i).ready (hs.ready i), fun p k hk => ?_⟩
  rcases hfg with e | ⟨q, x, e⟩
  · exact typedAll.grows (hs.typed p k (e ▸ hk)) hg
  · obtain ⟨rfl, rfl⟩ := Fg.busy.inj (e.symm.trans hk)
    exact (typedAll_cons _ _ _).mpr ⟨trivial, typedAll_nil t⟩

theorem keepsPlace.sessionInv {s t : State} (h : keepsPlace s t) (hs : s.SessionInv) : t.SessionInv :=
  sessionInv_of_grows hs h.grows h.fg

theorem sessionInv_setFg_idle {s : State} (hr : ∀ i, (s.ses i).ready) : (s.setFg .idle).SessionInv :=
  ⟨hr, fun _ _ h => by cases h⟩

theorem sessionInv_setFg_busy {s : State} (hr : ∀ i, (s.ses i).ready) (p : Pending) {k : List Frame}
    (hk : typedAll k s) : (s.setFg (.busy p k)).SessionInv := by
  refine ⟨hr, fun q l h => ?_⟩
  obtain ⟨rfl, rfl⟩ := Fg.busy.inj h
  exact hk.grows (fun i => Session.Grows.refl (s.ses i))

/-- FG has got from `s` to `t` with every session grown, and the invariant holds of `t`. -/
structure keepsSessions (s t : State) : Prop where
  inv : t.SessionInv
  grows : s.Grows t

theorem post_sessions_of_place {s : State} (hs : s.SessionInv) {r : Res State} (h : Post (keepsPlace s) r) :
    Post (keepsSessions s) r := fun t e => ⟨(h t e).sessionInv hs, (h t e).grows⟩

/-! ## Going on and entering a procedure -/

theorem post_sessions_unwind (k : List Frame) (v : Ret) {s t : State} (hr : ∀ i, (s.ses i).ready) (h : s.Grows t)
    (hk : typedAll k t) : Post (keepsSessions s) (unwind k v t) := by
  have ready : ∀ {u : State}, s.Grows u → ∀ i, (u.ses i).ready := fun hu i => (hu i).ready (hr i)
  induction k generalizing v t with
  | nil => exact (post_next _ _).mpr ⟨sessionInv_setFg_idle (ready h), h⟩
  | cons f k ih =>
    obtain ⟨hf, hk⟩ := (typedAll_cons _ _ _).mp hk
    have hx := grows_resume f v (State.Grows.refl t) hf
    unfold unwind
    split
    · next w u e =>
      have hu : t.Grows u := hx _ e
      exact ih w (h.trans hu) (hk.grows hu)
    · next p fs u e =>
      obtain ⟨hu, hfs⟩ : t.Grows u ∧ typedAll fs u := hx _ e
      exact (post_next _ _).mpr
        ⟨sessionInv_setFg_busy (ready (h.trans hu)) p ((typedAll_append _ _ _).mpr ⟨hfs, hk.grows hu⟩), h.trans hu⟩
    · exact post_fault _ _
    · exact post_refused _ _

theorem post_sessions_enterFlow {s : State} (hr : ∀ i, (s.ses i).ready) {r : Res Flow} (h : Post (FlowGrows s) r) :
    Post (keepsSessions s) (enterFlow r) := by
  have ready : ∀ {u : State}, s.Grows u → ∀ i, (u.ses i).ready := fun hu i => (hu i).ready (hr i)
  unfold enterFlow
  split
  · next v t =>
    have ht : s.Grows t := h _ rfl
    exact (post_next _ _).mpr ⟨sessionInv_setFg_idle (ready ht), ht⟩
  · next p k t =>
    obtain ⟨ht, hk⟩ : s.Grows t ∧ typedAll k t := h _ rfl
    exact (post_next _ _).mpr ⟨sessionInv_setFg_busy (ready ht) p hk, ht⟩
  · exact post_fault _ _
  · exact post_refused _ _

/-! ## The operations issued by FG -/

theorem grows_sdBegin (i : Nat) (s : State) : s.Grows (sdBegin i s).2 := by
  unfold sdBegin
  dsimp only
  split
  · exact grows_setSdCs ((State.Grows.refl s).frame (frame_setTransferId s _ _) (by decide)) i true
  · exact State.Grows.refl s

section
variable {s : State} (hs : s.SessionInv) (i : Nat) {start : State → Res Flow}
  (hst : ∀ t, s.Grows t → Post (FlowGrows s) (start t))
include hs hst

theorem post_sessions_claimed : Post (keepsSessions s) (claimed i start s) := by
  refine post_withSdBus ?_
  dsimp only
  split
  · exact post_sessions_enterFlow hs.ready (hst _ (grows_sdBegin i s))
  · exact post_sessions_of_place hs (post_place_setRet s _)

theorem post_sessions_unclaimed : Post (keepsSessions s) (unclaimed i start s) :=
  post_withSdSession (post_withSdBus (post_sessions_enterFlow hs.ready (hst s (State.Grows.refl s))))

theorem post_sessions_dataOp (buf sector count : Word) :
    Post (keepsSessions s) (dataOp i buf sector count start s) := by
  refine post_withSdSession ?_
  split
  · exact post_sessions_of_place hs (post_place_setRet s _)
  · exact post_sessions_claimed hs i hst

end

theorem post_sessions_sdSetCrc (x : Word) (en : Bool) {s : State} (hs : s.SessionInv) :
    Post (keepsSessions s) (execSdSetCrc x en s) := by
  have hg : s.Grows (s.setSes x.toNat { s.ses x.toNat with crcEnabled := en }) :=
    (State.Grows.refl s).setSes ⟨id, id, id⟩
  refine post_withSdSession ?_
  split
  · have hi := sessionInv_of_grows hs hg (.inl rfl)
    have hret := keepsPlace_of_frame (frame_setRet (s.setSes x.toNat { s.ses x.toNat with crcEnabled := en })
      (.code .noError)) (by decide)
    exact (post_next _ _).mpr ⟨hret.sessionInv hi, hg.trans hret.grows⟩
  · exact post_sessions_claimed hs _ (fun _ ht => grows_startCmd ht (by simp [Frame.typed]) _ _ _ _ _)

theorem exec_eq_callOp {i : Instr} (h : takesSteps i = false) (s : State) : exec i s = callOp i s := by
  cases i <;> simp only [takesSteps, Bool.true_eq_false] at h <;> rfl

/-- Every operation but SD.INIT keeps the invariant and lets every session grow. -/
theorem post_sessions_exec (i : Instr) (hi : ∀ x, i ≠ .sdInit x) {s : State} (hs : s.SessionInv) :
    Post (keepsSessions s) (exec i s) := by
  by_cases hsteps : takesSteps i = false
  · rw [exec_eq_callOp hsteps]
    exact post_sessions_of_place hs (post_place_callOp i s)
  have cmd : ∀ k, (∀ t, typedAll k t) → ∀ (n : Nat) (x : BitVec 6) (arg : Word) (sh : Shape) (ai : Bool),
      ∀ t, s.Grows t → Post (FlowGrows s) (startCmd n x arg sh ai k t) :=
    fun _ hk _ _ _ _ _ t ht => grows_startCmd ht (hk t) _ _ _ _ _
  cases i with
  | futWait f => exact post_sessions_of_place hs (post_place_callOp (.futWait f) s)
  | busWait b => exact post_sessions_of_place hs (post_place_callOp (.busWait b) s)
  | adpSync a op => exact post_sessions_of_place hs (post_place_callOp (.adpSync a op) s)
  | irqSpi b => exact post_sessions_of_place hs (post_place_handlerOp (post_place_irq b.toNat s).1)
  | irqDmaRx b => exact post_sessions_of_place hs (post_place_handlerOp (post_place_irq b.toNat s).2.1)
  | irqDmaTx b => exact post_sessions_of_place hs (post_place_handlerOp (post_place_irq b.toNat s).2.2)
  | sdInit x => exact absurd rfl (hi x)
  | sdRead1 x sector dst => exact post_sessions_dataOp hs _ (cmd _ (by simp [Frame.typed]) _ _ _ _ _) _ _ _
  | sdReadN x sector count dst => exact post_sessions_dataOp hs _ (cmd _ (by simp [Frame.typed]) _ _ _ _ _) _ _ _
  | sdWrite1 x sector src => exact post_sessions_dataOp hs _ (cmd _ (by simp [Frame.typed]) _ _ _ _ _) _ _ _
  | sdWriteN x sector count src => exact post_sessions_dataOp hs _ (cmd _ (by simp [Frame.typed]) _ _ _ _ _) _ _ _
  | sdSetCrc x en => exact post_sessions_sdSetCrc x en hs
  | sdiCmd x index arg sh ai => exact post_sessions_unclaimed hs _ (cmd _ (by simp [Frame.typed]) _ _ _ _ _)
  | sdiR1Poll x => exact post_sessions_unclaimed hs _ (fun _ ht => grows_startR1Poll ht (by simp [Frame.typed]) _)
  | sdiBusyWait x => exact post_sessions_unclaimed hs _ (fun _ ht => grows_startBusyWait ht (by simp [Frame.typed]) _)
  | sdiRdBlk x dst n check =>
    exact post_sessions_unclaimed hs _ (fun _ ht => grows_startRdBlk ht (by simp [Frame.typed]) _ _ _ _)
  | sdiWrBlk x src token =>
    exact post_sessions_unclaimed hs _ (fun _ ht => grows_startWrBlk ht (by simp [Frame.typed]) _ _ _)
  | sdiStopR x => exact post_sessions_unclaimed hs _ (fun _ ht => grows_startStopR ht (by simp [Frame.typed]) _)
  | sdiStopW x => exact post_sessions_unclaimed hs _ (fun _ ht => grows_startStopW ht (by simp [Frame.typed]) _)
  | sdiRdReg x index dst =>
    exact post_sessions_unclaimed hs _ (fun _ ht => grows_startRdReg ht (by simp [Frame.typed]) _ _ _)
  | _ => exact absurd rfl hsteps

/-! ## SD.INIT's entry (44_sd_protocol.md R319) -/

/-- The invariant holds of `t`, and every session but `i` has grown from that of `s`. -/
structure keepsOthers (i : Nat) (s t : State) : Prop where
  inv : t.SessionInv
  grows : ∀ j, i ≠ j → (s.ses j).Grows (t.ses j)

theorem keepsSessions.others {s t : State} (h : keepsSessions s t) (i : Nat) : keepsOthers i s t :=
  ⟨h.inv, fun j _ => h.grows j⟩

theorem keepsOthers.of_fresh {i : Nat} {s u : State} (h : keepsSessions (s.setSes i (s.ses i).fresh) u) :
    keepsOthers i s u := by
  refine ⟨h.inv, fun j hj => ?_⟩
  have hg := h.grows j
  rwa [State.ses_setSes_ne _ _ hj] at hg

theorem ready_setSes_fresh {s : State} (hr : ∀ j, (s.ses j).ready) (i : Nat) :
    ∀ j, ((s.setSes i (s.ses i).fresh).ses j).ready := by
  intro j
  rw [State.ses_setSes]
  split
  · intro h; cases h
  · exact hr j

theorem post_others_initStart (i : Nat) {s : State} (hr : ∀ j, (s.ses j).ready) :
    Post (keepsOthers i s) (initStart i s) := by
  have hfresh := ready_setSes_fresh hr i
  have hrefl := State.Grows.refl (s.setSes i (s.ses i).fresh)
  have key : Post (keepsSessions (s.setSes i (s.ses i).fresh)) (initStart i s) := by
    unfold initStart
    dsimp only
    split
    · exact post_sessions_enterFlow hfresh
        (grows_askByte (grows_setSdCs (grows_setSpeed hrefl _ _) i false) i _ (by simp [Frame.typed]))
    · exact post_sessions_unwind _ _ hfresh hrefl (by simp [Frame.typed])
  exact fun t e => keepsOthers.of_fresh (key t e)

theorem post_others_sdInit (x : Word) {s : State} (hs : s.SessionInv) :
    Post (keepsOthers x.toNat s) (exec (.sdInit x) s) := by
  have hid : keepsPlace s (setTransferId (s.sesBus x.toNat) (s.sesCfg x.toNat).sdId s).2 :=
    keepsPlace_of_frame (frame_setTransferId s _ _) (by decide)
  refine post_withSdSession (post_withSdBus ?_)
  dsimp only
  split
  · intro t e
    have ht := post_others_initStart x.toNat (fun j => (hid.grows j).ready (hs.ready j)) t e
    exact ⟨ht.inv, fun j hj => (hid.grows j).trans (ht.grows j hj)⟩
  · exact fun t e => (post_sessions_of_place hs (post_place_setRet s _) t e).others _

/-! ## Operations that a timeout callback issues (44_sd_protocol.md R311, log 46) -/

/-- An SD.INIT that does not re-enter finds no place of its session. -/
theorem session_ne_of_not_reenters {k : List Frame} {x : Word} {s : State} (h : reenters k (.sdInit x) s = false) :
    ∀ f ∈ k, f.session ≠ some x.toNat := by
  simp only [reenters, windowSession, List.any_eq_false] at h
  exact fun f hf e => h f hf (by simp [e])

/-- An operation that does not re-enter leaves FG's places what they rest on. -/
theorem post_sessions_entered {i : Instr} {k : List Frame} {s : State} (h : reenters k i s = false)
    (hr : ∀ j, (s.ses j).ready) (hk : typedAll k s) :
    Post (fun t => t.SessionInv ∧ typedAll k t) (exec i (s.setFg .idle)) := by
  have hs := sessionInv_setFg_idle hr
  by_cases hi : ∃ x, i = .sdInit x
  · obtain ⟨x, rfl⟩ := hi
    intro t e
    have ht := post_others_sdInit x hs t e
    refine ⟨ht.inv, fun f hf => Frame.typed_of_grows (fun j hj => ht.grows j ?_) (hk f hf)⟩
    rintro rfl
    exact session_ne_of_not_reenters h f hf hj
  · intro t e
    have ht := post_sessions_exec i (fun x hx => hi ⟨x, hx⟩) hs t e
    exact ⟨ht.inv, hk.grows ht.grows⟩

theorem keepsPlace_turnAway (i : Instr) (s : State) : keepsPlace s (turnAway i s) := by
  unfold turnAway
  split
  · exact ((keepsPlace_drawByte s).trans (keepsPlace_drawWord _)).setRet _
  · exact (keepsPlace_refl s).setRet _

/-! ## The agents -/

theorem post_sessionInv_unwind (k : List Frame) (v : Ret) {s t : State} (hr : ∀ i, (s.ses i).ready)
    (hk : typedAll k s) (h : keepsPlace s t) : Post State.SessionInv (unwind k v t) :=
  fun u e => (post_sessions_unwind k v hr h.grows (hk.grows h.grows) u e).inv

theorem post_sessionInv_performAct (p : Pending) (k : List Frame) {s : State} (hs : s.SessionInv)
    (hk : typedAll k s) : Post State.SessionInv (performAct exec p k s) := by
  have stay : Post State.SessionInv (.next s) := (post_next _ _).mpr hs
  have goOn : ∀ v {t}, keepsPlace s t → Post State.SessionInv (unwind k v t) :=
    fun v _ h => post_sessionInv_unwind k v hs.ready hk h
  cases p with
  | xchg b t => exact post_withBus (goOn _ (keepsPlace_of_frame (frame_xmit b t s) (by decide)))
  | xfer b d n => exact post_withBus (goOn _ (keepsPlace_of_frame (frame_startXfer b d n s) (by decide)))
  | busWait b =>
    refine post_withBus ?_
    split
    · exact stay
    · exact goOn _ (keepsPlace_refl s)
  | futWait f =>
    simp only [performAct]
    split
    · exact stay
    · exact goOn _ (keepsPlace_refl s)
  | enter i =>
    simp only [performAct]
    split
    · exact goOn _ (keepsPlace_turnAway i s)
    · next hre =>
      have hent := post_sessions_entered (by simpa using hre) hs.ready hk
      refine post_andThen hent (fun t ⟨hinv, hkt⟩ => ?_)
      split
      · exact post_sessionInv_unwind k _ hinv.ready hkt (keepsPlace_refl t)
      · next q fs hfg =>
        exact (post_next _ _).mpr (sessionInv_setFg_busy hinv.ready q
          ((typedAll_append _ _ _).mpr ⟨hinv.typed q fs hfg, hkt⟩))
  | hang => exact stay

theorem post_sessionInv_exec (i : Instr) {s : State} (hs : s.SessionInv) : Post State.SessionInv (exec i s) := by
  by_cases hi : ∃ x, i = .sdInit x
  · obtain ⟨x, rfl⟩ := hi
    exact fun t e => (post_others_sdInit x hs t e).inv
  · exact fun t e => (post_sessions_exec i (fun x hx => hi ⟨x, hx⟩) hs t e).inv

theorem post_sessionInv_fgTurn {s : State} (hs : s.SessionInv) : Post State.SessionInv (fgTurn exec s) := by
  unfold fgTurn
  split
  · unfold issueNext
    split
    · exact (post_next _ _).mpr hs
    split
    · next i rest _ =>
      exact post_sessionInv_exec i (sessionInv_of_grows (t := s.setProg rest) hs (State.Grows.refl s) (.inl rfl))
    · exact post_refused _ _
  · next p k hfg => exact post_sessionInv_performAct p k hs (hs.typed p k hfg)

/-- A turn of ENV leaves FG at its place, and a session's window expires at most. -/
theorem grows_envExpire (i : Nat) (s : State) : s.Grows (envExpire i s) ∧ (envExpire i s).fg = s.fg := by
  unfold envExpire
  split
  · exact ⟨(State.Grows.refl s).setSes ⟨id, id, id⟩, rfl⟩
  · exact ⟨State.Grows.refl s, rfl⟩

/-- A write that an agent makes under a condition, outside the sessions and FG's place. -/
theorem post_sessionInv_ite {c : Prop} [Decidable c] {s t : State} (hs : s.SessionInv) (h : keepsPlace s t) :
    Post State.SessionInv (.next (if c then t else s)) := by
  refine (post_next _ _).mpr ?_
  split
  · exact h.sessionInv hs
  · exact hs

theorem post_sessionInv_agentStep (x : Turn) {s : State} (hs : s.SessionInv) :
    Post State.SessionInv (agentStep exec x s) := by
  have of : ∀ {r : Res State}, Post (keepsPlace s) r → Post State.SessionInv r :=
    fun h t e => (h t e).sessionInv hs
  have stay : Post State.SessionInv (.next s) := (post_next _ _).mpr hs
  have bus : ∀ b v, keepsPlace s (s.setBus b v) := fun b v => keepsPlace_of_frame (frame_setBus s b v) (by decide)
  cases x with
  | fg => exact post_sessionInv_fgTurn hs
  | host x =>
    simp only [agentStep, hostTurn]
    split
    · exact of (post_place_hostAccess x (keepsPlace_refl s))
    · exact stay
  | irqSpi b => exact post_ite (fun _ => of (post_place_irq b s).1) stay
  | irqDmaRx b => exact post_ite (fun _ => of (post_place_irq b s).2.1) stay
  | irqDmaTx b => exact post_ite (fun _ => of (post_place_irq b s).2.2) stay
  | dp b => exact of (post_place_dpTurn b s)
  | envOvr b | envModf b | envCrcErr b => exact post_sessionInv_ite hs (bus b _)
  | envTe c => exact post_sessionInv_ite hs (keepsPlace_of_frame (frame_setChan s c _) (by decide))
  | envExpire i =>
    obtain ⟨hg, hfg⟩ := grows_envExpire i s
    exact (post_next _ _).mpr (sessionInv_of_grows hs hg (.inl hfg))
  | envLock c =>
    exact post_sessionInv_ite hs
      ((keepsPlace_of_frame (frame_setLock s c true) (by decide)).frame (frame_setExt _ c true) (by decide))
  | envUnlock c =>
    exact post_sessionInv_ite hs
      ((keepsPlace_of_frame (frame_setLock s c false) (by decide)).frame (frame_setExt _ c false) (by decide))

theorem post_sessionInv_settle (a : Agent) {s : State} (hs : s.SessionInv) {r : Res State}
    (hr : Post State.SessionInv r) : Post State.SessionInv (settle a s r) := by
  cases r with
  | next t => exact hr
  | fault e =>
    refine (post_next _ _).mpr ?_
    split
    · exact (keepsPlace_of_frame (frame_setHung s true) (by decide)).sessionInv hs
    · exact (keepsPlace_of_frame (frame_setFaults s _) (by decide)).sessionInv hs
  | refused e => exact post_refused _ _

theorem keepsPlace_takeTurn (s : State) : keepsPlace s s.takeTurn.2 := by
  unfold State.takeTurn
  split
  · exact keepsPlace_of_frame (frame_setTurns s _) (by decide)
  · exact keepsPlace_of_frame (frame_bumpDraws s) (by decide)

/-- Every step keeps R60 (1) of every session, with what FG's places inside SD.INIT rest on. -/
theorem step_sessionInv {s t : State} (h : step s = .next t) (hs : s.SessionInv) : t.SessionInv := by
  have hturn := (keepsPlace_takeTurn s).sessionInv hs
  have key : Post State.SessionInv (step s) := by
    unfold step stepWith
    split
    · exact post_refused _ _
    unfold takeStep
    split
    · exact (post_next _ _).mpr hturn
    · exact post_sessionInv_settle _ hturn (post_sessionInv_agentStep _ hturn)
  exact key t h

/-- Settles O59: the futures as a property of the control part, the sessions by their growth along FG's procedures. -/
theorem futuresAndSessionsStayConsistent : Obligations.FuturesAndSessionsStayConsistent :=
  fun _ _ h => ⟨step_futuresOk h, step_sessionInv h⟩

end Sys2Proof.Machine
end

section
/-! SUPPORT. The host's own accesses between operations: a descriptor write, a byte written, a byte read (20_memory.md
R84, R96; 70_reset_and_hazards.md R460). -/

namespace Sys2Proof.Machine

/-- Between operations a turn of the host is the access itself. -/
theorem agentStep_host {s : State} (hs : s.fg = .idle) (x : Access) :
    agentStep exec (.host x) s = hostAccess x s := by
  simp [agentStep, hostTurn, hs]

/-! ## Descriptors (20_memory.md R84) -/

theorem State.descInFlight_iff (s : State) (p i : Word) : s.descInFlight p i = true ↔
    ∃ b, b < s.numBuses ∧ s.busy b = true ∧ (s.bus b).messages = p ∧ i.toNat < (s.bus b).count.toNat := by
  simp [State.descInFlight, State.busy, BitVec.lt_def, and_assoc]

theorem State.writeDesc_inFlight {s : State} {p i : Word} (m : Msg) (h : s.descInFlight p i = true) :
    s.writeDesc p i m = .fault .descriptorWrittenInFlight := by
  simp [State.writeDesc, h]

theorem State.writeDesc_free {s : State} {p i : Word} (m : Msg) (h : s.descInFlight p i = false) :
    s.writeDesc p i m = .next (s.setDesc p i m) := by
  simp [State.writeDesc, h]

/-- A write of one descriptor leaves every other as it was, at whichever of the two indices of its key it differs. -/
theorem State.desc_setDesc_other (s : State) {p i q j : Word} (m : Msg) (h : q ≠ p ∨ j ≠ i) :
    (s.setDesc p i m).desc q j.toNat = s.desc q j.toNat := by
  rw [State.desc_setDesc s p i m q j.isLt, if_neg]
  rintro ⟨hp, hi⟩
  exact h.elim (· hp.symm) (· (BitVec.eq_of_toNat_eq hi.symm))

/-! ## Buffers in flight (20_memory.md R96) -/

/-- A source byte in flight is one of an unfinished message's source. -/
theorem State.srcInFlight_iff (s : State) (b : Nat) (a : Word) : s.srcInFlight b a = true ↔
    s.busy b = true ∧ ∃ n, (s.bus b).index.toNat ≤ n ∧ n < (s.bus b).count.toNat
      ∧ covers (s.desc (s.bus b).messages n).tx (s.desc (s.bus b).messages n).size a = true := by
  unfold State.srcInFlight inSrc State.transfer State.descList
  rw [Bool.and_eq_true, State.descsFrom_drop, State.descsFrom_any]
  refine and_congr Iff.rfl (exists_congr fun n => ?_)
  constructor
  · rintro ⟨hfirst, hlast, hcov⟩; exact ⟨by omega, by omega, hcov⟩
  · rintro ⟨hfirst, hlast, hcov⟩; exact ⟨by omega, by omega, hcov⟩

theorem State.dstInFlightOn_iff (s : State) (b : Nat) (a : Word) : s.dstInFlightOn b a = true ↔
    s.busy b = true ∧ ∃ n, n < (s.bus b).count.toNat
      ∧ covers (s.desc (s.bus b).messages n).rx (s.desc (s.bus b).messages n).size a = true := by
  unfold State.dstInFlightOn inDst State.transfer State.descList
  rw [Bool.and_eq_true, State.descsFrom_any]
  simp [State.busy]

theorem State.mem_touched (s : State) (a : Word) (x : Nat × Nat) : x ∈ s.touched a ↔
    x.1 < s.numBuses ∧ x.2 = a.toNat ∧ (s.srcInFlight x.1 a = true ∨ s.dstInFlightOn x.1 a = true) := by
  obtain ⟨b, k⟩ := x
  simp only [State.touched, List.mem_map, List.mem_filter, List.mem_range, Bool.or_eq_true, Prod.mk.injEq]
  constructor
  · rintro ⟨b, ⟨hb, hfl⟩, rfl, rfl⟩; exact ⟨hb, rfl, hfl⟩
  · rintro ⟨hb, rfl, hfl⟩; exact ⟨b, ⟨hb, hfl⟩, rfl, rfl⟩

/-! ## Bytes (20_memory.md R81, R96; 70_reset_and_hazards.md R460) -/

theorem State.needBacked_one {α : Type} {s : State} {a : Word} (k : Res α) (h : s.backed a = true) :
    s.needBacked a 1 k = k :=
  State.needBacked_eq k fun i hi => by simpa [Nat.lt_one_iff.mp hi] using h

/-- A write marks its byte for the transfers it touches, beside what was marked. -/
theorem State.mem_writeByte_dirty (s : State) (a : Word) (v : Byte) (x : Nat × Nat) :
    x ∈ (s.writeByte a v).dirty ↔ x ∈ s.dirty ∨ x ∈ s.touched a := by
  obtain ⟨t, w, -, e⟩ := s.writeByte_eq a v
  rw [e, State.setDirty_dirty, List.mem_append, or_comm]

theorem State.readByte_eq {s : State} {a : Word} (h : s.readOpen a = false) : s.readByte a = (s.mem.read a, s) := by
  simp [State.readByte, h]

/-! ## The host's accesses -/

theorem host_store {s : State} {a : Word} (hs : s.fg = .idle) (ha : s.backed a = true) (v : Byte) :
    agentStep exec (.host (.store a v)) s = .next (s.writeByte a v) := by
  rw [agentStep_host hs]
  exact State.needBacked_one _ ha

theorem host_load {s : State} {a : Word} (hs : s.fg = .idle) (ha : s.backed a = true) :
    agentStep exec (.host (.load a)) s = .next ((s.readByte a).2.setRet (.value ((s.readByte a).1.setWidth 32))) := by
  rw [agentStep_host hs]
  exact State.needBacked_one _ ha

/-- Settles O30: a descriptor write splits on `descInFlight`; a byte written is `writeByte`, a byte read `readByte`. -/
theorem descriptorWrites : Obligations.DescriptorWrites := by
  intro p i m s hs
  have hdesc : agentStep exec (.host (.desc p i m)) s = s.writeDesc p i m := agentStep_host hs _
  refine ⟨fun h => ?_, fun h => ?_, fun a v ha => ⟨?_, ?_⟩⟩
  · rw [hdesc, State.writeDesc_inFlight m ((s.descInFlight_iff p i).mpr h)]
  · have hfree : s.descInFlight p i = false := by
      rw [← Bool.not_eq_true, State.descInFlight_iff]
      rintro ⟨b, hb, hbusy, hp, hi⟩
      exact absurd hi (Nat.not_lt.mpr (h b hb hbusy hp))
    exact ⟨_, hdesc.trans (State.writeDesc_free m hfree), frame_setDesc s p i m, State.desc_setDesc_self s p i m,
      fun _ _ => State.desc_setDesc_other s m⟩
  · refine ⟨_, host_store hs ha v, frame_writeByte s a v, wroteBytes_writeByte a v s, fun x => ?_⟩
    rw [State.mem_writeByte_dirty, State.mem_touched, State.srcInFlight_iff, State.dstInFlightOn_iff, ← and_or_left]
  · have hframe : changesOnly [.result, .draws] s
        ((s.readByte a).2.setRet (.value ((s.readByte a).1.setWidth 32))) :=
      ((frame_readByte s a).trans (frame_setRet _ _)).mono (by simp)
    refine ⟨_, _, host_load hs ha, hframe, result_setRet _ _, fun h => ?_⟩
    rw [State.setRet_draws, State.readByte_eq h]
    exact ⟨rfl, rfl⟩

end Sys2Proof.Machine
end

section
/-! SUPPORT. The operation word and back (30_encoding.md R110, R111, R132, R133): a slot and its bytes, the rows of the
opcode map, each narrow operand and its slot; then the decoder and the encoder as inverses. -/

namespace Sys2Proof

/-! ## Slots (30_encoding.md R110; log 7) -/

theorem wordOfBytes_extract (w : Word) :
    wordOfBytes (w.extractLsb' 0 8) (w.extractLsb' 8 8) (w.extractLsb' 16 8) (w.extractLsb' 24 8) = w := by
  unfold wordOfBytes
  ext i hi
  simp only [BitVec.getElem_append, BitVec.getElem_extractLsb']
  grind

theorem wordBytes_wordOfBytes (b0 b1 b2 b3 : Byte) : wordBytes (wordOfBytes b0 b1 b2 b3) = [b0, b1, b2, b3] := by
  unfold wordBytes wordOfBytes
  simp only [List.cons.injEq, and_true]
  refine ⟨?_, ?_, ?_, ?_⟩ <;> ext i hi <;> simp <;> grind

/-- Reading back as many slots as were written answers them, with the bytes that follow left. -/
theorem takeSlots_flatMap (ws : List Word) (rest : List Byte) :
    takeSlots ws.length (ws.flatMap wordBytes ++ rest) = some (ws, rest) := by
  induction ws with
  | nil => rfl
  | cons w ws ih => simp [wordBytes, takeSlots, ih, wordOfBytes_extract]

/-- The slots read are those whose bytes stood there. -/
theorem takeSlots_eq_some {n : Nat} {bytes rest : List Byte} {ws : List Word}
    (h : takeSlots n bytes = some (ws, rest)) : ws.length = n ∧ bytes = ws.flatMap wordBytes ++ rest := by
  induction n, bytes using takeSlots.induct generalizing ws with
  | case1 bytes =>
    obtain ⟨rfl, rfl⟩ : [] = ws ∧ bytes = rest := by simpa [takeSlots] using h
    exact ⟨rfl, rfl⟩
  | case2 n b0 b1 b2 b3 bytes us left hread ih =>
    obtain ⟨rfl, rfl⟩ : wordOfBytes b0 b1 b2 b3 :: us = ws ∧ left = rest := by simpa [takeSlots, hread] using h
    obtain ⟨hlen, hbytes⟩ := ih hread
    exact ⟨congrArg (· + 1) hlen, by simp [wordBytes_wordOfBytes, ← hbytes]⟩
  | case3 n b0 b1 b2 b3 bytes hread => simp [takeSlots, hread] at h
  | case4 n bytes hshort => simp [takeSlots] at h

/-! ## The opcode map (30_encoding.md R111) -/

/-- How many operand slots the operation's row of the opcode map has. -/
def Op.slots (op : Op) : Nat := ((rowOfOp op).map OpRow.slots).getD 0

theorem rowOfByte_code (op : Op) : rowOfByte op.code = some ⟨op.code, op, op.slots⟩ := by cases op <;> rfl

/-- No operation has a second row. -/
theorem eq_row_of_mem : ∀ row ∈ opRows, row = ⟨row.op.code, row.op, row.op.slots⟩ := by decide

theorem rowOfByte_eq_none {code : Byte} (h : ∀ r ∈ opRows, r.code ≠ code) : rowOfByte code = none := by
  simpa [rowOfByte] using h

theorem rowOfByte_eq_some {code : Byte} {row : OpRow} (h : rowOfByte code = some row) :
    ∃ op : Op, code = op.code ∧ row = ⟨op.code, op, op.slots⟩ := by
  have hcode : row.code = code := by simpa using List.find?_some h
  have hrow := eq_row_of_mem row (List.mem_of_find?_eq_some h)
  exact ⟨row.op, hcode.symm.trans (congrArg OpRow.code hrow), hrow⟩

theorem Instr.word_length (i : Instr) : i.word.2.length = i.word.1.slots := by cases i <;> rfl

/-! ## Narrow operands (30_encoding.md R132 (b), R133) -/

theorem narrow_eq_none (w : Nat) {x : Word} (h : 2 ^ w ≤ x.toNat) : narrow w x = none := if_neg (Nat.not_lt.mpr h)

@[simp] theorem narrow_setWidth {w : Nat} (hw : w ≤ 32) (v : BitVec w) : narrow w (v.setWidth 32) = some v := by
  have hv : (v.setWidth 32).toNat = v.toNat := BitVec.toNat_setWidth_of_le hw
  simp [narrow, hv, v.isLt]

theorem eq_setWidth_of_narrow {w : Nat} {x : Word} {v : BitVec w} (h : narrow w x = some v) : x = v.setWidth 32 := by
  obtain ⟨hx, rfl⟩ : x.toNat < 2 ^ w ∧ BitVec.ofNat w x.toNat = v := by simpa [narrow] using h
  apply BitVec.eq_of_toNat_eq
  rw [BitVec.toNat_setWidth, BitVec.toNat_ofNat, Nat.mod_eq_of_lt hx, Nat.mod_eq_of_lt x.isLt]

theorem ne_of_two_le {x : Word} (h : 2 ≤ x.toNat) : x ≠ 0 ∧ x ≠ 1 :=
  ⟨fun e => by simp [e] at h, fun e => by simp [e] at h⟩

theorem narrowBit_eq_none {x : Word} (h : 2 ≤ x.toNat) : narrowBit x = none := by
  obtain ⟨h0, h1⟩ := ne_of_two_le h
  rw [narrowBit, if_neg h0, if_neg h1]

@[simp] theorem narrowBit_bitSlot (b : Bool) : narrowBit (bitSlot b) = some b := by cases b <;> rfl

theorem eq_bitSlot_of_narrowBit {x : Word} {b : Bool} (h : narrowBit x = some b) : x = bitSlot b := by
  unfold narrowBit at h
  split_ifs at h with h0 h1 <;> cases h
  · exact h0
  · exact h1

theorem narrowSpeed_eq_none {x : Word} (h : 2 ≤ x.toNat) : narrowSpeed x = none := by
  obtain ⟨h0, h1⟩ := ne_of_two_le h
  rw [narrowSpeed, if_neg h0, if_neg h1]

@[simp] theorem narrowSpeed_speedSlot (sp : Speed) : narrowSpeed (speedSlot sp) = some sp := by cases sp <;> rfl

theorem eq_speedSlot_of_narrowSpeed {x : Word} {sp : Speed} (h : narrowSpeed x = some sp) : x = speedSlot sp := by
  unfold narrowSpeed at h
  split_ifs at h with h0 h1 <;> cases h
  · exact h0
  · exact h1

theorem shapeOfBits_eq_none : ∀ x : BitVec 3, 5 ≤ x.toNat → shapeOfBits x = none := by decide

theorem narrowShape_eq_none {x : Word} (h : 16 ≤ x.toNat ∨ 5 ≤ (x.extractLsb' 0 3).toNat) : narrowShape x = none := by
  unfold narrowShape
  split
  next hx =>
    have hshape : 5 ≤ (x.extractLsb' 0 3).toNat := h.resolve_left (Nat.not_le.mpr hx)
    rw [shapeOfBits_eq_none _ hshape, Option.map_none]
  next => rfl

@[simp] theorem narrowShape_shapeSlot (sh : Shape) (ai : Bool) : narrowShape (shapeSlot sh ai) = some (sh, ai) := by
  cases sh <;> cases ai <;> decide

/-- The sixteen values of slot A3's low four bits: five shapes with and without allow_idle, and six refused. -/
theorem shapeSlot_of_narrowShape_ofNat :
    ∀ n < 16, ∀ p ∈ narrowShape (BitVec.ofNat 32 n), BitVec.ofNat 32 n = shapeSlot p.1 p.2 := by decide

theorem eq_shapeSlot_of_narrowShape {x : Word} {p : Shape × Bool} (h : narrowShape x = some p) :
    x = shapeSlot p.1 p.2 := by
  by_cases hx : x.toNat < 16
  · have hn : BitVec.ofNat 32 x.toNat = x := by simp
    rw [← hn] at h ⊢
    exact shapeSlot_of_narrowShape_ofNat _ hx p h
  · rw [narrowShape_eq_none (.inl (Nat.not_lt.mp hx))] at h
    cases h

/-! ## The operation of an opcode and its slots -/

/-- An operation is assembled from its own slots: what the encoder puts in a narrow slot is read back. -/
theorem assemble_word (i : Instr) : assemble i.word.1 i.word.2 = some i := by
  cases i <;> simp [Instr.word, assemble, slot]

/-- The slots that the operation's row has, 0 for those beyond the ones read. -/
def Op.operands (op : Op) (ws : List Word) : List Word := (List.range op.slots).map (slot ws)

theorem Op.operands_eq_self {op : Op} {ws : List Word} (h : ws.length = op.slots) : op.operands ws = ws := by
  apply List.ext_getElem
  · simp [Op.operands, h]
  · intro k hk hk'
    simp [Op.operands, slot, hk']

/-- The slots an operation is assembled from are its own: each operand is determined by its slot. -/
theorem word_of_assemble {op : Op} {ws : List Word} {i : Instr} (h : assemble op ws = some i) :
    i.word = (op, op.operands ws) := by
  cases op with
  | busSetId | busSetTxDef | sdiFrame =>
    obtain ⟨v, hv, rfl⟩ := Option.map_eq_some_iff.mp h
    change _ = (_, [slot ws 0, slot ws 1])
    rw [eq_setWidth_of_narrow hv]; rfl
  | busXmit | sdiWrBlk | sdiRdReg =>
    obtain ⟨v, hv, rfl⟩ := Option.map_eq_some_iff.mp h
    change _ = (_, [slot ws 0, slot ws 1, slot ws 2])
    rw [eq_setWidth_of_narrow hv]; rfl
  | busSetSpeed =>
    obtain ⟨sp, hsp, rfl⟩ := Option.map_eq_some_iff.mp h
    change _ = (_, [slot ws 0, slot ws 1])
    rw [eq_speedSlot_of_narrowSpeed hsp]; rfl
  | sdSetCrc =>
    obtain ⟨en, hen, rfl⟩ := Option.map_eq_some_iff.mp h
    change _ = (_, [slot ws 0, slot ws 1])
    rw [eq_bitSlot_of_narrowBit hen]; rfl
  | sdiCmd =>
    obtain ⟨x, hx, hmap⟩ := Option.bind_eq_some_iff.mp h
    obtain ⟨⟨sh, ai⟩, hp, rfl⟩ := Option.map_eq_some_iff.mp hmap
    change _ = (_, [slot ws 0, slot ws 1, slot ws 2, slot ws 3])
    rw [eq_setWidth_of_narrow hx, eq_shapeSlot_of_narrowShape hp]; rfl
  | sdiRdBlk =>
    obtain ⟨check, hcheck, rfl⟩ := Option.map_eq_some_iff.mp h
    change _ = (_, [slot ws 0, slot ws 1, slot ws 2, slot ws 3])
    rw [eq_bitSlot_of_narrowBit hcheck]; rfl
  | sdiDecode =>
    obtain ⟨r1, hr1, hbind⟩ := Option.bind_eq_some_iff.mp h
    obtain ⟨r2, hr2, hmap⟩ := Option.bind_eq_some_iff.mp hbind
    obtain ⟨ai, hai, rfl⟩ := Option.map_eq_some_iff.mp hmap
    change _ = (_, [slot ws 0, slot ws 1, slot ws 2])
    rw [eq_setWidth_of_narrow hr1, eq_setWidth_of_narrow hr2, eq_bitSlot_of_narrowBit hai]; rfl
  | sdiErrTok =>
    obtain ⟨token, htoken, rfl⟩ := Option.map_eq_some_iff.mp h
    change _ = (_, [slot ws 0])
    rw [eq_setWidth_of_narrow htoken]; rfl
  | _ => cases h; rfl

/-! ## The decoder -/

theorem decode_reserved {code : Byte} (h : ∀ r ∈ opRows, r.code ≠ code) (rest : List Byte) :
    decode (code :: rest) = .error .reservedOpcode := by
  simp [decode, rowOfByte_eq_none h]

/-- An opcode and its row's slots decode to what they assemble, or are refused. -/
theorem decode_code (op : Op) (ws : List Word) (hlen : ws.length = op.slots) (rest : List Byte) :
    decode (op.code :: (ws.flatMap wordBytes ++ rest)) =
      (assemble op ws).elim (.error .operandTooWide) (fun i => .ok (i, rest)) := by
  simp only [decode, rowOfByte_code, ← hlen, takeSlots_flatMap]
  cases assemble op ws <;> rfl

theorem decode_tooWide (op : Op) (ws : List Word) (hlen : ws.length = op.slots) (h : assemble op ws = none)
    (rest : List Byte) : decode (op.code :: (ws.flatMap wordBytes ++ rest)) = .error .operandTooWide := by
  rw [decode_code op ws hlen, h, Option.elim_none]

/-- What the decoder accepts is an opcode and its row's slots, and it answers what they assemble. -/
theorem decode_eq_ok {bytes rest : List Byte} {i : Instr} (h : decode bytes = .ok (i, rest)) :
    ∃ (op : Op) (ws : List Word), ws.length = op.slots ∧ assemble op ws = some i
      ∧ bytes = op.code :: (ws.flatMap wordBytes ++ rest) := by
  cases bytes with
  | nil => cases h
  | cons code bytes =>
    simp only [decode] at h
    split at h
    · cases h
    next row hrow =>
      obtain ⟨op, rfl, rfl⟩ := rowOfByte_eq_some hrow
      split at h
      · cases h
      next ws left hread =>
        obtain ⟨hlen, rfl⟩ := takeSlots_eq_some hread
        split at h
        · cases h
        next j hasm =>
          cases h
          exact ⟨op, ws, hlen, hasm, rfl⟩

/-- Settles O1: the operation's row is found by its opcode, its slots are read back, and they assemble it. -/
theorem decodeEncode : Obligations.DecodeEncode := by
  intro i rest
  have hdec := decode_code i.word.1 i.word.2 i.word_length rest
  rw [assemble_word i, Option.elim_some] at hdec
  exact hdec

/-- Settles O2: the bytes accepted are an opcode and its slots, and those are the word of the operation answered. -/
theorem encodeDecode : Obligations.EncodeDecode := by
  intro bytes i rest h
  obtain ⟨op, ws, hlen, hasm, rfl⟩ := decode_eq_ok h
  have hword : i.word = (op, ws) := by rw [word_of_assemble hasm, Op.operands_eq_self hlen]
  rw [encode, hword, List.cons_append]

/-- Settles O3: a reserved opcode has no row, and with a slot above its operand's width nothing is assembled. -/
theorem decoderRefuses : Obligations.DecoderRefuses := by
  refine ⟨fun code rest h => decode_reserved h rest, fun a b c d rest => ?_⟩
  refine ⟨fun code hcode hb => ?_, fun code hcode hb => ?_, fun hb => ?_, fun ha => ?_, fun h => ?_, fun hd => ?_,
    fun hc => ?_, fun h => ?_, fun ha => ?_, fun hb => ?_⟩
  · obtain rfl | rfl : code = 0x21 ∨ code = 0x2A := by simpa using hcode
    · exact decode_tooWide .busSetId [a, b] rfl (by simp [assemble, slot, narrow_eq_none 8 hb]) rest
    · exact decode_tooWide .busSetTxDef [a, b] rfl (by simp [assemble, slot, narrow_eq_none 8 hb]) rest
  · obtain rfl | rfl : code = 0x2B ∨ code = 0x85 := by simpa using hcode
    · exact decode_tooWide .busSetSpeed [a, b] rfl (by simp [assemble, slot, narrowSpeed_eq_none hb]) rest
    · exact decode_tooWide .sdSetCrc [a, b] rfl (by simp [assemble, slot, narrowBit_eq_none hb]) rest
  · exact decode_tooWide .busXmit [a, b, c] rfl (by simp [assemble, slot, narrow_eq_none 8 hb]) rest
  · exact decode_tooWide .sdiFrame [a, b] rfl (by simp [assemble, slot, narrow_eq_none 6 ha]) rest
  · refine decode_tooWide .sdiCmd [a, b, c, d] rfl ?_ rest
    rcases h with hb | hd
    · simp [assemble, slot, narrow_eq_none 6 hb]
    · simp [assemble, slot, narrowShape_eq_none hd]
  · exact decode_tooWide .sdiRdBlk [a, b, c, d] rfl (by simp [assemble, slot, narrowBit_eq_none hd]) rest
  · exact decode_tooWide .sdiWrBlk [a, b, c] rfl (by simp [assemble, slot, narrow_eq_none 8 hc]) rest
  · refine decode_tooWide .sdiDecode [a, b, c] rfl ?_ rest
    rcases h with ha | hb | hc
    · simp [assemble, slot, narrow_eq_none 8 ha]
    · simp [assemble, slot, narrow_eq_none 8 hb]
    · simp [assemble, slot, narrowBit_eq_none hc]
  · exact decode_tooWide .sdiErrTok [a] rfl (by simp [assemble, slot, narrow_eq_none 8 ha]) rest
  · exact decode_tooWide .sdiRdReg [a, b, c] rfl (by simp [assemble, slot, narrow_eq_none 6 hb]) rest

/-- Settles O4: eight closed words, which the decoder computes. -/
theorem specWordsDecode : Obligations.SpecWordsDecode := by
  unfold Obligations.SpecWordsDecode
  decide

end Sys2Proof
end

section
/-! SUPPORT. FG's turn between operations (30_encoding.md R110, R132; 00_scope.md R12). -/

namespace Sys2Proof.Machine

theorem agentStep_fg_idle {s : State} (h : s.fg = .idle) : agentStep exec .fg s = issueNext exec s := by
  simp [agentStep, fgTurn, h]

theorem issueNext_ok {s : State} {i : Instr} {rest : List Byte} (h : decode s.prog = .ok (i, rest)) :
    issueNext exec s = exec i (s.setProg rest) := by
  have hprog : s.prog ≠ [] := fun hnil => by simp [hnil, decode] at h
  simp [issueNext, hprog, h]

theorem issueNext_error {s : State} {e : Reject} (he : e ≠ .truncated) (h : decode s.prog = .error e) :
    issueNext exec s = .refused (refusalOf e) := by
  have hprog : s.prog ≠ [] := fun hnil => he (by simpa [hnil, decode] using h.symm)
  simp [issueNext, hprog, h]

/-- Settles O6: the clauses are those of the turn at the head of the queue (O5), since FG's turn between operations is
the next operation's `exec` or its refusal. -/
theorem stepRunsDecodedOperation : Obligations.StepRunsDecodedOperation := by
  intro s ts hc ht hfg hrun u
  obtain ⟨-, -, hturn⟩ := stepIsTheNextTurn s .fg ts hc ht
  obtain ⟨hnext, hfault, hhang, hrefused⟩ := hturn hrun
  have hissue : agentStep exec .fg u = issueNext exec u := agentStep_fg_idle (s := u) hfg
  refine ⟨fun i rest hdec => ?_, fun hdec => ?_, fun hdec => ?_⟩
  · have hexec : agentStep exec .fg u = exec i (u.setProg rest) := hissue.trans (issueNext_ok (s := u) hdec)
    exact ⟨fun t h => hnext t (hexec.trans h), fun e he h => hfault e he (hexec.trans h),
      fun h => hhang (hexec.trans h), fun r h => hrefused r (hexec.trans h)⟩
  · exact hrefused _ (hissue.trans (issueNext_error (s := u) (by decide) hdec))
  · exact hrefused _ (hissue.trans (issueNext_error (s := u) (by decide) hdec))

end Sys2Proof.Machine
end

section
/-! SUPPORT. The completion tokens (40_future.md R150 to R158): what each FUT operation does, as an equation; what any
sequence of operations that neither start, finish nor clear a future leaves of it. -/

namespace Sys2Proof.Machine

/-! ## The operations -/

theorem exec_futInit (f : Word) (s : State) :
    exec (.futInit f) s = .next ((s.setFut f.toNat Future.zero).setRet .none) := rfl

theorem exec_futStart (f : Word) (s : State) :
    exec (.futStart f) s =
      .next ((s.setFut f.toNat { s.fut f.toNat with done := false, running := true }).setRet .none) := rfl

theorem exec_futFinish (f r : Word) (s : State) :
    exec (.futFinish f r) s =
      .next ((s.setFut f.toNat { result := r, done := true, running := false }).setRet .none) := rfl

theorem exec_futSetResult (f r : Word) (s : State) :
    exec (.futSetResult f r) s = .next ((s.setFut f.toNat { s.fut f.toNat with result := r }).setRet .none) := rfl

theorem exec_futRunning (f : Word) (s : State) :
    exec (.futRunning f) s = .next (s.setRet (.value (flagWord (s.fut f.toNat).running))) := rfl

theorem exec_futDone (f : Word) (s : State) :
    exec (.futDone f) s = .next (s.setRet (.value (flagWord (s.fut f.toNat).done))) := rfl

theorem exec_futResult (f : Word) (s : State) :
    exec (.futResult f) s = .next (s.setRet (.value (s.fut f.toNat).result)) := rfl

theorem exec_futWait (f : Word) (s : State) : exec (.futWait f) s = waitFuture f.toNat .value s := rfl

/-! ## What they change -/

/-- An operation that writes one future and has no result changes that future alone. -/
theorem completes_setFut {i : Instr} {s : State} {f : Nat} {v : Future}
    (h : exec i s = .next ((s.setFut f v).setRet .none)) :
    completes i s .none [.futs] (fun t => t.fut f = v ∧ ∀ g, g ≠ f → t.fut g = s.fut g) := by
  refine completes_of h (frame_setFut s f v) ⟨?_, fun g hg => ?_⟩
  · rw [State.fut_setRet, State.fut_setFut_self]
  · rw [State.fut_setRet, State.fut_setFut_ne s v hg.symm]

/-- An operation that only answers a result changes nothing else. -/
theorem completes_setRet {i : Instr} {s : State} {r : Result} (h : exec i s = .next (s.setRet r)) :
    completes i s r [] (fun _ => True) :=
  completes_of h (changesOnly_refl [] s) trivial

/-- Settles O8: each write is one `setFut`, each read one `setRet`. -/
theorem futureFields : Obligations.FutureFields := fun f r s =>
  ⟨completes_setFut (exec_futInit f s), completes_setFut (exec_futStart f s), completes_setFut (exec_futFinish f r s),
    completes_setFut (exec_futSetResult f r s), completes_setRet (exec_futRunning f s),
    completes_setRet (exec_futDone f s), completes_setRet (exec_futResult f s)⟩

/-! ## FUT.WAIT (40_future.md R156) -/

theorem waitFuture_over {f : Nat} {s : State} (h : (s.fut f).running = false) (k : Finish) :
    waitFuture f k s = .next (s.setRet (finishResult k (.ofValue (s.fut f).result))) := by
  simp [waitFuture, h]

theorem waitFuture_running {f : Nat} {s : State} (h : (s.fut f).running = true) (hs : s.isr = false) (k : Finish) :
    waitFuture f k s = .next (s.setFg (.busy (.futWait f) [.finish k])) := by
  simp [waitFuture, h, hs]

theorem waitFuture_isr {f : Nat} {s : State} (h : (s.fut f).running = true) (hs : s.isr = true) (k : Finish) :
    waitFuture f k s = .fault .waitInInterrupt := by
  simp [waitFuture, h, hs]

/-- A later poll of a future that is still running changes nothing. -/
theorem fgTurn_futWait_running {s : State} {f : Nat} {k : List Frame} (hf : s.fg = .busy (.futWait f) k)
    (h : (s.fut f).running = true) : fgTurn exec s = .next s := by
  simp [fgTurn, hf, performAct, h]

/-- The first poll of a future that no longer runs hands its result to the wait's frames. -/
theorem fgTurn_futWait_over {s : State} {f : Nat} {k : List Frame} (hf : s.fg = .busy (.futWait f) k)
    (h : (s.fut f).running = false) : fgTurn exec s = unwind k (.ofValue (s.fut f).result) s := by
  simp [fgTurn, hf, performAct, h]

/-- Settles O9: the first poll is `waitFuture`, each later one FG's turn at the wait. -/
theorem futureWait : Obligations.FutureWait := by
  intro f s
  refine ⟨fun h => ?_, fun h hs => ?_, fun h hs => ?_, fun hf hs => ⟨fun h => ?_, fun h => ?_⟩⟩
  · exact completes_setRet ((exec_futWait f s).trans (waitFuture_over h .value))
  · exact ⟨_, (exec_futWait f s).trans (waitFuture_running h hs .value), rfl, rfl, rfl, frame_setFg s _, trivial⟩
  · exact (exec_futWait f s).trans (waitFuture_isr h hs .value)
  · exact fgTurn_futWait_running hf h
  · have hturn : agentStep exec .fg s =
        .next ((s.setRet (.value (s.fut f.toNat).result)).setFg .idle) :=
      (fgTurn_futWait_over hf h).trans (unwind_finish .value _ s)
    refine ⟨_, hturn, rfl, State.setRet_ret s _ hs, State.setRet_prog s _, State.setRet_isr s _, ?_⟩
    exact ((frame_setRet s _).trans (frame_setFg _ _)).mono (by simp)

/-! ## Sequences of operations on one future (40_future.md R158) -/

/-- FUT.RUNNING, FUT.DONE, FUT.RESULT or FUT.SETRESULT of future `f`: the operations that keep its flags. -/
def keepsFlags (f : Word) (o : Instr) : Prop :=
  o = .futRunning f ∨ o = .futDone f ∨ o = .futResult f ∨ ∃ x, o = .futSetResult f x

/-- Future `f` has in `t` the flags it has in `s`, and its result too where `ops` has no FUT.SETRESULT of it. -/
structure sameFuture (f : Word) (ops : List Instr) (s t : State) : Prop where
  running : (t.fut f.toNat).running = (s.fut f.toNat).running
  done : (t.fut f.toNat).done = (s.fut f.toNat).done
  result : (∀ x, .futSetResult f x ∉ ops) → (t.fut f.toNat).result = (s.fut f.toNat).result

theorem sameFuture_of_fut_eq {f : Word} {s t : State} (h : t.fut f.toNat = s.fut f.toNat) (ops : List Instr) :
    sameFuture f ops s t :=
  ⟨by rw [h], by rw [h], fun _ => by rw [h]⟩

theorem sameFuture.trans {f : Word} {ops os : List Instr} {s t u : State} (h1 : sameFuture f ops s t)
    (h2 : sameFuture f os t u) : sameFuture f (ops ++ os) s u where
  running := h2.running.trans h1.running
  done := h2.done.trans h1.done
  result h := (h2.result fun x hx => h x (List.mem_append_right _ hx)).trans
    (h1.result fun x hx => h x (List.mem_append_left _ hx))

theorem exec_keepsFlags {f : Word} {o : Instr} (h : keepsFlags f o) (s : State) :
    ∃ t, exec o s = .next t ∧ sameFuture f [o] s t := by
  rcases h with rfl | rfl | rfl | ⟨x, rfl⟩
  · exact ⟨_, exec_futRunning f s, sameFuture_of_fut_eq (State.fut_setRet s _ _) _⟩
  · exact ⟨_, exec_futDone f s, sameFuture_of_fut_eq (State.fut_setRet s _ _) _⟩
  · exact ⟨_, exec_futResult f s, sameFuture_of_fut_eq (State.fut_setRet s _ _) _⟩
  · refine ⟨_, exec_futSetResult f x s, ?_, ?_, fun hno => ?_⟩
    · simp
    · simp
    · exact absurd (List.mem_singleton.mpr rfl) (hno x)

/-- Operations that keep the flags of `f` run one after another, and so does their sequence. -/
theorem foldl_keepsFlags {f : Word} {ops : List Instr} (h : ∀ o ∈ ops, keepsFlags f o) (s : State) :
    ∃ u, ops.foldl (fun o x => andThen o (exec x)) (.next s) = .next u ∧ sameFuture f ops s u := by
  induction ops generalizing s with
  | nil => exact ⟨s, rfl, sameFuture_of_fut_eq rfl _⟩
  | cons o ops ih =>
    obtain ⟨t, hexec, ht⟩ := exec_keepsFlags (h o List.mem_cons_self) s
    obtain ⟨u, hfold, hu⟩ := ih (fun x hx => h x (List.mem_cons_of_mem o hx)) t
    exact ⟨u, by rw [List.foldl_cons, andThen_next, hexec, hfold], ht.trans hu⟩

/-- After FUT.INIT, FUT.START or FUT.FINISH the flags say which of the three it was. -/
theorem exec_setsFlags {f r : Word} {i : Instr} (h : i = .futInit f ∨ i = .futStart f ∨ i = .futFinish f r)
    (s : State) : ∃ t, exec i s = .next t ∧ ((t.fut f.toNat).running = true ↔ i = .futStart f)
      ∧ ((t.fut f.toNat).done = true ↔ i = .futFinish f r) ∧ (i = .futFinish f r → (t.fut f.toNat).result = r) := by
  rcases h with rfl | rfl | rfl
  · exact ⟨_, exec_futInit f s, by simp [Future.zero]⟩
  · exact ⟨_, exec_futStart f s, by simp⟩
  · exact ⟨_, exec_futFinish f r s, by simp⟩

/-- Settles O10: the first operation sets the flags (`exec_setsFlags`), and by induction on the sequence the rest keep
them, with the result where none is a FUT.SETRESULT (`foldl_keepsFlags`). -/
theorem futureLaws : Obligations.FutureLaws := by
  intro f ops s i r hops hi
  obtain ⟨t, hexec, hrunning, hdone, hresult⟩ := exec_setsFlags hi s
  obtain ⟨u, hfold, hu⟩ := foldl_keepsFlags hops t
  refine ⟨t, u, hexec, hfold, ?_, ?_, fun hfin hno => ?_⟩
  · rw [hu.running, hrunning]
  · rw [hu.done, hdone]
  · rw [hu.result hno, hresult hfin]

end Sys2Proof.Machine
end

section
/-! SUPPORT. The fields of an SPI bus and its waits (41_spi_bus.md R180 to R182, R187, R188, R190 to R193): what each
operation does on a bus that is ready, as an equation. -/

namespace Sys2Proof.Machine

/-- An operation that writes one bus and records a result changes that bus alone. -/
theorem completes_setBus {i : Instr} {s : State} {b : Nat} {v : Bus} {r : Result}
    (h : exec i s = .next ((s.setBus b v).setRet r)) :
    completes i s r [.buses] (fun t => t.bus b = v ∧ ∀ b', b' ≠ b → t.bus b' = s.bus b') := by
  refine completes_of h (frame_setBus s b v) ⟨?_, fun b' hb' => ?_⟩
  · rw [State.bus_setRet, State.bus_setBus_self]
  · rw [State.bus_setRet, State.bus_setBus_ne s v hb'.symm]

theorem State.busy_iff (s : State) (b : Nat) : s.busy b = true ↔ (s.bus b).phase ≠ .idle := by simp [State.busy]

theorem State.busy_eq_false (s : State) (b : Nat) : s.busy b = false ↔ (s.bus b).phase = .idle := by simp [State.busy]

/-! ## BUS.INIT (41_spi_bus.md R190, 70_reset_and_hazards.md R453) -/

theorem exec_busInit {b : Word} {s : State} (hb : b.toNat < s.numBuses)
    (h : (s.bus b.toNat).inited = false ∨ s.busy b.toNat = false) :
    exec (.busInit b) s = .next ((initBus b.toNat s).setRet (.code .noError)) := by
  have hfree : ¬ ((s.bus b.toNat).inited && s.busy b.toNat) = true := by rcases h with h | h <;> simp [h]
  change execBusInit b s = _
  rw [execBusInit, if_pos hb, if_neg hfree]

theorem exec_busInit_busy {b : Word} {s : State} (hb : b.toNat < s.numBuses) (hi : (s.bus b.toNat).inited = true)
    (h : s.busy b.toNat = true) : exec (.busInit b) s = .fault .initWhileBusy := by
  change execBusInit b s = _
  rw [execBusInit, if_pos hb, hi, h, Bool.and_self, if_pos rfl]

/-- Settles O11: an accepted BUS.INIT is `initBus`, whose bus and channels Laws/Ops.lean states. -/
theorem busInit : Obligations.BusInit := by
  intro b s hb rx tx
  refine ⟨fun h => ?_, fun hi h => exec_busInit_busy hb hi ((s.busy_iff _).mpr h)⟩
  have hexec := exec_busInit hb (h.imp_right (s.busy_eq_false _).mpr)
  refine completes_of hexec (frame_initBus s _) ⟨?_, fun b' hb' => ?_, fun c => ?_⟩
  · rw [State.bus_setRet, State.bus_initBus, if_pos rfl, Bus.afterInit]
  · rw [State.bus_setRet, State.bus_initBus, if_neg hb'.symm]
  · rw [State.chan_setRet, State.chan_initBus, Chan.initialised]

/-! ## BUS.SETID and BUS.ID (41_spi_bus.md R181, R182) -/

theorem exec_busSetId {b : Word} {s : State} (h : s.busReady b.toNat) (id : Byte) :
    exec (.busSetId b id) s =
      .next ((setTransferId b.toNat id s).2.setRet (.code (setTransferId b.toNat id s).1)) := withBus_ready h _

theorem setTransferId_refused {b : Nat} {id : Byte} {s : State} (hb : s.busy b = true)
    (h : (s.bus b).transferId ≠ id) : setTransferId b id s = (.busy, s) := by
  simp [setTransferId, hb, h]

theorem setTransferId_accepted {b : Nat} {id : Byte} {s : State}
    (h : s.busy b = false ∨ (s.bus b).transferId = id) :
    setTransferId b id s = (.noError, s.setBus b { s.bus b with transferId := id }) := by
  rcases h with h | h <;> simp [setTransferId, h]

theorem exec_busId {b : Word} {s : State} (h : s.busReady b.toNat) :
    exec (.busId b) s = .next (s.setRet (.value ((s.bus b.toNat).transferId.setWidth 32))) := withBus_ready h _

/-- Settles O12: BUS.SETID is `setTransferId`, refused or accepted; BUS.ID only answers. -/
theorem busClaim : Obligations.BusClaim := by
  intro b id s hready
  refine ⟨fun hb hid => completes_setRet ?_, fun h => completes_setBus ?_, completes_setRet (exec_busId hready)⟩
  · rw [exec_busSetId hready, setTransferId_refused hb hid]
  · rw [exec_busSetId hready, setTransferId_accepted h]

/-! ## The other fields (41_spi_bus.md R180, R188, R191 to R193) -/

theorem exec_busSetCb {b : Word} {s : State} (h : s.busReady b.toNat) (cb : Word) :
    exec (.busSetCb b cb) s = .next ((s.setBus b.toNat { s.bus b.toNat with callback := cb }).setRet .none) :=
  withBus_ready h _

theorem exec_busSetTxDef {b : Word} {s : State} (h : s.busReady b.toNat) (v : Byte) :
    exec (.busSetTxDef b v) s = .next ((s.setBus b.toNat { s.bus b.toNat with txDefault := v }).setRet .none) :=
  withBus_ready h _

theorem exec_busSetSpeed {b : Word} {s : State} (h : s.busReady b.toNat) (sp : Speed) :
    exec (.busSetSpeed b sp) s = .next ((setSpeed b.toNat sp s).2.setRet (.code (setSpeed b.toNat sp s).1)) :=
  withBus_ready h _

theorem setSpeed_busy {b : Nat} {s : State} (h : s.busy b = true) (sp : Speed) : setSpeed b sp s = (.busy, s) :=
  if_pos h

theorem setSpeed_idle {b : Nat} {s : State} (h : s.busy b = false) (sp : Speed) :
    setSpeed b sp s = (.noError, s.setBus b { s.bus b with speed := sp }) := by
  simp [setSpeed, h]

theorem exec_busBusy {b : Word} {s : State} (h : s.busReady b.toNat) :
    exec (.busBusy b) s = .next (s.setRet (.value (flagWord (s.busy b.toNat)))) := withBus_ready h _

theorem flagWord_busy (s : State) (b : Nat) : flagWord (s.busy b) = if (s.bus b).phase = .idle then 0 else 1 := by
  by_cases h : (s.bus b).phase = .idle <;> simp [flagWord, State.busy, h]

theorem exec_busStatus {b : Word} {s : State} (h : s.busReady b.toNat) :
    exec (.busStatus b) s = .next (s.setRet (.value ((statusNum (s.bus b.toNat).status).setWidth 32))) :=
  withBus_ready h _

theorem exec_busErrors {b : Word} {s : State} (h : s.busReady b.toNat) :
    exec (.busErrors b) s = .next (s.setRet (.value ((s.bus b.toNat).errors.setWidth 32))) := withBus_ready h _

/-- Settles O13: each setter is one `setBus`, each reader one `setRet` of the field in its encoding. -/
theorem busRegisters : Obligations.BusRegisters := by
  intro b cb v sp s hready
  refine ⟨completes_setBus (exec_busSetCb hready cb), completes_setBus (exec_busSetTxDef hready v),
    fun hidle => completes_setBus ?_, fun hbusy => completes_setRet ?_, completes_setRet ?_, completes_setRet ?_,
    completes_setRet (exec_busErrors hready)⟩
  · rw [exec_busSetSpeed hready, setSpeed_idle hidle]
  · rw [exec_busSetSpeed hready, setSpeed_busy hbusy]
  · rw [exec_busBusy hready, flagWord_busy]
  · rw [exec_busStatus hready]
    cases (s.bus b.toNat).status <;> rfl

/-! ## BUS.WAIT (41_spi_bus.md R187) -/

theorem exec_busWait_over {b : Word} {s : State} (hready : s.busReady b.toNat)
    (h : (s.bus b.toNat).status ≠ .transferring) : exec (.busWait b) s = .next (s.setRet .none) :=
  (withBus_ready hready _).trans (if_neg h)

theorem exec_busWait_transferring {b : Word} {s : State} (hready : s.busReady b.toNat)
    (h : (s.bus b.toNat).status = .transferring) (hs : s.isr = false) :
    exec (.busWait b) s = .next (s.setFg (.busy (.busWait b.toNat) [.finish .none])) :=
  (withBus_ready hready _).trans ((if_pos h).trans (if_neg (by simp [hs])))

theorem exec_busWait_isr {b : Word} {s : State} (hready : s.busReady b.toNat)
    (h : (s.bus b.toNat).status = .transferring) (hs : s.isr = true) :
    exec (.busWait b) s = .fault .waitInInterrupt :=
  (withBus_ready hready _).trans ((if_pos h).trans (if_pos hs))

theorem fgTurn_busWait {s : State} {b : Nat} {k : List Frame} (hf : s.fg = .busy (.busWait b) k)
    (hready : s.busReady b) :
    fgTurn exec s = if (s.bus b).status = .transferring then .next s else unwind k (.ofCode .noError) s := by
  rw [fgTurn, hf]
  exact withBus_ready hready _

/-- Settles O18: the first poll is `exec`'s, each later one FG's turn at the wait. -/
theorem busWait : Obligations.BusWait := by
  intro b s hready
  refine ⟨fun h => completes_setRet (exec_busWait_over hready h), fun h hs => ?_, exec_busWait_isr hready,
    fun hf => ⟨fun h => ?_, fun h => ?_⟩⟩
  · exact ⟨_, exec_busWait_transferring hready h hs, rfl, rfl, rfl, frame_setFg s _, trivial⟩
  · exact (fgTurn_busWait hf hready).trans (if_pos h)
  · have hturn : agentStep exec .fg s = .next ((s.setRet .none).setFg .idle) :=
      (fgTurn_busWait hf hready).trans ((if_neg h).trans (unwind_finish .none _ s))
    refine ⟨_, hturn, rfl, State.setRet_prog s _, State.setRet_isr s _, ?_⟩
    exact ((frame_setRet s _).trans (frame_setFg _ _)).mono (by simp)

end Sys2Proof.Machine
end

section
/-! SUPPORT. The locks of the DMA channels (41_spi_bus.md R195, R196; 70_reset_and_hazards.md R462). -/

namespace Sys2Proof.Machine

theorem withChannel_badChannel {α : Type} {c : Nat} {s : State} (k : Res α) (h : s.cfg.numDmaCh ≤ c) :
    withChannel c s k = .refused .badChannel := if_neg (Nat.not_lt.mpr h)

theorem exec_dmaTryLock_free {c : Word} {s : State} (hc : c.toNat < s.cfg.numDmaCh) (h : s.lock c.toNat = false) :
    exec (.dmaTryLock c) s = .next ((s.setLock c.toNat true).setRet (.value 1)) := by
  refine (withChannel_eq _ hc).trans ?_
  rw [tryLock, h, if_neg Bool.false_ne_true]

theorem exec_dmaTryLock_taken {c : Word} {s : State} (hc : c.toNat < s.cfg.numDmaCh) (h : s.lock c.toNat = true) :
    exec (.dmaTryLock c) s = .next (s.setRet (.value 0)) := by
  refine (withChannel_eq _ hc).trans ?_
  rw [tryLock, if_pos h]

theorem exec_dmaUnlock {c : Word} {s : State} (hc : c.toNat < s.cfg.numDmaCh) (h : s.heldByBus c.toNat = false) :
    exec (.dmaUnlock c) s = .next (((s.setLock c.toNat false).setExt c.toNat false).setRet .none) :=
  (withChannel_eq _ hc).trans (if_neg (by simp [h]))

theorem exec_dmaUnlock_held {c : Word} {s : State} (hc : c.toNat < s.cfg.numDmaCh) (h : s.heldByBus c.toNat = true) :
    exec (.dmaUnlock c) s = .fault .foreignUnlock := (withChannel_eq _ hc).trans (if_pos h)

/-- Where the locks read as after one `setLock`, that lock has its new value and every other its old one. -/
theorem lock_of_setLock {s t : State} {c : Nat} {v : Bool} (h : ∀ c', t.lock c' = (s.setLock c v).lock c') :
    t.lock c = v ∧ ∀ c', c' ≠ c → t.lock c' = s.lock c' :=
  ⟨(h c).trans (s.lock_setLock_self c v), fun c' hc' => (h c').trans (s.lock_setLock_ne v hc'.symm)⟩

/-- Settles O20: a lock taken or freed is one `setLock`; a bad number stops at `withChannel`. -/
theorem dmaLocks : Obligations.DmaLocks := by
  intro c s
  refine ⟨fun hc hl => ?_, fun hc hl => completes_setRet (exec_dmaTryLock_taken hc hl), fun hc hh => ?_,
    exec_dmaUnlock_held, fun hc => ⟨withChannel_badChannel _ hc, withChannel_badChannel _ hc⟩⟩
  · exact completes_of (exec_dmaTryLock_free hc hl) (frame_setLock s _ _) (lock_of_setLock (State.lock_setRet _ _))
  · exact completes_of (exec_dmaUnlock hc hh) ((frame_setLock s _ _).trans (frame_setExt _ _ _))
      (lock_of_setLock (State.lock_setRet _ _))

end Sys2Proof.Machine
end

section
/-! SUPPORT. BUS.XFER (41_spi_bus.md R183 to R186; 42_spi_events.md R233): its checks in their order, and the state of
an accepted one. -/

namespace Sys2Proof.Machine

/-! ## The list of messages -/

theorem State.descList_all (s : State) (p : Word) (n : Nat) (q : Msg → Bool) :
    (s.descList p n).all q = true ↔ ∀ i, i < n → q (s.desc p i) = true := by
  simp only [List.all_eq_true, State.mem_descList]
  exact ⟨fun h i hi => h _ ⟨i, hi, rfl⟩, fun h m ⟨i, hi, hm⟩ => hm ▸ h i hi⟩

theorem State.descList_any (s : State) (p : Word) (n : Nat) (q : Msg → Bool) :
    (s.descList p n).any q = true ↔ ∃ i, i < n ∧ q (s.desc p i) = true :=
  (s.descsFrom_any p q 0 n).trans (by simp)

/-- The channels a list needs, from which of its messages need them (41_spi_bus.md R185). -/
theorem needAll_descList {s : State} {p : Word} {n : Nat} {mode : Mode} {rx tx : Bool}
    (hrx : rx = true ↔ ∃ i, i < n ∧ (need mode (s.desc p i).dir).rx = true)
    (htx : tx = true ↔ ∃ i, i < n ∧ (need mode (s.desc p i).dir).tx = true) :
    needAll mode (s.descList p n) = { rx := rx, tx := tx } := by
  rw [needAll, ChanSet.mk.injEq]
  exact ⟨Bool.eq_iff_iff.mpr ((s.descList_any ..).trans hrx.symm),
    Bool.eq_iff_iff.mpr ((s.descList_any ..).trans htx.symm)⟩

/-! ## The locks -/

theorem acquire_eq_none {b : Nat} {w : ChanSet} {s : State}
    (h : w.rx = true ∧ s.lock (s.busCfg b).rxCh = true ∨ w.tx = true ∧ s.lock (s.busCfg b).txCh = true) :
    acquire b w s = none := by
  cases ha : acquire b w s with
  | none => rfl
  | some t =>
    obtain ⟨hrx, htx, -, -⟩ := acquire_some ha
    rcases h with ⟨hw, hl⟩ | ⟨hw, hl⟩
    · simp [hrx hw] at hl
    · simp [htx hw] at hl

theorem acquire_eq_some {b : Nat} {w : ChanSet} {s : State} (hd : (s.busCfg b).rxCh ≠ (s.busCfg b).txCh)
    (hrx : w.rx = true → s.lock (s.busCfg b).rxCh = false) (htx : w.tx = true → s.lock (s.busCfg b).txCh = false) :
    acquire b w s = some (s.takeLocks b w) := by
  cases ha : acquire b w s with
  | some t =>
    obtain ⟨-, -, -, rfl⟩ := acquire_some ha
    rfl
  | none =>
    rcases acquire_none ha with ⟨hw, hl⟩ | ⟨hw, hl⟩ | ⟨-, -, he⟩
    · simp [hrx hw] at hl
    · simp [htx hw] at hl
    · exact absurd he hd

/-! ## The checks -/

theorem startXfer_null (b : Nat) (n : Word) (s : State) : startXfer b 0 n s = (.nullPointer, s) := if_pos rfl

theorem startXfer_empty {p : Word} (hp : p ≠ 0) (b : Nat) (s : State) : startXfer b p 0 s = (.invalidValue, s) :=
  (if_neg hp).trans (if_pos rfl)

theorem startXfer_busy {b : Nat} {p n : Word} {s : State} (hp : p ≠ 0) (hn : n ≠ 0) (hb : s.busy b = true) :
    startXfer b p n s = (.busy, s) := by
  rw [startXfer, if_neg hp, if_neg hn, if_pos hb]

theorem startXfer_invalid {b : Nat} {p n : Word} {s : State} (hp : p ≠ 0) (hn : n ≠ 0) (hb : s.busy b = false)
    (hv : ∃ i, i < n.toNat ∧ Msg.valid (s.desc p i) (s.busCfg b).mode = false) :
    startXfer b p n s = (.invalidValue, s) := by
  have hall : ((s.descList p n.toNat).all fun m => Msg.valid m (s.busCfg b).mode) = false := by
    rw [← Bool.not_eq_true, State.descList_all]
    obtain ⟨i, hi, hbad⟩ := hv
    exact fun h => by simp [h i hi] at hbad
  rw [startXfer, if_neg hp, if_neg hn, hb, if_neg Bool.false_ne_true, hall, Bool.not_false, if_pos rfl]

/-- Past its checks BUS.XFER is decided by the locks of the channels the list needs. -/
theorem startXfer_valid {b : Nat} {p n : Word} {s : State} (hp : p ≠ 0) (hn : n ≠ 0) (hb : s.busy b = false)
    (hv : ∀ i, i < n.toNat → Msg.valid (s.desc p i) (s.busCfg b).mode = true) :
    startXfer b p n s =
      (acquire b (needAll (s.busCfg b).mode (s.descList p n.toNat)) s).elim (.busy, s)
        fun _ => (.noError, s.startedXfer b p n) := by
  have hall := (s.descList_all p n.toNat fun m => Msg.valid m (s.busCfg b).mode).mpr hv
  rw [startXfer, if_neg hp, if_neg hn, hb, if_neg Bool.false_ne_true, hall, Bool.not_true, if_neg Bool.false_ne_true]
  cases ha : acquire b (needAll (s.busCfg b).mode (s.descList p n.toNat)) s with
  | none => simp only [ha, Option.elim_none]
  | some t =>
    obtain ⟨-, -, -, rfl⟩ := acquire_some ha
    simp only [ha, Option.elim_some, State.startedXfer]

theorem exec_busXfer {b p n : Word} {s t : State} {c : Code} (hready : s.busReady b.toNat)
    (h : startXfer b.toNat p n s = (c, t)) : exec (.busXfer b p n) s = .next (t.setRet (.code c)) := by
  refine (withBus_ready hready _).trans ?_
  rw [h]

/-- Settles O14: each clause is one check of `startXfer`, which hands back the state it was given. -/
theorem xferRefused : Obligations.XferRefused := by
  intro b p n s hready
  have refuse : ∀ {c : Code}, startXfer b.toNat p n s = (c, s) →
      completes (.busXfer b p n) s (.code c) [] (fun _ => True) :=
    fun h => completes_setRet (exec_busXfer hready h)
  refine ⟨fun hp => refuse ?_, fun hp hn => refuse ?_, fun hp hn hb => refuse (startXfer_busy hp hn hb),
    fun hp hn hb hv => refuse (startXfer_invalid hp hn hb hv), fun hp hn hb hv _ htaken => refuse ?_⟩
  · rw [hp, startXfer_null]
  · rw [hn, startXfer_empty hp]
  · have hnone := acquire_eq_none (w := needAll (s.busCfg b.toNat).mode (s.descList p n.toNat))
      (htaken.imp (.imp_left (s.descList_any ..).mpr) (.imp_left (s.descList_any ..).mpr))
    rw [startXfer_valid hp hn hb hv, hnone, Option.elim_none]

/-! ## The accepted transfer -/

theorem State.chan_startedXfer (s : State) (b : Nat) (p n : Word) (hd : (s.busCfg b).rxCh ≠ (s.busCfg b).txCh)
    (c : Nat) :
    (s.startedXfer b p n).chan c =
      if c = (s.busCfg b).rxCh then
        (if (need (s.busCfg b).mode (s.desc p 0).dir).rx then armRx (s.desc p 0) (s.chan c)
         else { s.chan c with en := false })
      else if c = (s.busCfg b).txCh then
        (if (need (s.busCfg b).mode (s.desc p 0).dir).tx then armTx (s.desc p 0) (s.chan c)
         else { s.chan c with en := false })
      else s.chan c := by
  unfold State.startedXfer State.cleanDirty
  rw [State.chan_arm _ _ _ (by simpa using hd)]
  simp

/-- The TX channel completes exactly the messages the RX channel does not: those that write (41_spi_bus.md R186). -/
theorem armTx_tcie (m : Msg) (c : Chan) : (armTx m c).tcie = (m.dir == 2) := Bool.not_not _

/-- Settles O16: an accepted BUS.XFER leaves `startedXfer`, whose bus, locks and channels are read off. -/
theorem xferAccepted : Obligations.XferAccepted := by
  refine ⟨by decide, ?_⟩
  intro b p n s wantRx wantTx hready hp hn hidle C m nd hvalid hd hrx htx hfreeRx hfreeTx
  have hneed : needAll C.mode (s.descList p n.toNat) = { rx := wantRx, tx := wantTx } := needAll_descList hrx htx
  have hstart : startXfer b.toNat p n s = (.noError, s.startedXfer b.toNat p n) := by
    rw [startXfer_valid hp hn hidle hvalid, hneed, acquire_eq_some hd hfreeRx hfreeTx, Option.elim_some]
  refine completes_of (exec_busXfer hready hstart) (frame_startedXfer s _ p n)
    ⟨?_, fun b' hb' => ?_, fun c => ?_, ?_, ?_, fun c hc hc' => ?_⟩
  · rw [State.bus_setRet, State.bus_startedXfer, if_pos rfl, hneed]
  · rw [State.bus_setRet, State.bus_startedXfer, if_neg hb'.symm]
  · rw [State.lock_setRet, State.lock_startedXfer, hneed]
  · rw [State.chan_setRet, State.chan_startedXfer s _ p n hd, if_pos rfl]
    rfl
  · rw [State.chan_setRet, State.chan_startedXfer s _ p n hd, if_neg hd.symm, if_pos rfl,
      ← armTx_tcie m (s.chan C.txCh)]
    rfl
  · rw [State.chan_setRet, State.chan_startedXfer s _ p n hd, if_neg hc, if_neg hc']

end Sys2Proof.Machine
end

section
/-! SUPPORT. BUS.XMIT (41_spi_bus.md R189): the frame exchanged and the store of the answer. -/

namespace Sys2Proof.Machine

theorem exec_busXmit_busy {b ra : Word} {t : Byte} {s : State} (hready : s.busReady b.toNat)
    (hb : s.busy b.toNat = true) : exec (.busXmit b t ra) s = .next (s.setRet (.codeByte .busy 0)) :=
  (withBus_ready hready _).trans (if_pos hb)

/-- The state of an idle bus's BUS.XMIT before its result: the answer is stored at `ra` unless `ra` is 0. -/
def State.exchangedTo (s : State) (b : Nat) (t : Byte) (rs : List Byte) (ra : Word) (r : Byte) : State :=
  State.writeBytes ra (if ra = 0 then [] else [r]) ((s.send b t).setAnswers b rs)

theorem exec_busXmit_idle {b ra : Word} {t r : Byte} {rs : List Byte} {s : State} (hready : s.busReady b.toNat)
    (hb : s.busy b.toNat = false) (hq : s.answersOf b.toNat = r :: rs) (ha : ra ≠ 0 → s.backed ra = true) :
    exec (.busXmit b t ra) s = .next ((s.exchangedTo b.toNat t rs ra r).setRet (.codeByte .noError r)) := by
  refine (withBus_ready hready _).trans ?_
  rw [hb, if_neg Bool.false_ne_true, exchange_eq t hq, State.exchangedTo]
  by_cases hra : ra = 0
  · simp only [hra, if_true, State.writeBytes]
  · simp only [hra, if_false, State.writeBytes, State.needBacked_one _ (ha hra)]

/-- What was written since `u` was written since `s`, where both agree in memory, the draws and the destinations in
flight. -/
theorem wroteBytes.of_start {a : Word} {l : List Byte} {s u t : State} (h : wroteBytes a l u t) (hmem : u.mem = s.mem)
    (hdraws : u.draws = s.draws) (hdst : ∀ c, u.dstInFlight c = s.dstInFlight c) : wroteBytes a l s t := by
  simpa only [wroteBytes, hmem, hdraws, hdst] using h

theorem wroteBytes.setRet {a : Word} {l : List Byte} {s t : State} (h : wroteBytes a l s t) (r : Result) :
    wroteBytes a l s (t.setRet r) := by
  simpa only [wroteBytes, State.setRet_mem, State.setRet_draws] using h

theorem wroteBytes_exchangedTo (s : State) (b : Nat) (t : Byte) (rs : List Byte) (ra : Word) (r : Byte) :
    wroteBytes ra (if ra = 0 then [] else [r]) s (s.exchangedTo b t rs ra r) :=
  (wroteBytes_writeBytes (if ra = 0 then [] else [r]) ra ((s.send b t).setAnswers b rs) (by split <;> simp)).of_start
    rfl rfl (State.dstInFlight_eq rfl rfl rfl)

theorem sentByte_exchanged (s : State) (b : Nat) (t : Byte) (rs : List Byte) :
    sentByte b t rs s ((s.send b t).setAnswers b rs) := by
  refine ⟨by simp, by simp, fun b' hb' => ⟨?_, ?_⟩⟩
  · simp [State.wireOf_send, hb'.symm]
  · simp [State.answersOf_setAnswers, hb'.symm]

/-- A later change of neither the wire nor the answers keeps what was sent. -/
theorem sentByte.of_frame {b : Nat} {x : Byte} {rest : List Byte} {ps : List Part} {s t u : State}
    (h : sentByte b x rest s t) (hc : changesOnly ps t u) (hw : .wire ∉ ps) (ha : .answers ∉ ps) :
    sentByte b x rest s u := by
  have hwire : ∀ b, u.wireOf b = t.wireOf b := hc .wire hw
  have hans : ∀ b, u.answersOf b = t.answersOf b := hc .answers ha
  simpa only [sentByte, hwire, hans] using h

/-- Settles O17: the exchange sends the frame, then the store writes the answer (`exchangedTo`). -/
theorem busXmit : Obligations.BusXmit := by
  intro b ra t r rs s hready
  refine ⟨fun hb => completes_setRet (exec_busXmit_busy hready hb), fun hb hq ha => ?_⟩
  have hstore := frame_writeBytes (if ra = 0 then [] else [r]) ra ((s.send b.toNat t).setAnswers b.toNat rs)
  have hframe := ((frame_send s b.toNat t).trans (frame_setAnswers _ b.toNat rs)).trans hstore
  obtain ⟨hwire, hanswers, hothers⟩ := (sentByte_exchanged s b.toNat t rs).of_frame
    (hstore.trans (frame_setRet _ (.codeByte .noError r))) (by decide) (by decide)
  exact completes_of (exec_busXmit_idle hready hb hq ha) hframe ⟨hwire, hanswers, hothers,
    (wroteBytes_exchangedTo s b.toNat t rs ra r).setRet _⟩

end Sys2Proof.Machine
end

section
/-! SUPPORT. The handlers as IRQ operations (42_spi_events.md R220 to R225): the state each leaves, with the context
restored and no result; and those that make no transition. -/

namespace Sys2Proof.Machine

/-! ## What an IRQ operation completes with -/

theorem State.busCfg_congr {s t : State} (h : t.cfg = s.cfg) (b : Nat) : t.busCfg b = s.busCfg b := by
  rw [State.busCfg, h, State.busCfg]

/-- The state after a handler's body that ended in `t`: the context is that of `s` again, with no result. -/
def State.afterHandler (s t : State) : State := (t.setIsr s.isr).setRet .none

@[simp] theorem State.bus_afterHandler (s t : State) (n : Nat) : (s.afterHandler t).bus n = t.bus n :=
  State.bus_setRet _ _ n

@[simp] theorem State.chan_afterHandler (s t : State) (n : Nat) : (s.afterHandler t).chan n = t.chan n :=
  State.chan_setRet _ _ n

@[simp] theorem State.lock_afterHandler (s t : State) (n : Nat) : (s.afterHandler t).lock n = t.lock n :=
  State.lock_setRet _ _ n

@[simp] theorem State.afterHandler_calls (s t : State) : (s.afterHandler t).calls = t.calls := State.setRet_calls _ _

/-- An IRQ operation whose handler's body goes on completes, and changes what the body changes. -/
theorem completes_handler {i : Instr} {b : Word} {s t : State} {body : Nat → State → Res State} {ps qs : List Part}
    {q : State → Prop} (hi : exec i s = handlerOp body b s) (hready : s.busReady b.toNat)
    (hbody : body b.toNat s.enterIsr = .next t) (hframe : changesOnly qs s.enterIsr t) (hqs : qs ⊆ ps)
    (hps : .control ∉ ps) (hq : q (s.afterHandler t)) : completes i s .none ps q := by
  have hsame := hframe.mono hqs
  obtain ⟨hfg, hprog, -⟩ : samePart .control s.enterIsr t := hsame .control hps
  exact completes_of (hi.trans (handlerOp_next hready hbody)) (frame_handler hsame hfg hprog) hq

/-! ## The two DMA handlers as one -/

/-- Operation `i` is the handler of bus `b`'s channel `c`, whose transfer-complete completes a message in the bus states
`mine` (42_spi_events.md R224, R225). -/
def channelHandler (b : Word) (s : State) (i : Instr) (c : Nat) (mine : Phase → Bool) : Prop :=
  i = .irqDmaRx b ∧ c = (s.busCfg b.toNat).rxCh ∧ mine = rxCompletes
    ∨ i = .irqDmaTx b ∧ c = (s.busCfg b.toNat).txCh ∧ mine = txCompletes

theorem channelHandler_exists {b : Word} {s : State} {i : Instr} {c : Nat}
    (h : i = .irqDmaRx b ∧ c = (s.busCfg b.toNat).rxCh ∨ i = .irqDmaTx b ∧ c = (s.busCfg b.toNat).txCh) :
    ∃ mine, channelHandler b s i c mine := by
  rcases h with ⟨hi, hc⟩ | ⟨hi, hc⟩
  · exact ⟨_, .inl ⟨hi, hc, rfl⟩⟩
  · exact ⟨_, .inr ⟨hi, hc, rfl⟩⟩

/-- The channel of a DMA handler is one of the bus's two. -/
theorem channelHandler.channel {b : Word} {s : State} {i : Instr} {c : Nat} {mine : Phase → Bool}
    (h : channelHandler b s i c mine) : c = (s.busCfg b.toNat).rxCh ∨ c = (s.busCfg b.toNat).txCh :=
  h.imp (fun h => h.2.1) (fun h => h.2.1)

theorem completes_channelHandler {i : Instr} {b : Word} {c : Nat} {mine : Phase → Bool} {s t : State}
    {ps qs : List Part} {q : State → Prop} (hi : channelHandler b s i c mine) (hready : s.busReady b.toNat)
    (hbody : dmaHandler b.toNat c mine s.enterIsr = .next t) (hframe : changesOnly qs s.enterIsr t) (hqs : qs ⊆ ps)
    (hps : .control ∉ ps) (hq : q (s.afterHandler t)) : completes i s .none ps q := by
  rcases hi with ⟨rfl, rfl, rfl⟩ | ⟨rfl, rfl, rfl⟩
  · exact completes_handler (body := rxHandler) rfl hready hbody hframe hqs hps hq
  · exact completes_handler (body := txHandler) rfl hready hbody hframe hqs hps hq

/-- The lists of bus states in the statement are those of the handlers. -/
theorem channelHandler_of_list {b : Word} {s : State} {i : Instr} {c : Nat} {l : List Phase}
    (h : i = .irqDmaRx b ∧ c = (s.busCfg b.toNat).rxCh ∧ l = [.reading, .readingWriting]
      ∨ i = .irqDmaTx b ∧ c = (s.busCfg b.toNat).txCh ∧ l = [.writing]) :
    ∃ mine, channelHandler b s i c mine ∧ ∀ p, p ∉ l → mine p = false := by
  rcases h with ⟨hi, hc, rfl⟩ | ⟨hi, hc, rfl⟩
  · exact ⟨rxCompletes, .inl ⟨hi, hc, rfl⟩, fun p => by cases p <;> decide⟩
  · exact ⟨txCompletes, .inr ⟨hi, hc, rfl⟩, fun p => by cases p <;> decide⟩

/-- A completing event is a DMA handler's, in a bus state in which its channel completes messages. -/
theorem completingEvent.handler {b : Word} {s : State} {i : Instr} {c : Nat} (h : completingEvent b s i c) :
    ∃ mine, channelHandler b s i c mine ∧ mine (s.bus b.toNat).phase = true := by
  rcases h.1 with ⟨hi, hc, hp | hp⟩ | ⟨hi, hc, hp⟩
  · exact ⟨rxCompletes, .inl ⟨hi, hc, rfl⟩, by rw [hp]; rfl⟩
  · exact ⟨rxCompletes, .inl ⟨hi, hc, rfl⟩, by rw [hp]; rfl⟩
  · exact ⟨txCompletes, .inr ⟨hi, hc, rfl⟩, by rw [hp]; rfl⟩

/-! ## The handlers that make no transition (42_spi_events.md R220, R222, R224, R225) -/

theorem or_spiErrors (e : BitVec 4) (ovr modf crcerr : Bool) : e ||| spiErrors ovr modf crcerr =
    e ||| (if ovr then 1#4 else 0) ||| (if modf then 2#4 else 0) ||| (if crcerr then 4#4 else 0) := by
  rw [spiErrors, ← BitVec.or_assoc, ← BitVec.or_assoc]
  rfl

/-- Settles O21: each clause is one case of a handler's body that invokes no callback. -/
theorem handlersWithoutTransition : Obligations.HandlersWithoutTransition := by
  intro b s hready B C
  refine ⟨fun h => ?_, fun h hp => ?_, fun i c l hi => ?_⟩
  · exact completes_handler (body := spiHandler) rfl hready (spiHandler_none (s := s.enterIsr) h)
      (changesOnly_refl [] _) (by decide) (by decide) trivial
  · refine completes_handler (body := spiHandler) rfl hready (spiHandler_error_idle (s := s.enterIsr) h hp)
      ((frame_setBus _ _ _).then (frame_setBus _ _ _)) (by decide) (by decide) ⟨?_, fun b' hb' => ?_⟩
    · rw [State.bus_afterHandler, State.bus_setBus_self, or_spiErrors]
      rfl
    · rw [State.bus_afterHandler, State.bus_setBus_ne _ _ hb'.symm, State.bus_setBus_ne _ _ hb'.symm]
      rfl
  · obtain ⟨mine, hch, hmine⟩ := channelHandler_of_list hi
    refine ⟨fun h => ?_, fun hte hie hp => ?_, fun hte htc hie hp => ?_⟩
    · have hnone : (s.chan c).pending = false := by simpa [State.chanPending, hready.1] using h
      exact completes_channelHandler hch hready (dmaHandler_none (s := s.enterIsr) hnone)
        (changesOnly_refl [] _) (by decide) (by decide) trivial
    · refine completes_channelHandler hch hready (dmaHandler_error_idle (s := s.enterIsr) hte hie hp)
        ((frame_setChan _ _ _).trans (frame_setBus _ _ _)) (by decide) (by decide)
        ⟨?_, fun b' hb' => ?_, ?_, fun c' hc' => ?_⟩
      · rw [State.bus_afterHandler, State.bus_setBus_self]
        rfl
      · rw [State.bus_afterHandler, State.bus_setBus_ne _ _ hb'.symm]
        rfl
      · rw [State.chan_afterHandler, State.chan_setBus, State.chan_setChan_self]
        rfl
      · rw [State.chan_afterHandler, State.chan_setBus, State.chan_setChan_ne _ _ hc'.symm]
        rfl
    · refine completes_channelHandler hch hready (dmaHandler_other (s := s.enterIsr) hte htc hie (hmine _ hp))
        (frame_setChan _ _ _) (by decide) (by decide) ⟨?_, fun c' hc' => ?_⟩
      · rw [State.chan_afterHandler, State.chan_setChan_self]
        rfl
      · rw [State.chan_afterHandler, State.chan_setChan_ne _ _ hc'.symm]
        rfl

end Sys2Proof.Machine
end

section
/-! SUPPORT. The handlers that end a transfer (42_spi_events.md R222, R224, R225, R227, R230, R231): the ended state of
Laws/Ops.lean, reached from a state that differs in pending flags alone. -/

namespace Sys2Proof.Machine

/-- `u` differs from `s` in nothing that the end of bus `b`'s transfer reads but pending flags: the bus's error flags,
and the flags of the bus's channels. -/
structure sameButFlags (b : Nat) (s u : State) : Prop where
  cfg : u.cfg = s.cfg
  bus : u.bus b =
    { s.bus b with ovr := (u.bus b).ovr, modf := (u.bus b).modf, crcerr := (u.bus b).crcerr }
  otherBus : ∀ b', b' ≠ b → u.bus b' = s.bus b'
  chan : ∀ c, u.chan c = { s.chan c with tc := (u.chan c).tc, te := (u.chan c).te }
  otherChan : ∀ c, c ≠ (s.busCfg b).rxCh → c ≠ (s.busCfg b).txCh → u.chan c = s.chan c
  lock : ∀ c, u.lock c = s.lock c

theorem sameButFlags.busCfg {b : Nat} {s u : State} (h : sameButFlags b s u) (n : Nat) : u.busCfg n = s.busCfg n :=
  State.busCfg_congr h.cfg n

theorem sameButFlags.held {b : Nat} {s u : State} (h : sameButFlags b s u) :
    (u.bus b).heldRx = (s.bus b).heldRx ∧ (u.bus b).heldTx = (s.bus b).heldTx := by
  rw [h.bus]
  exact ⟨rfl, rfl⟩

theorem sameButFlags_setBus (b : Nat) (s : State) (x y z : Bool) :
    sameButFlags b s (s.setBus b { s.bus b with ovr := x, modf := y, crcerr := z }) where
  cfg := rfl
  bus := by rw [State.bus_setBus_self]
  otherBus _ h := s.bus_setBus_ne _ h.symm
  chan _ := rfl
  otherChan _ _ _ := rfl
  lock _ := rfl

theorem sameButFlags_setChan (b : Nat) (s : State) {c : Nat} (hc : c = (s.busCfg b).rxCh ∨ c = (s.busCfg b).txCh)
    (x y : Bool) : sameButFlags b s (s.setChan c { s.chan c with tc := x, te := y }) where
  cfg := rfl
  bus := rfl
  otherBus _ _ := rfl
  chan d := by
    by_cases h : c = d
    · rw [← h, State.chan_setChan_self]
    · rw [State.chan_setChan_ne _ _ h]
  otherChan d hrx htx := by
    refine s.chan_setChan_ne _ ?_
    rintro rfl
    exact hc.elim hrx htx
  lock _ := rfl

/-- A later invocation that issues nothing is no change of the transfer. -/
theorem sameButFlags.of_frame {b : Nat} {s t u : State} (h : sameButFlags b s t) (hc : changesOnly [.calls] t u) :
    sameButFlags b s u := by
  have hbus : ∀ n, u.bus n = t.bus n := hc .buses (by decide)
  have hchan : ∀ n, u.chan n = t.chan n := hc .chans (by decide)
  have hlock : ∀ n, u.lock n = t.lock n := hc .locks (by decide)
  have hcfg : u.cfg = t.cfg := hc .config (by decide)
  refine ⟨hcfg.trans h.cfg, ?_, ?_, ?_, ?_, ?_⟩ <;> simp only [hbus, hchan, hlock]
  · exact h.bus
  · exact h.otherBus
  · exact h.chan
  · exact h.otherChan
  · exact h.lock

/-- The pending flags of bus `b` and of every channel read the same in `t` as in `u`. -/
def sameFlags (b : Nat) (u t : State) : Prop :=
  (t.bus b).ovr = (u.bus b).ovr ∧ (t.bus b).modf = (u.bus b).modf ∧ (t.bus b).crcerr = (u.bus b).crcerr
    ∧ ∀ c, (t.chan c).tc = (u.chan c).tc ∧ (t.chan c).te = (u.chan c).te

/-- A state whose buses, channels and locks are those of an ended transfer. -/
structure readsAsEnded (b : Nat) (st : Status) (e : BitVec 4) (u t : State) : Prop where
  bus : ∀ n, t.bus n = (u.ended b st e).bus n
  chan : ∀ c, t.chan c = (u.ended b st e).chan c
  lock : ∀ c, t.lock c = (u.ended b st e).lock c

theorem readsAsEnded.sameFlags {b : Nat} {st : Status} {e : BitVec 4} {u t : State} (h : readsAsEnded b st e u t) :
    sameFlags b u t := by
  simp only [Machine.sameFlags, h.bus, h.chan, State.bus_ended, State.chan_ended, if_true, true_and]
  intro c
  split
  · exact ⟨rfl, rfl⟩
  · exact ⟨rfl, rfl⟩

theorem readsAsEnded.endedTransfer {b : Nat} {st : Status} {e : BitVec 4} {s u t : State}
    (h : readsAsEnded b st e u t) (hu : sameButFlags b s u) : endedTransfer b st e s t := by
  obtain ⟨hrx, htx⟩ := hu.held
  refine ⟨?_, fun b' hb' => ?_, fun c => ?_, fun c hc => ?_, fun c hcrx hctx => ?_⟩
  · rw [h.bus, State.bus_ended, if_pos rfl, hu.bus]
  · rw [h.bus, State.bus_ended, if_neg hb'.symm, hu.otherBus b' hb']
  · rw [h.lock, State.lock_ended, hu.busCfg, hu.lock, hrx, htx]
  · rw [h.chan, State.chan_ended, hu.busCfg, if_pos hc, hu.chan c, Chan.disarmed]
  · rw [h.chan, State.chan_ended, hu.busCfg, if_neg (by simp [hcrx, hctx]), hu.otherChan c hcrx hctx]

theorem State.silent_congr {s t : State} {cb : Word} (h : ∀ n, t.callback n = s.callback n) (hs : s.silent cb) :
    t.silent cb := by
  simpa only [State.silent, h] using hs

theorem readsAsEnded.afterHandler {b : Nat} {st : Status} {e : BitVec 4} {u t : State}
    (h : readsAsEnded b st e u t) (s : State) : readsAsEnded b st e u (s.afterHandler t) :=
  ⟨fun n => (s.bus_afterHandler t n).trans (h.bus n), fun n => (s.chan_afterHandler t n).trans (h.chan n),
    fun n => (s.lock_afterHandler t n).trans (h.lock n)⟩

/-- A handler's end of a transfer whose bus callback issues nothing, from a state `u` that its body reached: the
transfer is ended, with the pending flags of `u`, and the invocation recorded. -/
theorem invoke_ended {b : Nat} {s u : State} (st : Status) (e : BitVec 4) {cb : Word} (hs : s.silent cb)
    (hcb : ∀ n, u.callback n = s.callback n) (hu : sameButFlags b s.enterIsr u) :
    ∃ t, invoke cb (.bus b) (u.ended b st e) = .next t ∧ changesOnly [.buses, .chans, .locks, .calls] u t
      ∧ endedTransfer b st e s (s.afterHandler t) ∧ sameFlags b u (s.afterHandler t)
      ∧ (s.afterHandler t).calls = callsAfter cb (.bus b) u.calls := by
  obtain ⟨t, ht, hframe, hcalls⟩ := invoke_silent cb (.bus b) (u.ended b st e)
    (State.silent_congr (fun n => (u.callback_ended b st e n).trans (hcb n)) hs)
  have hended : readsAsEnded b st e u t :=
    ⟨hframe .buses (by decide), hframe .chans (by decide), hframe .locks (by decide)⟩
  have hkept : (u.ended b st e).calls = u.calls := frame_ended u b st e .calls (by decide)
  have htransfer : endedTransfer b st e s.enterIsr (s.afterHandler t) := (hended.afterHandler s).endedTransfer hu
  exact ⟨t, ht, (frame_ended u b st e).trans hframe, htransfer,
    (hended.afterHandler s).sameFlags, (s.afterHandler_calls t).trans (hkept ▸ hcalls)⟩

/-- Settles O22: IRQ.SPI on a busy bus clears the flags, then ends the transfer. -/
theorem irqSpiEndsTransfer : Obligations.IrqSpiEndsTransfer := by
  intro b s hready hpend hbusy hs B e
  obtain ⟨t, ht, hframe, hended, ⟨hovr, hmodf, hcrc, hchan⟩, hcalls⟩ := invoke_ended .error e hs
    (u := s.enterIsr.setBus b.toNat { B with ovr := false, modf := false, crcerr := false }) (fun _ => rfl)
    (sameButFlags_setBus b.toNat s.enterIsr false false false)
  have hbody : spiHandler b.toNat s.enterIsr = .next t := by
    rw [spiHandler_error (s := s.enterIsr) hpend hbusy, or_spiErrors]
    exact ht
  rw [State.bus_setBus_self] at hovr hmodf hcrc
  exact completes_handler (body := spiHandler) rfl hready hbody ((frame_setBus _ _ _).trans hframe) (by decide)
    (by decide) ⟨hended, hovr, hmodf, hcrc, hchan, hcalls⟩

/-- Settles O23: a DMA handler on a busy bus clears the channel's flags, then ends the transfer. -/
theorem irqDmaErrorEndsTransfer : Obligations.IrqDmaErrorEndsTransfer := by
  intro b s hready hbusy hs B C i c hi hte hie
  obtain ⟨mine, hch⟩ := channelHandler_exists hi
  obtain ⟨t, ht, hframe, hended, ⟨hovr, hmodf, hcrc, hchan⟩, hcalls⟩ := invoke_ended .error (B.errors ||| errDma) hs
    (u := s.enterIsr.setChan c { s.chan c with te := false, tc := (s.chan c).tc && !(s.chan c).tcie }) (fun _ => rfl)
    (sameButFlags_setChan b.toNat s.enterIsr hch.channel _ _)
  have hbody : dmaHandler b.toNat c mine s.enterIsr = .next t :=
    (dmaHandler_error (s := s.enterIsr) hte hie hbusy).trans ht
  refine completes_channelHandler hch hready hbody ((frame_setChan _ _ _).trans hframe) (by decide) (by decide)
    ⟨hended, hovr, hmodf, hcrc, ?_, ?_, fun c' hc' => ?_, hcalls⟩
  · rw [(hchan c).2, State.chan_setChan_self]
  · rw [(hchan c).1, State.chan_setChan_self]
  · have hother := hchan c'
    rwa [State.chan_setChan_ne _ _ hc'.symm] at hother

end Sys2Proof.Machine
end

section
/-! SUPPORT. The end of a message (42_spi_events.md R226, R228, R230, R232, R233): its callback, then the end of the
transfer or the next message. -/

namespace Sys2Proof.Machine

/-- The state in which a handler has taken the transfer-complete of channel `c`. -/
def State.tcTaken (s : State) (c : Nat) : State := s.enterIsr.setChan c { s.chan c with tc := false }

theorem State.chan_tcTaken (s : State) (c d : Nat) :
    (s.tcTaken c).chan d = { s.chan d with tc := (s.chan d).tc && c != d } := by
  by_cases h : c = d
  · rw [State.tcTaken, h, State.chan_setChan_self, bne_self_eq_false, Bool.and_false]
  · rw [State.tcTaken, State.chan_setChan_ne _ _ h, bne_iff_ne.mpr h, Bool.and_true]
    rfl

/-- A completing event whose message callback issues nothing: its handler records the invocation, in a state `u`, and
goes on from there to the end of the transfer or to the next message. -/
theorem completingEvent.messageEnd {b : Word} {s : State} {i : Instr} {c : Nat} (h : completingEvent b s i c)
    (hs : s.silent (s.current b.toNat).callback) :
    ∃ mine u, channelHandler b s i c mine ∧ changesOnly [.calls] (s.tcTaken c) u
      ∧ u.calls = callsAfter (s.current b.toNat).callback (.msg (s.current b.toNat)) s.calls
      ∧ ((s.bus b.toNat).count.toNat ≤ (s.bus b.toNat).index.toNat + 1 →
        dmaHandler b.toNat c mine s.enterIsr = terminalSuccess b.toNat u)
      ∧ ((s.bus b.toNat).index.toNat + 1 < (s.bus b.toNat).count.toNat →
        dmaHandler b.toNat c mine s.enterIsr = .next (advance b.toNat ((s.bus b.toNat).index + 1) u)) := by
  obtain ⟨mine, hch, hmine⟩ := h.handler
  obtain ⟨-, htc, hie, hte⟩ := h
  obtain ⟨u, hu, hframe, hcalls⟩ :=
    invoke_silent (s.current b.toNat).callback (.msg (s.current b.toNat)) (s.tcTaken c) hs
  have hdone : dmaHandler b.toNat c mine s.enterIsr = messageDone b.toNat (s.tcTaken c) :=
    dmaHandler_complete (s := s.enterIsr) hte htc hie hmine
  have hcurrent : (s.tcTaken c).current b.toNat = s.current b.toNat := rfl
  refine ⟨mine, u, hch, hframe, hcalls, fun hlast => ?_, fun hmore => ?_⟩
  · rw [hdone, messageDone_last (s := s.tcTaken c) hlast, hcurrent, hu, andThen_next]
  · rw [hdone, messageDone_more (s := s.tcTaken c) hmore, hcurrent, hu, andThen_next]
    rfl

/-- Settles O24: after the last message's callback the transfer ends in TRANSFERRED. -/
theorem lastMessageEndsTransfer : Obligations.LastMessageEndsTransfer := by
  intro b s i c hready hev B m hlast hmsg hs
  obtain ⟨mine, u, hch, hcallsOnly, hucalls, hend, -⟩ := hev.messageEnd hmsg
  have hubus : u.bus b.toNat = B := hcallsOnly .buses (by decide) b.toNat
  have huchan : ∀ d, u.chan d = (s.tcTaken c).chan d := hcallsOnly .chans (by decide)
  have hflags : sameButFlags b.toNat s.enterIsr u :=
    (sameButFlags_setChan b.toNat s.enterIsr hch.channel false (s.chan c).te).of_frame hcallsOnly
  obtain ⟨t, ht, hframe, hended, ⟨hovr, hmodf, hcrc, hchan⟩, hcalls⟩ :=
    invoke_ended .transferred B.errors hs (hcallsOnly .callbacks (by decide)) hflags
  have hbody : dmaHandler b.toNat c mine s.enterIsr = .next t := by
    rw [hend hlast, terminalSuccess_eq, hubus, ht]
  rw [hubus] at hovr hmodf hcrc
  simp only [huchan, State.chan_tcTaken] at hchan
  refine completes_channelHandler hch hready hbody ((frame_setChan _ _ _).trans (hcallsOnly.trans hframe)) (by decide)
    (by decide) ⟨hended, hovr, hmodf, hcrc, ?_, fun c' => ⟨(hchan c').2, fun hc' => ?_⟩, hucalls ▸ hcalls⟩
  · rw [(hchan c).1, bne_self_eq_false, Bool.and_false]
  · rw [(hchan c').1, bne_iff_ne.mpr hc'.symm, Bool.and_true]

/-! ## The advance to the next message (42_spi_events.md R228, R232, R233) -/

theorem frame_advance (b : Nat) (next : Word) (s : State) : changesOnly [.buses, .chans] s (advance b next s) :=
  ((frame_setBus s b _).trans (frame_arm _ b _)).mono (by simp)

theorem State.bus_advance (s : State) (b : Nat) (next : Word) (n : Nat) :
    (advance b next s).bus n =
      if b = n then
        { s.bus b with
          index := next, phase := phaseOfDir (s.desc (s.bus b).messages next.toNat).dir, pos := 0,
          rxdmaen := (need (s.busCfg b).mode (s.desc (s.bus b).messages next.toNat).dir).rx,
          txdmaen := (need (s.busCfg b).mode (s.desc (s.bus b).messages next.toNat).dir).tx }
      else s.bus n := by
  rw [advance, State.bus_arm]
  by_cases h : b = n
  · rw [if_pos h, if_pos h, State.bus_setBus_self]
    rfl
  · rw [if_neg h, if_neg h, State.bus_setBus_ne _ _ h]

theorem State.chan_advance (s : State) (b : Nat) (next : Word) (hd : (s.busCfg b).rxCh ≠ (s.busCfg b).txCh) (c : Nat) :
    (advance b next s).chan c = (arm b (s.desc (s.bus b).messages next.toNat) s).chan c :=
  (State.chan_arm _ b _ hd c).trans (State.chan_arm s b _ hd c).symm

theorem toNat_add_one_of_lt {x y : Word} (h : x.toNat + 1 < y.toNat) : (x + 1).toNat = x.toNat + 1 := by
  bv_omega

/-- Settles O25: after an earlier message's callback the bus and its channels are those of the next message. -/
theorem messageAdvances : Obligations.MessageAdvances := by
  intro b s i c hready hev B C m m' nd hmore hd hmsg
  obtain ⟨mine, u, hch, hcallsOnly, hucalls, -, hadvance⟩ := hev.messageEnd hmsg
  have hubus : ∀ n, u.bus n = s.bus n := hcallsOnly .buses (by decide)
  have huchan : ∀ d, u.chan d = { s.chan d with tc := (s.chan d).tc && c != d } := fun d =>
    (hcallsOnly .chans (by decide) d).trans (s.chan_tcTaken c d)
  have hucfg : u.busCfg b.toNat = C := State.busCfg_congr (s := s) (hcallsOnly .config (by decide)) _
  have hnext : u.desc (u.bus b.toNat).messages (B.index + 1).toNat = m' := by
    rw [hubus, toNat_add_one_of_lt hmore]
    exact hcallsOnly .descs (by decide) _ _
  have hchan : ∀ d, (s.afterHandler (advance b.toNat (B.index + 1) u)).chan d = (arm b.toNat m' u).chan d := fun d => by
    rw [State.chan_afterHandler, State.chan_advance u _ _ (by rw [hucfg]; exact hd), hnext]
  simp only [State.chan_arm u b.toNat m' (by rw [hucfg]; exact hd), hucfg, huchan] at hchan
  refine completes_channelHandler hch hready (hadvance hmore)
    ((frame_setChan _ _ _).trans (hcallsOnly.trans (frame_advance _ _ _))) (by decide) (by decide)
    ⟨?_, fun b' hb' => ?_, ?_, ?_, fun c' hrx htx => ?_, ?_⟩
  · rw [State.bus_afterHandler, State.bus_advance, if_pos rfl, hnext, hubus, hucfg]
  · rw [State.bus_afterHandler, State.bus_advance, if_neg hb'.symm, hubus]
  · rw [hchan, if_pos rfl]
    rfl
  · rw [hchan, if_neg hd.symm, if_pos rfl, ← armTx_tcie m' (s.chan C.txCh)]
    rfl
  · have hne : c ≠ c' := by
      rintro rfl
      exact hch.channel.elim hrx htx
    rw [hchan, if_neg hrx, if_neg htx, bne_iff_ne.mpr hne, Bool.and_true]
  · exact (s.afterHandler_calls _).trans ((frame_advance b.toNat (B.index + 1) u .calls (by decide)).trans hucalls)

end Sys2Proof.Machine
end

section
/-! SUPPORT. The datapath (42_spi_events.md R235, R236; 20_memory.md R81, R82, R96): when it has a step, and what one
frame sends, stores and counts. -/

namespace Sys2Proof.Machine

/-! ## When the datapath has a step -/

theorem agentStep_dp (b : Nat) (s : State) :
    agentStep exec (.dp b) s = .next (if dpReady s b && s.frameBacked b then dpFrame b s else s) := rfl

theorem dpReady_iff (s : State) (b : Nat) : dpReady s b = true ↔
    b < s.numBuses ∧ s.busy b = true ∧ (s.bus b).pos.toNat < (s.current b).size.toNat
      ∧ ((s.currentNeed b).rx = true → (s.chan (s.busCfg b).rxCh).en = true)
      ∧ ((s.currentNeed b).tx = true → (s.chan (s.busCfg b).txCh).en = true) := by
  simp only [dpReady, Bool.and_eq_true, decide_eq_true_eq, Bool.or_eq_true, Bool.not_eq_true', and_assoc,
    ← Bool.not_eq_true, ← imp_iff_not_or]

theorem State.frameBacked_iff (s : State) (b : Nat) : s.frameBacked b = true ↔
    ((s.current b).tx ≠ 0 → s.backed ((s.current b).tx + (s.bus b).pos) = true)
      ∧ ((s.current b).rx ≠ 0 → s.backed ((s.current b).rx + (s.bus b).pos) = true) := by
  simp only [State.frameBacked, Bool.and_eq_true, Bool.or_eq_true, beq_iff_eq, ← or_iff_not_imp_left]

theorem State.frameBacked_eq_false {s : State} {b : Nat}
    (h : (s.current b).tx ≠ 0 ∧ s.backed ((s.current b).tx + (s.bus b).pos) = false
      ∨ (s.current b).rx ≠ 0 ∧ s.backed ((s.current b).rx + (s.bus b).pos) = false) : s.frameBacked b = false := by
  rw [← Bool.not_eq_true, s.frameBacked_iff]
  rintro ⟨htx, hrx⟩
  rcases h with ⟨hne, hb⟩ | ⟨hne, hb⟩
  · simp [htx hne] at hb
  · simp [hrx hne] at hb

theorem agentStep_dp_stuck {b : Nat} {s : State} (h : dpReady s b = false ∨ s.frameBacked b = false) :
    agentStep exec (.dp b) s = .next s := by
  rw [agentStep_dp, if_neg]
  rcases h with h | h <;> simp [h]

theorem agentStep_dp_frame {b : Nat} {s : State} (hready : dpReady s b = true) (hbacked : s.frameBacked b = true) :
    agentStep exec (.dp b) s = .next (dpFrame b s) := by
  rw [agentStep_dp, hready, hbacked, Bool.and_self, if_pos rfl]

/-! ## The frame sent -/

theorem frame_sourceFrame (b : Nat) (m : Msg) (k : Word) (s : State) :
    changesOnly [.draws] s (sourceFrame b m k s).2 := by
  unfold sourceFrame
  split
  · exact changesOnly_refl _ s
  split
  · exact frame_bumpDraws s
  · exact changesOnly_refl _ s

/-- Where software did not write to the source byte, the frame is that byte or the filler, and takes no draw. -/
theorem sourceFrame_eq {b : Nat} {m : Msg} {k : Word} {s : State} (h : m.tx = 0 ∨ (b, (m.tx + k).toNat) ∉ s.dirty) :
    sourceFrame b m k s = (if m.tx = 0 then (s.bus b).txDefault else s.mem.read (m.tx + k), s) := by
  unfold sourceFrame
  by_cases htx : m.tx = 0
  · rw [if_pos htx, if_pos htx]
  · have hclean : s.dirty.contains (b, (m.tx + k).toNat) = false := by simpa using h.resolve_left htx
    rw [if_neg htx, if_neg htx, hclean, if_neg Bool.false_ne_true]

/-- The state after a frame's exchange with DEV's queue left at `rs`: HALF_DUPLEX_RX sends nothing (log 36). -/
def State.exchangedFrame (s : State) (b : Nat) (m : Msg) (k : Word) (rs : List Byte) : State :=
  if (s.busCfg b).mode = .halfDuplexRx then s.setAnswers b rs
  else ((sourceFrame b m k s).2.send b (sourceFrame b m k s).1).setAnswers b rs

theorem dpExchange_eq {b : Nat} {m : Msg} {k : Word} {r : Byte} {rs : List Byte} {s : State}
    (h : s.answersOf b = r :: rs) : dpExchange b m k s = (r, s.exchangedFrame b m k rs) := by
  have hsource : (sourceFrame b m k s).2.answersOf b = r :: rs :=
    (frame_sourceFrame b m k s .answers (by decide) b).trans h
  unfold dpExchange State.exchangedFrame
  split
  · rw [State.takeAnswer, h]
  · exact exchange_eq _ hsource

theorem frame_exchangedFrame (s : State) (b : Nat) (m : Msg) (k : Word) (rs : List Byte) :
    changesOnly [.answers, .wire, .draws] s (s.exchangedFrame b m k rs) := by
  unfold State.exchangedFrame
  split
  · exact (frame_setAnswers s b rs).mono (by simp)
  · exact ((frame_sourceFrame b m k s).trans ((frame_send _ b _).trans (frame_setAnswers _ b rs))).mono (by simp)

theorem exchangedFrame_draws {b : Nat} {m : Msg} {k : Word} {s : State} (rs : List Byte)
    (h : m.tx = 0 ∨ (b, (m.tx + k).toNat) ∉ s.dirty) : (s.exchangedFrame b m k rs).draws = s.draws := by
  unfold State.exchangedFrame
  rw [sourceFrame_eq h]
  split
  · rfl
  · rfl

theorem State.answersOf_exchangedFrame (s : State) (b : Nat) (m : Msg) (k : Word) (rs : List Byte) (n : Nat) :
    (s.exchangedFrame b m k rs).answersOf n = if b = n then rs else s.answersOf n := by
  have hsource : (sourceFrame b m k s).2.answersOf n = s.answersOf n := frame_sourceFrame b m k s .answers (by decide) n
  unfold State.exchangedFrame
  split <;> simp [State.answersOf_setAnswers, hsource]

theorem State.wireOf_exchangedFrame (s : State) (b : Nat) (m : Msg) (k : Word) (rs : List Byte) (n : Nat) :
    (s.exchangedFrame b m k rs).wireOf n =
      if b = n ∧ (s.busCfg b).mode ≠ .halfDuplexRx then (sourceFrame b m k s).1 :: s.wireOf n else s.wireOf n := by
  have hsource : ∀ n, (sourceFrame b m k s).2.wireOf n = s.wireOf n := frame_sourceFrame b m k s .wire (by decide)
  unfold State.exchangedFrame
  by_cases hmode : (s.busCfg b).mode = .halfDuplexRx
  · rw [if_pos hmode, if_neg (by simp [hmode]), State.wireOf_setAnswers]
  · rw [if_neg hmode, State.wireOf_setAnswers, State.wireOf_send, hsource, hsource]
    simp only [hmode, ne_eq, not_false_eq_true, and_true]
    split
    · next h => rw [h]
    · rfl

/-! ## The byte stored -/

/-- What DP leaves at the destination byte for the answer `r`, and the state after the store; no destination, no
store. -/
def State.landed (s : State) (b : Nat) (m : Msg) (k : Word) (r : Byte) : Byte × State :=
  if m.rx = 0 then (r, s)
  else ((storedByte b (m.rx + k) (r, s)).1,
    (storedByte b (m.rx + k) (r, s)).2.storeByte (m.rx + k) (storedByte b (m.rx + k) (r, s)).1)

theorem frame_storedByte (b : Nat) (a : Word) (r : Byte × State) : changesOnly [.draws] r.2 (storedByte b a r).2 := by
  unfold storedByte
  split
  · exact frame_bumpDraws r.2
  · exact changesOnly_refl _ r.2

/-- Where software did not write to the destination byte, the answer is stored, and takes no draw. -/
theorem storedByte_eq {b : Nat} {a : Word} {r : Byte} {s : State} (h : (b, a.toNat) ∉ s.dirty) :
    storedByte b a (r, s) = (r, s) := by
  unfold storedByte
  rw [if_neg (by simpa using h)]

theorem frame_landed (s : State) (b : Nat) (m : Msg) (k : Word) (r : Byte) :
    changesOnly [.mem, .draws] s (s.landed b m k r).2 := by
  unfold State.landed
  split
  · exact changesOnly_refl _ s
  · exact ((frame_storedByte b _ (r, s)).trans (frame_storeByte _ _ _)).mono (by simp)

theorem landed_eq {b : Nat} {m : Msg} {k : Word} {r : Byte} {s : State}
    (h : m.rx = 0 ∨ (b, (m.rx + k).toNat) ∉ s.dirty) :
    (s.landed b m k r).1 = r ∧ (s.landed b m k r).2.draws = s.draws := by
  unfold State.landed
  split
  · exact ⟨rfl, rfl⟩
  · next hrx =>
    rw [storedByte_eq (h.resolve_left hrx)]
    exact ⟨rfl, rfl⟩

theorem State.read_landed (s : State) (b : Nat) (m : Msg) (k : Word) (r : Byte) (a : Word) :
    (s.landed b m k r).2.mem.read a =
      if m.rx ≠ 0 ∧ a = m.rx + k then (s.landed b m k r).1 else s.mem.read a := by
  unfold State.landed
  by_cases hrx : m.rx = 0
  · rw [if_pos hrx, if_neg (by simp [hrx])]
  · have hmem : (storedByte b (m.rx + k) (r, s)).2.mem.read a = s.mem.read a :=
      frame_storedByte b (m.rx + k) (r, s) .mem (by decide) a
    rw [if_neg hrx, State.storeByte_mem, Memory.read_write, hmem]
    simp only [hrx, ne_eq, not_false_eq_true, true_and, @eq_comm _ a]

/-! ## The counters -/

theorem frame_setChan_ite (want : Bool) (c : Nat) (v : Chan) (s : State) :
    changesOnly [.chans] s (if want then s.setChan c v else s) := by
  split
  · exact frame_setChan s c v
  · exact changesOnly_refl _ s

theorem frame_countFrame (b : Nat) (n : ChanSet) (size : Word) (s : State) :
    changesOnly [.buses, .chans] s (countFrame b n size s) :=
  ((frame_setBus s b _).trans ((frame_setChan_ite _ _ _ _).trans (frame_setChan_ite _ _ _ _))).mono (by simp)

theorem State.bus_countFrame (s : State) (b : Nat) (n : ChanSet) (size : Word) (i : Nat) :
    (countFrame b n size s).bus i = if b = i then { s.bus b with pos := (s.bus b).pos + 1 } else s.bus i := by
  unfold countFrame
  cases n.rx <;> cases n.tx <;> exact s.bus_setBus b _ i

theorem State.chan_countFrame (s : State) (b : Nat) (n : ChanSet) (size : Word)
    (hd : (s.busCfg b).rxCh ≠ (s.busCfg b).txCh) (c : Nat) :
    (countFrame b n size s).chan c =
      if n.rx = true ∧ c = (s.busCfg b).rxCh ∨ n.tx = true ∧ c = (s.busCfg b).txCh then
        (s.chan c).moved ((s.bus b).pos + 1 == size)
      else s.chan c := by
  unfold countFrame
  by_cases hrx : c = (s.busCfg b).rxCh
  · subst hrx
    cases n.rx <;> cases n.tx <;> simp [State.chan_setChan, hd, hd.symm]
  by_cases htx : c = (s.busCfg b).txCh
  · subst htx
    cases n.rx <;> cases n.tx <;> simp [State.chan_setChan, hd, hd.symm]
  · cases n.rx <;> cases n.tx <;> simp [State.chan_setChan, hrx, htx, Ne.symm hrx, Ne.symm htx]

/-! ## One frame -/

/-- The byte that a frame with DEV's answer `r` leaves at its destination, and the state before the frame is counted. -/
def State.arrived (s : State) (b : Nat) (r : Byte) (rs : List Byte) : Byte × State :=
  (s.exchangedFrame b (s.current b) (s.bus b).pos rs).landed b (s.current b) (s.bus b).pos r

theorem frame_arrived (s : State) (b : Nat) (r : Byte) (rs : List Byte) :
    changesOnly [.answers, .wire, .draws, .mem] s (s.arrived b r rs).2 :=
  ((frame_exchangedFrame s b _ _ rs).trans (frame_landed _ b _ _ r)).mono (by simp)

section
variable {s : State} {b : Nat} {r : Byte} {rs : List Byte} (h : s.answersOf b = r :: rs)
include h

/-- A frame is its exchange, then its store, then the counters. -/
theorem dpFrame_eq : dpFrame b s = countFrame b (s.currentNeed b) (s.current b).size (s.arrived b r rs).2 := by
  have hx := dpExchange_eq (m := s.current b) (k := (s.bus b).pos) h
  simp only [dpFrame, State.arrived, State.landed, hx]
  split
  · rfl
  · rfl

theorem frame_dpFrame : changesOnly [.buses, .chans, .mem, .answers, .wire, .draws] s (dpFrame b s) := by
  rw [dpFrame_eq h]
  exact ((frame_arrived s b r rs).trans (frame_countFrame b _ _ _)).mono (by simp)

theorem bus_dpFrame (n : Nat) :
    (dpFrame b s).bus n = if b = n then { s.bus b with pos := (s.bus b).pos + 1 } else s.bus n := by
  have hbus : ∀ n, (s.arrived b r rs).2.bus n = s.bus n := frame_arrived s b r rs .buses (by decide)
  rw [dpFrame_eq h, State.bus_countFrame, hbus, hbus]

theorem chan_dpFrame (hd : (s.busCfg b).rxCh ≠ (s.busCfg b).txCh) (c : Nat) :
    (dpFrame b s).chan c =
      if (s.currentNeed b).rx = true ∧ c = (s.busCfg b).rxCh ∨ (s.currentNeed b).tx = true ∧ c = (s.busCfg b).txCh then
        (s.chan c).moved ((s.bus b).pos + 1 == (s.current b).size)
      else s.chan c := by
  have hcfg : (s.arrived b r rs).2.busCfg b = s.busCfg b :=
    State.busCfg_congr (frame_arrived s b r rs .config (by decide)) b
  have hbus : (s.arrived b r rs).2.bus b = s.bus b := frame_arrived s b r rs .buses (by decide) b
  have hchan : (s.arrived b r rs).2.chan c = s.chan c := frame_arrived s b r rs .chans (by decide) c
  rw [dpFrame_eq h, State.chan_countFrame _ b _ _ (by rw [hcfg]; exact hd), hcfg, hchan, hbus]

/-- What the exchange left of DEV's queues and the wires stays so. -/
theorem io_dpFrame (n : Nat) :
    (dpFrame b s).answersOf n = (if b = n then rs else s.answersOf n)
      ∧ (dpFrame b s).wireOf n =
        if b = n ∧ (s.busCfg b).mode ≠ .halfDuplexRx then (sourceFrame b (s.current b) (s.bus b).pos s).1 :: s.wireOf n
        else s.wireOf n := by
  have hlater :=
    (frame_landed (s.exchangedFrame b (s.current b) (s.bus b).pos rs) b (s.current b) (s.bus b).pos r).trans
      (frame_countFrame b (s.currentNeed b) (s.current b).size _)
  rw [dpFrame_eq h, ← State.answersOf_exchangedFrame s b (s.current b) (s.bus b).pos rs,
    ← State.wireOf_exchangedFrame s b (s.current b) (s.bus b).pos rs]
  exact ⟨hlater .answers (by decide) n, hlater .wire (by decide) n⟩

theorem read_dpFrame (a : Word) :
    (dpFrame b s).mem.read a =
      if (s.current b).rx ≠ 0 ∧ a = (s.current b).rx + (s.bus b).pos then (s.arrived b r rs).1 else s.mem.read a := by
  have hkept : (s.exchangedFrame b (s.current b) (s.bus b).pos rs).mem.read a = s.mem.read a :=
    frame_exchangedFrame s b _ _ rs .mem (by decide) a
  rw [dpFrame_eq h, frame_countFrame b _ _ _ .mem (by decide) a, State.arrived, State.read_landed, hkept]

end

/-- Where software did not write to the destination byte, the answer arrives, and its store takes no draw. -/
theorem arrived_eq {s : State} {b : Nat} (r : Byte) (rs : List Byte)
    (h : (s.current b).rx = 0 ∨ (b, ((s.current b).rx + (s.bus b).pos).toNat) ∉ s.dirty) :
    (s.arrived b r rs).1 = r
      ∧ (s.arrived b r rs).2.draws = (s.exchangedFrame b (s.current b) (s.bus b).pos rs).draws := by
  have hdirty : (s.exchangedFrame b (s.current b) (s.bus b).pos rs).dirty = s.dirty :=
    frame_exchangedFrame s b _ _ rs .dirty (by decide)
  exact landed_eq (by rw [hdirty]; exact h)

/-- Settles O28: the turn is `dpFrame` where DP has a step, read off part by part. -/
theorem datapathFrame : Obligations.DatapathFrame := by
  intro b s C m k nd last sent got
  refine ⟨dpReady_iff s b, ⟨_, agentStep_dp b s⟩, fun h => agentStep_dp_stuck (h.imp_right s.frameBacked_eq_false),
    fun r rs hready hq hd htx hrx => ?_⟩
  refine ⟨dpFrame b s, (sourceFrame b m k s).1, (s.arrived b r rs).1,
    agentStep_dp_frame hready ((s.frameBacked_iff b).mpr ⟨htx, hrx⟩), frame_dpFrame hq, fun hs hg => ?_, ?_,
    fun b' hb' => ?_, ?_, fun b' hb' => ⟨?_, ?_⟩, ?_, fun hs => ?_, read_dpFrame hq, fun hg => (arrived_eq r rs hg).1,
    chan_dpFrame hq hd⟩
  · have hcount : (dpFrame b s).draws = (s.arrived b r rs).2.draws := by
      rw [dpFrame_eq hq]
      exact frame_countFrame b _ _ _ .draws (by decide)
    rw [hcount, (arrived_eq r rs hg).2, exchangedFrame_draws rs hs]
  · rw [bus_dpFrame hq, if_pos rfl]
  · rw [bus_dpFrame hq, if_neg hb'.symm]
  · rw [(io_dpFrame hq b).1, if_pos rfl]
  · rw [(io_dpFrame hq b').1, if_neg hb'.symm]
  · rw [(io_dpFrame hq b').2, if_neg (fun h => hb'.symm h.1)]
  · rw [(io_dpFrame hq b).2]
    by_cases hmode : C.mode = .halfDuplexRx
    · rw [if_pos hmode, if_neg (fun h => h.2 hmode)]
    · rw [if_neg hmode, if_pos ⟨rfl, hmode⟩]
  · rw [sourceFrame_eq hs]

end Sys2Proof.Machine
end

section
/-! SUPPORT. The environment's turns (42_spi_events.md R221; 10_state.md R48, R62; 70_reset_and_hazards.md R462). -/

namespace Sys2Proof.Machine

theorem State.mayRaise_iff (s : State) (b : Nat) : s.mayRaise b = true ↔ b < s.numBuses ∧ s.busy b = true := by
  rw [State.mayRaise, Bool.and_eq_true, decide_eq_true_eq]

/-- Settles O29: each turn is one update under its guard. -/
theorem environmentEvents : Obligations.EnvironmentEvents := by
  intro n s
  refine ⟨fun x hx hb => ?_, fun hn hb e he => ?_, fun h => ?_, fun hn h => ?_, fun hn hw hcb => ?_, fun hn h => ?_,
    fun h => ?_, fun h => ?_, fun h => ?_, fun h => ?_⟩
  · have hmay : ¬ s.mayRaise n = true := by simp [s.mayRaise_iff, hb]
    simp only [List.mem_cons, List.not_mem_nil, or_false] at hx
    rcases hx with rfl | rfl | rfl <;> exact congrArg Host.Outcome.next (if_neg hmay)
  · have hmay : s.mayRaise n = true := (s.mayRaise_iff n).mpr ⟨hn, hb⟩
    refine ⟨s.setBus n e.2, ?_, s.bus_setBus_self n _, fun b h => s.bus_setBus_ne _ h.symm, frame_setBus s n _⟩
    simp only [List.mem_cons, List.not_mem_nil, or_false] at he
    rcases he with rfl | rfl | rfl <;> exact congrArg Host.Outcome.next (if_pos hmay)
  · exact congrArg Host.Outcome.next (if_neg (by simp [h]))
  · exact ⟨_, congrArg Host.Outcome.next (if_pos ⟨hn, h⟩), s.chan_setChan_self n _,
      fun c hc => s.chan_setChan_ne _ hc.symm, frame_setChan s n _⟩
  · exact ⟨_, congrArg Host.Outcome.next (if_pos ⟨hn, hw, hcb⟩), s.ses_setSes_self n _,
      fun i hi => s.ses_setSes_ne _ hi.symm, frame_setSes s n _⟩
  · obtain ⟨hself, hother⟩ := lock_of_setLock ((s.setLock n true).lock_setExt n true)
    exact ⟨_, congrArg Host.Outcome.next (if_pos ⟨hn, h⟩), hself, hother,
      (frame_setLock s n true).trans (frame_setExt _ n true)⟩
  · obtain ⟨hself, hother⟩ := lock_of_setLock ((s.setLock n false).lock_setExt n false)
    exact ⟨_, congrArg Host.Outcome.next (if_pos h), hself, hother,
      (frame_setLock s n false).trans (frame_setExt _ n false)⟩
  · refine congrArg Host.Outcome.next (if_neg ?_)
    rintro ⟨-, hw, hcb⟩
    rcases h with h | h
    · simp [h] at hw
    · exact hcb h
  · exact congrArg Host.Outcome.next (if_neg (by simp [h]))
  · exact congrArg Host.Outcome.next (if_neg (by simp [h]))

end Sys2Proof.Machine
end

section
/-! SUPPORT. The CRC-7 and CRC-16 registers (43_sd_framing.md R260, R261): as remainders over GF(2), and as linear
functions of the message. -/

namespace Sys2Proof.Machine

open Polynomial

/-! ## Bits as a polynomial over GF(2) -/

/-- The bits of a list as a polynomial, the first one the highest coefficient. -/
noncomputable def bitsPoly (l : List Bool) : (ZMod 2)[X] := l.foldl (fun p bit => p * X + (if bit then 1 else 0)) 0

theorem bitsPoly_concat (l : List Bool) (a : Bool) :
    bitsPoly (l ++ [a]) = bitsPoly l * X + (if a then 1 else 0) := by
  simp [bitsPoly]

theorem bitsPoly_append (l m : List Bool) : bitsPoly (l ++ m) = bitsPoly l * X ^ m.length + bitsPoly m := by
  induction m using List.reverseRecOn with
  | nil => simp [bitsPoly]
  | append_singleton m a ih =>
    rw [← List.append_assoc, bitsPoly_concat, bitsPoly_concat, ih, List.length_append,
      List.length_singleton, pow_succ]
    ring

/-- The bits of a register or a byte as a polynomial, its most significant bit the highest coefficient. -/
noncomputable def wordPoly {w : Nat} (c : BitVec w) : (ZMod 2)[X] :=
  bitsPoly ((List.range w).reverse.map (fun j => c.getLsbD j))

theorem bitsPoly_range (w : Nat) (f : Nat → Bool) :
    bitsPoly ((List.range w).reverse.map f) = ∑ j ∈ Finset.range w, if f j then (X : (ZMod 2)[X]) ^ j else 0 := by
  induction w with
  | zero => rfl
  | succ w ih =>
    have hhead : bitsPoly [f w] = if f w then 1 else 0 := by simp [bitsPoly]
    rw [List.range_succ, List.reverse_append, List.map_append, bitsPoly_append, ih, Finset.sum_range_succ, add_comm]
    cases h : f w <;> simp [h, bitsPoly]

theorem wordPoly_eq_sum {w : Nat} (c : BitVec w) :
    wordPoly c = ∑ j ∈ Finset.range w, if c.getLsbD j then (X : (ZMod 2)[X]) ^ j else 0 :=
  bitsPoly_range w _

@[simp] theorem wordPoly_zero (w : Nat) : wordPoly (0#w) = 0 := by simp [wordPoly_eq_sum]

theorem wordPoly_xor {w : Nat} (c d : BitVec w) : wordPoly (c ^^^ d) = wordPoly c + wordPoly d := by
  rw [wordPoly_eq_sum, wordPoly_eq_sum, wordPoly_eq_sum, ← Finset.sum_add_distrib]
  refine Finset.sum_congr rfl fun j _ => ?_
  rw [BitVec.getLsbD_xor]
  cases c.getLsbD j <;> cases d.getLsbD j <;> simp [CharTwo.add_self_eq_zero]

/-- A shift multiplies by X, but for the bit shifted out. -/
theorem wordPoly_shiftLeft_one {w : Nat} (c : BitVec (w + 1)) :
    wordPoly (c <<< 1) = wordPoly c * X + (if c.getLsbD w then X ^ (w + 1) else 0) := by
  rw [wordPoly_eq_sum, wordPoly_eq_sum, Finset.sum_range_succ', Finset.sum_range_succ, add_mul, add_assoc]
  have hlow : ∑ j ∈ Finset.range w, (if (c <<< 1).getLsbD (j + 1) then (X : (ZMod 2)[X]) ^ (j + 1) else 0)
      = (∑ j ∈ Finset.range w, if c.getLsbD j then (X : (ZMod 2)[X]) ^ j else 0) * X := by
    rw [Finset.sum_mul]
    refine Finset.sum_congr rfl fun j hj => ?_
    have hj' : j + 1 < w + 1 := by simpa using hj
    have hbit : (c <<< 1).getLsbD (j + 1) = c.getLsbD j := by rw [BitVec.getLsbD_shiftLeft]; simp [hj']
    rw [hbit, ite_mul, zero_mul, ← pow_succ]
  have htop : ((if c.getLsbD w then (X : (ZMod 2)[X]) ^ w else 0) * X
      + if c.getLsbD w then X ^ (w + 1) else 0) = 0 := by
    split
    · rw [← pow_succ, CharTwo.add_self_eq_zero]
    · simp
  rw [hlow, htop]
  simp

/-! ## One shift of a register -/

/-- A register shifted by one bit, the generator's low coefficients `g` added where `fb` says so. -/
def shiftReg {w : Nat} (g c : BitVec w) (fb : Bool) : BitVec w := (c <<< 1) ^^^ (if fb then g else 0)

theorem wordPoly_shiftReg {w : Nat} (g c : BitVec (w + 1)) (fb : Bool) :
    wordPoly (shiftReg g c fb) =
      wordPoly c * X + (if c.getLsbD w then X ^ (w + 1) else 0) + (if fb then wordPoly g else 0) := by
  rw [shiftReg, wordPoly_xor, wordPoly_shiftLeft_one]
  cases fb <;> simp

theorem shiftReg_xor {w : Nat} (g c d : BitVec w) (a b : Bool) :
    shiftReg g (c ^^^ d) (xor a b) = shiftReg g c a ^^^ shiftReg g d b := by
  have hgen : (if xor a b then g else 0) = (if a then g else 0) ^^^ (if b then g else 0) := by
    cases a <;> cases b <;> simp
  rw [shiftReg, shiftReg, shiftReg, BitVec.shiftLeft_xor_distrib, hgen]
  ac_rfl

/-- A generator with a constant coefficient shifts no other register to 0 than 0. -/
theorem eq_zero_of_shiftReg {w : Nat} {g c : BitVec (w + 1)} (hg : g.getLsbD 0 = true)
    (h : shiftReg g c (c.getLsbD w) = 0) : c = 0 := by
  have hbit : ∀ j, (shiftReg g c (c.getLsbD w)).getLsbD j = false := fun j => by rw [h]; simp
  have htop : c.getLsbD w = false := by
    cases e : c.getLsbD w with
    | false => rfl
    | true =>
      have h0 := hbit 0
      rw [e, shiftReg, if_pos rfl, BitVec.getLsbD_xor, hg] at h0
      simp at h0
  refine BitVec.eq_of_getLsbD_eq fun j hj => ?_
  rcases Nat.lt_succ_iff_lt_or_eq.mp hj with hlow | rfl
  · have hnext := hbit (j + 1)
    rw [htop, shiftReg, BitVec.getLsbD_xor, BitVec.getLsbD_shiftLeft] at hnext
    simpa [hlow] using hnext
  · simpa using htop

/-! ## One byte into a register, as polynomials -/

/-- The byte update `upd` of a CRC register with generator `G`: it multiplies by X^8 and adds the byte times X^w. -/
def DividesBy {w : Nat} (G : (ZMod 2)[X]) (upd : BitVec w → Byte → BitVec w) : Prop :=
  ∀ c v, G ∣ wordPoly (upd c v) + (wordPoly c * X ^ 8 + wordPoly v * X ^ w)

/-- The bits of a message, byte after byte. -/
def messageBits (v : List Byte) : List Bool := v.flatMap (fun x => [7, 6, 5, 4, 3, 2, 1, 0].map (fun j => x.getLsbD j))

theorem bitsPoly_messageBits_concat (v : List Byte) (x : Byte) :
    bitsPoly (messageBits (v ++ [x])) = bitsPoly (messageBits v) * X ^ 8 + wordPoly x := by
  have hbits : messageBits (v ++ [x]) = messageBits v ++ (List.range 8).reverse.map (fun j => x.getLsbD j) := by
    simp [messageBits, List.range_succ]
  rw [hbits, bitsPoly_append]
  simp [wordPoly]

/-- The register after a message is the remainder of the message times X^w. -/
theorem DividesBy.dvd {w : Nat} {G : (ZMod 2)[X]} {upd : BitVec w → Byte → BitVec w} (h : DividesBy G upd)
    (v : List Byte) : G ∣ bitsPoly (messageBits v) * X ^ w + wordPoly (v.foldl upd 0) := by
  induction v using List.reverseRecOn with
  | nil => simp [messageBits, bitsPoly]
  | append_singleton v x ih =>
    rw [bitsPoly_messageBits_concat, List.foldl_append, List.foldl_cons, List.foldl_nil]
    have hstep := (ih.mul_right (X ^ 8)).add (h (v.foldl upd 0) x)
    have hcancel := CharTwo.add_self_eq_zero (wordPoly (v.foldl upd 0) * X ^ 8)
    convert hstep using 1
    linear_combination -hcancel

/-! ## CRC-7 (43_sd_framing.md R260) -/

theorem crc7Bit_eq (c : BitVec 7) (bit : Bool) : crc7Bit c bit = shiftReg 0b0001001 c (xor (c.getLsbD 6) bit) := by
  unfold crc7Bit shiftReg
  cases xor (c.getLsbD 6) bit <;> simp

theorem dvd_wordPoly_crc7Bit (c : BitVec 7) (bit : Bool) :
    (X ^ 7 + X ^ 3 + 1 : (ZMod 2)[X]) ∣
      wordPoly (crc7Bit c bit) + (wordPoly c * X + (if bit then 1 else 0) * X ^ 7) := by
  have hgen : wordPoly (0b0001001 : BitVec 7) = X ^ 3 + 1 := by
    simp [wordPoly_eq_sum, Finset.sum_range_succ, add_comm]
  have hcancel := CharTwo.add_self_eq_zero (wordPoly c * X)
  have htop := CharTwo.add_self_eq_zero ((X : (ZMod 2)[X]) ^ 7)
  rw [crc7Bit_eq, wordPoly_shiftReg, hgen]
  cases c.getLsbD 6 <;> cases bit
  · exact Dvd.intro 0 (by simp; linear_combination -hcancel)
  · exact dvd_of_eq (by simp; linear_combination -hcancel)
  · exact dvd_of_eq (by simp; linear_combination -hcancel)
  · exact Dvd.intro 0 (by simp; linear_combination -hcancel - htop)

theorem dvd_wordPoly_crc7Bits (l : List Bool) (c : BitVec 7) :
    (X ^ 7 + X ^ 3 + 1 : (ZMod 2)[X]) ∣
      wordPoly (l.foldl crc7Bit c) + (wordPoly c * X ^ l.length + bitsPoly l * X ^ 7) := by
  induction l using List.reverseRecOn with
  | nil => simp [bitsPoly, CharTwo.add_self_eq_zero]
  | append_singleton l a ih =>
    rw [bitsPoly_concat, List.foldl_append, List.foldl_cons, List.foldl_nil, List.length_append,
      List.length_singleton]
    have hstep := (ih.mul_right X).add (dvd_wordPoly_crc7Bit (l.foldl crc7Bit c) a)
    have hcancel := CharTwo.add_self_eq_zero (wordPoly (l.foldl crc7Bit c) * X)
    convert hstep using 1
    linear_combination -hcancel

theorem dividesBy_crc7Byte : DividesBy (X ^ 7 + X ^ 3 + 1) crc7Byte := fun c v => by
  simpa [wordPoly, crc7Byte, List.foldl_map, List.range_succ] using
    dvd_wordPoly_crc7Bits ((List.range 8).reverse.map (fun j => v.getLsbD j)) c

/-! ## CRC-16 (43_sd_framing.md R261) -/

theorem crc16Shift_eq (c : BitVec 16) : crc16Shift c = shiftReg 0x1021 c (c.getLsbD 15) := by
  unfold crc16Shift shiftReg
  cases c.getLsbD 15 <;> simp

theorem dvd_wordPoly_crc16Shift (c : BitVec 16) :
    (X ^ 16 + X ^ 12 + X ^ 5 + 1 : (ZMod 2)[X]) ∣ wordPoly (crc16Shift c) + wordPoly c * X := by
  have hgen : wordPoly (0x1021 : BitVec 16) = X ^ 12 + X ^ 5 + 1 := by
    simp [wordPoly_eq_sum, Finset.sum_range_succ]
    ring
  have hcancel := CharTwo.add_self_eq_zero (wordPoly c * X)
  rw [crc16Shift_eq, wordPoly_shiftReg, hgen]
  cases c.getLsbD 15
  · exact Dvd.intro 0 (by simp; linear_combination -hcancel)
  · exact dvd_of_eq (by simp; linear_combination -hcancel)

theorem dvd_wordPoly_crc16Shifts (n : Nat) (c : BitVec 16) :
    (X ^ 16 + X ^ 12 + X ^ 5 + 1 : (ZMod 2)[X]) ∣ wordPoly (crc16Shift^[n] c) + wordPoly c * X ^ n := by
  induction n with
  | zero => simp [CharTwo.add_self_eq_zero]
  | succ n ih =>
    rw [Function.iterate_succ_apply', pow_succ X n]
    have hstep := (ih.mul_right X).add (dvd_wordPoly_crc16Shift (crc16Shift^[n] c))
    have hcancel := CharTwo.add_self_eq_zero (wordPoly (crc16Shift^[n] c) * X)
    convert hstep using 1
    linear_combination -hcancel

theorem crc16Byte_eq (c : BitVec 16) (v : Byte) :
    crc16Byte c v = crc16Shift^[8] (c ^^^ ((v.setWidth 16) <<< 8)) := rfl

theorem wordPoly_highByte (v : Byte) : wordPoly ((v.setWidth 16) <<< 8) = wordPoly v * X ^ 8 := by
  rw [wordPoly_eq_sum, wordPoly_eq_sum, Finset.sum_mul, show 16 = 8 + 8 from rfl, Finset.sum_range_add]
  have hlow : ∑ j ∈ Finset.range 8, (if ((v.setWidth 16) <<< 8).getLsbD j then (X : (ZMod 2)[X]) ^ j else 0) = 0 :=
    Finset.sum_eq_zero fun j hj => by simp [Finset.mem_range.mp hj]
  rw [hlow, zero_add]
  refine Finset.sum_congr rfl fun j hj => ?_
  have hbit : ((v.setWidth 16) <<< 8).getLsbD (8 + j) = v.getLsbD j := by
    have hj' : j < 8 := Finset.mem_range.mp hj
    rw [BitVec.getLsbD_shiftLeft, BitVec.getLsbD_setWidth, Nat.add_sub_cancel_left]
    simp [show 8 + j < 16 by omega, show j < 16 by omega]
  rw [hbit, ite_mul, zero_mul, ← pow_add, add_comm]

theorem dividesBy_crc16Byte : DividesBy (X ^ 16 + X ^ 12 + X ^ 5 + 1) crc16Byte := fun c v => by
  have hshifts := dvd_wordPoly_crc16Shifts 8 (c ^^^ ((v.setWidth 16) <<< 8))
  rw [wordPoly_xor, wordPoly_highByte] at hshifts
  rw [crc16Byte_eq]
  convert hshifts using 2
  ring

/-! ## A block followed by its own trailer (43_sd_framing.md R261) -/

theorem crc16Shift_of_top {c : BitVec 16} (h : c.getLsbD 15 = false) : crc16Shift c = c <<< 1 := by
  simp only [crc16Shift, h, if_false, Bool.false_eq_true]

/-- A byte's bits shift up to the top of the register before any comes out of it. -/
theorem crc16Shifts_byte (v : Byte) {n : Nat} (hn : n ≤ 8) : crc16Shift^[n] (v.setWidth 16) = v.setWidth 16 <<< n := by
  induction n with
  | zero => simp
  | succ n ih =>
    rw [Function.iterate_succ_apply', ih (by omega), crc16Shift_of_top, BitVec.shiftLeft_add]
    rw [BitVec.getLsbD_shiftLeft, BitVec.getLsbD_setWidth, BitVec.getLsbD_of_ge v _ (by omega)]
    simp

theorem crc16Byte_highByte (c : BitVec 16) :
    crc16Byte c (c.extractLsb' 8 8) = (c.extractLsb' 0 8).setWidth 16 <<< 8 := by
  have hlow : c ^^^ ((c.extractLsb' 8 8).setWidth 16 <<< 8) = (c.extractLsb' 0 8).setWidth 16 := by
    refine BitVec.eq_of_getLsbD_eq fun j hj => ?_
    rw [BitVec.getLsbD_xor, BitVec.getLsbD_shiftLeft, BitVec.getLsbD_setWidth, BitVec.getLsbD_setWidth,
      BitVec.getLsbD_extractLsb', BitVec.getLsbD_extractLsb']
    rcases Nat.lt_or_ge j 8 with hlow | hhigh
    · simp [hlow, hj]
    · simp [Nat.not_lt.mpr hhigh, hj, show j - 8 < 8 by omega, show j - 8 < 16 by omega, show 8 + (j - 8) = j by omega]
  rw [crc16Byte_eq, hlow, crc16Shifts_byte _ le_rfl]

theorem crc16Byte_self (v : Byte) : crc16Byte (v.setWidth 16 <<< 8) v = 0 := by
  rw [crc16Byte_eq, BitVec.xor_self]
  decide

theorem crc16_trailer (v : List Byte) :
    crc16 (v ++ [(crc16 v).extractLsb' 8 8, (crc16 v).extractLsb' 0 8]) = 0 := by
  rw [crc16, List.foldl_append]
  exact (congrArg (crc16Byte · _) (crc16Byte_highByte (crc16 v))).trans (crc16Byte_self _)

/-! ## A flipped bit -/

/-- The byte update `upd` of a CRC register is linear, loses no difference of the register, and turns a flipped bit into
one. -/
structure Detects {w : Nat} (upd : BitVec w → Byte → BitVec w) : Prop where
  linear : ∀ c d u v, upd (c ^^^ d) (u ^^^ v) = upd c u ^^^ upd d v
  keeps : ∀ d, upd d 0 = 0 → d = 0
  flips : ∀ j : Fin 8, upd 0 (BitVec.twoPow 8 j) ≠ 0

theorem Detects.foldl_xor {w : Nat} {upd : BitVec w → Byte → BitVec w} (h : Detects upd) (l : List Byte)
    (c : BitVec w) {d : BitVec w} (hd : d ≠ 0) : ∃ e, e ≠ 0 ∧ l.foldl upd (c ^^^ d) = l.foldl upd c ^^^ e := by
  induction l generalizing c d with
  | nil => exact ⟨d, hd, rfl⟩
  | cons v l ih =>
    have hstep : upd (c ^^^ d) v = upd c v ^^^ upd d 0 := by rw [← h.linear]; simp
    rw [List.foldl_cons, List.foldl_cons, hstep]
    exact ih _ (fun h0 => hd (h.keeps d h0))

theorem Detects.ne {w : Nat} {upd : BitVec w → Byte → BitVec w} (h : Detects upd) (pre post : List Byte) (x : Byte)
    (j : Fin 8) :
    (pre ++ (x ^^^ BitVec.twoPow 8 j) :: post).foldl upd 0 ≠ (pre ++ x :: post).foldl upd 0 := by
  rw [List.foldl_append, List.foldl_append, List.foldl_cons, List.foldl_cons]
  generalize pre.foldl upd 0 = c
  have hflip : upd c (x ^^^ BitVec.twoPow 8 j) = upd c x ^^^ upd 0 (BitVec.twoPow 8 j) := by rw [← h.linear]; simp
  obtain ⟨e, he, hfold⟩ := h.foldl_xor post (upd c x) (h.flips j)
  rw [hflip, hfold]
  simpa using he

theorem crc7Bit_linear (c d : BitVec 7) (a b : Bool) :
    crc7Bit (c ^^^ d) (xor a b) = crc7Bit c a ^^^ crc7Bit d b := by
  have hfb : xor (xor (c.getLsbD 6) (d.getLsbD 6)) (xor a b) = xor (xor (c.getLsbD 6) a) (xor (d.getLsbD 6) b) := by
    simp only [Bool.xor_assoc, Bool.xor_left_comm]
  rw [crc7Bit_eq, crc7Bit_eq, crc7Bit_eq, BitVec.getLsbD_xor, hfb, shiftReg_xor]

theorem crc7Byte_linear (c d : BitVec 7) (u v : Byte) :
    crc7Byte (c ^^^ d) (u ^^^ v) = crc7Byte c u ^^^ crc7Byte d v := by
  simp only [crc7Byte, List.foldl_cons, List.foldl_nil, BitVec.getLsbD_xor, crc7Bit_linear]

theorem eq_zero_of_crc7Bit {c : BitVec 7} (h : crc7Bit c false = 0) : c = 0 := by
  rw [crc7Bit_eq, Bool.xor_false] at h
  exact eq_zero_of_shiftReg (by decide) h

theorem eq_zero_of_iterate {w : Nat} {f : BitVec w → BitVec w} (hf : ∀ c, f c = 0 → c = 0) (n : Nat) {c : BitVec w}
    (h : f^[n] c = 0) : c = 0 := by
  induction n with
  | zero => exact h
  | succ n ih => exact ih (hf _ (by rwa [Function.iterate_succ_apply'] at h))

theorem detects_crc7Byte : Detects crc7Byte where
  linear := crc7Byte_linear
  keeps _ h := eq_zero_of_iterate (f := (crc7Bit · false)) (fun _ => eq_zero_of_crc7Bit) 8 h
  flips := by decide

theorem crc16Shift_linear (c d : BitVec 16) : crc16Shift (c ^^^ d) = crc16Shift c ^^^ crc16Shift d := by
  rw [crc16Shift_eq, crc16Shift_eq, crc16Shift_eq, BitVec.getLsbD_xor, shiftReg_xor]

theorem crc16Shifts_linear (n : Nat) (c d : BitVec 16) :
    crc16Shift^[n] (c ^^^ d) = crc16Shift^[n] c ^^^ crc16Shift^[n] d := by
  induction n with
  | zero => rfl
  | succ n ih => simp only [Function.iterate_succ_apply', ih, crc16Shift_linear]

theorem eq_zero_of_crc16Shift {c : BitVec 16} (h : crc16Shift c = 0) : c = 0 :=
  eq_zero_of_shiftReg (by decide) ((crc16Shift_eq c).symm.trans h)

theorem detects_crc16Byte : Detects crc16Byte where
  linear c d u v := by
    rw [crc16Byte_eq, crc16Byte_eq, crc16Byte_eq, ← crc16Shifts_linear, BitVec.setWidth_xor,
      BitVec.shiftLeft_xor_distrib]
    congr 1
    ac_rfl
  keeps d h := eq_zero_of_iterate (fun _ => eq_zero_of_crc16Shift) 8 (by simpa [crc16Byte_eq] using h)
  flips := by decide

/-! ## SDI.CRC7 and SDI.CRC16 -/

/-- An operation that answers a value of the bytes it reads changes the counter of draws alone, and only where a read is
open. -/
theorem completes_readBytes {i : Instr} {s : State} {addr n : Word} {r : Result}
    (h : exec i s = .next ((State.readBytes n.toNat addr s).2.setRet r)) :
    completes i s r [.draws] (fun t =>
      (∀ k, k < n.toNat → s.readOpen (addr + BitVec.ofNat 32 k) = false) → t.draws = s.draws) :=
  completes_of h (frame_readBytes n.toNat addr s) fun hclosed => by
    rw [State.setRet_draws, State.readBytes_eq n.toNat addr s hclosed]

theorem exec_sdiCrc7 {addr n : Word} {s : State} (h : ∀ k, k < n.toNat → s.backed (addr + BitVec.ofNat 32 k) = true) :
    exec (.sdiCrc7 addr n) s = .next ((State.readBytes n.toNat addr s).2.setRet
      (.value ((crc7 (State.readBytes n.toNat addr s).1).setWidth 32))) :=
  State.needBacked_eq _ h

theorem exec_sdiCrc16 {addr n : Word} {s : State} (h : ∀ k, k < n.toNat → s.backed (addr + BitVec.ofNat 32 k) = true) :
    exec (.sdiCrc16 addr n) s = .next ((State.readBytes n.toNat addr s).2.setRet
      (.value ((crc16 (State.readBytes n.toNat addr s).1).setWidth 32))) :=
  State.needBacked_eq _ h

/-- Settles O31: the bytes read are `readBytes`'s; the polynomials by one byte's step (`DividesBy`), the flipped bit by
linearity (`Detects`). -/
theorem crcOperations : Obligations.CrcOperations := by
  refine ⟨fun addr n s hbacked => ?_, fun v => ⟨dividesBy_crc7Byte.dvd v, dividesBy_crc16Byte.dvd v⟩, crc16_trailer,
    fun pre post x j => ⟨detects_crc16Byte.ne pre post x j, detects_crc7Byte.ne pre post x j⟩⟩
  obtain ⟨hlength, hbytes⟩ := State.readBytes_spec n.toNat addr s
  exact ⟨_, hlength, hbytes, completes_readBytes (exec_sdiCrc7 hbacked), completes_readBytes (exec_sdiCrc16 hbacked)⟩

end Sys2Proof.Machine
end

section
/-! SUPPORT. The command frame, the status bits and the error tokens (43_sd_framing.md R263, R273, R274). -/

namespace Sys2Proof.Machine

theorem exec_sdiFrame (index : BitVec 6) (arg : Word) (s : State) :
    exec (.sdiFrame index arg) s = .next (s.setRet (.frame (commandFrame index arg))) := rfl

theorem exec_sdiDecode (r1 r2 : Byte) (ai : Bool) (s : State) :
    exec (.sdiDecode r1 r2 ai) s = .next (s.setRet (.code (decodeStatus r1 r2 ai))) := rfl

theorem exec_sdiErrTok (token : Byte) (s : State) :
    exec (.sdiErrTok token) s = .next (s.setRet (.code (decodeErrToken token))) := rfl

/-- One line of R273 is the first row of the table: its code where its bit is set, else what the later rows give. -/
theorem ite_eq_of_find_fst {bit : Bool} {c d : Code} {rows : List (Bool × Code)} {row : Bool × Code}
    (h : ((bit, c) :: rows).find? Prod.fst = some row) (hd : rows.find? Prod.fst = some row → d = row.2) :
    (if bit then c else d) = row.2 := by
  cases bit with
  | true => exact congrArg Prod.snd (Option.some.inj h)
  | false => exact hd h

theorem decodeErrToken_eq : ∀ token : Byte, token.extractLsb' 4 4 = 0 → decodeErrToken token =
    if 8 ≤ token.toNat then .sdOutOfRange else if 4 ≤ token.toNat then .sdEccFailed
    else if 2 ≤ token.toNat then .sdCcError else .sdError := by decide

/-- Settles O32: the frame is `commandFrame`, R273's lines are the rows in their order, and a token of four bits is
below 16. -/
theorem framesAndStatus : Obligations.FramesAndStatus := by
  refine ⟨fun index arg s => completes_setRet (exec_sdiFrame index arg s), fun r1 r2 ai s row hrow => ?_,
    fun token s htoken => ?_⟩
  · have hcode : decodeStatus r1 r2 ai = row.2 := by
      iterate 15 refine ite_eq_of_find_fst hrow fun hrow => ?_
      exact congrArg Prod.snd (Option.some.inj hrow)
    exact hcode ▸ completes_setRet (exec_sdiDecode r1 r2 ai s)
  · exact decodeErrToken_eq token htoken ▸ completes_setRet (exec_sdiErrTok token s)

end Sys2Proof.Machine
end

section
/-! SUPPORT. The first byte of each SDI procedure (43_sd_framing.md R264, R265, R271; 44_sd_protocol.md R311, R313,
R315 to R318). -/

namespace Sys2Proof.Machine

theorem unclaimed_ready {i : Nat} {s : State} (h : s.sdReady i) (start : State → Res Flow) :
    unclaimed i start s = enterFlow (start s) :=
  (withSdSession_ready h _).trans (withSdBus_ready h _)

/-- A procedure that asks for a byte begins with that byte about to go out. -/
theorem begins_of_askByte {i : Instr} {n : Nat} {x : Byte} {k : List Frame} {s t : State} {ps : List Part}
    {q : State → Prop} (h : exec i s = enterFlow (askByte n x k t)) (hc : changesOnly ps s t) (hp : .control ∉ ps)
    (hb : t.sesBus n = s.sesBus n) (hq : q (t.setFg (.busy (.xchg (s.sesBus n) x) k))) :
    begins i s (.busy (.xchg (s.sesBus n) x) k) ps q := by
  obtain ⟨-, hprog, hisr⟩ : samePart .control s t := hc .control hp
  refine ⟨t.setFg (.busy (.xchg (s.sesBus n) x) k), ?_, rfl, hprog, hisr, ?_, hq⟩
  · rw [h, ← hb]; rfl
  · exact (hc.trans (frame_setFg t _)).mono (by simp)

/-- The state in which session `i`'s window is open after its silent begin callback was invoked with `k`. -/
def State.windowOpened (s : State) (i : Nat) (k : Word) : State :=
  (s.beginCalled i k).setSes i { s.ses i with expired := false, winOpen := true }

theorem frame_windowOpened (s : State) (i : Nat) (k : Word) : changesOnly [.sess, .calls] s (s.windowOpened i k) :=
  ((frame_called s _ k).trans (frame_setSes _ i _)).mono (by simp)

theorem startBusyWait_silent {i : Nat} {s : State} (h : s.silent (s.sesCfg i).timeoutBegin) (k : List Frame) :
    startBusyWait i k s = busyLoop i k (s.windowOpened i s.cfg.timeoutBusy) := openWindow_silent h _ _ _

theorem startWaitToken_silent {i : Nat} {s : State} (h : s.silent (s.sesCfg i).timeoutBegin) (k : List Frame) :
    startWaitToken i k s = tokenLoop i k (s.windowOpened i s.cfg.timeoutToken) := openWindow_silent h _ _ _

/-- Settles O44: each procedure asks for its first byte, the two waits once their window is open. -/
theorem proceduresBegin : Obligations.ProceduresBegin := by
  intro x w y index sh f v s hready i b opened
  have hplain : ∀ {j : Instr} {t : Byte} {k : List Frame}, exec j s = unclaimed i (askByte i t k) s →
      begins j s (.busy (.xchg b t) k) [] (fun _ => True) := fun hj =>
    begins_of_askByte (hj.trans (unclaimed_ready hready _)) (changesOnly_refl [] s) (by decide) rfl trivial
  refine ⟨hplain rfl, hplain rfl, hplain rfl, hplain rfl, hplain rfl, hplain rfl, fun hsilent => ?_⟩
  have hopened : ∀ {j : Instr} {start : State → Res Flow} {k : List Frame} (arg : Word),
      exec j s = unclaimed i start s → start s = askByte i 0xFF k (s.windowOpened i arg) →
      begins j s (.busy (.xchg b 0xFF) k) [.sess, .calls] (opened arg) := fun arg hj hstart =>
    begins_of_askByte (hj.trans ((unclaimed_ready hready _).trans (congrArg enterFlow hstart)))
      (frame_windowOpened s i arg) (by decide) rfl
      ⟨State.ses_setSes_self _ i _, fun j hj => State.ses_setSes_ne _ _ hj.symm, rfl⟩
  exact ⟨hopened _ rfl (startBusyWait_silent hsilent _), hopened _ rfl (startWaitToken_silent hsilent _)⟩

end Sys2Proof.Machine
end

section
/-! SUPPORT. Runs of FG inside an operation, one exchange a step: the frames sent so far and what the step hands back to
the frames FG returns to. -/

namespace Sys2Proof.Machine

/-! ## The frames sent -/

/-- From `s` to `t` FG sent the frames `sent` on bus `b` and left DEV with the answers `rest`: no part changed but FG's
place, the wire and DEV's queue of that bus and those of `ps`. -/
structure framesSent (b : Nat) (sent rest : List Byte) (ps : List Part) (s t : State) : Prop where
  prog : t.prog = s.prog
  isr : t.isr = s.isr
  wire : t.wireOf b = sent.reverse ++ s.wireOf b
  answers : t.answersOf b = rest
  others : ∀ b', b' ≠ b → t.wireOf b' = s.wireOf b' ∧ t.answersOf b' = s.answersOf b'
  frame : changesOnly ([.control, .wire, .answers] ++ ps) s t

section
variable {b : Nat} {sent rest : List Byte} {ps : List Part} {s t u : State}

theorem framesSent_refl (b : Nat) (s : State) : framesSent b [] (s.answersOf b) ps s s :=
  ⟨rfl, rfl, rfl, rfl, fun _ _ => ⟨rfl, rfl⟩, changesOnly_refl _ s⟩

theorem framesSent.trans {sent' rest' : List Byte} (h1 : framesSent b sent rest ps s t)
    (h2 : framesSent b sent' rest' ps t u) : framesSent b (sent ++ sent') rest' ps s u where
  prog := h2.prog.trans h1.prog
  isr := h2.isr.trans h1.isr
  wire := by rw [h2.wire, h1.wire, List.reverse_append, List.append_assoc]
  answers := h2.answers
  others b' hb := ⟨(h2.others b' hb).1.trans (h1.others b' hb).1, (h2.others b' hb).2.trans (h1.others b' hb).2⟩
  frame := h1.frame.then h2.frame

theorem framesSent.mono {qs : List Part} (h : framesSent b sent rest ps s t) (hq : ps ⊆ qs) :
    framesSent b sent rest qs s t :=
  have hparts := List.append_subset.mpr
    ⟨List.subset_append_left _ qs, List.Subset.trans hq (List.subset_append_right _ qs)⟩
  { h with frame := h.frame.mono hparts }

/-- A change of FG's place alone. -/
theorem framesSent.setFg (h : framesSent b sent rest ps s t) (f : Fg) : framesSent b sent rest ps s (t.setFg f) :=
  { h with frame := h.frame.then ((frame_setFg t f).mono (by simp)) }

theorem framesSent.of_setFg {f : Fg} (h : framesSent b sent rest ps (s.setFg f) t) : framesSent b sent rest ps s t :=
  { h with frame := ((frame_setFg s f).mono (by simp)).then h.frame }

theorem framesSent.setSes (h : framesSent b sent rest ps s t) (i : Nat) (v : Session) :
    framesSent b sent rest (.sess :: ps) s (t.setSes i v) :=
  have hmono : framesSent b sent rest (.sess :: ps) s t := h.mono (List.subset_cons_self _ _)
  { hmono with frame := hmono.frame.then ((frame_setSes t i v).mono (by simp)) }

/-- The same callback invoked before and after is recorded in both. -/
theorem changesOnly.called (h : changesOnly ps s t) (cb arg : Word) :
    changesOnly ps (s.called cb arg) (t.called cb arg) := by
  intro p hp
  have hsame := h p hp
  cases p with
  | calls => exact congrArg (callsAfter cb (.word arg)) hsame
  | _ => exact hsame

theorem framesSent.called (h : framesSent b sent rest ps s t) (cb arg : Word) :
    framesSent b sent rest ps (s.called cb arg) (t.called cb arg) :=
  ⟨h.prog, h.isr, h.wire, h.answers, h.others, h.frame.called cb arg⟩

theorem framesSent.cfg (h : framesSent b sent rest ps s t) (hp : .config ∉ ps := by decide) : t.cfg = s.cfg :=
  h.frame .config (by simpa using hp)

theorem framesSent.sesCfg (h : framesSent b sent rest ps s t) (i : Nat) (hp : .config ∉ ps := by decide) :
    t.sesCfg i = s.sesCfg i := by
  unfold State.sesCfg
  rw [h.cfg hp]

theorem framesSent.silent {cb : Word} (h : framesSent b sent rest ps s t) (hs : s.silent cb)
    (hp : .callbacks ∉ ps := by decide) : t.silent cb := by
  have hcall : t.callback cb.toNat = s.callback cb.toNat := (h.frame .callbacks (by simpa using hp)) _
  simpa only [State.silent, hcall] using hs

/-- The silent end callback of session `i` stays silent. -/
theorem framesSent.silentEnd {i : Nat} (h : framesSent b sent rest ps s t) (hs : s.silent (s.sesCfg i).timeoutEnd)
    (hc : .config ∉ ps := by decide) (hp : .callbacks ∉ ps := by decide) : t.silent (t.sesCfg i).timeoutEnd := by
  rw [h.sesCfg i hc]
  exact h.silent hs hp

/-- FG ends its operation in the state after the frames. -/
theorem framesSent.exchanged (h : framesSent b sent rest ps s t) (r : Result) :
    exchanged b sent rest ps s ((t.setRet r).setFg .idle) := by
  refine ⟨rfl, ?_, ?_, ?_, ?_, ?_, ?_⟩
  · exact (State.setRet_prog t r).trans h.prog
  · exact (State.setRet_isr t r).trans h.isr
  · exact (State.wireOf_setRet t r b).trans h.wire
  · exact (State.answersOf_setRet t r b).trans h.answers
  · exact fun b' hb => ⟨(State.wireOf_setRet t r b').trans (h.others b' hb).1,
      (State.answersOf_setRet t r b').trans (h.others b' hb).2⟩
  · exact (h.frame.mono (by intro p hp; simp at hp ⊢; tauto)).then
      (((frame_setRet t r).trans (frame_setFg _ _)).mono (by intro p hp; simp at hp ⊢; tauto))

theorem framesSent.ret (h : framesSent b sent rest ps s t) (hs : s.isr = false) (r : Result) :
    ((t.setRet r).setFg .idle).ret = r := State.setRet_ret t r (h.isr.trans hs)

/-- FG's step inside an operation that sent one frame. -/
theorem framesSent.sentByte {x : Byte} (h : framesSent b [x] rest ps s t) : sentByte b x rest s t :=
  ⟨h.wire, h.answers, h.others⟩

end

/-! ## Turns of FG at exchanges -/

/-- Session `i` of bus `b`, which is ready and idle, so that its exchanges go through. -/
structure State.wireFree (s : State) (i b : Nat) : Prop where
  bus : s.sesBus i = b
  ready : s.busReady b
  idle : s.busy b = false

theorem State.wireFree.setFg {s : State} {i b : Nat} (h : s.wireFree i b) (f : Fg) : (s.setFg f).wireFree i b :=
  ⟨h.bus, h.ready, h.idle⟩

/-- FG's next turns from `s`, one a frame, send the frames `sent` and end in `t`. -/
structure runsTo (b : Nat) (sent rest : List Byte) (s t : State) : Prop extends framesSent b sent rest [] s t where
  run : fgRun sent.length s = .next t

/-- FG's next turns from `s`, one a frame, send the frames `sent` and hand `v` back to the frames `k` in `t`. -/
structure handsBack (b : Nat) (sent rest : List Byte) (k : List Frame) (v : Ret) (s t : State) : Prop
    extends framesSent b sent rest [] s t where
  run : fgRun sent.length s = unwind k v t

theorem fgRun_one (s : State) : fgRun 1 s = fgTurn exec s := by
  rw [fgRun_succ]
  cases fgTurn exec s <;> rfl

section
variable {b i : Nat} {sent rest : List Byte} {k : List Frame} {v w : Ret} {s t u : State}

theorem framesSent.wireFree {ps : List Part} (h : framesSent b sent rest ps s t) (hw : s.wireFree i b)
    (hc : .config ∉ ps := by decide) (hb : .buses ∉ ps := by decide) : t.wireFree i b := by
  have hbus : ∀ n, t.bus n = s.bus n := h.frame .buses (by simpa using hb)
  refine ⟨?_, ⟨?_, ?_⟩, ?_⟩
  · rw [State.sesBus, h.sesCfg i hc]; exact hw.bus
  · rw [State.numBuses, h.cfg hc]; exact hw.ready.1
  · rw [hbus]; exact hw.ready.2
  · rw [State.busy, hbus]; exact hw.idle

theorem runsTo_refl (b : Nat) (s : State) : runsTo b [] (s.answersOf b) s s := ⟨framesSent_refl b s, rfl⟩

theorem runsTo.trans {sent' rest' : List Byte} (h1 : runsTo b sent rest s t) (h2 : runsTo b sent' rest' t u) :
    runsTo b (sent ++ sent') rest' s u where
  toframesSent := h1.toframesSent.trans h2.toframesSent
  run := by rw [List.length_append, fgRun_add, h1.run]; exact h2.run

theorem runsTo.handsBack {sent' rest' : List Byte} (h1 : runsTo b sent rest s t)
    (h2 : handsBack b sent' rest' k v t u) : handsBack b (sent ++ sent') rest' k v s u where
  toframesSent := h1.toframesSent.trans h2.toframesSent
  run := by rw [List.length_append, fgRun_add, h1.run]; exact h2.run

/-- One exchange hands DEV's answer back. -/
theorem handsBack_xchg {x r : Byte} (hf : s.fg = .busy (.xchg b x) k) (hw : s.wireFree i b)
    (ha : s.answersOf b = r :: rest) :
    handsBack b [x] rest k { code := .noError, byte := r, val := 0 } s ((s.send b x).setAnswers b rest) where
  prog := rfl
  isr := rfl
  wire := State.wireOf_send_self s b x
  answers := State.answersOf_setAnswers_self _ b rest
  others := (sentByte_exchanged s b x rest).2.2
  frame := ((frame_send s b x).trans (frame_setAnswers _ b rest)).mono (by simp)
  run := (fgRun_one s).trans (fgTurn_xchg hf hw.ready hw.idle ha)

/-- A frame that ends at once hands its own value on. -/
theorem handsBack.ret {f : Frame} (h : handsBack b sent rest (f :: k) v s t) (hr : resume f v t = .next (.ret w t)) :
    handsBack b sent rest k w s t :=
  { h with run := h.run.trans (unwind_ret hr) }

/-- A frame that asks for the next byte leaves FG about to send it. -/
theorem handsBack.ask {f : Frame} {x : Byte} {fs : List Frame} (h : handsBack b sent rest (f :: k) v s t)
    (hw : s.wireFree i b) (hr : resume f v t = askByte i x fs t) :
    runsTo b sent rest s (t.setFg (.busy (.xchg b x) (fs ++ k))) where
  toframesSent := h.toframesSent.setFg _
  run := by
    rw [h.run, unwind_wait hr, (h.toframesSent.wireFree hw).bus]

/-- An operation about to send its first byte ends with what its run hands back. -/
theorem handsBack.runOp {op : Instr} {f : Fg} {K : Finish} {n : Nat}
    (h : handsBack b sent rest [.finish K] v (s.setFg f) t) (hop : exec op s = .next (s.setFg f)) (hs : s.isr = false)
    (hn : sent.length = n) :
    ∃ u, runOp op n s = .next u ∧ exchanged b sent rest [] s u ∧ u.ret = finishResult K v := by
  refine ⟨_, ?_, h.of_setFg.exchanged _, h.of_setFg.ret hs _⟩
  rw [Machine.runOp, hop, ← hn]
  exact h.run.trans (unwind_finish K v t)

/-- FG ends its operation with result `r` from a state that differs from `s` in the parts `ps`. -/
theorem endedWith_setRet {ps : List Part} (hc : changesOnly ps s t) (hp : .control ∉ ps) (hs : s.isr = false)
    (r : Result) : endedWith r ps s ((t.setRet r).setFg .idle) := by
  obtain ⟨-, hprog, hisr⟩ : samePart .control s t := hc .control hp
  refine ⟨⟨rfl, ?_, ?_, ?_⟩, State.setRet_ret t r (hisr.trans hs)⟩
  · exact (State.setRet_prog t r).trans hprog
  · exact (State.setRet_isr t r).trans hisr
  · exact (hc.trans ((frame_setRet t r).trans (frame_setFg _ _))).mono (by intro p hp; simp at hp ⊢; tauto)

end

/-- A session that is ready on a bus that is not busy. -/
theorem State.sdReady.wireFree {s : State} {i : Nat} (h : s.sdReady i) (hb : s.busy (s.sesBus i) = false) :
    s.wireFree i (s.sesBus i) := ⟨rfl, h.2.2.2, hb⟩

end Sys2Proof.Machine
end

section
/-! SUPPORT. SDI.R1POLL (43_sd_framing.md R264). -/

namespace Sys2Proof.Machine

/-! ## One poll -/

theorem resume_r1Poll_reply {r : Byte} (hr : r.getLsbD 7 = false) (i n : Nat) (s : State) :
    resume (.r1Poll i n) { code := .noError, byte := r, val := 0 } s =
      .next (.ret { code := .noError, byte := r, val := 0 } s) := by
  simp only [resume, resumeR1Poll, hr, ne_eq, not_true_eq_false, if_true, if_false]

theorem resume_r1Poll_skip {v : Byte} (hv : v.getLsbD 7 = true) (i : Nat) {n : Nat} (hn : n < 8) (s : State) :
    resume (.r1Poll i n) { code := .noError, byte := v, val := 0 } s = askByte i 0xFF [.r1Poll i (n + 1)] s := by
  simp only [resume, resumeR1Poll, hv, hn, Config.r1PollBudget, Config.sdFiller, ne_eq, not_true_eq_false,
    Bool.true_eq_false, if_true, if_false]

theorem resume_r1Poll_last {v : Byte} (hv : v.getLsbD 7 = true) (i : Nat) (s : State) :
    resume (.r1Poll i 8) { code := .noError, byte := v, val := 0 } s =
      .next (.ret { code := .timeout, byte := 0xFF, val := 0 } s) := by
  simp only [resume, resumeR1Poll, hv, Config.r1PollBudget, Nat.lt_irrefl, ne_eq, not_true_eq_false,
    Bool.true_eq_false, if_false]

/-! ## The poll -/

section
variable {b i n : Nat} {skip rest : List Byte} {r : Byte} {k : List Frame} {s : State}

/-- The bytes with bit 7 set that the budget covers are skipped, a filler sent for each. -/
theorem r1Poll_skips (hw : s.wireFree i b) (hf : s.fg = .busy (.xchg b 0xFF) (.r1Poll i n :: k))
    (hskip : ∀ v ∈ skip, v.getLsbD 7 = true) (hn : n + skip.length ≤ 8) (ha : s.answersOf b = skip ++ rest) :
    ∃ t, runsTo b (List.replicate skip.length 0xFF) rest s t
      ∧ t.fg = .busy (.xchg b 0xFF) (.r1Poll i (n + skip.length) :: k) := by
  induction skip generalizing n s with
  | nil => exact ⟨s, (show s.answersOf b = rest from ha) ▸ runsTo_refl b s, hf⟩
  | cons v skip ih =>
    rw [List.length_cons] at hn
    have hstep := handsBack_xchg hf hw ha
    have hrun := hstep.ask hw (resume_r1Poll_skip (hskip v List.mem_cons_self) i (by omega) _)
    obtain ⟨t, ht, hfg⟩ := ih (hrun.toframesSent.wireFree hw) rfl (fun w hmem => hskip w (List.mem_cons_of_mem v hmem))
      (by omega) hrun.answers
    refine ⟨t, hrun.trans ht, hfg.trans ?_⟩
    rw [List.length_cons, Nat.add_right_comm, Nat.add_assoc]

/-- The first byte with bit 7 clear is R1. -/
theorem r1Poll_replies (hw : s.wireFree i b) (hf : s.fg = .busy (.xchg b 0xFF) (.r1Poll i 1 :: k))
    (hskip : ∀ v ∈ skip, v.getLsbD 7 = true) (hlen : skip.length < 8) (hr : r.getLsbD 7 = false)
    (ha : s.answersOf b = skip ++ r :: rest) :
    ∃ t, handsBack b (List.replicate (skip.length + 1) 0xFF) rest k { code := .noError, byte := r, val := 0 } s t := by
  obtain ⟨t, ht, hfg⟩ := r1Poll_skips hw hf hskip (by omega) ha
  have hlast := handsBack_xchg hfg (ht.toframesSent.wireFree hw) ht.answers
  rw [List.replicate_succ']
  exact ⟨_, ht.handsBack (hlast.ret (resume_r1Poll_reply hr _ _ _))⟩

/-- The eighth byte with bit 7 set ends the poll. -/
theorem r1Poll_expires (hw : s.wireFree i b) (hf : s.fg = .busy (.xchg b 0xFF) (.r1Poll i 1 :: k))
    (hskip : ∀ v ∈ skip, v.getLsbD 7 = true) (hlen : skip.length = 8) (ha : s.answersOf b = skip ++ rest) :
    ∃ t, handsBack b (List.replicate 8 0xFF) rest k { code := .timeout, byte := 0xFF, val := 0 } s t := by
  obtain ⟨first, last, rfl⟩ : ∃ first last, skip = first ++ [last] :=
    ⟨_, _, (List.dropLast_concat_getLast (List.ne_nil_of_length_eq_add_one hlen)).symm⟩
  have hfirst : first.length = 7 := by simpa using hlen
  obtain ⟨t, ht, hfg⟩ := r1Poll_skips (skip := first) (rest := last :: rest) hw hf
    (fun v hv => hskip v (List.mem_append_left _ hv)) (by omega) (by simpa using ha)
  rw [hfirst] at ht hfg
  have hlast := handsBack_xchg hfg (ht.toframesSent.wireFree hw) ht.answers
  exact ⟨_, ht.handsBack (hlast.ret (resume_r1Poll_last (hskip last (by simp)) i _))⟩

end

theorem exec_sdiR1Poll {x : Word} {s : State} (h : s.sdReady x.toNat) :
    exec (.sdiR1Poll x) s =
      .next (s.setFg (.busy (.xchg (s.sesBus x.toNat) 0xFF) [.r1Poll x.toNat 1, .finish .codeByte])) :=
  unclaimed_ready h _

/-- Settles O45: the skipped bytes (`r1Poll_skips`), then the reply, the eighth of them, or the busy bus. -/
theorem r1PollReplies : Obligations.R1PollReplies := by
  intro x skip rest r n s hready b
  refine ⟨fun hb hskip => ?_, fun hb hfg => ?_⟩
  · let f : Fg := .busy (.xchg b 0xFF) [.r1Poll x.toNat 1, .finish .codeByte]
    have hw : (s.setFg f).wireFree x.toNat b := (hready.wireFree hb).setFg f
    refine ⟨fun hlen hr ha => ?_, fun hlen ha => ?_⟩
    · obtain ⟨t, ht⟩ := r1Poll_replies hw rfl hskip hlen hr ha
      exact ht.runOp (exec_sdiR1Poll hready) hready.2.1 (List.length_replicate ..)
    · obtain ⟨t, ht⟩ := r1Poll_expires hw rfl hskip hlen ha
      exact ht.runOp (exec_sdiR1Poll hready) hready.2.1 (List.length_replicate ..)
  · have hturn := (fgTurn_xchg_busy hfg hready.2.2.2 hb).trans ((unwind_ret rfl).trans (unwind_finish _ _ s.bumpDraws))
    exact ⟨_, _, hturn, endedWith_setRet (frame_bumpDraws s) (by decide) hready.2.1 _⟩

end Sys2Proof.Machine
end

section
/-! SUPPORT. SDI.CMD (43_sd_framing.md R265 to R270): the frame, the stuff byte of command 12, R1 and the tail of its
shape, each byte one step. -/

namespace Sys2Proof.Machine

variable {b i n : Nat} {index : BitVec 6} {arg : Word} {sh : Shape} {ai : Bool} {k : List Frame} {s : State}
  {rest : List Byte} {r1 : Byte}

/-! ## The frame and the stuff byte -/

theorem resume_cmdSend_more (hn : n < 5) (r : Byte) (s : State) :
    resume (.cmdSend i index arg sh ai n) { code := .noError, byte := r, val := 0 } s =
      askByte i (frameByte index arg (n + 1)) [.cmdSend i index arg sh ai (n + 1)] s := by
  simp only [resume, resumeCmdSend, hn, ne_eq, not_true_eq_false, if_true, if_false]

theorem resume_cmdSend_stuff (r : Byte) (s : State) :
    resume (.cmdSend i 12 arg sh ai 5) { code := .noError, byte := r, val := 0 } s =
      askByte i 0xFF [.cmdStuff i sh ai] s := rfl

theorem resume_cmdSend_poll (h : index ≠ 12) (r : Byte) (s : State) :
    resume (.cmdSend i index arg sh ai 5) { code := .noError, byte := r, val := 0 } s =
      askByte i 0xFF [.r1Poll i 1, .cmdR1 i sh ai] s := by
  simp only [resume, resumeCmdSend, h, Nat.lt_irrefl, ne_eq, not_true_eq_false, if_false]
  rfl

theorem resume_cmdStuff (r : Byte) (s : State) :
    resume (.cmdStuff i sh ai) { code := .noError, byte := r, val := 0 } s =
      askByte i 0xFF [.r1Poll i 1, .cmdR1 i sh ai] s := rfl

/-- The bytes of the frame go out in order. -/
theorem cmdSend_sends {ignored : List Byte} (hw : s.wireFree i b)
    (hf : s.fg = .busy (.xchg b (frameByte index arg n)) (.cmdSend i index arg sh ai n :: k))
    (hn : n + ignored.length ≤ 5) (ha : s.answersOf b = ignored ++ rest) :
    ∃ t, runsTo b (((commandFrame index arg).drop n).take ignored.length) rest s t
      ∧ t.fg = .busy (.xchg b (frameByte index arg (n + ignored.length)))
        (.cmdSend i index arg sh ai (n + ignored.length) :: k) := by
  induction ignored generalizing n s with
  | nil => exact ⟨s, (show s.answersOf b = rest from ha) ▸ runsTo_refl b s, hf⟩
  | cons v ignored ih =>
    rw [List.length_cons] at hn
    have hrun := (handsBack_xchg hf hw ha).ask hw (resume_cmdSend_more (by omega) v _)
    obtain ⟨t, ht, hfg⟩ := ih (hrun.toframesSent.wireFree hw) rfl (by omega) hrun.answers
    have hframe : ((commandFrame index arg).drop n).take (v :: ignored).length =
        [frameByte index arg n] ++ ((commandFrame index arg).drop (n + 1)).take ignored.length := by
      have hlen : n < (commandFrame index arg).length := by
        rw [show (commandFrame index arg).length = 6 from rfl]; omega
      rw [List.drop_eq_getElem_cons hlen, List.length_cons, List.take_succ_cons, frameByte,
        List.getD_eq_getElem _ _ hlen]
      rfl
    refine ⟨t, hframe ▸ hrun.trans ht, hfg.trans ?_⟩
    rw [List.length_cons, Nat.add_right_comm, Nat.add_assoc]

/-- The bytes of SDI.CMD before the R1 poll: the frame, and a stuff byte for command 12. -/
def cmdBytes (index : BitVec 6) (arg : Word) : List Byte :=
  commandFrame index arg ++ List.replicate (if index = 12 then 1 else 0) 0xFF

theorem cmdBytes_length (index : BitVec 6) (arg : Word) :
    (cmdBytes index arg).length = 6 + (if index = 12 then 1 else 0) := by
  rw [cmdBytes, List.length_append, List.length_replicate]; rfl

/-- FG comes to the R1 poll after the bytes before it. -/
theorem cmd_polls {ignored : List Byte} (hw : s.wireFree i b)
    (hf : s.fg = .busy (.xchg b (frameByte index arg 0)) (.cmdSend i index arg sh ai 0 :: k))
    (hlen : ignored.length = (cmdBytes index arg).length) (ha : s.answersOf b = ignored ++ rest) :
    ∃ t, runsTo b (cmdBytes index arg) rest s t
      ∧ t.fg = .busy (.xchg b 0xFF) (.r1Poll i 1 :: .cmdR1 i sh ai :: k) := by
  rw [cmdBytes_length] at hlen
  have htake : (ignored.take 5).length = 5 := by rw [List.length_take]; omega
  have hsplit : ignored.take 5 ++ ignored.drop 5 = ignored := List.take_append_drop 5 ignored
  obtain ⟨t, ht, hfg⟩ := cmdSend_sends (ignored := ignored.take 5) (rest := ignored.drop 5 ++ rest) hw hf (by omega)
    (by rw [ha, ← List.append_assoc, hsplit])
  rw [htake, Nat.zero_add] at hfg
  rw [htake] at ht
  have hwt := ht.toframesSent.wireFree hw
  by_cases h12 : index = 12
  · subst h12
    obtain ⟨v, w, hdrop⟩ : ∃ v w, ignored.drop 5 = [v, w] :=
      List.length_eq_two.mp (by rw [List.length_drop, hlen]; rfl)
    rw [hdrop] at ht
    have hstuff := (handsBack_xchg hfg hwt ht.answers).ask hwt (resume_cmdSend_stuff v _)
    have hpoll := (handsBack_xchg rfl (hstuff.toframesSent.wireFree hwt) hstuff.answers).ask
      (hstuff.toframesSent.wireFree hwt) (resume_cmdStuff w _)
    exact ⟨_, (ht.trans hstuff).trans hpoll, rfl⟩
  · obtain ⟨v, hdrop⟩ : ∃ v, ignored.drop 5 = [v] :=
      List.length_eq_one_iff.mp (by rw [List.length_drop, hlen, if_neg h12])
    rw [hdrop] at ht
    have hpoll := (handsBack_xchg hfg hwt ht.answers).ask hwt (resume_cmdSend_poll h12 v _)
    have hbytes : cmdBytes index arg = (commandFrame index arg).take 5 ++ [frameByte index arg 5] := by
      rw [cmdBytes, if_neg h12, List.replicate_zero, List.append_nil]; rfl
    exact ⟨_, hbytes ▸ ht.trans hpoll, rfl⟩

/-! ## The tail of each shape -/

theorem resume_cmdR1_done (h : r1 &&& 0x7E ≠ 0 ∨ sh = .r1) (s : State) :
    resume (.cmdR1 i sh ai) { code := .noError, byte := r1, val := 0 } s =
      .next (.ret { code := decodeStatus r1 0 ai, byte := r1, val := 0 } s) := by
  by_cases hflag : r1 &&& 0x7E = 0
  · obtain rfl : sh = .r1 := h.resolve_left (not_not_intro hflag)
    simp only [resume, resumeCmdR1, hflag, ne_eq, not_true_eq_false, if_false]
  · simp only [resume, resumeCmdR1, hflag, ne_eq, not_true_eq_false, not_false_eq_true, if_true, if_false]

theorem resume_cmdR1_status (h : r1 &&& 0x7E = 0) (s : State) :
    resume (.cmdR1 i .r2 ai) { code := .noError, byte := r1, val := 0 } s = askByte i 0xFF [.cmdStatus r1 ai] s := by
  simp only [resume, resumeCmdR1, h, ne_eq, not_true_eq_false, if_false, Config.sdFiller]

theorem resume_cmdR1_payload (h : r1 &&& 0x7E = 0) (hsh : sh = .r3 ∨ sh = .r7) (s : State) :
    resume (.cmdR1 i sh ai) { code := .noError, byte := r1, val := 0 } s =
      askByte i 0xFF [.cmdPayload i r1 ai []] s := by
  rcases hsh with rfl | rfl <;>
    simp only [resume, resumeCmdR1, h, ne_eq, not_true_eq_false, if_false, Config.sdFiller]

theorem resume_cmdStatus (st : Byte) (s : State) :
    resume (.cmdStatus r1 ai) { code := .noError, byte := st, val := 0 } s =
      .next (.ret { code := decodeStatus r1 st ai, byte := r1, val := st.setWidth 32 } s) := rfl

theorem resume_cmdPayload_more {got : List Byte} (h : got.length < 3) (p : Byte) (s : State) :
    resume (.cmdPayload i r1 ai got) { code := .noError, byte := p, val := 0 } s =
      askByte i 0xFF [.cmdPayload i r1 ai (got ++ [p])] s := by
  simp only [resume, resumeCmdPayload, h, ne_eq, not_true_eq_false, if_true, if_false, Config.sdFiller]

theorem resume_cmdPayload_last {got : List Byte} (h : got.length = 3) (p : Byte) (s : State) :
    resume (.cmdPayload i r1 ai got) { code := .noError, byte := p, val := 0 } s =
      .next (.ret { code := decodeStatus r1 0 ai, byte := r1, val := payloadWord (got ++ [p]) } s) := by
  simp only [resume, resumeCmdPayload, h, Nat.lt_irrefl, ne_eq, not_true_eq_false, if_false]

/-- One more byte of a payload stands below the ones before it. -/
theorem setWidth_append_byte {w : Nat} (x : BitVec w) (v : Byte) :
    (x.setWidth 32 <<< 8) ||| v.setWidth 32 = (x ++ v).setWidth 32 := by
  refine BitVec.eq_of_getLsbD_eq fun j hj => ?_
  rw [BitVec.getLsbD_or, BitVec.getLsbD_shiftLeft, BitVec.getLsbD_setWidth, BitVec.getLsbD_setWidth,
    BitVec.getLsbD_setWidth, BitVec.getLsbD_append]
  rcases Nat.lt_or_ge j 8 with hlow | hhigh
  · simp [hlow, hj]
  · simp [Nat.not_lt.mpr hhigh, hj, BitVec.getLsbD_of_ge v j hhigh, show j - 8 < 32 by omega]

theorem payloadWord_eq (p0 p1 p2 p3 : Byte) : payloadWord [p0, p1, p2, p3] = p0 ++ p1 ++ p2 ++ p3 := by
  have hfirst : ((0 : Word) <<< 8) ||| p0.setWidth 32 = p0.setWidth 32 := by simp
  simp only [payloadWord, List.foldl_cons, List.foldl_nil, hfirst, setWidth_append_byte, BitVec.setWidth_eq]

/-- The payload bytes are read one a step. -/
theorem cmdPayload_reads {got tail : List Byte} (hw : s.wireFree i b)
    (hf : s.fg = .busy (.xchg b 0xFF) (.cmdPayload i r1 ai got :: k)) (hne : tail ≠ [])
    (hlen : got.length + tail.length = 4) (ha : s.answersOf b = tail ++ rest) :
    ∃ t, handsBack b (List.replicate tail.length 0xFF) rest k
      { code := decodeStatus r1 0 ai, byte := r1, val := payloadWord (got ++ tail) } s t := by
  induction tail generalizing got s with
  | nil => exact absurd rfl hne
  | cons p tail ih =>
    have hread := handsBack_xchg hf hw ha
    rw [List.length_cons] at hlen
    rcases eq_or_ne tail [] with rfl | htail
    · exact ⟨_, hread.ret (resume_cmdPayload_last (by simpa using hlen) p _)⟩
    · have hpos : 0 < tail.length := List.length_pos_iff.mpr htail
      have hrun := hread.ask hw (resume_cmdPayload_more (by omega) p _)
      obtain ⟨t, ht⟩ := ih (hrun.toframesSent.wireFree hw) rfl htail (by simp; omega) hrun.answers
      rw [List.append_assoc, List.singleton_append] at ht
      exact ⟨t, hrun.handsBack ht⟩

/-- The reply's code, payload and bytes after R1, for each shape but a busy wait (43_sd_framing.md R265 to R270). -/
def repliesWith (sh : Shape) (ai : Bool) (r1 : Byte) (tail : List Byte) (c : Code) (payload : Word) : Prop :=
  (r1 &&& 0x7E ≠ 0 ∨ sh = .r1) ∧ tail = [] ∧ c = decodeStatus r1 0 ai ∧ payload = 0
    ∨ r1 &&& 0x7E = 0 ∧ sh = .r2
      ∧ (∃ st : Byte, tail = [st] ∧ c = decodeStatus r1 st ai ∧ payload = st.setWidth 32)
    ∨ r1 &&& 0x7E = 0 ∧ (sh = .r3 ∨ sh = .r7)
      ∧ (∃ p0 p1 p2 p3 : Byte, tail = [p0, p1, p2, p3] ∧ c = decodeStatus r1 0 ai ∧ payload = p0 ++ p1 ++ p2 ++ p3)

/-- After R1, FG reads the tail and hands the reply back. -/
theorem cmd_replies {sent tail : List Byte} {c : Code} {payload : Word} {t : State} (hw : s.wireFree i b)
    (h : handsBack b sent (tail ++ rest) (.cmdR1 i sh ai :: k) { code := .noError, byte := r1, val := 0 } s t)
    (hreply : repliesWith sh ai r1 tail c payload) :
    ∃ u, handsBack b (sent ++ List.replicate tail.length 0xFF) rest k { code := c, byte := r1, val := payload }
      s u := by
  rcases hreply with ⟨hdone, rfl, rfl, rfl⟩ | ⟨hclear, rfl, st, rfl, rfl, rfl⟩ |
    ⟨hclear, hsh, p0, p1, p2, p3, rfl, rfl, rfl⟩
  · exact ⟨t, (List.append_nil sent).symm ▸ h.ret (resume_cmdR1_done hdone t)⟩
  · have hrun := h.ask hw (resume_cmdR1_status hclear t)
    have hread := handsBack_xchg rfl (hrun.toframesSent.wireFree hw) hrun.answers
    exact ⟨_, hrun.handsBack (hread.ret (resume_cmdStatus st _))⟩
  · have hrun := h.ask hw (resume_cmdR1_payload hclear hsh t)
    obtain ⟨u, hu⟩ := cmdPayload_reads (hrun.toframesSent.wireFree hw) rfl (List.cons_ne_nil _ _) rfl hrun.answers
    exact ⟨u, payloadWord_eq p0 p1 p2 p3 ▸ hrun.handsBack hu⟩

/-! ## The operation -/

theorem exec_sdiCmd {x : Word} (h : s.sdReady x.toNat) :
    exec (.sdiCmd x index arg sh ai) s =
      .next (s.setFg (.busy (.xchg (s.sesBus x.toNat) (frameByte index arg 0))
        [.cmdSend x.toNat index arg sh ai 0, .finish .reply])) :=
  unclaimed_ready h _

theorem resume_cmdR1_timeout (s : State) :
    resume (.cmdR1 i sh ai) { code := .timeout, byte := 0xFF, val := 0 } s =
      .next (.ret { code := .timeout, byte := 0xFF, val := 0 } s) := rfl

/-- A frame of SDI.CMD whose exchange a busy bus refused ends the command, R1 and the payload free. -/
theorem cmd_endsBusy {x : Byte} {f : Frame} (hready : s.busReady b) (hs : s.isr = false) (hb : s.busy b = true)
    (hf : s.fg = .busy (.xchg b x) [f, .finish .reply])
    (hr : resume f { code := .busy, byte := 0, val := 0 } s = endFreeReply .busy s) :
    ∃ t r w, agentStep exec .fg s = .next t ∧ endedWith (.reply .busy r w) [.draws] s t := by
  have hdraws : changesOnly [.draws] s s.drawByte.2.drawWord.2 := (frame_bumpDraws s).then (frame_bumpDraws _)
  have hturn := (fgTurn_xchg_busy hf hready hb).trans ((unwind_ret hr).trans (unwind_finish _ _ _))
  exact ⟨_, _, _, hturn, endedWith_setRet hdraws (by decide) hs _⟩

/-- Settles O46: the frame (`cmd_polls`), R1 (`r1Poll_replies`, `r1Poll_expires`) and the tail (`cmd_replies`). -/
theorem commandReplies : Obligations.CommandReplies := by
  intro x arg payload index sh ai c r1 ignored skip tail rest s hready i b
  refine ⟨fun hb hlen hskip => ?_, fun hb y n => ⟨fun f hf hfg => ?_, fun hfg => ?_⟩⟩
  · rw [← cmdBytes_length index arg] at hlen
    have hw := (hready.wireFree hb).setFg
      (.busy (.xchg b (frameByte index arg 0)) [.cmdSend i index arg sh ai 0, .finish .reply])
    have hsent : ∀ n, commandFrame index arg ++ List.replicate (ignored.length - 6 + n) 0xFF =
        cmdBytes index arg ++ List.replicate n 0xFF := fun n => by
      rw [hlen, cmdBytes_length, Nat.add_sub_cancel_left, List.replicate_add, cmdBytes, List.append_assoc]
    refine ⟨fun hshort hr ha hreply => ?_, fun hlong ha => ?_⟩
    · obtain ⟨t, ht, hfg⟩ := cmd_polls hw rfl hlen ha
      obtain ⟨u, hu⟩ := r1Poll_replies (ht.toframesSent.wireFree hw) hfg hskip hshort hr ht.answers
      obtain ⟨v, hv⟩ := cmd_replies hw (ht.handsBack hu) hreply
      rw [Nat.add_assoc (ignored.length - 6), Nat.add_assoc (ignored.length - 6), hsent, List.replicate_add,
        ← List.append_assoc]
      exact hv.runOp (exec_sdiCmd hready) hready.2.1 (by simp [hlen, Nat.add_assoc])
    · obtain ⟨t, ht, hfg⟩ := cmd_polls hw rfl hlen ha
      obtain ⟨u, hu⟩ := r1Poll_expires (ht.toframesSent.wireFree hw) hfg hskip hlong ht.answers
      rw [hsent]
      exact ((ht.handsBack hu).ret (resume_cmdR1_timeout u)).runOp (exec_sdiCmd hready) hready.2.1 (by simp [hlen])
  · simp only [List.mem_cons, List.not_mem_nil, or_false] at hf
    refine cmd_endsBusy hready.2.2.2 hready.2.1 hb hfg ?_
    rcases hf with rfl | rfl | rfl | rfl <;> rfl
  · have hturn := (fgTurn_xchg_busy hfg hready.2.2.2 hb).trans
      ((unwind_ret rfl).trans ((unwind_ret rfl).trans (unwind_finish _ _ s.bumpDraws)))
    exact ⟨_, _, hturn, endedWith_setRet (frame_bumpDraws s) (by decide) hready.2.1 _⟩

end Sys2Proof.Machine
end

section
/-! SUPPORT. The busy wait (43_sd_framing.md R267, R271; 44_sd_protocol.md R311): its polls, and the close of its
window. -/

namespace Sys2Proof.Machine

variable {b i : Nat} {low sent rest : List Byte} {r : Byte} {k : List Frame} {s t : State}

/-! ## One poll -/

theorem resume_busyPoll_again (h : (t.ses i).expired = false) (hr : r ≠ 0xFF) :
    resume (.busyPoll i) { code := .noError, byte := r, val := 0 } t = askByte i 0xFF [.busyPoll i] t := by
  simp only [resume, resumeBusyPoll, h, hr, ne_eq, not_true_eq_false, if_false, Bool.false_eq_true]
  rfl

/-- The code a busy wait ends with at a poll's outcome, where the poll ends it. -/
def busyWaitCode (v : Ret) : Code :=
  if v.code ≠ .noError then v.code else if v.byte = 0xFF then .noError else .timeout

theorem resume_busyPoll_end {v : Ret} (h : v.code ≠ .noError ∨ v.byte = 0xFF ∨ (t.ses i).expired = true)
    (hs : t.silent (t.sesCfg i).timeoutEnd) :
    resume (.busyPoll i) v t = .next (.ret (.ofCode (busyWaitCode v)) (shutWindow i (t.endCalled i))) := by
  have hclose : ∀ c, closeAndEnd i c t = .next (.ret (.ofCode c) (shutWindow i (t.endCalled i))) := fun c =>
    closeWindow_silent hs _ _ _
  simp only [resume, resumeBusyPoll, busyWaitCode]
  split
  · exact hclose _
  · next hcode =>
    split
    · exact hclose _
    · next hbyte =>
      rw [if_pos ((h.resolve_left hcode).resolve_left hbyte)]
      exact hclose _

/-! ## The polls -/

/-- The wait polls on at every byte that is not 0xFF while its window has not expired. -/
theorem busyPoll_skips (hw : s.wireFree i b) (hf : s.fg = .busy (.xchg b 0xFF) (.busyPoll i :: k))
    (hexp : (s.ses i).expired = false) (hlow : ∀ v ∈ low, v ≠ 0xFF) (ha : s.answersOf b = low ++ rest) :
    ∃ t, runsTo b (List.replicate low.length 0xFF) rest s t ∧ t.fg = .busy (.xchg b 0xFF) (.busyPoll i :: k) := by
  induction low generalizing s with
  | nil => exact ⟨s, (show s.answersOf b = rest from ha) ▸ runsTo_refl b s, hf⟩
  | cons v low ih =>
    have hrun := (handsBack_xchg hf hw ha).ask hw (resume_busyPoll_again (r := v) hexp (hlow v List.mem_cons_self))
    obtain ⟨t, ht, hfg⟩ := ih (hrun.toframesSent.wireFree hw) rfl hexp
      (fun w hmem => hlow w (List.mem_cons_of_mem v hmem)) hrun.answers
    exact ⟨t, hrun.trans ht, hfg⟩

/-- The close of session `i`'s window after its silent end callback. -/
theorem framesSent.closed (h : framesSent b sent rest [.sess] s t) (i : Nat) :
    framesSent b sent rest [.sess] (s.endCalled i) (shutWindow i (t.endCalled i)) := by
  have hcall : framesSent b sent rest [.sess] (s.endCalled i) (t.endCalled i) := by
    rw [State.endCalled, State.endCalled, h.sesCfg i]
    exact h.called _ _
  exact (hcall.setSes i _).mono (by simp)

/-- A wait whose window is open ends at the first 0xFF, the window closed. -/
theorem busyPoll_ends (hw : s.wireFree i b) (hf : s.fg = .busy (.xchg b 0xFF) (.busyPoll i :: k))
    (hexp : (s.ses i).expired = false) (hlow : ∀ v ∈ low, v ≠ 0xFF) (hs : s.silent (s.sesCfg i).timeoutEnd)
    (ha : s.answersOf b = low ++ 0xFF :: rest) :
    ∃ t, framesSent b (List.replicate (low.length + 1) 0xFF) rest [] s t
      ∧ fgRun (low.length + 1) s = unwind k (.ofCode .noError) (shutWindow i (t.endCalled i)) := by
  obtain ⟨t, ht, hfg⟩ := busyPoll_skips hw hf hexp hlow ha
  have hlast := ht.handsBack (handsBack_xchg hfg (ht.toframesSent.wireFree hw) ht.answers)
  rw [← List.replicate_succ'] at hlast
  refine ⟨_, hlast.toframesSent, ?_⟩
  rw [← List.length_replicate (n := low.length + 1) (a := (0xFF : Byte)), hlast.run]
  exact unwind_ret (resume_busyPoll_end (.inr (.inl rfl)) (hlast.toframesSent.silentEnd hs))

/-! ## The window around them -/

theorem framesSent.opened (h : framesSent b sent rest [] s t) (i : Nat) (arg : Word) :
    framesSent b sent rest [.sess] (s.beginCalled i arg) (t.windowOpened i arg) := by
  rw [State.windowOpened, State.beginCalled, State.beginCalled, h.sesCfg i]
  exact (h.called _ _).setSes i _

/-- FG at the first poll of a busy wait whose window it opened after sending `sent`: the wait ends at the first 0xFF with
the window closed, and the frames `k` end the operation with `res`. -/
theorem busyWait_ends {arg : Word} {res : Result} (h : framesSent b sent (low ++ 0xFF :: rest) [] s t)
    (hw : s.wireFree i b) (hisr : s.isr = false) (hlow : ∀ v ∈ low, v ≠ 0xFF)
    (hs : s.silent (s.sesCfg i).timeoutEnd)
    (hk : ∀ u, unwind k (.ofCode .noError) u = .next ((u.setRet res).setFg .idle)) :
    ∃ u, fgRun (low.length + 1) ((t.windowOpened i arg).setFg (.busy (.xchg b 0xFF) (.busyPoll i :: k))) = .next u
      ∧ exchanged b (sent ++ List.replicate (low.length + 1) 0xFF) rest [.sess] ((s.beginCalled i arg).endCalled i) u
      ∧ u.ret = res ∧ u.ses i = { s.ses i with expired := false, winOpen := false }
      ∧ ∀ j, j ≠ i → u.ses j = s.ses j := by
  have hopened := (h.opened i arg).setFg (.busy (.xchg b 0xFF) (.busyPoll i :: k))
  have hses : ∀ j, t.ses j = s.ses j := h.frame .sess (by decide)
  have hself : (t.windowOpened i arg).ses i = { s.ses i with expired := false, winOpen := true } := by
    rw [State.windowOpened, State.ses_setSes_self, hses]
  have hother : ∀ j, j ≠ i → (t.windowOpened i arg).ses j = s.ses j := fun j hj =>
    (State.ses_setSes_ne _ _ hj.symm).trans (hses j)
  obtain ⟨u, hu, hrun⟩ := busyPoll_ends (hopened.wireFree (s := s.beginCalled i arg) ⟨hw.bus, hw.ready, hw.idle⟩) rfl
    (congrArg Session.expired hself) hlow (hopened.silentEnd (s := s.beginCalled i arg) hs) hopened.answers
  have hkept : ∀ j, u.ses j = (t.windowOpened i arg).ses j := hu.frame .sess (by decide)
  have hclosed := (hopened.trans (hu.mono (List.nil_subset _))).closed i
  refine ⟨_, hrun.trans (hk _), hclosed.exchanged res, hclosed.ret hisr res, ?_, fun j hj => ?_⟩
  · rw [State.ses_setFg, State.ses_setRet, shutWindow, State.ses_setSes_self, ses_endCalled, hkept, hself]
  · rw [State.ses_setFg, State.ses_setRet, shutWindow, State.ses_setSes_ne _ _ hj.symm, ses_endCalled, hkept,
      hother j hj]

/-! ## The operations -/

theorem exec_sdiBusyWait {x : Word} (h : s.sdReady x.toNat) (hs : s.silent (s.sesCfg x.toNat).timeoutBegin) :
    exec (.sdiBusyWait x) s = .next ((s.windowOpened x.toNat s.cfg.timeoutBusy).setFg
      (.busy (.xchg (s.sesBus x.toNat) 0xFF) [.busyPoll x.toNat, .finish .code])) :=
  (unclaimed_ready h _).trans (congrArg enterFlow (startBusyWait_silent hs _))

/-- SDI.CMD of shape R1b opens its busy wait after R1. -/
theorem handsBack.opensBusyWait {r1 : Byte} {ai : Bool}
    (h : handsBack b sent rest (.cmdR1 i .r1b ai :: k) { code := .noError, byte := r1, val := 0 } s t)
    (hw : s.wireFree i b) (hflags : r1 &&& 0x7E = 0) (hs : s.silent (s.sesCfg i).timeoutBegin) :
    fgRun sent.length s = .next ((t.windowOpened i s.cfg.timeoutBusy).setFg
      (.busy (.xchg b 0xFF) (.busyPoll i :: .cmdBusy r1 ai :: k))) := by
  have hsilent : t.silent (t.sesCfg i).timeoutBegin := by
    rw [h.toframesSent.sesCfg i]
    exact h.toframesSent.silent hs
  have hopen : resume (.cmdR1 i .r1b ai) { code := .noError, byte := r1, val := 0 } t =
      busyLoop i [.cmdBusy r1 ai] (t.windowOpened i t.cfg.timeoutBusy) := by
    simp only [resume, resumeCmdR1, hflags, ne_eq, not_true_eq_false, if_false]
    exact startBusyWait_silent hsilent _
  rw [h.run, unwind_wait hopen, h.toframesSent.cfg, ← hw.bus, State.sesBus, State.sesBus, ← h.toframesSent.sesCfg i]
  rfl

theorem resume_cmdBusy (r1 : Byte) (ai : Bool) (s : State) :
    resume (.cmdBusy r1 ai) (.ofCode .noError) s =
      .next (.ret { code := decodeStatus r1 0 ai, byte := r1, val := 0 } s) := by
  have hfirst : firstCode (decodeStatus r1 0 ai) .noError = decodeStatus r1 0 ai := by
    unfold firstCode
    split
    · next h => exact h.symm
    · rfl
  simp only [resume, Ret.ofCode, hfirst]

/-- Settles O47: the wait from its opened window (`busyWait_ends`), then one poll that ends it or goes on. -/
theorem busyWaitEnds : Obligations.BusyWaitEnds := by
  intro x low rest s hready i S b begun poll shut
  refine ⟨fun hb => ?_, fun hb hfg hend => ?_⟩
  · have hw : s.wireFree i b := hready.wireFree hb
    refine ⟨fun hbegin hend hlow => ⟨fun ha => ?_, fun r1 ai hfg hr hflags ha => ?_⟩, fun r hfg hend ha hr => ?_,
      fun r hfg hexp hr ha => ?_⟩
    · obtain ⟨u, hrun, hu⟩ := busyWait_ends (sent := []) (arg := s.cfg.timeoutBusy) (k := [.finish .code])
        (ha ▸ framesSent_refl b s) hw hready.2.1 hlow hend (unwind_finish .code _)
      exact ⟨u, (congrArg (andThen · (fgRun _)) (exec_sdiBusyWait hready hbegin)).trans hrun, hu⟩
    · have hreply := (handsBack_xchg hfg hw ha).ret (resume_r1Poll_reply hr i 1 _)
      obtain ⟨u, hrun, hu⟩ := busyWait_ends (arg := s.cfg.timeoutBusy) (k := [.cmdBusy r1 ai, .finish .reply])
        hreply.toframesSent hw hready.2.1 hlow hend
        (fun u => (unwind_ret (resume_cmdBusy r1 ai u)).trans (unwind_finish .reply _ u))
      have hopen : fgRun 1 s = _ := hreply.opensBusyWait hw hflags hbegin
      refine ⟨u, ?_, hu⟩
      rw [show low.length + 2 = 1 + (low.length + 1) by omega, fgRun_add, hopen]
      exact hrun
    · have hread := handsBack_xchg hfg hw ha
      have hturn := hread.run.trans (unwind_ret (resume_busyPoll_end (i := i) (.inr hr) hend))
      have hu := (hread.toframesSent.mono (List.nil_subset _)).closed i
      refine ⟨_, (fgRun_one s).symm.trans (hturn.trans (unwind_finish .code _ _)), hu.exchanged _, ?_, ?_, ?_⟩
      · exact hu.ret hready.2.1 _
      · exact (State.ses_setRet _ _ i).trans (State.ses_setSes_self _ i _)
      · exact fun j hj => (State.ses_setRet _ _ j).trans (State.ses_setSes_ne _ _ hj.symm)
    · have hrun := (handsBack_xchg hfg hw ha).ask hw (resume_busyPoll_again hexp hr)
      refine ⟨_, (fgRun_one s).symm.trans hrun.run, ⟨hfg.symm, rfl, rfl, hrun.frame.mono (by decide)⟩,
        hrun.toframesSent.sentByte⟩
  · have hturn := (fgTurn_xchg_busy hfg hready.2.2.2 hb).trans
      ((unwind_ret (resume_busyPoll_end (.inl (by decide)) hend)).trans (unwind_finish .code _ _))
    refine ⟨_, hturn, endedWith_setRet (frame_setSes (s.endCalled i) i _) (by decide) hready.2.1 _, ?_, ?_⟩
    · exact (State.ses_setRet _ _ i).trans (State.ses_setSes_self _ i _)
    · exact fun j hj => (State.ses_setRet _ _ j).trans (State.ses_setSes_ne _ _ hj.symm)

end Sys2Proof.Machine
end

section
/-! SUPPORT. The SD procedures from one place to the next: a state that differs in one session alone, and where FG goes
from a frame that asks for a byte or ends, in the terms of `sesMoves`, `sesEnds` and `initEnds`. -/

namespace Sys2Proof.Machine

/-- `t` differs from `s` in session `i` alone, which is `S`. -/
structure sesChanged (i : Nat) (S : Session) (s t : State) : Prop where
  frame : changesOnly [.sess] s t
  self : t.ses i = S
  others : ∀ j, j ≠ i → t.ses j = s.ses j

section
variable {i : Nat} {S : Session} {s t : State}

theorem sesChanged_refl (i : Nat) (s : State) : sesChanged i (s.ses i) s s :=
  ⟨changesOnly_refl _ s, rfl, fun _ _ => rfl⟩

/-- A further change `g` of the session. -/
theorem sesChanged.update (h : sesChanged i S s t) (g : Session → Session) :
    sesChanged i (g S) s (t.setSes i (g (t.ses i))) where
  frame := h.frame.then (frame_setSes t i _)
  self := by rw [State.ses_setSes_self, h.self]
  others j hj := (State.ses_setSes_ne t _ hj.symm).trans (h.others j hj)

theorem sesChanged.setSes (h : sesChanged i S s t) (S' : Session) : sesChanged i S' s (t.setSes i S') :=
  h.update fun _ => S'

/-- The window opened after its silent begin callback. -/
theorem sesChanged_windowOpened (i : Nat) (s : State) (arg : Word) :
    sesChanged i { s.ses i with expired := false, winOpen := true } (s.beginCalled i arg) (s.windowOpened i arg) :=
  (sesChanged_refl i _).setSes _

theorem sesChanged.cfg (h : sesChanged i S s t) : t.cfg = s.cfg := h.frame .config (by decide)

theorem sesChanged.sesCfg (h : sesChanged i S s t) (j : Nat) : t.sesCfg j = s.sesCfg j := by
  rw [State.sesCfg, h.cfg, State.sesCfg]

theorem sesChanged.sesBus (h : sesChanged i S s t) (j : Nat) : t.sesBus j = s.sesBus j :=
  congrArg SdCfg.bus (h.sesCfg j)

theorem sesChanged.bus (h : sesChanged i S s t) (b : Nat) : t.bus b = s.bus b := h.frame .buses (by decide) b

theorem sesChanged.isr (h : sesChanged i S s t) : t.isr = s.isr := (h.frame .control (by decide)).2.2

theorem sesChanged.prog (h : sesChanged i S s t) : t.prog = s.prog := (h.frame .control (by decide)).2.1

/-- The window shut after its silent end callback. -/
theorem sesChanged.shut (h : sesChanged i S s t) :
    sesChanged i { S with winOpen := false } (s.endCalled i) (shutWindow i (t.endCalled i)) := by
  have hcalled : sesChanged i S (s.endCalled i) (t.endCalled i) := by
    rw [State.endCalled, State.endCalled, h.sesCfg]
    exact ⟨h.frame.called _ _, h.self, h.others⟩
  exact hcalled.update fun x => { x with winOpen := false }

theorem sesChanged_shut (i : Nat) (s : State) :
    sesChanged i { s.ses i with winOpen := false } (s.endCalled i) (shutWindow i (s.endCalled i)) :=
  (sesChanged_refl i s).shut

/-! ## What a frame's outcome leaves -/

/-- A place goes on past its check of the code handed back. -/
theorem ite_code_ok {α : Type} {v : Ret} (h : v.code = .noError) (a b : α) :
    (if v.code ≠ .noError then a else b) = b := if_neg (not_not.mpr h)

theorem unwind_ask {f : Frame} {k fs : List Frame} {v : Ret} {x : Byte} (h : resume f v s = askByte i x fs t) :
    unwind (f :: k) v s = .next (t.setFg (.busy (.xchg (t.sesBus i) x) (fs ++ k))) := unwind_wait h

theorem unwind_end {f : Frame} {k : List Frame} {v : Ret} {c : Code} (h : resume f v s = endWith c t) :
    unwind (f :: k) v s = unwind k (.ofCode c) t := unwind_ret h

/-- A frame that ends with a code as the operation's last ends the operation. -/
theorem unwind_end_finish {f : Frame} {v : Ret} {c : Code} (h : resume f v s = endWith c t) :
    unwind [f, .finish .code] v s = .next ((t.setRet (.code c)).setFg .idle) :=
  (unwind_end h).trans (unwind_finish _ _ _)

theorem sesChanged.moves (h : sesChanged i S s t) (f : Fg) : sesMoves i f S s (t.setFg f) :=
  ⟨⟨rfl, h.prog, h.isr, (h.frame.trans (frame_setFg t f)).mono (by decide)⟩, h.self, h.others⟩

theorem sesChanged.ends (h : sesChanged i S s t) (hs : s.isr = false) (c : Code) :
    sesEnds i c S s ((t.setRet (.code c)).setFg .idle) :=
  ⟨endedWith_setRet h.frame (by decide) hs _, (State.ses_setRet t _ i).trans h.self,
    fun j hj => (State.ses_setRet t _ j).trans (h.others j hj)⟩

/-- A frame that asks for a byte, the session left as `S`, moves FG on to that exchange. -/
theorem sesMoves_of_ask {f : Frame} {k fs : List Frame} {v : Ret} {x : Byte} {u : State} {g : Fg}
    (h : resume f v u = askByte i x fs t) (ht : sesChanged i S s t)
    (hg : g = .busy (.xchg (s.sesBus i) x) (fs ++ k) := by rfl) :
    ∃ t, unwind (f :: k) v u = .next t ∧ sesMoves i g S s t :=
  ⟨_, unwind_ask h, ht.sesBus i ▸ hg ▸ ht.moves g⟩

end

end Sys2Proof.Machine
end

section
/-! SUPPORT. One exchange of FG inside an operation: where it goes on, or how the operation ends. -/

namespace Sys2Proof.Machine

variable {b i : Nat} {sent rest : List Byte} {ps qs : List Part} {k : List Frame} {r : Byte} {s t u : State}

/-- A later change of other parts. -/
theorem framesSent.keep (h : framesSent b sent rest ps s t) (hc : changesOnly qs t u)
    (hq : Part.control ∉ qs ∧ Part.wire ∉ qs ∧ Part.answers ∉ qs := by decide) :
    framesSent b sent rest (ps ++ qs) s u := by
  obtain ⟨hcontrol, hwire, hanswers⟩ := hq
  obtain ⟨-, hprog, hisr⟩ := hc .control hcontrol
  exact {
    prog := hprog.trans h.prog
    isr := hisr.trans h.isr
    wire := (hc .wire hwire b).trans h.wire
    answers := (hc .answers hanswers b).trans h.answers
    others := fun b' hb => ⟨(hc .wire hwire b').trans (h.others b' hb).1,
      (hc .answers hanswers b').trans (h.others b' hb).2⟩
    frame := List.append_assoc _ ps qs ▸ h.frame.trans hc }

theorem framesSent.moves (h : framesSent b sent rest ps s t) (f : Fg)
    (hq : [.control, .wire, .answers] ++ ps ⊆ .control :: qs := by decide) : movedTo f qs s (t.setFg f) :=
  ⟨rfl, h.prog, h.isr, (h.setFg f).frame.mono hq⟩

theorem framesSent.ends (h : framesSent b sent rest ps s t) (hs : s.isr = false) (c : Code)
    (hq : [.control, .wire, .answers] ++ ps ⊆ .control :: qs := by decide) :
    endedWith (.code c) qs s ((t.setRet (.code c)).setFg .idle) := by
  have hc : changesOnly (.control :: .result :: qs) s t :=
    h.frame.mono (List.Subset.trans hq (List.cons_subset_cons _ (List.subset_cons_self _ _)))
  refine ⟨⟨rfl, ?_, ?_, hc.then (((frame_setRet t _).trans (frame_setFg _ _)).mono (by simp))⟩, ?_⟩
  · exact (State.setRet_prog t _).trans h.prog
  · exact (State.setRet_isr t _).trans h.isr
  · exact h.ret hs _

/-- The frame sent by the step that ends the operation. -/
theorem framesSent.sentEnd {x : Byte} (h : framesSent b [x] rest ps s t) (c : Result) :
    Machine.sentByte b x rest s ((t.setRet c).setFg .idle) :=
  h.sentByte.of_frame ((frame_setRet t c).trans (frame_setFg _ _)) (by decide) (by decide)

/-- An exchange whose frame asks for the next byte. -/
theorem exchange_asks {x y : Byte} {f : Frame} {fs : List Frame} (hw : s.wireFree i b)
    (hf : s.fg = .busy (.xchg b x) (f :: k)) (ha : s.answersOf b = r :: rest)
    (hr : resume f { code := .noError, byte := r, val := 0 } ((s.send b x).setAnswers b rest) =
      askByte i y fs ((s.send b x).setAnswers b rest)) :
    ∃ t, agentStep exec .fg s = .next t ∧ sentByte b x rest s t
      ∧ movedTo (.busy (.xchg b y) (fs ++ k)) [.wire, .answers] s t := by
  have hread := handsBack_xchg hf hw ha
  exact ⟨_, (fgRun_one s).symm.trans (hread.ask hw hr).run, hread.toframesSent.sentByte, hread.toframesSent.moves _⟩

end Sys2Proof.Machine
end

section
/-! SUPPORT. The session's accessors and the copies of its registers (44_sd_protocol.md R327, R346, R347). -/

namespace Sys2Proof.Machine

section
variable {x : Word} {s : State}

theorem withCard_ready {α : Type} {i : Nat} (hi : i < s.cfg.sessions.length) (hready : s.busReady (s.sesBus i))
    (k : Res α) : withCard i s k = k :=
  (withSession_eq _ hi).trans (withBus_ready hready k)

/-- An accessor of a card whose bus is ready answers its value and changes nothing. -/
theorem completes_withCard {i : Instr} {v w : Word} (hi : x.toNat < s.cfg.sessions.length)
    (hready : s.busReady (s.sesBus x.toNat)) (h : exec i s = withCard x.toNat s (.next (s.setRet (.value w))))
    (hv : w = v) : completes i s (.value v) [] (fun _ => True) :=
  completes_setRet (hv ▸ h.trans (withCard_ready hi hready _))

end

/-- Settles O33: each accessor answers one value, the sector count by R327's three cases. -/
theorem sessionReads : Obligations.SessionReads := by
  intro x s hi hready S field
  have hread : ∀ {i w v}, exec i s = withCard x.toNat s (.next (s.setRet (.value w))) → w = v →
      completes i s (.value v) [] (fun _ => True) := fun h hv => completes_withCard hi hready h hv
  refine ⟨hread rfl ?_, hread rfl rfl, hread rfl rfl, hread rfl rfl, hread rfl rfl, fun hoff => hread rfl ?_,
    fun hon hmmc hhigh => hread rfl ?_, fun hon hlow => hread rfl ?_⟩
  · cases S.cardType <;> rfl
  · exact congrArg (BitVec.ofNat 32) (if_pos hoff)
  · exact congrArg (BitVec.ofNat 32) ((if_neg ((Bool.not_eq_false _).mpr hon)).trans (if_pos ⟨hmmc, hhigh⟩))
  · refine congrArg (BitVec.ofNat 32) ((if_neg ((Bool.not_eq_false _).mpr hon)).trans (if_neg ?_))
    exact fun hboth => hlow.elim hboth.1 (· hboth.2)

/-! ## SD.CID and SD.CSD -/

section
variable {dst : Word} {s : State}

theorem copyRegister_null (reg : BitVec 128) (inited : Bool) :
    copyRegister reg inited 0 s = .next (s.setRet (.code .nullPointer)) := if_pos rfl

theorem copyRegister_uninitialised (hdst : dst ≠ 0) (reg : BitVec 128) :
    copyRegister reg false dst s = .next (s.setRet (.code .state)) := (if_neg hdst).trans (if_pos rfl)

theorem copyRegister_copies (hdst : dst ≠ 0) (hb : ∀ k, k < 16 → s.backed (dst + BitVec.ofNat 32 k) = true)
    (reg : BitVec 128) :
    copyRegister reg true dst s = .next ((State.writeBytes dst (regBytes reg) s).setRet (.code .noError)) :=
  (if_neg hdst).trans ((if_neg (by decide)).trans (State.needBacked_eq _ hb))

end

/-- Settles O34: both operations are `copyRegister`, whose copy is one `writeBytes`. -/
theorem registerCopies : Obligations.RegisterCopies := by
  intro x dst s hi hready S o ho
  have hexec : exec o.1 s = copyRegister o.2 S.initialized dst s := by
    simp only [List.mem_cons, List.not_mem_nil, or_false] at ho
    rcases ho with rfl | rfl <;> exact withCard_ready hi hready _
  refine ⟨fun h => completes_setRet ?_, fun hdst hoff => completes_setRet ?_, fun hdst hon hb => ?_⟩
  · rw [hexec, h, copyRegister_null]
  · rw [hexec, hoff, copyRegister_uninitialised hdst]
  · rw [hon, copyRegister_copies hdst hb] at hexec
    exact completes_of hexec (frame_writeBytes _ dst s) ((wroteBytes_writeBytes _ dst s (by simp)).setRet _)

end Sys2Proof.Machine
end

section
/-! SUPPORT. A data operation's checks and its claim of the card (44_sd_protocol.md R310, R330, R331), and SD.SETCRC
(R345). -/

namespace Sys2Proof.Machine

section
variable {i : Nat} {buf sector count : Word} {c : Code} {start : State → Res Flow} {s : State}

/-! ## The checks (44_sd_protocol.md R331) -/

theorem withSdSession_eq {α : Type} (hi : i < s.cfg.sessions.length) (hisr : s.isr = false)
    (hready : s.busReady (s.sesBus i)) (k : Res α) : withSdSession i s k = k := by
  rw [withSdSession, withSession_eq _ hi, hisr, if_neg Bool.false_ne_true, withBus_ready hready]

theorem dataOp_rejected (hi : i < s.cfg.sessions.length) (hisr : s.isr = false) (hready : s.busReady (s.sesBus i))
    (h : dataArgs (s.ses i) buf sector count = some c) :
    dataOp i buf sector count start s = .next (s.setRet (.code c)) := by
  rw [dataOp, withSdSession_eq hi hisr hready, h]

theorem dataArgs_none {S : Session} (hbuf : buf ≠ 0) (hcount : count ≠ 0) (hinit : S.initialized = true)
    (hend : sector.toNat + count.toNat ≤ sectorCount S) : dataArgs S buf sector count = none := by
  rw [dataArgs, if_neg hbuf, if_neg hcount, if_neg ((Bool.not_eq_false _).mpr hinit), if_neg (Nat.not_lt.mpr hend)]

/-! ## The claim (44_sd_protocol.md R310) -/

/-- The state in which session `i` has put its id on its bus. -/
def State.busClaimed (s : State) (i : Nat) : State :=
  s.setBus (s.sesBus i) { s.bus (s.sesBus i) with transferId := (s.sesCfg i).sdId }

theorem State.bus_busClaimed (s : State) (i b : Nat) :
    (s.busClaimed i).bus b =
      if s.sesBus i = b then { s.bus (s.sesBus i) with transferId := (s.sesCfg i).sdId } else s.bus b :=
  State.bus_setBus s _ _ b

theorem State.busy_busClaimed (s : State) (i b : Nat) : (s.busClaimed i).busy b = s.busy b := by
  rw [State.busy, State.bus_busClaimed]
  split
  · next h => rw [← h, State.busy]
  · rfl

/-- The claim of a bus that has the session's id already changes nothing. -/
theorem frame_busClaimed_own (h : (s.bus (s.sesBus i)).transferId = (s.sesCfg i).sdId) :
    changesOnly [] s (s.busClaimed i) := by
  have hbus : samePart .buses s (s.busClaimed i) := fun b => by
    rw [State.bus_busClaimed, ← h]
    split
    · next hb => rw [← hb]
    · rfl
  intro p hp
  by_cases hpb : p = .buses
  · exact hpb ▸ hbus
  · exact frame_setBus s _ _ p (by simpa using hpb)

/-- The state in which session `i` has claimed its bus and asserted its chip-select line. -/
def State.cardClaimed (s : State) (i : Nat) : State := setSdCs i true (s.busClaimed i)

theorem sdBegin_claimable (h : s.claimable i) : sdBegin i s = (.noError, s.cardClaimed i) := by
  rw [sdBegin, setTransferId_accepted h]
  rfl

theorem claimed_claimable (hready : s.sdReady i) (h : s.claimable i) :
    claimed i start s = enterFlow (start (s.cardClaimed i)) := by
  rw [claimed, withSdBus_ready hready, sdBegin_claimable h]
  rfl

theorem dataOp_accepted (hready : s.sdReady i) (hclaim : s.claimable i)
    (h : dataArgs (s.ses i) buf sector count = none) :
    dataOp i buf sector count start s = enterFlow (start (s.cardClaimed i)) := by
  rw [dataOp, withSdSession_ready hready, h]
  exact claimed_claimable hready hclaim

theorem frame_cardClaimed (s : State) (i : Nat) : changesOnly [.buses, .sess] s (s.cardClaimed i) :=
  ((frame_setBus s _ _).trans (frame_setSes _ i _)).mono (by decide)

/-- What a claim leaves: the bus with the session's id, the chip-select line asserted, nothing else of either. -/
theorem cardClaimed_claims (s : State) (i : Nat) :
    (s.cardClaimed i).bus (s.sesBus i) = { s.bus (s.sesBus i) with transferId := (s.sesCfg i).sdId }
      ∧ (∀ b, b ≠ s.sesBus i → (s.cardClaimed i).bus b = s.bus b)
      ∧ (s.cardClaimed i).ses i = { s.ses i with csAsserted := true }
      ∧ ∀ j, j ≠ i → (s.cardClaimed i).ses j = s.ses j :=
  ⟨State.bus_setBus_self s _ _, fun _ hb => State.bus_setBus_ne s _ hb.symm, State.ses_setSes_self _ i _,
    fun _ hj => State.ses_setSes_ne _ _ hj.symm⟩

/-- A claimed operation begins with its command's first byte about to go out. -/
theorem begins_claimed {op : Instr} {index : BitVec 6} {arg : Word} {x : Byte} {k : List Frame}
    (h : exec op s = enterFlow (startCmd i index arg .r1 false k (s.cardClaimed i))) (hx : frameByte index arg 0 = x) :
    begins op s (.busy (.xchg (s.sesBus i) x) (.cmdSend i index arg .r1 false 0 :: k)) [.buses, .sess] (fun t =>
      t.bus (s.sesBus i) = { s.bus (s.sesBus i) with transferId := (s.sesCfg i).sdId }
        ∧ (∀ b, b ≠ s.sesBus i → t.bus b = s.bus b) ∧ t.ses i = { s.ses i with csAsserted := true }
        ∧ ∀ j, j ≠ i → t.ses j = s.ses j) :=
  hx ▸ begins_of_askByte h (frame_cardClaimed s i) (by decide) rfl (cardClaimed_claims s i)

end

/-- Settles O36: each clause is one line of `dataArgs`. -/
theorem dataChecks : Obligations.DataChecks := by
  intro x sector count buf s hi hisr hready S o ho
  obtain ⟨start, hexec⟩ : ∃ start, exec o.1 s = dataOp x.toNat buf sector o.2 start s := by
    simp only [List.mem_cons, List.not_mem_nil, or_false] at ho
    rcases ho with rfl | rfl | rfl | rfl <;> exact ⟨_, rfl⟩
  have hrejects : ∀ {c}, dataArgs S buf sector o.2 = some c → completes o.1 s (.code c) [] (fun _ => True) := fun h =>
    completes_setRet (hexec.trans (dataOp_rejected hi hisr hready h))
  refine ⟨fun hbuf => hrejects (if_pos hbuf), fun hbuf hcount => hrejects ((if_neg hbuf).trans (if_pos hcount)),
    fun hbuf hcount hoff => hrejects ?_, fun hbuf hcount hon hend => hrejects ?_⟩
  · exact (if_neg hbuf).trans ((if_neg hcount).trans (if_pos hoff))
  · exact (if_neg hbuf).trans ((if_neg hcount).trans ((if_neg ((Bool.not_eq_false _).mpr hon)).trans (if_pos hend)))

/-- Settles O37: the checks pass (`dataArgs_none`), the card is claimed, and the command's first byte is asked for. -/
theorem dataOperationsBegin : Obligations.DataOperationsBegin := by
  intro x sector count buf s hready hclaim hbuf hcount hinit i b arg claims
  refine ⟨fun hend => ?_, fun hend => ?_⟩
  · have hargs : dataArgs (s.ses i) buf sector 1 = none := dataArgs_none hbuf (by decide) hinit hend
    exact ⟨begins_claimed (dataOp_accepted hready hclaim hargs) rfl,
      begins_claimed (dataOp_accepted hready hclaim hargs) rfl⟩
  · have hargs : dataArgs (s.ses i) buf sector count = none := dataArgs_none hbuf hcount hinit hend
    exact ⟨begins_claimed (dataOp_accepted hready hclaim hargs) rfl,
      begins_claimed (dataOp_accepted hready hclaim hargs) rfl⟩

/-! ## SD.SETCRC (44_sd_protocol.md R345) -/

theorem resume_sdEnd (i : Nat) (v : Ret) (t : State) : resume (.sdEnd i) v t = endWith v.code (setSdCs i false t) := rfl

theorem exec_sdSetCrc_uninitialised {x : Word} {en : Bool} {s : State} (hi : x.toNat < s.cfg.sessions.length)
    (hisr : s.isr = false) (hready : s.busReady (s.sesBus x.toNat)) (hoff : (s.ses x.toNat).initialized = false) :
    exec (.sdSetCrc x en) s =
      .next ((s.setSes x.toNat { s.ses x.toNat with crcEnabled := en }).setRet (.code .noError)) :=
  (withSdSession_eq hi hisr hready _).trans (if_pos hoff)

theorem exec_sdSetCrc_initialised {x : Word} {en : Bool} {s : State} (hready : s.sdReady x.toNat)
    (hclaim : s.claimable x.toNat) (hon : (s.ses x.toNat).initialized = true) :
    exec (.sdSetCrc x en) s =
      enterFlow (startCmd x.toNat 59 (flagWord en) .r1 false [.sdEnd x.toNat, .setCrc x.toNat en, .finish .code]
        (s.cardClaimed x.toNat)) :=
  (withSdSession_ready hready _).trans
    ((if_neg ((Bool.not_eq_false _).mpr hon)).trans (claimed_claimable hready hclaim))

/-- The setting is recorded after SdEnd where the command handed no error back. -/
theorem sesChanged.setCrc {i : Nat} {S : Session} {s t : State} (h : sesChanged i S s t) (en : Bool) (c : Code) :
    ∃ u, resume (.setCrc i en) (.ofCode c) t = endWith c u
      ∧ sesChanged i { S with crcEnabled := if c = .noError then en else S.crcEnabled } s u := by
  by_cases hc : c = .noError
  · subst hc
    exact ⟨_, rfl, h.update fun x => { x with crcEnabled := en }⟩
  · rw [if_neg hc]
    exact ⟨t, if_pos hc, h⟩

/-- Settles O43: the two entries of SD.SETCRC, then SdEnd and the record (`sesChanged.setCrc`). -/
theorem setCrc : Obligations.SetCrc := by
  intro x en s hi hisr hready i b
  refine ⟨fun hoff => ?_, fun hon hsd hclaim => ?_, fun v => ?_⟩
  · have hset := (sesChanged_refl i s).update fun x => { x with crcEnabled := en }
    exact completes_of (exec_sdSetCrc_uninitialised hi hisr hready hoff) hset.frame
      ⟨(State.ses_setRet _ _ i).trans hset.self, fun j hj => (State.ses_setRet _ _ j).trans (hset.others j hj)⟩
  · exact begins_claimed (exec_sdSetCrc_initialised hsd hclaim hon) rfl
  · have hcs := (sesChanged_refl i s).update fun x => { x with csAsserted := false }
    obtain ⟨t, ht, hrec⟩ := hcs.setCrc en v.code
    exact ⟨_, (unwind_end (resume_sdEnd i v s)).trans (unwind_end_finish ht), hrec.ends hisr v.code⟩

end Sys2Proof.Machine
end

section
/-! SUPPORT. SD.INIT's entry, its fillers and its exit (44_sd_protocol.md R319 to R321, R329; 70_reset_and_hazards.md
R454; log 25). -/

namespace Sys2Proof.Machine

section
variable {i : Nat} {S : Session} {v : Ret} {s t : State}

/-! ## The exit (44_sd_protocol.md R319, R329; log 25) -/

theorem resume_initExit_idle (hb : t.busy (t.sesBus i) = false) (v : Ret) :
    resume (.initExit i) v t = endWith v.code
      ((setSdCs i false t).setBus (t.sesBus i) { t.bus (t.sesBus i) with speed := .high }) := by
  rw [resume, resumeInitExit, setSpeed_idle (s := setSdCs i false t) hb]
  rfl

/-- The exit lines on an idle bus. -/
theorem sesChanged.initExit (h : sesChanged i S s t) (hs : s.isr = false) (hb : s.busy (s.sesBus i) = false)
    (v : Ret) :
    ∃ u, unwind [.initExit i, .finish .code] v t = .next u ∧ initEnds i v.code S s u := by
  have hcs := h.update fun x => { x with csAsserted := false }
  have hbus : t.busy (t.sesBus i) = false := by rw [h.sesBus, State.busy, h.bus]; exact hb
  refine ⟨_, unwind_end_finish (resume_initExit_idle hbus v),
    endedWith_setRet ((hcs.frame.trans (frame_setBus _ _ _)).mono (by decide)) (by decide) hs _, ?_, ?_, ?_, ?_⟩
  · exact (State.ses_setRet _ _ i).trans hcs.self
  · exact fun j hj => (State.ses_setRet _ _ j).trans (hcs.others j hj)
  · rw [State.bus_setFg, State.bus_setRet, h.sesBus, State.bus_setBus_self, h.bus]
  · intro b hne
    rw [State.bus_setFg, State.bus_setRet, h.sesBus, State.bus_setBus_ne _ _ hne.symm]
    exact h.bus b

/-- A place of SD.INIT that ends with a code, the session left as `S`, leads to the exit. -/
theorem initEnds_of_end {f : Frame} {v : Ret} {c : Code} {u : State} (hs : s.isr = false)
    (hb : s.busy (s.sesBus i) = false) (h : resume f v u = endWith c t) (ht : sesChanged i S s t) :
    ∃ t, unwind [f, .initExit i, .finish .code] v u = .next t ∧ initEnds i c S s t := by
  rw [unwind_end h]
  exact ht.initExit hs hb _

theorem resume_initExit_busy (hb : t.busy (t.sesBus i) = true) (v : Ret) :
    resume (.initExit i) v t = endWith v.code (setSdCs i false t) := by
  rw [resume, resumeInitExit, setSpeed_busy (s := setSdCs i false t) hb]

/-- The exit lines leave the speed of a busy bus. -/
theorem sesChanged.initExit_busy (h : sesChanged i S s t) (hs : s.isr = false) (hb : s.busy (s.sesBus i) = true)
    (v : Ret) :
    ∃ u, unwind [.initExit i, .finish .code] v t = .next u ∧ sesEnds i v.code { S with csAsserted := false } s u := by
  have hbus : t.busy (t.sesBus i) = true := by rw [h.sesBus, State.busy, h.bus]; exact hb
  exact ⟨_, unwind_end_finish (resume_initExit_busy hbus v),
    (h.update fun x => { x with csAsserted := false }).ends hs _⟩

/-! ## The entry -/

theorem exec_sdInit {x : Word} (hready : s.sdReady x.toNat) (hclaim : s.claimable x.toNat) :
    exec (.sdInit x) s = initStart x.toNat (s.busClaimed x.toNat) := by
  refine (withSdSession_ready hready _).trans ((withSdBus_ready hready _).trans ?_)
  rw [setTransferId_accepted hclaim]
  rfl

/-- The state in which SD.INIT is about to send its first filler: the session cleared, chip-select deasserted and the
speed lowered. -/
def State.initEntered (s : State) (i : Nat) : State :=
  setSdCs i false ((s.setSes i (s.ses i).fresh).setBus (s.sesBus i) { s.bus (s.sesBus i) with speed := .low })

theorem initStart_idle (hb : s.busy (s.sesBus i) = false) :
    initStart i s =
      enterFlow (askByte i 0xFF [.initDummy i 1, .initExit i, .finish .code] (s.initEntered i)) := by
  rw [initStart, setSpeed_idle (s := s.setSes i (s.ses i).fresh) hb]
  rfl

theorem initStart_busy (hb : s.busy (s.sesBus i) = true) :
    initStart i s = unwind [.initExit i, .finish .code] (.ofCode .busy) (s.setSes i (s.ses i).fresh) := by
  rw [initStart, setSpeed_busy (s := s.setSes i (s.ses i).fresh) hb]
  rfl

theorem frame_initEntered (s : State) (i : Nat) : changesOnly [.buses, .sess] s (s.initEntered i) :=
  ((frame_setSes s i _).trans ((frame_setBus _ _ _).trans (frame_setSes _ i _))).mono (by decide)

theorem State.bus_initEntered (s : State) (i b : Nat) :
    (s.initEntered i).bus b = if s.sesBus i = b then { s.bus (s.sesBus i) with speed := .low } else s.bus b :=
  State.bus_setBus _ _ _ b

theorem State.bus_initEntered_busClaimed (s : State) (i b : Nat) :
    ((s.busClaimed i).initEntered i).bus b =
      if s.sesBus i = b then { s.bus (s.sesBus i) with transferId := (s.sesCfg i).sdId, speed := .low }
      else s.bus b := by
  rw [State.bus_initEntered, show (s.busClaimed i).sesBus i = s.sesBus i from rfl]
  split
  · rw [State.bus_busClaimed, if_pos rfl]
  · next h => rw [State.bus_busClaimed, if_neg h]

theorem State.ses_initEntered (s : State) (i : Nat) :
    (s.initEntered i).ses i = { (s.ses i).fresh with csAsserted := false }
      ∧ ∀ j, j ≠ i → (s.initEntered i).ses j = s.ses j := by
  refine ⟨?_, fun j hj => ?_⟩
  · rw [State.initEntered, setSdCs, State.ses_setSes_self, State.ses_setBus, State.ses_setSes_self]
  · rw [State.initEntered, setSdCs, State.ses_setSes_ne _ _ hj.symm, State.ses_setBus, State.ses_setSes_ne _ _ hj.symm]

/-- An operation that FG ends within the step that issues it completes. -/
theorem endedWith.completes {op : Instr} {r : Result} {ps : List Part} {q : State → Prop} (h : endedWith r ps s t)
    (hexec : exec op s = .next t) (hfg : s.fg = .idle) (hs : s.isr = false) (hq : q t) :
    Machine.completes op s r ps q := by
  obtain ⟨⟨hidle, hprog, hisr, hframe⟩, hret⟩ := h
  refine ⟨t, hexec, ?_, fun p hp => ?_, hq⟩
  · rw [State.result, hisr, hs, if_neg Bool.false_ne_true, hret]
  · by_cases hc : p = .control
    · exact hc ▸ ⟨hidle.trans hfg.symm, hprog, hisr⟩
    · exact hframe p (by simpa [hc] using hp)

/-! ## CMD8's echo (44_sd_protocol.md R321) -/

theorem resume_initCmd8_ok (hc : v.code = .noError) :
    resume (.initCmd8 i) v s =
      if v.val.extractLsb' 0 12 ≠ 0x1AA then endWith .sdInvalidCard s
      else startCmd i 58 0 .r3 true [.v2Ocr i] s := by
  rw [resume, resumeInitCmd8, if_neg (by rw [hc]; decide), ite_code_ok hc]
  rfl

end

/-- Settles O38: an idle bus is `initStart_idle`'s, a busy one leads to the exit at once. -/
theorem initBegins : Obligations.InitBegins := by
  intro x s hready i b fresh
  refine ⟨fun hb => ?_, fun hb hid hfg => ?_⟩
  · have hexec := (exec_sdInit hready (.inl hb)).trans (initStart_idle ((s.busy_busClaimed i b).trans hb))
    refine begins_of_askByte hexec
      (((frame_setBus s b _).trans (frame_initEntered (s.busClaimed i) i)).mono (by decide)) (by decide) rfl
      ⟨State.ses_initEntered (s.busClaimed i) i, ?_, fun b' hb' => ?_⟩
    · exact (s.bus_initEntered_busClaimed i b).trans (if_pos rfl)
    · exact (s.bus_initEntered_busClaimed i b').trans (if_neg hb'.symm)
  · have hexec := (exec_sdInit hready (.inr hid)).trans (initStart_busy ((s.busy_busClaimed i b).trans hb))
    have hclaimed : sesChanged i (s.ses i) s (s.busClaimed i) :=
      ⟨(frame_busClaimed_own hid).mono (by simp), rfl, fun _ _ => rfl⟩
    obtain ⟨t, ht, hended, hself, hothers⟩ :=
      (hclaimed.update Session.fresh).initExit_busy hready.2.1 hb (.ofCode .busy)
    exact hended.completes (hexec.trans ht) hfg hready.2.1 ⟨hself, hothers⟩

/-- Settles O39: the fillers ask for the next byte; each later place goes on with a command or ends at the exit. -/
theorem initSteps : Obligations.InitSteps := by
  intro i v s hs S b k
  have hself := sesChanged_refl i s
  refine ⟨fun n r rest hready hf => ⟨fun hb ha => ?_, fun hb => ?_⟩, fun hb => hself.initExit_busy hs hb v,
    fun hb => ?_⟩
  · have hw : s.wireFree i b := ⟨rfl, hready, hb⟩
    refine ⟨fun hn => exchange_asks hw hf ha (if_pos hn), fun hn => ?_⟩
    have hread := handsBack_xchg hf hw ha
    have hcs := hread.toframesSent.setSes i { S with csAsserted := true }
    have hnext := hread.run.trans (unwind_ask (if_neg (Nat.not_lt.mpr hn)))
    exact ⟨_, (fgRun_one s).symm.trans hnext, hcs.sentByte, hcs.moves _, State.ses_setSes_self _ i _,
      fun j hj => State.ses_setSes_ne _ _ hj.symm⟩
  · obtain ⟨t, ht, hends⟩ := hself.initExit_busy hs hb (.ofCode .busy)
    exact ⟨t, (fgTurn_xchg_busy hf hready hb).trans ((unwind_end rfl).trans ht), hends⟩
  · have hends : ∀ {f c}, resume f v s = endWith c s → ∃ t, unwind (f :: k) v s = .next t ∧ initEnds i c S s t :=
      fun h => initEnds_of_end hs hb h hself
    refine ⟨hself.initExit hs hb v, fun hc => hends (if_pos hc),
      fun hc hv => hends ((ite_code_ok hc _ _).trans (if_pos hv)),
      fun hc hv => sesMoves_of_ask ((ite_code_ok hc _ _).trans (if_neg (not_not.mpr hv))) hself,
      fun hc => sesMoves_of_ask (if_pos hc) hself, fun hill hc => hends ((if_neg hill).trans (if_pos hc)),
      fun hc hv => hends ((resume_initCmd8_ok hc).trans (if_pos hv)),
      fun hc hv => sesMoves_of_ask ((resume_initCmd8_ok hc).trans (if_neg (not_not.mpr hv))) hself⟩

end Sys2Proof.Machine
end

section
/-! SUPPORT. SD.INIT's V2 branch (44_sd_protocol.md R322, R324). -/

namespace Sys2Proof.Machine

section
variable {i : Nat} {S : Session} {s t : State}

theorem exitV2_silent (h : s.silent (s.sesCfg i).timeoutEnd) (c : Code) :
    exitV2 i c s = resumeV2End i (.ofCode c) (shutWindow i (s.endCalled i)) := closeWindow_silent h _ _ _

theorem resumeV2End_error {v : Ret} (h : v.code ≠ .noError) : resumeV2End i v s = endWith v.code s := if_pos h

/-- The loop's exit with an error ends SD.INIT with it. -/
theorem exitV2_error (h : s.silent (s.sesCfg i).timeoutEnd) {c : Code} (hc : c ≠ .noError) :
    exitV2 i c s = endWith c (shutWindow i (s.endCalled i)) := (exitV2_silent h c).trans (resumeV2End_error hc)

/-! ## The type (44_sd_protocol.md R324, R325) -/

/-- The type's assignment moves FG on to CMD10. -/
theorem sesMoves_of_assignType {f : Frame} {k : List Frame} {v : Ret} {T : CardType} {u : State}
    (h : resume f v u = assignType i T t) (ht : sesChanged i S s t) :
    ∃ t, unwind (f :: k) v u = .next t
      ∧ sesMoves i (sending s i 0x4A 10 0 .r1 false (.regCmd i (s.sesCfg i).regbuf :: .initCid i :: k))
        { S with cardType := T } s t :=
  sesMoves_of_ask h (ht.update fun x => { x with cardType := T }) (by rw [ht.sesCfg]; rfl)

/-! ## The loop after ACMD41 -/

theorem resume_v2Acmd_again {v : Ret} (hc : v.code = .noError) (hidle : v.byte.getLsbD 0 = true)
    (hexp : (s.ses i).expired = false) : resume (.v2Acmd i) v s = v2Pass i [] s := by
  simp [resume, resumeV2Acmd, hc, hidle, hexp]

theorem resume_v2Acmd_expired {v : Ret} (hc : v.code = .noError) (hidle : v.byte.getLsbD 0 = true)
    (hexp : (s.ses i).expired = true) : resume (.v2Acmd i) v s = exitV2 i .timeout s := by
  simp [resume, resumeV2Acmd, hc, hidle, hexp]

theorem resume_v2Acmd_left {v : Ret} (hc : v.code = .noError) (hidle : v.byte.getLsbD 0 = false) :
    resume (.v2Acmd i) v s = exitV2 i .noError s := by
  rw [resume, resumeV2Acmd, ite_code_ok hc, if_pos hidle]

end

/-- Settles O40: each place goes on with a command or the next place, with the window's state, or ends. -/
theorem initVersion2 : Obligations.InitVersion2 := by
  intro i v s hs hb S k begun opened shut idle cmd55 cmd58 ends moves
  have hself := sesChanged_refl i s
  have hshut := sesChanged_shut i s
  have hends : ∀ {f c}, resume f v s = endWith c s → ends f c S s := fun h => initEnds_of_end hs hb h hself
  have hendsShut : ∀ {f c}, resume f v s = endWith c (shutWindow i (s.endCalled i)) → ends f c shut (s.endCalled i) :=
    fun h => initEnds_of_end hs hb h hshut
  refine ⟨fun hc => ⟨hends (if_pos hc), hends (if_pos hc), hends (if_pos hc)⟩, fun hc hocr => hends ?_,
    fun hc hocr hbegin => ?_, sesMoves_of_ask rfl hself, fun hc => sesMoves_of_ask (ite_code_ok hc _ _) hself,
    fun hc hidle hexp => ?_, fun hend => ⟨fun hc => ⟨hendsShut ?_, hendsShut ?_⟩, fun hc hidle hexp => hendsShut ?_,
      fun hc hidle => ?_⟩, fun hc => sesMoves_of_ask (ite_code_ok hc _ _) hself, fun hc => ?_⟩
  · exact (ite_code_ok hc _ _).trans (if_pos hocr)
  · exact sesMoves_of_ask ((ite_code_ok hc _ _).trans ((if_neg hocr).trans (openWindow_silent hbegin _ _ _)))
      (sesChanged_windowOpened i s _)
  · exact sesMoves_of_ask (resume_v2Acmd_again hc hidle hexp) hself
  · exact (if_pos hc).trans (exitV2_error hend hc)
  · exact (if_pos hc).trans (exitV2_error hend hc)
  · exact (resume_v2Acmd_expired hc hidle hexp).trans (exitV2_error hend (by decide))
  · exact sesMoves_of_ask ((resume_v2Acmd_left hc hidle).trans (exitV2_silent hend _)) hshut
  · exact sesMoves_of_assignType (ite_code_ok hc _ _) hself

end Sys2Proof.Machine
end

section
/-! SUPPORT. SD.INIT's V1 branch (44_sd_protocol.md R323, R324). -/

namespace Sys2Proof.Machine

section
variable {i : Nat} {T : CardType} {c : Code} {v : Ret} {r1 : Byte} {k : List Frame} {s : State}

/-! ## The loop's exit -/

theorem exitV1_silent (h : s.silent (s.sesCfg i).timeoutEnd) :
    exitV1 i T c s = resumeV1End i T (.ofCode c) (shutWindow i (s.endCalled i)) := closeWindow_silent h _ _ _

theorem exitV1_error (h : s.silent (s.sesCfg i).timeoutEnd) (hc : c ≠ .noError) :
    exitV1 i T c s = endWith c (shutWindow i (s.endCalled i)) := (exitV1_silent h).trans (if_pos hc)

theorem exitV1_noError (h : s.silent (s.sesCfg i).timeoutEnd) :
    exitV1 i T .noError s = assignType i T (shutWindow i (s.endCalled i)) := exitV1_silent h

/-! ## The top of the loop -/

theorem v1Pass_again (hidle : r1.getLsbD 0 = true) (hexp : (s.ses i).expired = false) :
    v1Pass i .sdscV1 r1 k s = startCmd i 55 0 .r1 true (.v1LoopApp i :: k) s := by
  simp [v1Pass, hidle, hexp]

theorem v1Pass_expired (hidle : r1.getLsbD 0 = true) (hexp : (s.ses i).expired = true) :
    v1Pass i .sdscV1 r1 k s = exitV1 i .sdscV1 .timeout s := by
  simp [v1Pass, hidle, hexp]

theorem v1Pass_left (hidle : r1.getLsbD 0 = false) : v1Pass i .sdscV1 r1 k s = exitV1 i .sdscV1 .noError s := by
  rw [v1Pass, if_pos rfl, if_pos hidle]

theorem v1Pass_mmc : v1Pass i .mmc r1 k s = startCmd i 1 0 .r1 true (.v1LoopMmc i :: k) s := rfl

/-! ## The MMC loop after CMD1 -/

theorem resume_v1LoopMmc_again (hc : v.code = .noError) (hidle : v.byte.getLsbD 0 = true)
    (hexp : (s.ses i).expired = false) : resume (.v1LoopMmc i) v s = v1Pass i .mmc v.byte [] s := by
  simp [resume, resumeV1LoopMmc, hc, hidle, hexp]

theorem resume_v1LoopMmc_expired (hc : v.code = .noError) (hidle : v.byte.getLsbD 0 = true)
    (hexp : (s.ses i).expired = true) : resume (.v1LoopMmc i) v s = exitV1 i .mmc .timeout s := by
  simp [resume, resumeV1LoopMmc, hc, hidle, hexp]

theorem resume_v1LoopMmc_left (hc : v.code = .noError) (hidle : v.byte.getLsbD 0 = false) :
    resume (.v1LoopMmc i) v s = exitV1 i .mmc .noError s := by
  rw [resume, resumeV1LoopMmc, ite_code_ok hc, if_pos hidle]

/-! ## The probe -/

/-- The probe's outcome with no code, its window opened by a silent callback. -/
theorem resume_v1Probe_ok (hc : v.code = .noError) (h : s.silent (s.sesCfg i).timeoutBegin) :
    resume (.v1Probe i) v s = v1Pass i .sdscV1 v.byte [] (s.windowOpened i s.cfg.timeoutInit) := by
  rw [resume, resumeV1Probe, if_neg (by rw [hc]; decide), ite_code_ok hc]
  exact openWindow_silent h _ _ _

theorem resume_v1App_failed (hc : v.code ≠ .noError) : resume (.v1App i) v s = resumeV1Probe i v s := if_neg hc

theorem resumeV1Probe_mmc (hc : v.code = .sdIllegalCmd) (h : s.silent (s.sesCfg i).timeoutBegin) :
    resumeV1Probe i v s = v1Pass i .mmc v.byte [] (s.windowOpened i s.cfg.timeoutInit) :=
  (if_pos hc).trans (openWindow_silent h _ _ _)

theorem resumeV1Probe_failed (hill : v.code ≠ .sdIllegalCmd) (hc : v.code ≠ .noError) :
    resumeV1Probe i v s = endWith v.code s := (if_neg hill).trans (if_pos hc)

end

/-- Settles O41: each place goes on with a command or the next place, with the window's state, or ends. -/
theorem initVersion1 : Obligations.InitVersion1 := by
  intro i v s hs hb S k begun opened shut idle cmd55 cmd1 ends moves typed
  have hself := sesChanged_refl i s
  have hopen := sesChanged_windowOpened i s s.cfg.timeoutInit
  have hshut := sesChanged_shut i s
  have hends : ∀ {f c}, resume f v s = endWith c s → ends f c S s := fun h => initEnds_of_end hs hb h hself
  have hendsShut : ∀ {f c}, resume f v s = endWith c (shutWindow i (s.endCalled i)) → ends f c shut (s.endCalled i) :=
    fun h => initEnds_of_end hs hb h hshut
  have htyped : ∀ {f T}, resume f v s = assignType i T (shutWindow i (s.endCalled i)) →
      typed f T shut (s.endCalled i) := fun h => sesMoves_of_assignType h hshut
  refine ⟨fun hc => ⟨hends (if_pos hc), fun T => hends (if_pos hc)⟩,
    fun hc hocr => hends ((ite_code_ok hc _ _).trans (if_pos hocr)),
    fun hc hocr => sesMoves_of_ask ((ite_code_ok hc _ _).trans (if_neg hocr)) hself,
    fun hc => sesMoves_of_ask (if_pos hc) hself, fun f hf => ?_,
    fun hc hbegin => ⟨fun hidle => ?_, fun hidle hend => ?_⟩,
    fun hc => sesMoves_of_ask (ite_code_ok hc _ _) hself, fun hc hidle hexp => ⟨?_, ?_⟩,
    fun hend => ⟨fun hc f hf => hendsShut ?_, fun hc hidle hexp => ⟨hendsShut ?_, hendsShut ?_⟩,
      fun hc hidle => ⟨htyped ?_, htyped ?_⟩⟩,
    fun r1 => ⟨sesMoves_of_ask v1Pass_mmc hself, fun hidle hexp => sesMoves_of_ask (v1Pass_again hidle hexp) hself,
      fun hend => ⟨fun hidle hexp => hendsShut ?_, fun hidle => htyped ?_⟩⟩,
    fun T hc => sesMoves_of_assignType (ite_code_ok hc _ _) hself⟩
  · have hprobe : v.code ≠ .noError → resume f v s = resumeV1Probe i v s := fun hc => by
      simp only [List.mem_cons, List.not_mem_nil, or_false] at hf
      rcases hf with rfl | rfl
      · exact resume_v1App_failed hc
      · rfl
    refine ⟨fun hc hbegin => ?_, fun hill hc => hends ((hprobe hc).trans (resumeV1Probe_failed hill hc))⟩
    exact sesMoves_of_ask ((hprobe (by rw [hc]; decide)).trans (resumeV1Probe_mmc hc hbegin)) hopen
  · have hexp := congrArg Session.expired hopen.self
    exact sesMoves_of_ask ((resume_v1Probe_ok hc hbegin).trans (v1Pass_again hidle hexp)) hopen
  · exact sesMoves_of_assignType ((resume_v1Probe_ok hc hbegin).trans ((v1Pass_left hidle).trans (exitV1_noError hend)))
      hopen.shut
  · exact sesMoves_of_ask ((ite_code_ok hc _ _).trans (v1Pass_again hidle hexp)) hself
  · exact sesMoves_of_ask (resume_v1LoopMmc_again hc hidle hexp) hself
  · simp only [List.mem_cons, List.not_mem_nil, or_false] at hf
    rcases hf with rfl | rfl | rfl <;> exact (if_pos hc).trans (exitV1_error hend hc)
  · exact (ite_code_ok hc _ _).trans ((v1Pass_expired hidle hexp).trans (exitV1_error hend (by decide)))
  · exact (resume_v1LoopMmc_expired hc hidle hexp).trans (exitV1_error hend (by decide))
  · exact (ite_code_ok hc _ _).trans ((v1Pass_left hidle).trans (exitV1_noError hend))
  · exact (resume_v1LoopMmc_left hc hidle).trans (exitV1_noError hend)
  · exact (v1Pass_expired hidle hexp).trans (exitV1_error hend (by decide))
  · exact (v1Pass_left hidle).trans (exitV1_noError hend)

end Sys2Proof.Machine
end

section
/-! SUPPORT. The fields and bytes of the card registers (20_memory.md R88; 30_encoding.md R130; 44_sd_protocol.md R325,
R328). -/

namespace Sys2Proof.Machine

theorem regOfBytes_cons (v : Byte) (l : List Byte) : regOfBytes (v :: l) = regOfBytes l <<< 8 ||| v.setWidth 128 := rfl

/-- Bit `n` of the register of the bytes `l` is bit `n % 8` of byte `n / 8`. -/
theorem getLsbD_regOfBytes (l : List Byte) (n : Nat) (hn : n < 128) :
    (regOfBytes l).getLsbD n = (l.getD (n / 8) 0).getLsbD (n % 8) := by
  induction l generalizing n with
  | nil => simp [regOfBytes]
  | cons v l ih =>
    rw [regOfBytes_cons, BitVec.getLsbD_or, BitVec.getLsbD_shiftLeft, BitVec.getLsbD_setWidth]
    by_cases h : n < 8
    · simp [h, hn, Nat.div_eq_of_lt h, Nat.mod_eq_of_lt h]
    · have hdiv : n / 8 = (n - 8) / 8 + 1 := by omega
      have hmod : n % 8 = (n - 8) % 8 := by omega
      rw [ih (n - 8) (by omega), BitVec.getLsbD_of_ge v n (by omega), hdiv, hmod]
      simp [h, hn]

/-- A register is that of its 16 stored bytes. -/
theorem regOfBytes_regBytes (R : BitVec 128) : regOfBytes (regBytes R) = R := by
  refine BitVec.eq_of_getLsbD_eq fun n hn => ?_
  have hbyte : (regBytes R).getD (n / 8) 0 = R.extractLsb' (8 * (n / 8)) 8 := by
    rw [regBytes, List.getD_eq_getElem _ _ (by simp; omega)]
    simp [regByteAt]
  rw [getLsbD_regOfBytes _ n hn, hbyte, BitVec.getLsbD_extractLsb', Nat.div_add_mod]
  simp [Nat.mod_lt]

theorem regField_bit (R : BitVec 128) (n : Nat) : regField R n n = 1 ↔ R.getLsbD n = true := by
  rw [regField, BitVec.extractLsb'_toNat, Nat.add_sub_cancel_left, BitVec.getLsbD, Nat.testBit_eq_decide_div_mod_eq,
    Nat.shiftRight_eq_div_pow, decide_eq_true_iff]

end Sys2Proof.Machine
end

section
/-! SUPPORT. SD.INIT from its register reads on (44_sd_protocol.md R325, R326, R328). -/

namespace Sys2Proof.Machine

section
variable {i : Nat} {S : Session} {v : Ret} {R : BitVec 128} {s t : State}

/-! ## The register buffer -/

/-- The 16 bytes at `buf` are backed, no transfer is writing them, and they are the register `R`. -/
def State.holdsRegister (s : State) (buf : Word) (R : BitVec 128) : Prop :=
  ∀ n, n < 16 → s.backed (buf + BitVec.ofNat 32 n) = true ∧ s.dstInFlight (buf + BitVec.ofNat 32 n) = false
    ∧ R.extractLsb' (8 * n) 8 = s.mem.read (buf + BitVec.ofNat 32 n)

theorem State.holdsRegister.readBytes {buf : Word} (h : s.holdsRegister buf R) :
    State.readBytes 16 buf s = (regBytes R, s) := by
  rw [State.readBytes_eq 16 buf s fun n hn => State.readOpen_of_free (h n hn).2.1, regBytes]
  exact congrArg (·, s) (List.map_congr_left fun n hn => (h n (List.mem_range.mp hn)).2.2.symm)

theorem State.holdsRegister.needBacked {buf : Word} (h : s.holdsRegister buf R) {α : Type} (r : Res α) :
    s.needBacked buf 16 r = r := State.needBacked_eq r fun n hn => (h n hn).1

theorem resume_initCid (hc : v.code = .noError) (h : s.holdsRegister (s.sesCfg i).regbuf R) :
    resume (.initCid i) v s =
      startRdReg i 9 (s.sesCfg i).regbuf [.initCsd i] (s.setSes i { s.ses i with cid := R }) := by
  rw [resume, resumeInitCid, ite_code_ok hc, h.needBacked, h.readBytes]
  simp only [regOfBytes_regBytes]

/-- After the CSD read a card that is not SDHC/SDXC is sent CMD16. -/
theorem resume_initCsd (hc : v.code = .noError) (h : s.holdsRegister (s.sesCfg i).regbuf R) :
    resume (.initCsd i) v s =
      if (s.ses i).cardType ≠ .sdhcSdxc then
        startCmd i 16 Config.sdBlockLen .r1 false [.initBlkLen i] (s.setSes i { s.ses i with csd := R })
      else finalise i (s.setSes i { s.ses i with csd := R }) := by
  rw [resume, resumeInitCsd, ite_code_ok hc, h.needBacked, h.readBytes]
  simp only [regOfBytes_regBytes, State.ses_setSes_self]

/-! ## Finalisation -/

/-- The session with its sizes recorded. -/
def Session.sized (x : Session) : Session := { x with blockLen := 512, eraseSize := BitVec.ofNat 32 (eraseSizeOf x) }

theorem finalise_eq (i : Nat) (t : State) :
    finalise i t =
      if (t.ses i).crcEnabled then startCmd i 59 1 .r1 false [.initCrc i] (t.setSes i (t.ses i).sized)
      else initDone i (t.setSes i (t.ses i).sized) := by
  rw [finalise, State.ses_setSes_self]
  rfl

/-- Finalisation without CRC checking ends SD.INIT with an initialised session. -/
theorem finalise_done (h : S.crcEnabled = false) (ht : sesChanged i S s t) :
    ∃ u, finalise i t = endWith .noError u ∧ sesChanged i { S.sized with initialized := true } s u := by
  refine ⟨_, ?_, (ht.update Session.sized).update fun x => { x with initialized := true }⟩
  rw [finalise_eq, ht.self, if_neg (by simp [h])]
  rfl

theorem finalise_crc (h : S.crcEnabled = true) (ht : sesChanged i S s t) :
    finalise i t = startCmd i 59 1 .r1 false [.initCrc i] (t.setSes i (t.ses i).sized) := by
  rw [finalise_eq, ht.self, if_pos h]

end

/-- Settles O42: the register buffer is read into the session (`holdsRegister`), then the sizes are recorded
(`Session.sized`). -/
theorem initFinishes : Obligations.InitFinishes := by
  intro i v R s hs hb S buf k ends moves field size sized finalised
  have hself := sesChanged_refl i s
  have hsize : ∀ S' : Session, S'.sized = sized S' := fun S' => by
    have heq : eraseSizeOf S' = size S' := by
      simp only [eraseSizeOf, regField_bit]
      rfl
    rw [Session.sized, heq]
  have hfin : ∀ {f S' t}, resume f v s = finalise i t → sesChanged i S' s t → S'.crcEnabled = S.crcEnabled →
      finalised f S' := fun {f S' t} hf ht hcrc => by
    refine ⟨fun hoff => ?_, fun hon => ?_⟩
    · obtain ⟨u, hu, hdone⟩ := finalise_done (hcrc.trans hoff) ht
      exact initEnds_of_end hs hb (hf.trans hu) (hsize S' ▸ hdone)
    · exact sesMoves_of_ask (hf.trans (finalise_crc (hcrc.trans hon) ht)) (hsize S' ▸ ht.update Session.sized)
  refine ⟨fun hc f hf => ?_, fun hc hread => ?_, fun hc => hfin (ite_code_ok hc _ _) hself rfl, fun hc => ?_⟩
  · simp only [List.mem_cons, List.not_mem_nil, or_false] at hf
    rcases hf with rfl | rfl | rfl | rfl <;> exact initEnds_of_end hs hb (if_pos hc) hself
  · have hcsd := hself.update fun x => { x with csd := R }
    refine ⟨sesMoves_of_ask (resume_initCid hc hread) (hself.update fun x => { x with cid := R }), fun hT => ?_,
      fun hT => ?_⟩
    · exact sesMoves_of_ask ((resume_initCsd hc hread).trans (if_pos hT)) hcsd
    · exact hfin ((resume_initCsd hc hread).trans (if_neg (not_not.mpr hT))) hcsd rfl
  · exact initEnds_of_end hs hb (ite_code_ok hc _ _) (hself.update fun x => { x with initialized := true })

end Sys2Proof.Machine
end

section
/-! SUPPORT. WaitToken (44_sd_protocol.md R311, R312): its polls, and the close of its window. -/

namespace Sys2Proof.Machine

variable {b i : Nat} {rest : List Byte} {r : Byte} {k : List Frame} {s t : State}

/-- The code WaitToken ends with at a poll's outcome, where the poll ends it. -/
def tokenCode (v : Ret) : Code :=
  if v.code ≠ .noError then v.code else if v.byte ≠ 0xFF then classifyToken v.byte else .timeout

theorem resume_tokenPoll_again (h : (t.ses i).expired = false) :
    resume (.tokenPoll i) { code := .noError, byte := 0xFF, val := 0 } t = askByte i 0xFF [.tokenPoll i] t := by
  simp only [resume, resumeTokenPoll, h, ne_eq, not_true_eq_false, if_false, Bool.false_eq_true]
  rfl

theorem closeAndEnd_silent (hs : t.silent (t.sesCfg i).timeoutEnd) (c : Code) :
    closeAndEnd i c t = .next (.ret (.ofCode c) (shutWindow i (t.endCalled i))) := closeWindow_silent hs _ _ _

theorem resume_tokenPoll_end {v : Ret} (h : v.code ≠ .noError ∨ v.byte ≠ 0xFF ∨ (t.ses i).expired = true)
    (hs : t.silent (t.sesCfg i).timeoutEnd) :
    resume (.tokenPoll i) v t = .next (.ret (.ofCode (tokenCode v)) (shutWindow i (t.endCalled i))) := by
  simp only [resume, resumeTokenPoll, tokenCode]
  split
  · exact closeAndEnd_silent hs _
  · next hcode =>
    split
    · exact closeAndEnd_silent hs _
    · next hbyte =>
      rw [if_pos ((h.resolve_left hcode).resolve_left hbyte)]
      exact closeAndEnd_silent hs _

theorem highNibble_eq_zero (r : Byte) : r.extractLsb' 4 4 = 0 ↔ r.toNat < 16 := by
  rw [← BitVec.toNat_inj, BitVec.extractLsb'_toNat]
  have := r.isLt
  simp [Nat.shiftRight_eq_div_pow]
  omega

theorem classifyToken_eq (h : r ≠ 0xFE) :
    classifyToken r = if r.toNat < 16 then decodeErrToken r else .ioError := by
  simp only [classifyToken, h, if_false, highNibble_eq_zero]

theorem decodeErrToken_ne_noError (r : Byte) : decodeErrToken r ≠ .noError := by
  unfold decodeErrToken
  split_ifs <;> decide

/-- The code of a received byte that is not the start token, in R312's terms. -/
theorem tokenCode_received (h : r ≠ 0xFE) :
    tokenCode { code := .noError, byte := r, val := 0 } =
      if r = 0xFF then .timeout else if r.toNat < 16 then decodeErrToken r else .ioError := by
  simp only [tokenCode, classifyToken_eq h, ne_eq, not_true_eq_false, if_false, ite_not]

theorem tokenCode_ne_noError (h : r ≠ 0xFE) : tokenCode { code := .noError, byte := r, val := 0 } ≠ .noError := by
  rw [tokenCode_received h]
  split_ifs
  · decide
  · exact decodeErrToken_ne_noError r
  · decide

/-! ## FG at the poll -/

/-- The poll goes on at 0xFF while its window has not expired. -/
theorem tokenPoll_again (hw : s.wireFree i b) (hf : s.fg = .busy (.xchg b 0xFF) (.tokenPoll i :: k))
    (hexp : (s.ses i).expired = false) (ha : s.answersOf b = 0xFF :: rest) :
    ∃ t, agentStep exec .fg s = .next t ∧ movedTo s.fg [.wire, .answers] s t ∧ sentByte b 0xFF rest s t := by
  obtain ⟨t, hturn, hsent, hmoved⟩ := exchange_asks hw hf ha (resume_tokenPoll_again hexp)
  exact ⟨t, hturn, hf ▸ hmoved, hsent⟩

/-- A poll whose frame hands `w` back with its window shut. -/
theorem poll_shuts {f : Frame} {w : Ret} (hw : s.wireFree i b) (hf : s.fg = .busy (.xchg b 0xFF) (f :: k))
    (ha : s.answersOf b = r :: rest)
    (hr : resume f { code := .noError, byte := r, val := 0 } ((s.send b 0xFF).setAnswers b rest) =
      .next (.ret w (shutWindow i (((s.send b 0xFF).setAnswers b rest).endCalled i)))) :
    ∃ t, fgTurn exec s = unwind k w t ∧ framesSent b [0xFF] rest [.sess] (s.endCalled i) t
      ∧ t.ses i = { s.ses i with winOpen := false } ∧ ∀ j, j ≠ i → t.ses j = s.ses j := by
  have hread := handsBack_xchg hf hw ha
  exact ⟨_, (fgRun_one s).symm.trans (hread.run.trans (unwind_ret hr)),
    (hread.toframesSent.mono (List.nil_subset _)).closed i, State.ses_setSes_self _ i _,
    fun j hj => State.ses_setSes_ne _ _ hj.symm⟩

/-- A poll that ends the wait shuts its window and hands the code back. -/
theorem tokenPoll_ends (hw : s.wireFree i b) (hf : s.fg = .busy (.xchg b 0xFF) (.tokenPoll i :: k))
    (hend : r ≠ 0xFF ∨ (s.ses i).expired = true) (hs : s.silent (s.sesCfg i).timeoutEnd)
    (ha : s.answersOf b = r :: rest) :
    ∃ t, fgTurn exec s = unwind k (.ofCode (tokenCode { code := .noError, byte := r, val := 0 })) t
      ∧ framesSent b [0xFF] rest [.sess] (s.endCalled i) t
      ∧ t.ses i = { s.ses i with winOpen := false } ∧ ∀ j, j ≠ i → t.ses j = s.ses j :=
  poll_shuts hw hf ha (resume_tokenPoll_end (.inr hend) hs)

/-- A wait that ends with an error ends the operation where the frame below it does. -/
theorem tokenPoll_fails {f : Frame} (hw : s.wireFree i b) (hisr : s.isr = false)
    (hf : s.fg = .busy (.xchg b 0xFF) [.tokenPoll i, f, .finish .code]) (hs : s.silent (s.sesCfg i).timeoutEnd)
    (ha : s.answersOf b = r :: rest) (hend : r = 0xFF ∧ (s.ses i).expired = true ∨ r ≠ 0xFF ∧ r ≠ 0xFE)
    (hfail : ∀ c t, c ≠ .noError → resume f (.ofCode c) t = endWith c t) :
    ∃ t, agentStep exec .fg s = .next t ∧ sentByte b 0xFF rest s t
      ∧ endedWith (.code (if r = 0xFF then .timeout else if r.toNat < 16 then decodeErrToken r else .ioError))
        [.sess, .wire, .answers] (s.endCalled i) t
      ∧ t.ses i = { s.ses i with winOpen := false } ∧ ∀ j, j ≠ i → t.ses j = s.ses j := by
  have htoken : r ≠ 0xFE := hend.elim (fun h => h.1 ▸ by decide) And.right
  obtain ⟨t, hturn, hsent, hself, hothers⟩ :=
    tokenPoll_ends hw hf (hend.elim (fun h => .inr h.2) (fun h => .inl h.1)) hs ha
  rw [tokenCode_received htoken] at hturn
  refine ⟨_, hturn.trans (unwind_end_finish (hfail _ t ?_)), ?_, hsent.ends hisr _, ?_, ?_⟩
  · exact tokenCode_received htoken ▸ tokenCode_ne_noError htoken
  · exact hsent.sentEnd _
  · exact (State.ses_setRet t _ i).trans hself
  · exact fun j hj => (State.ses_setRet t _ j).trans (hothers j hj)

/-- A poll on a bus that another party made busy shuts the window and ends the operation with E_BUSY. -/
theorem tokenPoll_busy {f : Frame} (hready : s.busReady b) (hb : s.busy b = true) (hisr : s.isr = false)
    (hf : s.fg = .busy (.xchg b 0xFF) [.tokenPoll i, f, .finish .code]) (hs : s.silent (s.sesCfg i).timeoutEnd)
    (hfail : ∀ c t, c ≠ .noError → resume f (.ofCode c) t = endWith c t) :
    ∃ t, agentStep exec .fg s = .next t ∧ sesEnds i .busy { s.ses i with winOpen := false } (s.endCalled i) t :=
  ⟨_, (fgTurn_xchg_busy hf hready hb).trans ((unwind_ret (resume_tokenPoll_end (.inl (by decide)) hs)).trans
    (unwind_end_finish (hfail .busy _ (by decide)))), (sesChanged_shut i s).ends hisr .busy⟩

end Sys2Proof.Machine
end

section
/-! SUPPORT. The block transfers of SDI.RDBLK and SDI.WRBLK (44_sd_protocol.md R313, R315): their descriptors, BUS.XFER
and the wait for it. -/

namespace Sys2Proof.Machine

/-! ## BUS.XFER -/

theorem samePart_symm {p : Part} {s t : State} (h : samePart p s t) : samePart p t s := by
  cases p <;> simp only [samePart] at * <;> simp only [h, implies_true, and_self]

theorem changesOnly.symm {ps : List Part} {s t : State} (h : changesOnly ps s t) : changesOnly ps t s :=
  fun p hp => samePart_symm (h p hp)

theorem fgTurn_xfer {s : State} {b : Nat} {p n : Word} {k : List Frame} (hf : s.fg = .busy (.xfer b p n) k)
    (hready : s.busReady b) :
    fgTurn exec s = unwind k (.ofCode (startXfer b p n s).1) (startXfer b p n s).2 := by
  rw [fgTurn, hf]
  exact withBus_ready hready _

/-- What BUS.XFER leaves of FG's control state and of the configuration. -/
theorem startXfer_keeps (b : Nat) (p n : Word) (s : State) :
    changesOnly [.buses, .chans, .locks, .dirty] s (startXfer b p n s).2 := by
  obtain ⟨c, -, h⟩ | ⟨-, -, -, -, -, -, h⟩ := startXfer_cases b p n s <;> rw [h]
  · exact changesOnly_refl _ s
  · exact frame_startedXfer s b p n

/-- FG's BUS.XFER at the frame `g` of a block operation: on success the frame waits for the bus at `f`, else it ends. -/
theorem xferStep_of_resume {s : State} {b : Nat} {p n : Word} {f g : Frame} (hs : s.isr = false) (hready : s.busReady b)
    (hlt : b < 2 ^ 32) (hf : s.fg = .busy (.xfer b p n) [g, .finish .code])
    (hok : ∀ u : State, u.cfg = s.cfg → resume g (.ofCode .noError) u = .next (.wait (.busWait b) [f] u))
    (hfail : ∀ c u, c ≠ .noError → resume g (.ofCode c) u = endWith c u) : xferStep b p n f s := by
  have hnat : (BitVec.ofNat 32 b).toNat = b := by rw [BitVec.toNat_ofNat, Nat.mod_eq_of_lt hlt]
  have hkeeps := startXfer_keeps b p n s
  have hturn := fgTurn_xfer hf hready
  generalize hstart : startXfer b p n s = r at hkeeps hturn
  obtain ⟨c, u⟩ := r
  have hcfg : u.cfg = s.cfg := hkeeps .config (by decide)
  obtain ⟨-, hprog, hisr⟩ : samePart .control s u := hkeeps .control (by decide)
  have hret := State.setRet_ret u (.code c) (hisr.trans hs)
  refine ⟨u.setRet (.code c), ?_⟩
  have hexec := exec_busXfer (b := BitVec.ofNat 32 b) (p := p) (n := n) (s := s) (hnat.symm ▸ hready)
    (hnat.symm ▸ hstart)
  by_cases hc : c = .noError
  · subst hc
    refine ⟨_, hexec, hturn.trans (unwind_wait (hok u hcfg)), ?_, hprog, hisr, fun _ => rfl, fun c hne h => ?_⟩
    · exact ((frame_setRet u _).symm.trans (frame_setFg u _)).mono (by decide)
    · exact absurd (Result.code.inj (hret.symm.trans h)).symm hne
  · refine ⟨_, hexec, hturn.trans (unwind_end_finish (hfail c u hc)), (frame_setFg _ _).mono (by decide), ?_, ?_,
      fun h => ?_, fun d _ h => ⟨rfl, h⟩⟩
    · exact (State.setRet_prog u _).trans hprog
    · exact (State.setRet_isr u _).trans hisr
    · exact absurd (Result.code.inj (hret.symm.trans h)) hc

end Sys2Proof.Machine
end

section
/-! SUPPORT. SDI.RDBLK (44_sd_protocol.md R311 to R313; 20_memory.md R90). -/

namespace Sys2Proof.Machine

section
variable {b i : Nat} {dst n : Word} {check : Bool} {s t : State}

/-! ## The two descriptors -/

theorem State.writeDescs_pair {p : Word} (m m' : Msg) (h0 : s.descInFlight p 0 = false)
    (h1 : s.descInFlight p 1 = false) :
    State.writeDescs p 0 [m, m'] s = .next ((s.setDesc p 0 m).setDesc p 1 m') := by
  have h1' : (s.setDesc p 0 m).descInFlight p 1 = false := h1
  simp only [State.writeDescs, State.writeDesc_free m h0, andThen_next]
  rw [show (0 + 1 : Word) = 1 from rfl, State.writeDesc_free m' h1', andThen_next]

/-- Which descriptors are in flight depends on the configuration and the buses alone. -/
theorem State.descInFlight_congr (hc : t.cfg = s.cfg) (hb : ∀ n, t.bus n = s.bus n) (p q : Word) :
    t.descInFlight p q = s.descInFlight p q := by
  simp only [State.descInFlight, State.numBuses, hc, hb]

theorem State.bus_setTxDefault (s : State) (b : Nat) (v : Byte) (n : Nat) :
    (setTxDefault b v s).bus n = { s.bus n with txDefault := if b = n then v else (s.bus n).txDefault } := by
  rw [setTxDefault, State.bus_setBus]
  split
  · next h => rw [h]
  · rfl

theorem State.descInFlight_setTxDefault (s : State) (b : Nat) (v : Byte) (p q : Word) :
    (setTxDefault b v s).descInFlight p q = s.descInFlight p q := by
  simp only [State.descInFlight, State.bus_setTxDefault]
  rfl

/-- SDI.RDBLK's two descriptors written where neither is in flight. -/
def State.readList (s : State) (S : SdCfg) (dst n : Word) : State :=
  ((setTxDefault S.bus 0xFF s).setDesc S.msgs 0 (readMsg dst n)).setDesc S.msgs 1 (readMsg S.crcbuf 2)

theorem frame_readList (s : State) (S : SdCfg) (dst n : Word) :
    changesOnly [.buses, .descs] s (s.readList S dst n) :=
  ((frame_setBus s S.bus _).trans ((frame_setDesc _ _ _ _).trans (frame_setDesc _ _ _ _))).mono (by decide)

theorem State.bus_readList (s : State) (S : SdCfg) (dst n : Word) (m : Nat) :
    (s.readList S dst n).bus m =
      { s.bus m with txDefault := if S.bus = m then 0xFF else (s.bus m).txDefault } :=
  s.bus_setTxDefault S.bus 0xFF m

theorem State.desc_readList (s : State) (S : SdCfg) (dst n : Word) :
    (s.readList S dst n).desc S.msgs 0 = readMsg dst n ∧ (s.readList S dst n).desc S.msgs 1 = readMsg S.crcbuf 2
      ∧ ∀ p q : Word, p ≠ S.msgs ∨ 2 ≤ q.toNat → (s.readList S dst n).desc p q.toNat = s.desc p q.toNat := by
  refine ⟨?_, State.desc_setDesc_self _ S.msgs 1 _, fun p q h => ?_⟩
  · have hother := State.desc_setDesc_other ((setTxDefault S.bus 0xFF s).setDesc S.msgs 0 (readMsg dst n))
      (readMsg S.crcbuf 2) (p := S.msgs) (i := 1) (q := S.msgs) (j := 0) (.inr (by decide))
    exact hother.trans (State.desc_setDesc_self _ S.msgs 0 _)
  · have hindex : ∀ j : Word, j.toNat < 2 → p ≠ S.msgs ∨ q ≠ j := fun j hj =>
      h.imp_right fun hq hqj => absurd (hqj ▸ hq) (Nat.not_le.mpr hj)
    rw [State.readList, State.desc_setDesc_other _ _ (hindex 1 (by decide)),
      State.desc_setDesc_other _ _ (hindex 0 (by decide))]
    rfl

theorem resume_rdToken (h0 : s.descInFlight (s.sesCfg i).msgs 0 = false)
    (h1 : s.descInFlight (s.sesCfg i).msgs 1 = false) :
    resume (.rdToken i dst n check) (.ofCode .noError) s =
      .next (.wait (.xfer (s.sesBus i) (s.sesCfg i).msgs 2) [.rdXfer i dst n check]
        (s.readList (s.sesCfg i) dst n)) := by
  have hfree := State.descInFlight_setTxDefault s (s.sesCfg i).bus Config.sdFiller
  rw [resume, resumeRdToken, ite_code_ok rfl]
  simp only [State.writeDescs_pair _ _ ((hfree _ 0).trans h0) ((hfree _ 1).trans h1), andThen_next]
  rfl

/-! ## The check -/

/-- The block and its two trailer bytes can be read and no transfer is writing them. -/
structure State.blockReadable (s : State) (crcbuf dst n : Word) : Prop where
  block : ∀ k, k < n.toNat → s.backed (dst + BitVec.ofNat 32 k) = true ∧ s.dstInFlight (dst + BitVec.ofNat 32 k) = false
  high : s.backed crcbuf = true ∧ s.dstInFlight crcbuf = false
  low : s.backed (crcbuf + 1) = true ∧ s.dstInFlight (crcbuf + 1) = false

theorem checkBlock_eq {crcbuf : Word} (h : s.blockReadable crcbuf dst n) :
    checkBlock crcbuf dst n s = endWith
      (if crc16 ((List.range n.toNat).map fun k => s.mem.read (dst + BitVec.ofNat 32 k)) =
        s.mem.read crcbuf ++ s.mem.read (crcbuf + 1) then .noError else .crc) s := by
  have htrailer : ∀ k, k < 2 → s.backed (crcbuf + BitVec.ofNat 32 k) = true := fun k hk => by
    interval_cases k
    · exact (BitVec.add_zero crcbuf).symm ▸ h.high.1
    · exact h.low.1
  rw [checkBlock, State.needBacked_eq _ fun k hk => (h.block k hk).1, State.needBacked_eq _ htrailer,
    State.readBytes_eq _ _ _ fun k hk => State.readOpen_of_free (h.block k hk).2]
  simp only [State.readByte_eq (State.readOpen_of_free h.high.2), State.readByte_eq (State.readOpen_of_free h.low.2)]

end

/-- Settles O48: the poll hands its code to the frame below (`tokenPoll_ends`), which writes its two descriptors, does
BUS.XFER (`xferStep_of_resume`), waits and checks (`checkBlock_eq`). -/
theorem readBlock : Obligations.ReadBlock := by
  intro i dst n check r rest s hs S b v hready poll
  have hfail : ∀ c t, c ≠ .noError → resume (.rdToken i dst n check) (.ofCode c) t = endWith c t := fun c t hc =>
    if_pos hc
  refine ⟨fun hb hend hf => tokenPoll_busy hready hb hs hf hend hfail, fun hb hend hf ha => ?_,
    fun p m hlt hf => ?_, fun hf => ?_⟩
  · have hw : s.wireFree i b := ⟨rfl, hready, hb⟩
    refine ⟨fun hr h0 h1 => ?_, fun hr hexp => tokenPoll_again hw hf hexp (hr ▸ ha),
      fun hr => tokenPoll_fails hw hs hf hend ha hr hfail⟩
    subst hr
    obtain ⟨t, hturn, hsent, hself, hothers⟩ := tokenPoll_ends hw hf (.inl (by decide)) hend ha
    have hcfg : t.cfg = s.cfg := hsent.cfg
    have hses : t.sesCfg i = S := hsent.sesCfg i
    have hbus : ∀ m, t.bus m = s.bus m := hsent.frame .buses (by decide)
    have hdesc : ∀ p q, t.desc p q = s.desc p q := hsent.frame .descs (by decide)
    have hfree := State.descInFlight_congr hcfg hbus
    have hnext := unwind_wait (k := [.finish .code])
      (resume_rdToken (dst := dst) (n := n) (check := check) (by rw [hses, hfree, h0]) (by rw [hses, hfree, h1]))
    rw [State.sesBus, hses] at hnext
    have hlist := hsent.keep (frame_readList t S dst n)
    obtain ⟨hfirst, hsecond, hrest⟩ := t.desc_readList S dst n
    refine ⟨_, hturn.trans hnext, hlist.sentByte, hlist.moves _, hself, hothers, ?_, fun b' hne => ?_, hfirst, hsecond,
      fun p q h => (hrest p q h).trans (hdesc p q.toNat)⟩
    · rw [State.bus_setFg, State.bus_readList, if_pos rfl, hbus]
    · rw [State.bus_setFg, State.bus_readList, if_neg hne.symm, hbus]
  · refine xferStep_of_resume hs hready hlt hf (fun u hu => ?_) (fun c u hc => if_pos hc)
    rw [resume, resumeRdXfer, ite_code_ok rfl, State.sesBus, State.sesCfg, hu]
    rfl
  · have hturn := fgTurn_busWait hf hready
    have hdone : ∀ {c : Code}, (s.bus b).status ≠ .transferring →
        resume (.rdWait i dst n check) (.ofCode .noError) s = endWith c s →
        ∃ t, agentStep exec .fg s = .next t ∧ endedWith (.code c) [] s t := fun hwait h =>
      ⟨_, hturn.trans ((if_neg hwait).trans (unwind_end_finish h)),
        endedWith_setRet (changesOnly_refl [] s) (by decide) hs _⟩
    refine ⟨fun h => hturn.trans (if_pos h), fun hwait h => hdone hwait (if_pos h), fun h hcheck => ?_,
      fun h hcheck hblock hhigh hlow hhighFree hlowFree => ?_⟩
    · exact hdone (by rw [h]; decide) ((if_neg (not_not.mpr h)).trans (if_neg (by simp [hcheck])))
    · exact hdone (by rw [h]; decide) ((if_neg (not_not.mpr h)).trans ((if_pos hcheck).trans
        (checkBlock_eq ⟨hblock, ⟨hhigh, hhighFree⟩, ⟨hlow, hlowFree⟩⟩)))

end Sys2Proof.Machine
end

section
/-! SUPPORT. SDI.WRBLK (44_sd_protocol.md R311, R314, R315; 20_memory.md R90). -/

namespace Sys2Proof.Machine

section
variable {b i n : Nat} {src : Word} {rest : List Byte} {r : Byte} {k : List Frame} {v : Ret} {s t : State}

/-! ## The descriptor and the trailer -/

theorem resume_wrToken (h : s.descInFlight (s.sesCfg i).msgs 0 = false) (hc : v.code = .noError) :
    resume (.wrToken i src) v s =
      .next (.wait (.xfer (s.sesBus i) (s.sesCfg i).msgs 1) [.wrXfer i src]
        (s.setDesc (s.sesCfg i).msgs 0 (writeMsg src 512))) := by
  rw [resume, resumeWrToken, ite_code_ok hc]
  simp only [State.writeDescs, State.writeDesc_free _ h, andThen_next]
  rfl

/-- The block's CRC-16 goes out high byte first. -/
theorem resume_wrWait (hstatus : (s.bus (s.sesBus i)).status = .transferred)
    (hblock : ∀ k, k < 512 → s.backed (src + BitVec.ofNat 32 k) = true
      ∧ s.dstInFlight (src + BitVec.ofNat 32 k) = false) :
    resume (.wrWait i src) v s =
      let c := crc16 ((List.range 512).map fun k => s.mem.read (src + BitVec.ofNat 32 k))
      askByte i (c.extractLsb' 8 8) [.wrCrcHi i (c.extractLsb' 0 8)] s := by
  rw [resume, resumeWrWait, if_neg (not_not.mpr hstatus), show Config.sdBlockLen.toNat = 512 from rfl,
    State.needBacked_eq _ fun k hk => (hblock k hk).1,
    State.readBytes_eq _ _ _ fun k hk => State.readOpen_of_free (hblock k hk).2]

/-! ## The data response -/

theorem resume_dataResp_reply (h : r &&& 0x11 = 0x01) :
    resume (.dataResp i n) { code := .noError, byte := r, val := 0 } s =
      .next (.ret { code := .noError, byte := (r.extractLsb' 1 3).setWidth 8, val := 0 } s) :=
  if_pos h

theorem resume_dataResp_again (h : r &&& 0x11 ≠ 0x01) (hn : n < 8) :
    resume (.dataResp i n) { code := .noError, byte := r, val := 0 } s = askByte i 0xFF [.dataResp i (n + 1)] s :=
  (if_neg h).trans (if_pos hn)

theorem resume_dataResp_timeout (h : r &&& 0x11 ≠ 0x01) (hn : 8 ≤ n) :
    resume (.dataResp i n) { code := .noError, byte := r, val := 0 } s = endWith .timeout s :=
  (if_neg h).trans (if_neg (Nat.not_lt.mpr hn))

/-! ## The busy wait after it -/

/-- A poll that ends the busy wait shuts its window and hands the code back. -/
theorem busyPoll_handsBack (hw : s.wireFree i b) (hf : s.fg = .busy (.xchg b 0xFF) (.busyPoll i :: k))
    (hend : r = 0xFF ∨ (s.ses i).expired = true) (hs : s.silent (s.sesCfg i).timeoutEnd)
    (ha : s.answersOf b = r :: rest) :
    ∃ t, fgTurn exec s = unwind k (.ofCode (if r = 0xFF then .noError else .timeout)) t
      ∧ framesSent b [0xFF] rest [.sess] (s.endCalled i) t
      ∧ t.ses i = { s.ses i with winOpen := false } ∧ ∀ j, j ≠ i → t.ses j = s.ses j :=
  poll_shuts hw hf ha (resume_busyPoll_end (.inr hend) hs)

/-- The data-response status chooses the code (44_sd_protocol.md R315). -/
theorem writeResult_setWidth (sss : BitVec 3) (eb : Code) :
    writeResult (sss.setWidth 8) eb = if sss = 0b010 then eb else if sss = 0b101 then .crc else .ioError := by
  have hstatus : ∀ x y : BitVec 3, x.setWidth 8 = y.setWidth 8 ↔ x = y := by decide
  simp only [writeResult, show (0b010 : Byte) = (0b010 : BitVec 3).setWidth 8 from rfl,
    show (0b101 : Byte) = (0b101 : BitVec 3).setWidth 8 from rfl, hstatus]

end

/-- Settles O49: each exchange goes on, opens the busy wait or ends (`exchange_asks`, `framesSent.ends`); BUS.XFER is
`xferStep_of_resume`, and the end of the busy wait `busyPoll_handsBack`. -/
theorem writeBlock : Obligations.WriteBlock := by
  intro i n src token r lo rest s hs S b v hready
  refine ⟨fun hb ha => ?_, fun hb k hk hf => ?_, fun p m hlt hf => ?_, fun hf => ?_⟩
  · have hw : s.wireFree i b := ⟨rfl, hready, hb⟩
    refine ⟨fun hf hfree => ?_, fun hf => exchange_asks hw hf ha rfl,
      fun hf => exchange_asks hw hf ha rfl, fun hf => ⟨fun hresp hbegin => ?_,
        fun hresp hn => exchange_asks hw hf ha (resume_dataResp_again hresp hn), fun hresp hn => ?_⟩,
      fun sss hf hend hpoll => ?_⟩
    · have hread := handsBack_xchg hf hw ha
      have hnext := hread.run.trans (unwind_wait (resume_wrToken hfree rfl))
      have hdesc := hread.toframesSent.keep (frame_setDesc _ S.msgs 0 (writeMsg src 512))
      exact ⟨_, (fgRun_one s).symm.trans hnext, hdesc.sentByte, hdesc.moves _,
        State.desc_setDesc_self ((s.send b token).setAnswers b rest) S.msgs 0 (writeMsg src 512),
        fun p q h => State.desc_setDesc_other ((s.send b token).setAnswers b rest) (writeMsg src 512) h⟩
    · have hread := (handsBack_xchg hf hw ha).ret (resume_dataResp_reply hresp)
      have hopen := hread.toframesSent.opened i s.cfg.timeoutBusy
      have hnext := hread.run.trans
        (unwind_wait (startBusyWait_silent (s := (s.send b 0xFF).setAnswers b rest) hbegin _))
      exact ⟨_, (fgRun_one s).symm.trans hnext, hopen.sentByte, hopen.moves _, State.ses_setSes_self _ i _,
        fun j hj => State.ses_setSes_ne _ _ hj.symm⟩
    · have hread := handsBack_xchg hf hw ha
      have hnext := hread.run.trans ((unwind_end (resume_dataResp_timeout hresp hn)).trans (unwind_end_finish rfl))
      exact ⟨_, (fgRun_one s).symm.trans hnext, hread.toframesSent.sentEnd _, hread.toframesSent.ends hs _⟩
    · obtain ⟨t, hturn, hsent, hself, hothers⟩ := busyPoll_handsBack hw hf hpoll hend ha
      rw [← writeResult_setWidth]
      refine ⟨_, hturn.trans (unwind_end_finish rfl), hsent.sentEnd _, hsent.ends hs _, ?_, fun j hj => ?_⟩
      · exact (State.ses_setRet t _ i).trans hself
      · exact (State.ses_setRet t _ j).trans (hothers j hj)
  · have hturn := fgTurn_xchg_busy hf hready hb
    refine ⟨_, hturn.trans ?_, endedWith_setRet (changesOnly_refl [] s) (by decide) hs _⟩
    simp only [List.mem_cons, List.not_mem_nil, or_false] at hk
    rcases hk with rfl | rfl | rfl | rfl
    · exact unwind_end_finish rfl
    · exact unwind_end_finish rfl
    · exact unwind_end_finish rfl
    · exact (unwind_end rfl).trans (unwind_end_finish rfl)
  · refine xferStep_of_resume hs hready hlt hf (fun u hu => ?_) (fun c u hc => if_pos hc)
    rw [resume, resumeWrXfer, ite_code_ok rfl, State.sesBus, State.sesCfg, hu]
    rfl
  · have hturn := fgTurn_busWait hf hready
    refine ⟨fun h => hturn.trans (if_pos h), fun hwait h => ?_, fun h hblock => ?_⟩
    · exact ⟨_, hturn.trans ((if_neg hwait).trans (unwind_end_finish (if_pos h))),
        endedWith_setRet (changesOnly_refl [] s) (by decide) hs _⟩
    · have hwait : (s.bus b).status ≠ .transferring := by rw [h]; decide
      exact ⟨_, hturn.trans ((if_neg hwait).trans (unwind_wait (resume_wrWait h hblock))), rfl, rfl, rfl,
        frame_setFg s _⟩

end Sys2Proof.Machine
end

section
/-! SUPPORT. The data operations between their first command and their end (44_sd_protocol.md R310, R316, R317, R333 to
R338). -/

namespace Sys2Proof.Machine

section
variable {i n : Nat} {S : Session} {sector count buf dst : Word} {f : Frame} {k : List Frame} {v : Ret} {s t : State}

/-! ## The end (44_sd_protocol.md R310) -/

/-- SdEnd deasserts chip-select and the operation ends with the code handed back. -/
theorem sesChanged.sdEnd (h : sesChanged i S s t) (hs : s.isr = false) (v : Ret) :
    ∃ u, unwind [.sdEnd i, .finish .code] v t = .next u ∧ sesEnds i v.code { S with csAsserted := false } s u :=
  ⟨_, unwind_end_finish (resume_sdEnd i v t), (h.update fun x => { x with csAsserted := false }).ends hs _⟩

/-- A place that ends with a code leads to SdEnd. -/
theorem sdEnds_of_end {c : Code} (hs : s.isr = false) (h : resume f v s = endWith c s) :
    ∃ t, unwind [f, .sdEnd i, .finish .code] v s = .next t
      ∧ sesEnds i c { s.ses i with csAsserted := false } s t := by
  rw [unwind_end h]
  exact (sesChanged_refl i s).sdEnd hs _

/-! ## The loops (44_sd_protocol.md R335, R337) -/

theorem readnLoop_more (h : n < count.toNat) :
    readnLoop i sector count dst n s =
      startRdBlk i (blockAddr dst n) 512 (s.ses i).crcEnabled [.readnBlk i sector count dst n] s := if_pos h

theorem readnLoop_over (h : count.toNat ≤ n) :
    readnLoop i sector count dst n s = startStopR i [.readnStop i .noError sector n] s := if_neg (Nat.not_lt.mpr h)

theorem writenLoop_more (h : n < count.toNat) :
    writenLoop i count buf n s = startWrBlk i (blockAddr buf n) 0xFC [.writenBlk i count buf n] s := if_pos h

theorem writenLoop_over (h : count.toNat ≤ n) :
    writenLoop i count buf n s = startStopW i [.writenStop .noError] s := if_neg (Nat.not_lt.mpr h)

theorem blockAddr_zero (buf : Word) : blockAddr buf 0 = buf := by simp [blockAddr]

/-! ## The codes of the multi-block operations (44_sd_protocol.md R335 to R338) -/

theorem resume_readnStop (eb : Code) :
    resume (.readnStop i eb sector n) v s =
      endWith (if eb ≠ .noError then eb
        else if v.code = .sdOutOfRange ∧ sector.toNat + n = sectorCount (s.ses i) then .noError else v.code) s := by
  simp only [resume, resumeReadnStop, readNResult, beq_iff_eq]

theorem resume_writenStop (eb : Code) :
    resume (.writenStop eb) v s = endWith (if eb ≠ .noError then eb else v.code) s := by
  simp only [resume, resumeWritenStop, firstCode, ite_not]

end

/-- Settles O50: a place goes on with a block, a stop or the next command (`sesMoves_of_ask`), or leads to SdEnd
(`sdEnds_of_end`). -/
theorem dataOperationsGoOn : Obligations.DataOperationsGoOn := by
  intro i n sector count buf v s hs S b k opened ends moves reads writes stopsR stopsW block
  have hself := sesChanged_refl i s
  have hreads : ∀ {f dst after}, resume f v s = startRdBlk i dst 512 S.crcEnabled after s → reads f dst after :=
    fun h hbegin => sesMoves_of_ask (h.trans (startWaitToken_silent hbegin _)) (sesChanged_windowOpened i s _)
  have hwrites : ∀ {f token src after}, resume f v s = startWrBlk i src token after s → writes f token src after :=
    fun h => sesMoves_of_ask h hself
  refine ⟨fun hc => ⟨fun f hf => ?_, sesMoves_of_ask (if_pos hc) hself, sesMoves_of_ask (if_pos hc) hself⟩,
    fun hc => ⟨hreads (ite_code_ok hc _ _), hwrites (ite_code_ok hc _ _), fun hcount => ?_, fun hn => ?_, fun hn => ?_⟩,
    fun k' => ⟨fun hc hmode => ?_, fun h => unwind_end ?_, fun hc hbegin => ?_, fun hc => unwind_end (if_pos hc)⟩⟩
  · simp only [List.mem_cons, List.not_mem_nil, or_false] at hf
    rcases hf with rfl | rfl | rfl | rfl <;> exact sdEnds_of_end hs (if_pos hc)
  · have hpos : 0 < count.toNat := Nat.pos_of_ne_zero (BitVec.toNat_ne_iff_ne.mpr hcount)
    refine ⟨hreads ?_, hwrites ?_⟩
    · exact (ite_code_ok hc _ _).trans ((readnLoop_more hpos).trans (by rw [blockAddr_zero]))
    · exact (ite_code_ok hc _ _).trans ((writenLoop_more hpos).trans (by rw [blockAddr_zero]))
  · exact ⟨hreads ((ite_code_ok hc _ _).trans (readnLoop_more hn)),
      hwrites ((ite_code_ok hc _ _).trans (writenLoop_more hn))⟩
  · exact ⟨sesMoves_of_ask ((ite_code_ok hc _ _).trans (readnLoop_over hn)) hself,
      sesMoves_of_ask ((ite_code_ok hc _ _).trans (writenLoop_over hn)) hself⟩
  · exact sesMoves_of_ask (if_pos ⟨hc, hmode⟩) hself
  · refine if_neg fun hboth => ?_
    rcases h with h | h
    · exact h hboth.1
    · exact absurd (h.symm.trans hboth.2) (by decide)
  · exact sesMoves_of_ask ((ite_code_ok hc _ _).trans (startBusyWait_silent hbegin _)) (sesChanged_windowOpened i s _)

/-- Settles O51: SdEnd ends the operation with the code of the place above it. -/
theorem dataOperationsEnd : Obligations.DataOperationsEnd := fun i _ eb _ v s hs =>
  ⟨(sesChanged_refl i s).sdEnd hs v, sdEnds_of_end hs (resume_readnStop eb), sdEnds_of_end hs (resume_writenStop eb)⟩

end Sys2Proof.Machine
end

section
/-! SUPPORT. SDI.RDREG after its command (44_sd_protocol.md R311, R312, R318; 43_sd_framing.md R262; 20_memory.md
R88). -/

namespace Sys2Proof.Machine

section
variable {b i : Nat} {dst : Word} {got l w rest : List Byte} {r : Byte} {k : List Frame} {ps : List Part}
  {s t u : State}

/-! ## The sixteen bytes -/

theorem resume_regByte_more (h : got.length < 15) :
    resume (.regByte i dst got) { code := .noError, byte := r, val := 0 } s =
      askByte i 0xFF [.regByte i dst (got ++ [r])] s := if_pos h

theorem resume_regByte_last (h : got.length = 15) :
    resume (.regByte i dst got) { code := .noError, byte := r, val := 0 } s =
      askByte i 0xFF [.regTail i dst (got ++ [r]) 1] s := if_neg (by omega)

/-- FG takes the bytes that fill the register. -/
theorem regByte_reads (hw : s.wireFree i b) (hf : s.fg = .busy (.xchg b 0xFF) (.regByte i dst got :: k))
    (hlen : got.length + l.length = 16) (hl : l ≠ []) (ha : s.answersOf b = l ++ rest) :
    ∃ t, runsTo b (List.replicate l.length 0xFF) rest s t
      ∧ t.fg = .busy (.xchg b 0xFF) (.regTail i dst (got ++ l) 1 :: k) := by
  induction l generalizing got s with
  | nil => exact absurd rfl hl
  | cons v l ih =>
    rw [List.length_cons] at hlen
    have hread := handsBack_xchg hf hw ha
    cases l with
    | nil => exact ⟨_, hread.ask hw (resume_regByte_last (by simpa using hlen)), rfl⟩
    | cons v' l =>
      rw [List.length_cons] at hlen
      have hrun := hread.ask hw (resume_regByte_more (by omega))
      obtain ⟨t, ht, hfg⟩ := ih (hrun.toframesSent.wireFree hw) rfl (by simp; omega) (List.cons_ne_nil v' l)
        hrun.answers
      refine ⟨t, hrun.trans ht, hfg.trans ?_⟩
      rw [List.append_assoc, List.singleton_append]

/-! ## The two bytes after them, the check and the copy -/

theorem resume_regTail_more :
    resume (.regTail i dst w 1) { code := .noError, byte := r, val := 0 } s = askByte i 0xFF [.regTail i dst w 2] s :=
  rfl

theorem registerOk_iff (w : List Byte) :
    registerOk w = true ↔ crc7 (w.take 15) = (w.getD 15 0).extractLsb' 1 7 := by rw [registerOk, beq_iff_eq]

theorem resume_regTail_bad (h : registerOk w = false) :
    resume (.regTail i dst w 2) { code := .noError, byte := r, val := 0 } s = endWith .crc s := if_pos h

theorem resume_regTail_good (h : registerOk w = true)
    (hb : ∀ n, n < w.length → s.backed (dst + BitVec.ofNat 32 n) = true) :
    resume (.regTail i dst w 2) { code := .noError, byte := r, val := 0 } s =
      endWith .noError (State.writeBytes dst w.reverse s) :=
  (if_neg (by simp [h])).trans (State.needBacked_eq _ hb)

/-- FG receives the register and the two bytes after it, and is about to check it. -/
theorem regByte_arrives {c1 c2 : Byte} (hw : s.wireFree i b)
    (hf : s.fg = .busy (.xchg b 0xFF) (.regByte i dst [] :: k)) (hlen : w.length = 16)
    (ha : s.answersOf b = w ++ c1 :: c2 :: rest) :
    ∃ t, handsBack b (List.replicate 18 0xFF) rest (.regTail i dst w 2 :: k)
      { code := .noError, byte := c2, val := 0 } s t := by
  obtain ⟨t, ht, hfg⟩ := regByte_reads hw hf (by simpa using hlen) (by rintro rfl; simp at hlen) ha
  have hwt := ht.toframesSent.wireFree hw
  have hmore := (handsBack_xchg hfg hwt ht.answers).ask hwt resume_regTail_more
  have hlast := handsBack_xchg rfl (hmore.toframesSent.wireFree hwt) hmore.answers
  have hall := ht.handsBack (hmore.handsBack hlast)
  rw [hlen] at hall
  exact ⟨_, hall⟩

theorem changesOnly.dstInFlight (h : changesOnly ps s t)
    (hp : Part.config ∉ ps ∧ Part.buses ∉ ps ∧ Part.descs ∉ ps := by decide) (a : Word) :
    t.dstInFlight a = s.dstInFlight a := by
  have hcfg : t.cfg = s.cfg := h .config hp.1
  have hbus : ∀ b, t.bus b = s.bus b := h .buses hp.2.1
  have hdesc : ∀ p n, t.desc p n = s.desc p n := h .descs hp.2.2
  simp only [State.dstInFlight, State.dstInFlightOn, State.transfer, State.descList, State.numBuses, hcfg, hbus,
    State.descsFrom_congr (hdesc _)]

/-- What was written since `t` was written since `s`, where only other parts changed before it. -/
theorem wroteBytes.of_frame {a : Word} (h : wroteBytes a l t u) (hc : changesOnly ps s t)
    (hp : (Part.config ∉ ps ∧ Part.buses ∉ ps ∧ Part.descs ∉ ps) ∧ Part.mem ∉ ps ∧ Part.draws ∉ ps := by decide) :
    wroteBytes a l s u := by
  have hread : ∀ c, t.mem.read c = s.mem.read c := hc .mem hp.2.1
  have hdraws : t.draws = s.draws := hc .draws hp.2.2
  simpa only [wroteBytes, hread, hdraws, hc.dstInFlight hp.1] using h

end

/-- Settles O52: the poll hands its code to `regToken` (`tokenPoll_ends`); the data are one run of FG
(`regByte_arrives`), then the check. -/
theorem registerReads : Obligations.RegisterReads := by
  intro i n dst w rest c1 c2 r v s hs b poll data shut hready
  have hfail : ∀ c t, c ≠ .noError → resume (.regToken i dst) (.ofCode c) t = endWith c t := fun c t hc => if_pos hc
  refine ⟨fun k => ⟨fun hc => unwind_end (if_pos hc), fun hc hbegin => ?_⟩, fun hb hf ha => ?_, fun hb => ?_,
    fun hb hf hlen ha hbacked => ?_⟩
  · exact sesMoves_of_ask ((ite_code_ok hc _ _).trans (startWaitToken_silent hbegin _)) (sesChanged_windowOpened i s _)
  · have hw : s.wireFree i b := ⟨rfl, hready, hb⟩
    refine ⟨fun hr hexp => tokenPoll_again hw hf hexp (hr ▸ ha), fun hend => ⟨fun hr => ?_,
      fun hr => tokenPoll_fails hw hs hf hend ha hr hfail⟩⟩
    subst hr
    obtain ⟨t, hturn, hsent, hself, hothers⟩ := tokenPoll_ends hw hf (.inl (by decide)) hend ha
    have hnext := unwind_ask (f := .regToken i dst) (v := .ofCode .noError) (k := [.finish .code]) (s := t) rfl
    rw [State.sesBus, hsent.sesCfg i] at hnext
    exact ⟨_, hturn.trans hnext, hsent.sentByte, hsent.moves _, hself, hothers⟩
  · refine ⟨fun hf hend => tokenPoll_busy hready hb hs hf hend hfail, fun f hmem hf => ?_⟩
    refine ⟨_, (fgTurn_xchg_busy hf hready hb).trans (unwind_end_finish ?_),
      endedWith_setRet (changesOnly_refl [] s) (by decide) hs (.code .busy)⟩
    simp only [List.mem_cons, List.not_mem_nil, or_false] at hmem
    rcases hmem with rfl | rfl <;> rfl
  · obtain ⟨t, ht⟩ := regByte_arrives ⟨rfl, hready, hb⟩ hf hlen ha
    refine ⟨fun hcrc => ?_, fun hcrc => ?_⟩
    · have hback : ∀ n, n < w.length → t.backed (dst + BitVec.ofNat 32 n) = true := fun n hn => by
        rw [State.backed, ht.toframesSent.cfg]
        exact hbacked n (hlen ▸ hn)
      have hwrote := ht.toframesSent.keep (frame_writeBytes w.reverse dst t)
      refine ⟨_, ht.run.trans (unwind_end_finish (resume_regTail_good ((registerOk_iff w).mpr hcrc) hback)),
        hwrote.exchanged _, hwrote.ret hs _, ?_⟩
      exact ((wroteBytes_writeBytes w.reverse dst t (by simp [hlen])).of_frame ht.frame).setRet _
    · have hbad : registerOk w = false := (Bool.not_eq_true _).mp (mt (registerOk_iff w).mp hcrc)
      exact ⟨_, ht.run.trans (unwind_end_finish (resume_regTail_bad hbad)),
        ht.toframesSent.exchanged _, ht.toframesSent.ret hs _⟩

end Sys2Proof.Machine
end

section
/-! SUPPORT. ADP.COMPLETE and ADP.DISPATCH (45_adapter_contract.md R385 to R387): an adapter's operation completed under
its own id, and the first adapter of a list to which a completion belongs. -/

namespace Sys2Proof.Machine

/-! ## An operation finished -/

/-- The state after adapter `a` deasserted its chip-select and finished its future with code `c`. -/
def State.adpFinished (s : State) (a : Nat) (c : Code) : State :=
  finishFuture (s.adpCfg a).fut (codeWord c) (setAdapterCs a false s)

/-- What finishing adapter `a`'s operation with code `c` leaves of the futures and the adapters. -/
structure finishesAdapter (a : Nat) (c : Code) (s t : State) : Prop where
  fut : t.fut (s.adpCfg a).fut = { result := codeWord c, done := true, running := false }
  otherFut : ∀ f, f ≠ (s.adpCfg a).fut → t.fut f = s.fut f
  adp : t.adp a = { csAsserted := false }
  otherAdp : ∀ m, m ≠ a → t.adp m = s.adp m

theorem frame_adpFinished (s : State) (a : Nat) (c : Code) : changesOnly [.adps, .futs] s (s.adpFinished a c) :=
  (frame_setAdapterCs a false s).trans (frame_finishFuture _ _ _)

theorem finishesAdapter_adpFinished (s : State) (a : Nat) (c : Code) : finishesAdapter a c s (s.adpFinished a c) where
  fut := State.fut_setFut_self _ _ _
  otherFut _ hf := State.fut_setFut_ne (setAdapterCs a false s) _ hf.symm
  adp := State.adp_setAdp_self s a { csAsserted := false }
  otherAdp _ hm := State.adp_setAdp_ne s { csAsserted := false } hm.symm

/-- A change of other parts keeps what was finished. -/
theorem finishesAdapter.frame {a : Nat} {c : Code} {s t u : State} {ps : List Part} (h : finishesAdapter a c s t)
    (hc : changesOnly ps t u) (hp : .futs ∉ ps ∧ .adps ∉ ps) : finishesAdapter a c s u := by
  have hfut : ∀ f, u.fut f = t.fut f := hc .futs hp.1
  have hadp : ∀ m, u.adp m = t.adp m := hc .adps hp.2
  refine ⟨?_, ?_, ?_, ?_⟩ <;> simp only [hfut, hadp]
  · exact h.fut
  · exact h.otherFut
  · exact h.adp
  · exact h.otherAdp

/-! ## Whose completion it is -/

theorem completeOp_own {a : Nat} {s : State} (h : (s.bus (s.adpCfg a).bus).transferId = (s.adpCfg a).id) :
    completeOp a s = (true, s.adpFinished a (s.adpResult (s.adpCfg a).bus)) := by
  simp [completeOp, h, State.adpFinished]

theorem completeOp_other {a : Nat} {s : State} (h : (s.bus (s.adpCfg a).bus).transferId ≠ (s.adpCfg a).id) :
    completeOp a s = (false, s) := by
  simp [completeOp, h]

/-- Adapters whose id is not on their bus are passed over. -/
theorem dispatch_append {pre : List Nat} {s : State}
    (h : ∀ m ∈ pre, (s.bus (s.adpCfg m).bus).transferId ≠ (s.adpCfg m).id) (rest : List Nat) :
    dispatch (pre ++ rest) s = dispatch rest s := by
  induction pre with
  | nil => rfl
  | cons m pre ih =>
    obtain ⟨hm, hpre⟩ := List.forall_mem_cons.mp h
    rw [List.cons_append, dispatch, completeOp_other hm]
    exact ih hpre

theorem dispatch_cons_own {a : Nat} {s : State} (h : (s.bus (s.adpCfg a).bus).transferId = (s.adpCfg a).id)
    (rest : List Nat) : dispatch (a :: rest) s = s.adpFinished a (s.adpResult (s.adpCfg a).bus) := by
  rw [dispatch, completeOp_own h]
  rfl

/-- Bus `b`'s list is one of its own adapters, and adapter `n` is the first in it under the id on the bus. -/
structure State.ownedBy (s : State) (b n : Nat) : Prop where
  onBus : ∀ m ∈ (s.busCfg b).adapters, (s.adpCfg m).bus = b
  first : ∃ pre post, (s.busCfg b).adapters = pre ++ n :: post ∧ ∀ m ∈ pre, (s.adpCfg m).id ≠ (s.bus b).transferId
  id : (s.adpCfg n).id = (s.bus b).transferId

/-- Who owns a bus depends on the configuration and the id on the bus alone. -/
theorem State.ownedBy.congr {s t : State} {b n : Nat} (h : s.ownedBy b n) (hcfg : t.cfg = s.cfg)
    (hid : (t.bus b).transferId = (s.bus b).transferId) : t.ownedBy b n := by
  obtain ⟨hbus, hfirst, hown⟩ := h
  constructor <;> simpa only [State.busCfg, State.adpCfg, hcfg, hid]

/-- The dispatcher completes the owner's operation. -/
theorem State.ownedBy.dispatch_eq {s : State} {b n : Nat} (h : s.ownedBy b n) :
    dispatch (s.busCfg b).adapters s = s.adpFinished n (s.adpResult b) := by
  obtain ⟨pre, post, hlist, hpre⟩ := h.first
  have hbus : ∀ m ∈ pre ++ n :: post, (s.adpCfg m).bus = b := hlist ▸ h.onBus
  have hn : (s.adpCfg n).bus = b := hbus n (by simp)
  have hother : ∀ m ∈ pre, (s.bus (s.adpCfg m).bus).transferId ≠ (s.adpCfg m).id := fun m hm => by
    rw [hbus m (by simp [hm])]
    exact (hpre m hm).symm
  rw [hlist, dispatch_append hother, dispatch_cons_own (by rw [hn, h.id]), hn]

/-! ## The operations -/

theorem exec_adpComplete {a : Word} {s : State} (ha : a.toNat < s.cfg.adapters.length)
    (hready : s.busReady (s.adpCfg a.toNat).bus) :
    exec (.adpComplete a) s =
      .next ((completeOp a.toNat s).2.setRet (.value (flagWord (completeOp a.toNat s).1))) :=
  (withAdapter_eq _ ha).trans (withBus_ready hready _)

theorem exec_adpDispatch {b : Word} {s : State} (hready : s.busReady b.toNat) :
    exec (.adpDispatch b) s = .next ((dispatch (s.busCfg b.toNat).adapters s).setRet .none) := withBus_ready hready _

/-- An operation that finishes adapter `a`'s and records a result changes the futures and the adapters alone. -/
theorem completes_adpFinished {i : Instr} {s : State} {a : Nat} {c : Code} {r : Result}
    (h : exec i s = .next ((s.adpFinished a c).setRet r)) : completes i s r [.adps, .futs] (finishesAdapter a c s) :=
  completes_of h (frame_adpFinished s a c) ((finishesAdapter_adpFinished s a c).frame (frame_setRet _ r) (by decide))

theorem completes.imp {i : Instr} {s : State} {r : Result} {ps : List Part} {p q : State → Prop}
    (h : completes i s r ps p) (hpq : ∀ t, p t → q t) : completes i s r ps q := by
  obtain ⟨t, hexec, hres, hframe, hp⟩ := h
  exact ⟨t, hexec, hres, hframe, hpq t hp⟩

/-- Settles O55: a completion is its adapter's by the id alone (`completeOp`), and the dispatcher passes over the
adapters before the owner (`ownedBy.dispatch_eq`). -/
theorem adapterCompletes : Obligations.AdapterCompletes := by
  intro a b s A code finished
  have hfinished : ∀ n t, finishesAdapter n (code (s.adpCfg n).bus) s t → finished n t := fun n t h =>
    ⟨h.fut, h.otherFut, h.adp, h.otherAdp⟩
  refine ⟨fun ha hready => ⟨fun hid => ?_, fun hid => completes_setRet ?_⟩,
    fun hready hbus => ⟨fun pre n post hlist hpre hid => ?_, fun hnone => completes_setRet ?_⟩⟩
  · refine (completes_adpFinished ?_).imp (hfinished a.toNat)
    rw [exec_adpComplete ha hready, completeOp_own hid]
    rfl
  · rw [exec_adpComplete ha hready, completeOp_other hid]
    rfl
  · have hown : s.ownedBy b.toNat n := ⟨hbus, ⟨pre, post, hlist, hpre⟩, hid⟩
    have hn : (s.adpCfg n).bus = b.toNat := hbus n (by simp [hlist])
    refine (completes_adpFinished ?_).imp (hfinished n)
    rw [exec_adpDispatch hready, hown.dispatch_eq, hn]
    rfl
  · have hother : ∀ m ∈ (s.busCfg b.toNat).adapters, (s.bus (s.adpCfg m).bus).transferId ≠ (s.adpCfg m).id :=
      fun m hm => by
        rw [hbus m hm]
        exact (hnone m hm).symm
    have hskip := dispatch_append hother []
    rw [List.append_nil] at hskip
    rw [exec_adpDispatch hready, hskip, dispatch]

end Sys2Proof.Machine
end

section
/-! SUPPORT. The dispatcher as a bus's callback (45_adapter_contract.md R386, R387; 42_spi_events.md R230, R231): a
handler that ends a transfer finishes the operation of the adapter that owns the bus. -/

namespace Sys2Proof.Machine

/-! ## The dispatcher invoked -/

/-- Bus `b` is ready, its callback is its dispatcher, and adapter `n` is the owner the dispatcher finds. -/
structure State.dispatchesTo (s : State) (b : Word) (n : Nat) : Prop extends s.ownedBy b.toNat n where
  ready : s.busReady b.toNat
  installed : (s.bus b.toNat).callback ≠ 0
  bound : s.callback (s.bus b.toNat).callback.toNat = .always [.op (.adpDispatch b)]

/-- The invocation of the dispatcher is recorded, and the dispatcher finishes the owner's operation in it. -/
theorem State.dispatchesTo.invoke {s : State} {b : Word} {n : Nat} (h : s.dispatchesTo b n) (arg : CbArg) :
    ∃ t, Machine.invoke (s.bus b.toNat).callback arg s = .next t
      ∧ finishesAdapter n (s.adpResult b.toNat) s t ∧ changesOnly [.calls, .adps, .futs, .result] s t := by
  let u := s.logCall (s.bus b.toNat).callback arg
  have hrun : dispatch (s.busCfg b.toNat).adapters u = u.adpFinished n (s.adpResult b.toNat) :=
    (h.toownedBy.congr (t := u) rfl rfl).dispatch_eq
  have hacts : u.takeActs (s.bus b.toNat).callback = ([.op (.adpDispatch b)], u) := by
    rw [State.takeActs, State.callback_logCall, h.bound]
  have hop : callOp (.adpDispatch b) u = .next ((u.adpFinished n (s.adpResult b.toNat)).setRet .none) := by
    rw [← hrun]
    exact exec_adpDispatch (s := u) h.ready
  have hfin := (finishesAdapter_adpFinished u n (s.adpResult b.toNat)).frame (frame_setRet _ .none) (by decide)
  refine ⟨_, ?_, ⟨hfin.fut, hfin.otherFut, hfin.adp, hfin.otherAdp⟩,
    (frame_logCall s _ arg).trans ((frame_adpFinished u n _).trans (frame_setRet _ .none))⟩
  rw [Machine.invoke, if_neg h.installed, hacts]
  simp only [runActs, hop, andThen_next]

/-- The end of a transfer in a handler, from a state `u` that its body reached, leaves the registers the dispatcher
reads but the bus's status and errors. -/
theorem State.dispatchesTo.ended {s u : State} {b : Word} {n : Nat} (h : s.dispatchesTo b n)
    (hu : sameButFlags b.toNat s.enterIsr u) (hcb : ∀ c, u.callback c = s.callback c) (st : Status) (e : BitVec 4) :
    (u.ended b.toNat st e).dispatchesTo b n ∧
      ((u.ended b.toNat st e).bus b.toNat).callback = (s.bus b.toNat).callback := by
  have hcfg : (u.ended b.toNat st e).cfg = s.cfg := (State.cfg_ended _ _ _ _).trans hu.cfg
  have hbus : u.bus b.toNat = { s.bus b.toNat with
    ovr := (u.bus b.toNat).ovr, modf := (u.bus b.toNat).modf, crcerr := (u.bus b.toNat).crcerr } := hu.bus
  have hended := u.bus_ended b.toNat st e b.toNat
  rw [if_pos rfl, hbus] at hended
  have hcallback : ((u.ended b.toNat st e).bus b.toNat).callback = (s.bus b.toNat).callback := by rw [hended]
  refine ⟨⟨h.toownedBy.congr hcfg (by rw [hended]), ⟨?_, ?_⟩, ?_, ?_⟩, hcallback⟩
  · rw [State.numBuses, hcfg]
    exact h.ready.1
  · rw [hended]
    exact h.ready.2
  · rw [hcallback]
    exact h.installed
  · rw [hcallback, State.callback_ended, hcb]
    exact h.bound

/-! ## The handler step -/

/-- `t` is a state in which bus `b`'s transfer has ended in status `st` and adapter `n`'s operation is finished with
code `c`, FG and the context as in `s`. -/
def completedFor (b n : Nat) (st : Status) (c : Code) (s t : State) : Prop :=
  (t.bus b).status = st ∧ t.fut (s.adpCfg n).fut = { result := codeWord c, done := true, running := false }
    ∧ (t.adp n).csAsserted = false ∧ (t.bus b).phase = .idle ∧ (t.bus b).heldRx = false ∧ (t.bus b).heldTx = false
    ∧ t.fg = s.fg ∧ t.isr = s.isr

/-- A handler whose body comes to the end of the transfer, from a state `u` that differs from its entry in pending flags
and in the record of invocations, completes the owner's operation with the code of R387. -/
theorem handler_completes {s u : State} {b : Word} {n : Nat} {i : Instr} {body : Nat → State → Res State} {st : Status}
    {e : BitVec 4} (h : s.dispatchesTo b n) (hi : exec i s = handlerOp body b s)
    (hbody : body b.toNat s.enterIsr = invoke (s.bus b.toNat).callback (.bus b.toNat) (u.ended b.toNat st e))
    (hu : sameButFlags b.toNat s.enterIsr u) (hframe : changesOnly [.buses, .chans, .calls] s.enterIsr u) :
    ∃ t, exec i s = .next t ∧ completedFor b.toNat n st (adapterResult st e) s t := by
  obtain ⟨hdisp, hcallback⟩ := h.ended hu (hframe .callbacks (by decide)) st e
  have hcfg : (u.ended b.toNat st e).cfg = s.cfg := (State.cfg_ended _ _ _ _).trans hu.cfg
  have hbus := u.bus_ended b.toNat st e b.toNat
  rw [if_pos rfl] at hbus
  have hfg : (u.ended b.toNat st e).fg = s.fg :=
    (frame_ended u b.toNat st e .control (by decide)).1.trans (hframe .control (by decide)).1
  obtain ⟨t, ht, hfin, hkeeps⟩ := hdisp.invoke (.bus b.toNat)
  rw [hcallback] at ht
  have hdone : exec i s = .next (s.afterHandler t) := hi.trans (handlerOp_next h.ready (hbody.trans ht))
  have htbus : (s.afterHandler t).bus b.toNat = (u.ended b.toNat st e).bus b.toNat :=
    (s.bus_afterHandler t _).trans (hkeeps .buses (by decide) _)
  have hresult : (u.ended b.toNat st e).adpResult b.toNat = adapterResult st e := by rw [State.adpResult, hbus]
  have hadpCfg : (u.ended b.toNat st e).adpCfg n = s.adpCfg n := by rw [State.adpCfg, hcfg, State.adpCfg]
  have hfut := hfin.fut
  rw [hresult, hadpCfg] at hfut
  refine ⟨_, hdone, ?_, ?_, ?_, ?_, ?_, ?_, ?_, ?_⟩
  · rw [htbus, hbus]
  · exact (State.fut_setRet _ _ _).trans hfut
  · exact congrArg Adapter.csAsserted ((State.adp_setRet _ _ _).trans hfin.adp)
  · rw [htbus, hbus]
  · rw [htbus, hbus]
  · rw [htbus, hbus]
  · exact (State.setRet_fg _ _).trans ((hkeeps .control (by decide)).1.trans hfg)
  · exact State.setRet_isr _ _

/-! ## The codes (45_adapter_contract.md R387) -/

theorem adapterResult_spi (e : BitVec 4) (ovr modf crcerr : Bool) :
    adapterResult .error (e ||| spiErrors ovr modf crcerr) =
      if e.getLsbD 2 = true ∨ crcerr = true then .crc else .ioError := by
  have hbit : (spiErrors ovr modf crcerr).getLsbD 2 = crcerr := by
    cases ovr <;> cases modf <;> cases crcerr <;> decide
  simp only [adapterResult, BitVec.getLsbD_or, hbit, Bool.or_eq_true, reduceCtorEq, if_false]

theorem adapterResult_dma (e : BitVec 4) :
    adapterResult .error (e ||| errDma) = if e.getLsbD 2 = true then .crc else .ioError := by
  have hbit : errDma.getLsbD 2 = false := by decide
  simp only [adapterResult, BitVec.getLsbD_or, hbit, Bool.or_false, reduceCtorEq, if_false]

/-! ## The three terminals -/

/-- A DMA handler's operation is its body as a handler. -/
theorem channelHandler.exec_eq {b : Word} {s : State} {i : Instr} {c : Nat} {mine : Phase → Bool}
    (h : channelHandler b s i c mine) : exec i s = handlerOp (fun k => dmaHandler k c mine) b s := by
  rcases h with ⟨rfl, rfl, rfl⟩ | ⟨rfl, rfl, rfl⟩
  · rfl
  · rfl

/-- Settles O56: each terminal is the end of the transfer from a state that differs from the handler's entry in pending
flags alone, with the dispatcher invoked in it (`handler_completes`). -/
theorem completionReachesAdapter : Obligations.CompletionReachesAdapter := by
  intro b s i c n pre post hready B hcb hbound hlist hbus hpre hid finished
  have hdisp : s.dispatchesTo b n := ⟨⟨hbus, ⟨pre, post, hlist, hpre⟩, hid⟩, hready, hcb, hbound⟩
  refine ⟨fun hev hlast hmsg => ?_, fun hpend hbusy => ?_, fun hi hte hie hbusy => ?_⟩
  · obtain ⟨mine, u, hch, hcalls, -, hend, -⟩ := hev.messageEnd (.inl hmsg)
    have hubus : u.bus b.toNat = B := hcalls .buses (by decide) b.toNat
    have hbody : dmaHandler b.toNat c mine s.enterIsr =
        invoke B.callback (.bus b.toNat) (u.ended b.toNat .transferred B.errors) := by
      rw [hend hlast, terminalSuccess_eq, hubus]
    exact handler_completes hdisp hch.exec_eq hbody
      ((sameButFlags_setChan b.toNat s.enterIsr hch.channel false (s.chan c).te).of_frame hcalls)
      (((frame_setChan _ _ _).trans hcalls).mono (by decide))
  · rw [← adapterResult_spi B.errors B.ovr B.modf B.crcerr]
    exact handler_completes hdisp rfl (spiHandler_error (s := s.enterIsr) hpend hbusy)
      (sameButFlags_setBus b.toNat s.enterIsr false false false) ((frame_setBus _ _ _).mono (by decide))
  · obtain ⟨mine, hch⟩ := channelHandler_exists hi
    rw [← adapterResult_dma B.errors]
    exact handler_completes hdisp hch.exec_eq (dmaHandler_error (s := s.enterIsr) hte hie hbusy)
      (sameButFlags_setChan b.toNat s.enterIsr hch.channel _ _) ((frame_setChan _ _ _).mono (by decide))

end Sys2Proof.Machine
end

section
/-! SUPPORT. ADP.BEGIN and ADP.SYNC up to their writes (45_adapter_contract.md R381 to R384): Build and the checks in
their order, and what both operations make of the outcome of what they share. -/

namespace Sys2Proof.Machine

/-! ## The checks -/

section
variable {a op : Nat} {r : OpRec} {ms : List Msg} {scratch : List Byte} {c : Code} {s : State}

theorem beginOp_rejected (ha : a < s.cfg.adapters.length) (hr : s.opRec op = some r)
    (hb : build (s.adpCfg a).buf r = .rejected c) : beginOp a op s = .next (c, s) := by
  rw [beginOp, withAdapter_eq _ ha, hr]
  simp only [hb]

theorem beginOp_built (ha : a < s.cfg.adapters.length) (hr : s.opRec op = some r)
    (hb : build (s.adpCfg a).buf r = .built ms scratch) : beginOp a op s = beginBuilt a ms scratch s := by
  rw [beginOp, withAdapter_eq _ ha, hr]
  simp only [hb]

theorem beginBuilt_running (h : (s.fut (s.adpCfg a).fut).running = true) :
    beginBuilt a ms scratch s = .next (.busy, s) := if_pos h

theorem beginBuilt_notOwner (h : (s.fut (s.adpCfg a).fut).running = false) (hready : s.busReady (s.adpCfg a).bus)
    (hbusy : s.busy (s.adpCfg a).bus = true) (hid : (s.bus (s.adpCfg a).bus).transferId ≠ (s.adpCfg a).id) :
    beginBuilt a ms scratch s = .next (.busy, s) := by
  simp [beginBuilt, h, withBus_ready hready, hbusy, hid]

/-- Past the two busy checks the capacities and the dispatcher decide. -/
theorem beginBuilt_free (h : (s.fut (s.adpCfg a).fut).running = false) (hready : s.busReady (s.adpCfg a).bus)
    (hown : s.busy (s.adpCfg a).bus = false ∨ (s.bus (s.adpCfg a).bus).transferId = (s.adpCfg a).id) :
    beginBuilt a ms scratch s =
      if (s.adpCfg a).maxMsgs < ms.length ∨ (s.adpCfg a).bufSize < scratch.length then .next (.outOfRange, s)
      else if s.dispatcherSet (s.adpCfg a).bus = false then .refused .adapterConfig
      else beginWrites a ms scratch s := by
  have hclaim : ¬ (s.busy (s.adpCfg a).bus && (s.bus (s.adpCfg a).bus).transferId != (s.adpCfg a).id) = true := by
    rcases hown with h | h <;> simp [h]
  simp only [beginBuilt, h, Bool.false_eq_true, if_false, withBus_ready hready, if_neg hclaim]

end

theorem State.dispatcherSet_eq_false {s : State} {b : Nat} (h : (s.bus b).callback = 0
    ∨ s.callback (s.bus b).callback.toNat ≠ .always [.op (.adpDispatch (BitVec.ofNat 32 b))]) :
    s.dispatcherSet b = false := by
  rcases h with h | h <;> simp [State.dispatcherSet, h]

/-! ## Both operations -/

section
variable {a op : Word} {i : Instr} {s t : State}

/-- Both go on from `beginOp`, and record a code other than E_NO_ERROR as their result. -/
theorem exec_begin (hi : i ∈ [Instr.adpBegin a op, .adpSync a op]) (s : State) :
    ∃ k, exec i s = andThen (beginOp a.toNat op.toNat s) k
      ∧ ∀ c t, c ≠ .noError → k (c, t) = .next (t.setRet (.code c)) := by
  simp only [List.mem_cons, List.not_mem_nil, or_false] at hi
  rcases hi with rfl | rfl
  · exact ⟨_, rfl, fun _ _ _ => rfl⟩
  · exact ⟨_, rfl, fun _ _ hc => if_neg hc⟩

theorem exec_begin_code {c : Code} (hi : i ∈ [Instr.adpBegin a op, .adpSync a op])
    (h : beginOp a.toNat op.toNat s = .next (c, t)) (hc : c ≠ .noError) : exec i s = .next (t.setRet (.code c)) := by
  obtain ⟨k, hk, hcode⟩ := exec_begin hi s
  rw [hk, h, andThen_next, hcode c t hc]

theorem exec_begin_refused {e : Refusal} (hi : i ∈ [Instr.adpBegin a op, .adpSync a op])
    (h : beginOp a.toNat op.toNat s = .refused e) : exec i s = .refused e := by
  obtain ⟨k, hk, -⟩ := exec_begin hi s
  rw [hk, h, andThen_refused]

theorem exec_begin_fault {e : Fault} (hi : i ∈ [Instr.adpBegin a op, .adpSync a op])
    (h : beginOp a.toNat op.toNat s = .fault e) : exec i s = .fault e := by
  obtain ⟨k, hk, -⟩ := exec_begin hi s
  rw [hk, h, andThen_fault]

end

/-- Settles O53: the codes' numbers and Build's cases compute, and each refusal is one check of `beginOp`, the same for
both operations (`exec_begin_code`, `exec_begin_refused`). -/
theorem adapterRefusals : Obligations.AdapterRefusals := by
  refine ⟨by decide, fun buf addr dst size => ⟨fun hdst => if_pos hdst, fun hdst hsize => ?_, fun hdst hsize => ?_⟩, ?_⟩
  · exact (if_neg hdst).trans (if_pos hsize)
  · exact (if_neg hdst).trans (if_neg hsize)
  intro a op r s ha hr A i hi
  have refuse : ∀ {c : Code}, c ≠ .noError → beginOp a.toNat op.toNat s = .next (c, s) →
      completes i s (.code c) [] (fun _ => True) := fun hc h => completes_setRet (exec_begin_code hi h hc)
  refine ⟨fun c hc hb => refuse hc (beginOp_rejected ha hr hb), fun ms scratch hb => ?_⟩
  have hbuilt := beginOp_built ha hr hb
  refine ⟨fun hrun => refuse (by decide) (hbuilt.trans (beginBuilt_running hrun)),
    fun hrun hready hbusy hid => refuse (by decide) (hbuilt.trans (beginBuilt_notOwner hrun hready hbusy hid)),
    fun hrun hready hown => ⟨fun hcap => refuse (by decide) ?_, fun hms hscratch hdisp => exec_begin_refused hi ?_⟩⟩
  · rw [hbuilt, beginBuilt_free hrun hready hown, if_pos hcap]
  · rw [hbuilt, beginBuilt_free hrun hready hown, if_neg (not_or.mpr ⟨Nat.not_lt.mpr hms, Nat.not_lt.mpr hscratch⟩),
      if_pos (State.dispatcherSet_eq_false hdisp)]

end Sys2Proof.Machine
end

section
/-! SUPPORT. A list of descriptors written where none is in flight (20_memory.md R83, R84). -/

namespace Sys2Proof.Machine

/-- The state after `Desc(p, i)`, `Desc(p, i+1)`, ... were written from a list. -/
def State.setDescs (p : Word) : Word → List Msg → State → State
  | _, [], s => s
  | i, m :: ms, s => State.setDescs p (i + 1) ms (s.setDesc p i m)

section
variable {p : Word} {ms : List Msg} {i : Word} {s : State}

theorem State.writeDescs_free (hl : i.toNat + ms.length < 2 ^ 32)
    (h : ∀ k : Word, i.toNat ≤ k.toNat → k.toNat < i.toNat + ms.length → s.descInFlight p k = false) :
    State.writeDescs p i ms s = .next (State.setDescs p i ms s) := by
  induction ms generalizing i s with
  | nil => rfl
  | cons m ms ih =>
    simp only [List.length_cons] at hl h
    have hnext : (i + 1).toNat = i.toNat + 1 := by bv_omega
    rw [State.writeDescs, State.writeDesc_free m (h i (by omega) (by omega)), andThen_next, State.setDescs]
    exact ih (by omega) fun k hle hlt => h k (by omega) (by omega)

theorem frame_setDescs (p : Word) (ms : List Msg) (i : Word) (s : State) :
    changesOnly [.descs] s (State.setDescs p i ms s) := by
  induction ms generalizing i s with
  | nil => exact changesOnly_refl _ s
  | cons m ms ih => exact (frame_setDesc s p i m).then (ih (i + 1) _)

/-- A descriptor of another list, or at another index, is as it was. -/
theorem State.desc_setDescs_other (hl : i.toNat + ms.length < 2 ^ 32) {q k : Word}
    (h : q ≠ p ∨ k.toNat < i.toNat ∨ i.toNat + ms.length ≤ k.toNat) :
    (State.setDescs p i ms s).desc q k.toNat = s.desc q k.toNat := by
  induction ms generalizing i s with
  | nil => rfl
  | cons m ms ih =>
    simp only [List.length_cons] at hl h
    have hnext : (i + 1).toNat = i.toNat + 1 := by bv_omega
    rw [State.setDescs, ih (by omega) (h.imp_right (by omega)), State.desc_setDesc_other]
    refine h.imp_right ?_
    rintro hk rfl
    omega

theorem State.desc_setDescs_self (hl : i.toNat + ms.length < 2 ^ 32) {k : Nat} (hk : k < ms.length) :
    (State.setDescs p i ms s).desc p (i.toNat + k) = ms.getD k Msg.blank := by
  induction ms generalizing i s k with
  | nil => exact absurd hk (Nat.not_lt_zero k)
  | cons m ms ih =>
    simp only [List.length_cons] at hl hk
    have hnext : (i + 1).toNat = i.toNat + 1 := by bv_omega
    cases k with
    | zero =>
      rw [State.setDescs, Nat.add_zero, State.desc_setDescs_other (by omega) (by omega), State.desc_setDesc_self]
      rfl
    | succ k =>
      have hrest := ih (i := i + 1) (s := s.setDesc p i m) (k := k) (by omega) (by omega)
      rw [hnext, Nat.add_assoc, Nat.add_comm 1 k] at hrest
      exact hrest

/-- Descriptors that read as `ms` index by index are the list `ms`. -/
theorem State.descsFrom_eq_list {i : Nat} (h : ∀ k, k < ms.length → s.desc p (i + k) = ms.getD k Msg.blank) :
    s.descsFrom p i ms.length = ms := by
  induction ms generalizing i with
  | nil => rfl
  | cons m ms ih =>
    have hhead : s.desc p i = m := h 0 (by simp)
    have htail : s.descsFrom p (i + 1) ms.length = ms := ih fun k hk => by
      rw [Nat.add_assoc, Nat.add_comm 1 k]
      exact h (k + 1) (by simpa using hk)
    rw [List.length_cons, State.descsFrom, hhead, htail]

end

end Sys2Proof.Machine
end

section
/-! SUPPORT. The writes of ADP.BEGIN and ADP.SYNC (45_adapter_contract.md R383, R384; 20_memory.md R84): the scratch
bytes, the list, the claim and the future. -/

namespace Sys2Proof.Machine

/-- A later change of other parts keeps what was written. -/
theorem wroteBytes.keep {p : Word} {l : List Byte} {s t u : State} {ps : List Part} (h : wroteBytes p l s t)
    (hc : changesOnly ps t u) (hp : .mem ∉ ps ∧ .draws ∉ ps) : wroteBytes p l s u := by
  have hread : ∀ c, u.mem.read c = t.mem.read c := hc .mem hp.1
  have hdraws : u.draws = t.draws := hc .draws hp.2
  simpa only [wroteBytes, hread, hdraws] using h

section
variable {a op : Nat} {ms : List Msg} {scratch : List Byte} {s t u : State}

/-! ## Up to BUS.XFER -/

theorem adapterChecks.beginOp_eq (h : adapterChecks a op ms scratch s) :
    beginOp a op s = beginWrites a ms scratch s := by
  obtain ⟨r, hr, hb⟩ := h.record
  obtain ⟨hms, hscratch⟩ := h.capacity
  rw [beginOp_built h.adapter hr hb, beginBuilt_free h.future h.bus h.owner, if_neg (by omega), h.dispatcher,
    if_neg (by decide)]

theorem descInFlight_writeBytes (l : List Byte) (c p k : Word) (s : State) :
    (State.writeBytes c l s).descInFlight p k = s.descInFlight p k :=
  State.descInFlight_congr (frame_writeBytes l c s .config (by decide)) (frame_writeBytes l c s .buses (by decide)) p k

theorem adapterChecks.beginOp_inFlight (h : adapterChecks a op ms scratch s)
    (hk : ∃ k : Word, k.toNat < ms.length ∧ s.descInFlight (s.adpCfg a).msgs k = true) :
    beginOp a op s = .fault .descriptorWrittenInFlight := by
  obtain ⟨k, hk, hflight⟩ := hk
  have hsmall := h.small.1
  rw [h.beginOp_eq, beginWrites, State.needBacked_eq _ h.backed,
    State.writeDescs_inFlight _ ms 0 _ (by simpa using hsmall)
      ⟨k, by simp, by simpa using hk, by rw [descInFlight_writeBytes, hflight]⟩, andThen_fault]

/-- The state after the scratch bytes and the descriptors of adapter `a` are written. -/
def State.adpWritten (s : State) (a : Nat) (ms : List Msg) (scratch : List Byte) : State :=
  State.setDescs (s.adpCfg a).msgs 0 ms (State.writeBytes (s.adpCfg a).buf scratch s)

/-- The state of ADP.BEGIN before its BUS.XFER: the bus claimed, chip-select asserted and the future started. -/
def State.adpClaimed (s : State) (a : Nat) (ms : List Msg) (scratch : List Byte) : State :=
  let w := s.adpWritten a ms scratch
  startFuture (s.adpCfg a).fut (setFutureResult (s.adpCfg a).fut (codeWord .noError) (setAdapterCs a true
    (w.setBus (s.adpCfg a).bus { w.bus (s.adpCfg a).bus with transferId := (s.adpCfg a).id })))

theorem frame_adpWritten (s : State) (a : Nat) (ms : List Msg) (scratch : List Byte) :
    changesOnly [.mem, .dirty, .draws, .descs] s (s.adpWritten a ms scratch) :=
  (frame_writeBytes scratch _ s).trans (frame_setDescs _ ms 0 _)

theorem frame_adpWritten_adpClaimed (s : State) (a : Nat) (ms : List Msg) (scratch : List Byte) :
    changesOnly [.buses, .adps, .futs] (s.adpWritten a ms scratch) (s.adpClaimed a ms scratch) :=
  ((frame_setBus _ _ _).trans ((frame_setAdapterCs a true _).trans
    ((frame_setFutureResult _ _ _).trans (frame_startFuture _ _)))).mono (by decide)

theorem frame_adpClaimed (s : State) (a : Nat) (ms : List Msg) (scratch : List Byte) :
    changesOnly [.mem, .dirty, .draws, .descs, .buses, .adps, .futs] s (s.adpClaimed a ms scratch) :=
  (frame_adpWritten s a ms scratch).trans (frame_adpWritten_adpClaimed s a ms scratch)

theorem adapterWrites.beginOp_eq (h : adapterWrites a op ms scratch s) :
    beginOp a op s = .next (beginXfer a ms.length (s.adpClaimed a ms scratch)) := by
  have hsmall := h.small.1
  have hwritten : State.writeDescs (s.adpCfg a).msgs 0 ms (State.writeBytes (s.adpCfg a).buf scratch s) =
      .next (s.adpWritten a ms scratch) :=
    State.writeDescs_free (by simpa using hsmall) fun k _ hk => by
      rw [descInFlight_writeBytes]
      exact h.notInFlight k (by simpa using hk)
  have hbus : ∀ n, (s.adpWritten a ms scratch).bus n = s.bus n := frame_adpWritten s a ms scratch .buses (by decide)
  have hclaim := setTransferId_accepted (b := (s.adpCfg a).bus) (id := (s.adpCfg a).id)
    (s := s.adpWritten a ms scratch) (by simpa only [State.busy, hbus] using h.owner)
  rw [h.toadapterChecks.beginOp_eq, beginWrites, State.needBacked_eq _ h.backed, hwritten, andThen_next, hclaim]
  rfl

/-! ## What was written -/

theorem State.bus_adpClaimed (s : State) (a : Nat) (ms : List Msg) (scratch : List Byte) (n : Nat) :
    (s.adpClaimed a ms scratch).bus n =
      if (s.adpCfg a).bus = n then { s.bus (s.adpCfg a).bus with transferId := (s.adpCfg a).id } else s.bus n := by
  have hbus : ∀ n, (s.adpWritten a ms scratch).bus n = s.bus n := frame_adpWritten s a ms scratch .buses (by decide)
  rw [← hbus n, ← hbus (s.adpCfg a).bus]
  exact State.bus_setBus _ _ _ n

theorem State.fut_adpClaimed (s : State) (a : Nat) (ms : List Msg) (scratch : List Byte) :
    (s.adpClaimed a ms scratch).fut (s.adpCfg a).fut = { result := 0, done := false, running := true } := by
  rw [State.adpClaimed, startFuture, State.fut_setFut_self, setFutureResult, State.fut_setFut_self]
  rfl

theorem State.adp_adpClaimed (s : State) (a : Nat) (ms : List Msg) (scratch : List Byte) :
    (s.adpClaimed a ms scratch).adp a = { csAsserted := true } :=
  State.adp_setAdp_self _ a { csAsserted := true }

/-- What ADP.BEGIN's writes leave in every case: the list and the scratch bytes written and the bus claimed, with the
other futures, adapters and descriptors as they were. -/
structure writtenBy (a : Nat) (ms : List Msg) (scratch : List Byte) (s t : State) : Prop where
  otherFut : ∀ f, f ≠ (s.adpCfg a).fut → t.fut f = s.fut f
  otherAdp : ∀ a', a' ≠ a → t.adp a' = s.adp a'
  claimed : (t.bus (s.adpCfg a).bus).transferId = (s.adpCfg a).id
  list : ∀ k, k < ms.length → t.desc (s.adpCfg a).msgs k = ms.getD k Msg.blank
  otherDesc : ∀ p k : Word, p ≠ (s.adpCfg a).msgs ∨ ms.length ≤ k.toNat → t.desc p k.toNat = s.desc p k.toNat
  bytes : wroteBytes (s.adpCfg a).buf scratch s t

theorem writtenBy_adpClaimed (a : Nat) (s : State) (hsmall : ms.length < 2 ^ 32 ∧ scratch.length < 2 ^ 32) :
    writtenBy a ms scratch s (s.adpClaimed a ms scratch) := by
  have hlen : (0 : Word).toNat + ms.length < 2 ^ 32 := by simpa using hsmall.1
  have hw := frame_adpWritten s a ms scratch
  have hc := frame_adpWritten_adpClaimed s a ms scratch
  have hdesc : ∀ p k, (s.adpClaimed a ms scratch).desc p k = (s.adpWritten a ms scratch).desc p k :=
    hc .descs (by decide)
  refine ⟨fun f hf => ?_, fun a' ha' => ?_, ?_, fun k hk => ?_, fun p k hk => ?_, ?_⟩
  · exact (State.fut_setFut_ne _ _ hf.symm).trans ((State.fut_setFut_ne _ _ hf.symm).trans (hw .futs (by decide) f))
  · exact (State.adp_setAdp_ne _ { csAsserted := true } ha'.symm).trans (hw .adps (by decide) a')
  · rw [State.bus_adpClaimed, if_pos rfl]
  · have hself := State.desc_setDescs_self (p := (s.adpCfg a).msgs)
      (s := State.writeBytes (s.adpCfg a).buf scratch s) hlen hk
    rw [show (0 : Word).toNat + k = k from Nat.zero_add k] at hself
    exact (hdesc _ _).trans hself
  · have hother := State.desc_setDescs_other (p := (s.adpCfg a).msgs)
      (s := State.writeBytes (s.adpCfg a).buf scratch s) hlen (q := p) (k := k)
      (hk.imp_right fun hk => .inr (by simpa using hk))
    exact (hdesc _ _).trans (hother.trans (frame_writeBytes scratch _ s .descs (by decide) _ _))
  · exact (wroteBytes_writeBytes scratch _ s hsmall.2).keep ((frame_setDescs _ ms 0 _).trans hc) (by decide)

/-- A later change of the claimed bus's other fields, of the adapter's future and of its chip-select keeps it. -/
theorem writtenBy.keep {ps : List Part} (h : writtenBy a ms scratch s t) (hc : changesOnly ps t u)
    (hfut : ∀ f, f ≠ (s.adpCfg a).fut → u.fut f = t.fut f) (hadp : ∀ a', a' ≠ a → u.adp a' = t.adp a')
    (hid : (u.bus (s.adpCfg a).bus).transferId = (t.bus (s.adpCfg a).bus).transferId)
    (hp : .descs ∉ ps ∧ .mem ∉ ps ∧ .draws ∉ ps := by decide) : writtenBy a ms scratch s u where
  otherFut f hf := (hfut f hf).trans (h.otherFut f hf)
  otherAdp a' ha' := (hadp a' ha').trans (h.otherAdp a' ha')
  claimed := hid.trans h.claimed
  list k hk := (hc .descs hp.1 _ k).trans (h.list k hk)
  otherDesc p k hk := (hc .descs hp.1 p _).trans (h.otherDesc p k hk)
  bytes := h.bytes.keep hc hp.2

end

end Sys2Proof.Machine
end

section
/-! SUPPORT. The BUS.XFER of ADP.BEGIN and ADP.SYNC (45_adapter_contract.md R383; 41_spi_bus.md R183 to R185), accepted
or refused, from the state their writes leave. -/

namespace Sys2Proof.Machine

section
variable {a op : Nat} {ms : List Msg} {scratch : List Byte} {s t : State}

/-! ## The list and what BUS.XFER reads -/

theorem toNat_ofNat_length {α : Type} {l : List α} (h : l.length < 2 ^ 32) :
    (BitVec.ofNat 32 l.length).toNat = l.length := by
  rw [BitVec.toNat_ofNat, Nat.mod_eq_of_lt h]

theorem ofNat_length_ne_zero {α : Type} {l : List α} (h : l.length < 2 ^ 32) (hl : l ≠ []) :
    BitVec.ofNat 32 l.length ≠ 0 := by
  intro hzero
  have hlen := toNat_ofNat_length h
  rw [hzero] at hlen
  exact hl (List.length_eq_zero_iff.mp hlen.symm)

/-- BUS.XFER of a list that was written, past its checks, is decided by the locks of the channels it needs. -/
theorem startXfer_list {b : Nat} {p : Word} (hlist : s.descList p ms.length = ms) (hl : ms.length < 2 ^ 32)
    (hp : p ≠ 0) (hms : ms ≠ []) (hb : s.busy b = false) (hv : ∀ m ∈ ms, Msg.valid m (s.busCfg b).mode = true) :
    startXfer b p (BitVec.ofNat 32 ms.length) s =
      (acquire b (needAll (s.busCfg b).mode ms) s).elim (.busy, s)
        fun _ => (.noError, s.startedXfer b p (BitVec.ofNat 32 ms.length)) := by
  have hn := toNat_ofNat_length hl
  have hvalid : ∀ i, i < (BitVec.ofNat 32 ms.length).toNat → Msg.valid (s.desc p i) (s.busCfg b).mode = true :=
    fun i hi => hv _ (hlist ▸ (State.mem_descList _).mpr ⟨i, hn ▸ hi, rfl⟩)
  rw [startXfer_valid hp (ofNat_length_ne_zero hl hms) hb hvalid, hn, hlist]

theorem writtenBy.descList_eq (h : writtenBy a ms scratch s t) : t.descList (s.adpCfg a).msgs ms.length = ms :=
  State.descsFrom_eq_list fun k hk => by rw [Nat.zero_add, h.list k hk]

theorem State.busy_adpClaimed (s : State) (a : Nat) (ms : List Msg) (scratch : List Byte) (n : Nat) :
    (s.adpClaimed a ms scratch).busy n = s.busy n := by
  rw [State.busy, State.bus_adpClaimed]
  split
  · next h => rw [← h, State.busy]
  · rfl

theorem State.busCfg_adpClaimed (s : State) (a : Nat) (ms : List Msg) (scratch : List Byte) (n : Nat) :
    (s.adpClaimed a ms scratch).busCfg n = s.busCfg n :=
  State.busCfg_congr (frame_adpClaimed s a ms scratch .config (by decide)) n

theorem State.adpCfg_adpClaimed (s : State) (a : Nat) (ms : List Msg) (scratch : List Byte) (n : Nat) :
    (s.adpClaimed a ms scratch).adpCfg n = s.adpCfg n := by
  have hcfg : (s.adpClaimed a ms scratch).cfg = s.cfg := frame_adpClaimed s a ms scratch .config (by decide)
  rw [State.adpCfg, hcfg, State.adpCfg]

theorem State.lock_adpClaimed (s : State) (a : Nat) (ms : List Msg) (scratch : List Byte) (c : Nat) :
    (s.adpClaimed a ms scratch).lock c = s.lock c := frame_adpClaimed s a ms scratch .locks (by decide) c

/-! ## BUS.XFER accepted -/

/-- The state after ADP.BEGIN's BUS.XFER is accepted. -/
def State.adpStarted (s : State) (a : Nat) (ms : List Msg) (scratch : List Byte) : State :=
  (s.adpClaimed a ms scratch).startedXfer (s.adpCfg a).bus (s.adpCfg a).msgs (BitVec.ofNat 32 ms.length)

theorem adapterReady.beginOp_eq (h : adapterReady a op ms scratch s) :
    beginOp a op s = .next (.noError, s.adpStarted a ms scratch) := by
  obtain ⟨hp, hms, hv⟩ := h.list
  obtain ⟨hd, hrx, htx⟩ := h.channels
  have hlist := (writtenBy_adpClaimed a s h.small).descList_eq
  have hstart : startXfer (s.adpCfg a).bus (s.adpCfg a).msgs (BitVec.ofNat 32 ms.length) (s.adpClaimed a ms scratch) =
      (.noError, s.adpStarted a ms scratch) := by
    rw [startXfer_list hlist h.small.1 hp hms (by rw [State.busy_adpClaimed, h.idle])
      (by simpa only [State.busCfg_adpClaimed] using hv),
      acquire_eq_some (by simpa only [State.busCfg_adpClaimed] using hd)
        (fun _ => by rw [State.busCfg_adpClaimed, State.lock_adpClaimed, hrx])
        (fun _ => by rw [State.busCfg_adpClaimed, State.lock_adpClaimed, htx])]
    rfl
  rw [h.toadapterWrites.beginOp_eq, beginXfer, State.adpCfg_adpClaimed, hstart]
  rfl

theorem frame_adpStarted (s : State) (a : Nat) (ms : List Msg) (scratch : List Byte) :
    changesOnly [.buses, .chans, .locks, .dirty, .mem, .draws, .descs, .adps, .futs] s
      (s.adpStarted a ms scratch) :=
  ((frame_adpClaimed s a ms scratch).trans (frame_startedXfer _ _ _ _)).mono (by decide)

/-- What an ADP.BEGIN whose BUS.XFER is accepted leaves. -/
structure startedBy (a : Nat) (ms : List Msg) (scratch : List Byte) (s t : State) : Prop
    extends writtenBy a ms scratch s t where
  fut : t.fut (s.adpCfg a).fut = { result := 0, done := false, running := true }
  adp : t.adp a = { csAsserted := true }
  status : (t.bus (s.adpCfg a).bus).status = .transferring
  messages : (t.bus (s.adpCfg a).bus).messages = (s.adpCfg a).msgs
  count : (t.bus (s.adpCfg a).bus).count.toNat = ms.length
  index : (t.bus (s.adpCfg a).bus).index = 0

theorem startedBy_adpStarted (a : Nat) (s : State) (hsmall : ms.length < 2 ^ 32 ∧ scratch.length < 2 ^ 32)
    (hc : changesOnly [.control, .result] (s.adpStarted a ms scratch) t) : startedBy a ms scratch s t := by
  have hframe : changesOnly [.buses, .chans, .locks, .dirty, .control, .result] (s.adpClaimed a ms scratch) t :=
    (frame_startedXfer _ _ _ _).trans hc
  have hfut : ∀ f, t.fut f = (s.adpClaimed a ms scratch).fut f := hframe .futs (by decide)
  have hadp : ∀ n, t.adp n = (s.adpClaimed a ms scratch).adp n := hframe .adps (by decide)
  have hbus : t.bus (s.adpCfg a).bus = (s.adpStarted a ms scratch).bus (s.adpCfg a).bus := hc .buses (by decide) _
  rw [State.adpStarted, State.bus_startedXfer, if_pos rfl] at hbus
  refine ⟨(writtenBy_adpClaimed a s hsmall).keep hframe (fun f _ => hfut f) (fun n _ => hadp n) (by rw [hbus]),
    ?_, ?_, ?_, ?_, ?_, ?_⟩
  · rw [hfut, State.fut_adpClaimed]
  · rw [hadp, State.adp_adpClaimed]
  · rw [hbus]
  · rw [hbus]
  · rw [hbus]
    exact toNat_ofNat_length hsmall.1
  · rw [hbus]

/-! ## BUS.XFER refused -/

/-- BUS.XFER of the list `ms` at `p` on bus `b` fails its first check with code `c` (41_spi_bus.md R183 to R185). -/
def xferFails (b : Nat) (p : Word) (ms : List Msg) (s : State) (c : Code) : Prop :=
  p = 0 ∧ c = .nullPointer
    ∨ p ≠ 0 ∧ ms = [] ∧ c = .invalidValue
    ∨ p ≠ 0 ∧ ms ≠ [] ∧ s.busy b = true ∧ c = .busy
    ∨ p ≠ 0 ∧ ms ≠ [] ∧ s.busy b = false ∧ (¬ ∀ m ∈ ms, Msg.valid m (s.busCfg b).mode = true) ∧ c = .invalidValue
    ∨ p ≠ 0 ∧ ms ≠ [] ∧ s.busy b = false ∧ (∀ m ∈ ms, Msg.valid m (s.busCfg b).mode = true)
      ∧ (s.busCfg b).rxCh ≠ (s.busCfg b).txCh
      ∧ ((∃ m ∈ ms, (need (s.busCfg b).mode m.dir).rx = true) ∧ s.lock (s.busCfg b).rxCh = true
        ∨ (∃ m ∈ ms, (need (s.busCfg b).mode m.dir).tx = true) ∧ s.lock (s.busCfg b).txCh = true)
      ∧ c = .busy

theorem startXfer_fails {b : Nat} {p : Word} {c : Code} (hlist : s.descList p ms.length = ms)
    (hl : ms.length < 2 ^ 32) (h : xferFails b p ms s c) :
    startXfer b p (BitVec.ofNat 32 ms.length) s = (c, s) ∧ c ≠ .noError := by
  rcases h with ⟨rfl, rfl⟩ | ⟨hp, rfl, rfl⟩ | ⟨hp, hms, hb, rfl⟩ | ⟨hp, hms, hb, hv, rfl⟩
    | ⟨hp, hms, hb, hv, -, htaken, rfl⟩
  · exact ⟨startXfer_null b _ s, by decide⟩
  · exact ⟨startXfer_empty hp b s, by decide⟩
  · exact ⟨startXfer_busy hp (ofNat_length_ne_zero hl hms) hb, by decide⟩
  · refine ⟨startXfer_invalid hp (ofNat_length_ne_zero hl hms) hb ?_, by decide⟩
    rw [toNat_ofNat_length hl]
    push Not at hv
    obtain ⟨m, hm, hbad⟩ := hv
    rw [← hlist] at hm
    obtain ⟨i, hi, rfl⟩ := (State.mem_descList _).mp hm
    exact ⟨i, hi, (Bool.not_eq_true _).mp hbad⟩
  · have hnone := acquire_eq_none (w := needAll (s.busCfg b).mode ms)
      (htaken.imp (.imp_left List.any_eq_true.mpr) (.imp_left List.any_eq_true.mpr))
    refine ⟨?_, by decide⟩
    rw [startXfer_list hlist hl hp hms hb hv, hnone, Option.elim_none]

/-- The state after ADP.BEGIN's BUS.XFER failed with code `c`. -/
def State.adpFailed (s : State) (a : Nat) (ms : List Msg) (scratch : List Byte) (c : Code) : State :=
  (s.adpClaimed a ms scratch).adpFinished a c

theorem adapterWrites.beginOp_fails {c : Code} (h : adapterWrites a op ms scratch s)
    (hc : xferFails (s.adpCfg a).bus (s.adpCfg a).msgs ms s c) :
    beginOp a op s = .next (c, s.adpFailed a ms scratch c) ∧ c ≠ .noError := by
  have hfails : xferFails (s.adpCfg a).bus (s.adpCfg a).msgs ms (s.adpClaimed a ms scratch) c := by
    simpa only [xferFails, State.busy_adpClaimed, State.busCfg_adpClaimed, State.lock_adpClaimed] using hc
  obtain ⟨hstart, hne⟩ := startXfer_fails (writtenBy_adpClaimed a s h.small).descList_eq h.small.1 hfails
  refine ⟨?_, hne⟩
  rw [h.beginOp_eq, beginXfer, State.adpCfg_adpClaimed, hstart]
  simp only [hne, if_false]
  rw [State.adpFailed, State.adpFinished, State.adpCfg_adpClaimed]

theorem frame_adpFailed (s : State) (a : Nat) (ms : List Msg) (scratch : List Byte) (c : Code) :
    changesOnly [.buses, .dirty, .mem, .draws, .descs, .adps, .futs] s (s.adpFailed a ms scratch c) :=
  ((frame_adpClaimed s a ms scratch).trans (frame_adpFinished _ a c)).mono (by decide)

/-- What an ADP.BEGIN whose BUS.XFER fails with code `c` leaves. -/
structure failedBy (a : Nat) (ms : List Msg) (scratch : List Byte) (c : Code) (s t : State) : Prop
    extends writtenBy a ms scratch s t where
  fut : t.fut (s.adpCfg a).fut = { result := codeWord c, done := true, running := false }
  adp : t.adp a = { csAsserted := false }
  bus : t.bus (s.adpCfg a).bus = { s.bus (s.adpCfg a).bus with transferId := (s.adpCfg a).id }
  otherBus : ∀ b, b ≠ (s.adpCfg a).bus → t.bus b = s.bus b

theorem failedBy_adpFailed (a : Nat) (c : Code) (s : State) (hsmall : ms.length < 2 ^ 32 ∧ scratch.length < 2 ^ 32)
    (r : Result) : failedBy a ms scratch c s ((s.adpFailed a ms scratch c).setRet r) := by
  have hframe : changesOnly [.adps, .futs, .result] (s.adpClaimed a ms scratch)
      ((s.adpFailed a ms scratch c).setRet r) := (frame_adpFinished _ a c).trans (frame_setRet _ r)
  have hfin : finishesAdapter a c (s.adpClaimed a ms scratch) ((s.adpFailed a ms scratch c).setRet r) :=
    (finishesAdapter_adpFinished _ a c).frame (frame_setRet _ r) (by decide)
  have hbus : ∀ n, ((s.adpFailed a ms scratch c).setRet r).bus n = (s.adpClaimed a ms scratch).bus n :=
    hframe .buses (by decide)
  obtain ⟨hfut, hotherFut, hadp, hotherAdp⟩ := hfin
  rw [State.adpCfg_adpClaimed] at hfut hotherFut
  refine ⟨(writtenBy_adpClaimed a s hsmall).keep hframe hotherFut hotherAdp (by rw [hbus]), hfut, hadp, ?_,
    fun b hb => ?_⟩
  · rw [hbus, State.bus_adpClaimed, if_pos rfl]
  · rw [hbus, State.bus_adpClaimed, if_neg hb.symm]

end

end Sys2Proof.Machine
end

section
/-! SUPPORT. ADP.BEGIN and ADP.SYNC (45_adapter_contract.md R382 to R384): what each makes of a transfer started, and
ADP.SYNC's wait for the future. -/

namespace Sys2Proof.Machine

theorem begins.imp {i : Instr} {s : State} {f : Fg} {ps : List Part} {p q : State → Prop} (h : begins i s f ps p)
    (hpq : ∀ t, p t → q t) : begins i s f ps q := by
  obtain ⟨t, hexec, hfg, hprog, hisr, hframe, hp⟩ := h
  exact ⟨t, hexec, hfg, hprog, hisr, hframe, hpq t hp⟩

/-! ## A transfer started -/

section
variable {a op : Word} {ms : List Msg} {scratch : List Byte} {s : State}

theorem adapterReady.adpBegin (h : adapterReady a.toNat op.toNat ms scratch s) :
    completes (.adpBegin a op) s (.code .noError)
      [.buses, .chans, .locks, .dirty, .mem, .draws, .descs, .adps, .futs] (startedBy a.toNat ms scratch s) := by
  refine completes_of ?_ (frame_adpStarted s a.toNat ms scratch)
    (startedBy_adpStarted a.toNat s h.small ((frame_setRet _ _).mono (by decide)))
  change execAdpBegin a op s = _
  rw [execAdpBegin, h.beginOp_eq, andThen_next]

/-- ADP.SYNC goes on to the wait for the adapter's future. -/
theorem adapterReady.exec_adpSync (h : adapterReady a.toNat op.toNat ms scratch s) :
    exec (.adpSync a op) s =
      waitFuture (s.adpCfg a.toNat).fut .wordCode (s.adpStarted a.toNat ms scratch) := by
  change execAdpSync a op s = _
  rw [execAdpSync, h.beginOp_eq, andThen_next, if_pos rfl]

theorem adapterReady.adpSync (h : adapterReady a.toNat op.toNat ms scratch s) :
    (s.isr = false → begins (.adpSync a op) s (.busy (.futWait (s.adpCfg a.toNat).fut) [.finish .wordCode])
        [.buses, .chans, .locks, .dirty, .mem, .draws, .descs, .adps, .futs] (startedBy a.toNat ms scratch s))
      ∧ (s.isr = true → exec (.adpSync a op) s = .fault .waitInInterrupt) := by
  have hframe := frame_adpStarted s a.toNat ms scratch
  obtain ⟨-, hprog, hisr⟩ : samePart .control s (s.adpStarted a.toNat ms scratch) := hframe .control (by decide)
  have hfut := (startedBy_adpStarted a.toNat s h.small (changesOnly_refl _ _)).fut
  have hrun : ((s.adpStarted a.toNat ms scratch).fut (s.adpCfg a.toNat).fut).running = true := by rw [hfut]
  refine ⟨fun hs => ?_, fun hs => h.exec_adpSync.trans (waitFuture_isr hrun (hisr.trans hs) _)⟩
  exact ⟨_, h.exec_adpSync.trans (waitFuture_running hrun (hisr.trans hs) _), rfl, hprog, hisr,
    (hframe.trans (frame_setFg _ _)).mono (by decide),
    startedBy_adpStarted a.toNat s h.small ((frame_setFg _ _).mono (by decide))⟩

end

/-! ## The wait (45_adapter_contract.md R384, 60_exceptions.md R400) -/

theorem codeOfWord_codeWord (c : Code) : codeOfWord (codeWord c) = some c := by
  cases c <;> decide

theorem codeOfWord_eq_none {w : Word} (h : ∀ c : Code, w ≠ codeWord c) : codeOfWord w = none :=
  List.find?_eq_none.mpr fun c _ => by simpa using (h c).symm

/-- A wait whose future no longer runs ends with its result. -/
theorem fgTurn_futWait_ends {s : State} {f : Nat} {k : Finish} (hs : s.isr = false)
    (hf : s.fg = .busy (.futWait f) [.finish k]) (h : (s.fut f).running = false) :
    ∃ t, agentStep exec .fg s = .next t ∧ endedWith (finishResult k (.ofValue (s.fut f).result)) [] s t :=
  ⟨_, (fgTurn_futWait_over hf h).trans (unwind_finish k _ s),
    endedWith_setRet (changesOnly_refl [] s) (by decide) hs _⟩

/-- Settles O54: the writes (`adpClaimed`), then BUS.XFER accepted (`startedBy`) or refused (`failedBy`); a list in
flight faults at its first descriptor; the wait ends with the future's result. -/
theorem adapterStarts : Obligations.AdapterStarts := by
  intro a op ms scratch s A C written parts started
  have hwritten : ∀ t, writtenBy a.toNat ms scratch s t → written t := fun t h =>
    ⟨h.otherFut, h.otherAdp, h.claimed, h.list, h.otherDesc, h.bytes⟩
  have hstarted : ∀ t, startedBy a.toNat ms scratch s t → started t := fun t h =>
    ⟨hwritten t h.towrittenBy, h.fut, h.adp, h.status, h.messages, h.count, h.index⟩
  refine ⟨fun h => ⟨h.adpBegin.imp hstarted, fun hs => (h.adpSync.1 hs).imp hstarted, h.adpSync.2⟩,
    fun h hk => ?_, ?_, fun hs hf => ⟨fun hrun => ?_, fun hover => ⟨fun c hc => ?_, fun hc => ?_⟩⟩⟩
  · have hfault := h.beginOp_inFlight hk
    exact ⟨exec_begin_fault (by simp) hfault, exec_begin_fault (by simp) hfault⟩
  · intro h ok c hc i hi
    obtain ⟨hbegin, hne⟩ := h.beginOp_fails hc
    have hfailed := failedBy_adpFailed a.toNat c s h.small (.code c)
    exact completes_of (exec_begin_code hi hbegin hne) (frame_adpFailed s a.toNat ms scratch c)
      ⟨hwritten _ hfailed.towrittenBy, hfailed.fut, hfailed.adp, hfailed.bus, hfailed.otherBus⟩
  · exact fgTurn_futWait_running hf hrun
  · have hend := fgTurn_futWait_ends hs hf hover
    rwa [finishResult, Ret.ofValue, hc, codeOfWord_codeWord] at hend
  · have hend := fgTurn_futWait_ends hs hf hover
    rwa [finishResult, Ret.ofValue, codeOfWord_eq_none hc] at hend

end Sys2Proof.Machine
end

section
/-! SUPPORT. A handler's step and FG (60_exceptions.md R410 to R412; logs 13 and 14): FG's place, its program and its
last result are kept whatever the callbacks issue, and a handler that a per-message callback issues does not nest. -/

namespace Sys2Proof.Machine

/-! ## FG during a handler's step (60_exceptions.md R410, R411) -/

/-- In `t` a handler's step runs, and FG's place, its program and its last result are those of `s`. -/
def duringHandler (s t : State) : Prop := t.isr = true ∧ t.fg = s.fg ∧ t.prog = s.prog ∧ t.ret = s.ret

theorem duringHandler_enterIsr (s : State) : duringHandler s s.enterIsr := ⟨rfl, rfl, rfl, rfl⟩

/-- A result inside a handler's step is kept apart from FG's (log 14). -/
theorem duringHandler.setRet {s t : State} (h : duringHandler s t) (r : Result) : duringHandler s (t.setRet r) := by
  rw [State.setRet, if_pos h.1]
  exact h

theorem duringHandler.frame {s t u : State} {ps : List Part} (h : duringHandler s t) (hc : changesOnly ps t u)
    (hcontrol : .control ∉ ps := by decide) (hresult : .result ∉ ps := by decide) : duringHandler s u := by
  obtain ⟨hisr, hfg, hprog, hret⟩ := h
  obtain ⟨hfg', hprog', hisr'⟩ := hc .control hcontrol
  exact ⟨hisr'.trans hisr, hfg'.trans hfg, hprog'.trans hprog, (hc .result hresult).1.trans hret⟩

/-- No update of a handler's step touches FG: the one that would, a wait, has no place in ISR context. -/
theorem handlerStable_duringHandler (s : State) : HandlerStable (duringHandler s) where
  futInit _ _ h := h
  futStart _ _ h := h
  futFinish _ _ _ h := h
  futResult _ _ _ h := h
  bus _ _ _ _ h := h
  init _ _ _ _ h := h
  xfer t b p n _ _ h := h.frame (frame_startXfer b p n t)
  lockTake _ _ _ h := h
  lockFree _ _ _ h := h
  ses _ _ _ h := h
  adp _ _ _ h := h
  fgWait _ _ hfg h := absurd (h.1.symm.trans hfg) (by decide)
  ret _ r h := h.setRet r
  draws _ h := h
  dirty _ _ h := h
  answers _ _ _ h := h
  tape _ _ _ _ _ h := h
  opRec _ _ _ h := h
  desc _ _ _ _ _ h := h
  mem _ _ _ h := h
  send _ _ _ h := h
  call _ _ _ h := h
  anyBus _ _ _ h := h
  chan _ _ _ h := h
  anyLock _ _ _ h := h
  enter _ h := ⟨rfl, h.2⟩
  leave _ _ h h' := ⟨h.1, h'.2⟩

/-- A turn of a handler whose body keeps to FG's place leaves FG and the context bit as they were. -/
theorem post_handlerTurn {s : State} {body : State → Res State} (pending : Bool)
    (hbody : Sat (duringHandler s) s.enterIsr → Post (Sat (duringHandler s)) (body s.enterIsr)) :
    Post (fun t => t.fg = s.fg ∧ t.prog = s.prog ∧ t.ret = s.ret ∧ t.isr = s.isr)
      (if pending then takeInterrupt body s else .next s) := by
  split
  · refine post_andThen (hbody (duringHandler_enterIsr s)) fun t ht => (post_next _ _).mpr ?_
    obtain ⟨-, hfg, hprog, hret⟩ := ht
    exact ⟨hfg, hprog, hret, rfl⟩
  · exact (post_next _ _).mpr ⟨rfl, rfl, rfl, rfl⟩

theorem post_irqTurn {b : Nat} {s : State} {x : Turn} (hx : x = .irqSpi b ∨ x = .irqDmaRx b ∨ x = .irqDmaTx b) :
    Post (fun t => t.fg = s.fg ∧ t.prog = s.prog ∧ t.ret = s.ret ∧ t.isr = s.isr) (agentStep exec x s) := by
  have hstable := handlerStable_duringHandler s
  rcases hx with rfl | rfl | rfl
  · exact post_handlerTurn _ fun h => post_spiHandler hstable h b
  · exact post_handlerTurn _ fun h => post_dmaHandler hstable h b _ rxCompletes
  · exact post_handlerTurn _ fun h => post_dmaHandler hstable h b _ txCompletes

/-! ## A message's end (60_exceptions.md R412) -/

/-- The handler of a completing event takes the channel's transfer-complete, then ends the message. -/
theorem completingEvent.messageDone {b : Word} {s : State} {i : Instr} {c : Nat} (h : completingEvent b s i c) :
    ∃ mine, channelHandler b s i c mine
      ∧ dmaHandler b.toNat c mine s.enterIsr = Machine.messageDone b.toNat (s.tcTaken c) := by
  obtain ⟨mine, hch, hmine⟩ := h.handler
  obtain ⟨-, htc, hie, hte⟩ := h
  exact ⟨mine, hch, dmaHandler_complete (s := s.enterIsr) hte htc hie hmine⟩

theorem State.chan_advance_other (s : State) (b : Nat) (next : Word) {c : Nat} (hrx : c ≠ (s.busCfg b).rxCh)
    (htx : c ≠ (s.busCfg b).txCh) : (advance b next s).chan c = s.chan c :=
  (State.chan_setChan_ne _ _ htx.symm).trans (State.chan_setChan_ne _ _ hrx.symm)

/-- `completes` always lets the result change. -/
theorem completes.of_result {i : Instr} {s : State} {r : Result} {ps : List Part} {q : State → Prop}
    (h : completes i s r (.result :: ps) q) : completes i s r ps q := by
  obtain ⟨t, hexec, hres, hframe, hq⟩ := h
  exact ⟨t, hexec, hres, hframe.mono (by simp), hq⟩

/-- Settles O26: every update of a handler's body keeps FG (`handlerStable_duringHandler`); the handler that a message's
callback issues only records its result, and the advance goes on from there. -/
theorem interruptKeepsForeground : Obligations.InterruptKeepsForeground := by
  refine ⟨fun b s t x hx ht => post_irqTurn hx t ht, ?_⟩
  intro b b' s i j c hready hready' hev hj B C m m' nd hmore hcb hbound
  obtain ⟨mine, hch, hdone⟩ := hev.messageDone
  let u := ((s.tcTaken c).logCall m.callback (.msg m)).setRet .none
  have hframe : changesOnly [.calls, .result] (s.tcTaken c) u := (frame_logCall _ _ _).trans (frame_setRet _ _)
  have hinvoke : invoke m.callback (.msg m) (s.tcTaken c) = .next u :=
    invoke_irq (s := s.tcTaken c) _ hcb hready' hj hbound
  have hbody : dmaHandler b.toNat c mine s.enterIsr = .next (advance b.toNat (B.index + 1) u) := by
    rw [hdone, messageDone_more (s := s.tcTaken c) hmore]
    exact congrArg (andThen · _) hinvoke
  have hubus : ∀ n, u.bus n = s.bus n := hframe .buses (by decide)
  have hucfg : u.busCfg b.toNat = C := State.busCfg_congr (s := s) (hframe .config (by decide)) _
  have hnext : u.desc (u.bus b.toNat).messages (B.index + 1).toNat = m' := by
    rw [hubus, toNat_add_one_of_lt hmore]
    exact hframe .descs (by decide) _ _
  refine (completes_channelHandler hch hready hbody
    ((frame_setChan _ _ _).trans (hframe.trans (frame_advance _ _ _))) (by decide) (by decide)
    ⟨?_, fun b'' hb => ?_, fun c' hrx htx => ?_, ?_⟩).of_result
  · rw [State.bus_afterHandler, State.bus_advance, if_pos rfl, hnext, hubus, hucfg]
  · rw [State.bus_afterHandler, State.bus_advance, if_neg hb.symm, hubus]
  · have hne : c ≠ c' := by
      rintro rfl
      exact hch.channel.elim hrx htx
    have hchan : u.chan c' = (s.tcTaken c).chan c' := hframe .chans (by decide) c'
    rw [State.chan_afterHandler, State.chan_advance_other u _ _ (by rwa [hucfg]) (by rwa [hucfg]), hchan]
    exact State.chan_setChan_ne _ _ hne
  · exact (s.afterHandler_calls _).trans
      ((frame_advance b.toNat (B.index + 1) u .calls (by decide)).trans (State.setRet_calls _ _))

end Sys2Proof.Machine
end

section
/-! SUPPORT. Callbacks that stop their caller (60_exceptions.md R414, R415, R417; 44_sd_protocol.md R311; log 39): the
bus callback of a transfer's end that waits or does not return, and an SD timeout callback that does not return. -/

namespace Sys2Proof.Machine

/-! ## The bus callback of a transfer's end (60_exceptions.md R414, R415) -/

/-- The acts of one invocation of a callback that performs the same at each. -/
theorem State.takeActs_always {s : State} {cb : Word} {acts : List Act} (h : s.callback cb.toNat = .always acts) :
    s.takeActs cb = (acts, s) := by
  rw [State.takeActs, h]

theorem invoke_always {s : State} {cb : Word} {acts : List Act} (arg : CbArg) (hcb : cb ≠ 0)
    (h : s.callback cb.toNat = .always acts) : invoke cb arg s = runActs acts (s.logCall cb arg) := by
  rw [invoke, if_neg hcb, State.takeActs_always (s := s.logCall cb arg) h]

theorem handlerOp_fault {body : Nat → State → Res State} {b : Word} {s : State} {e : Fault}
    (hready : s.busReady b.toNat) (h : body b.toNat s.enterIsr = .fault e) : handlerOp body b s = .fault e := by
  rw [handlerOp, takeInterrupt, withBus_ready hready, h]
  rfl

theorem channelHandler.exec_fault {b : Word} {s : State} {i : Instr} {c : Nat} {mine : Phase → Bool} {e : Fault}
    (hi : channelHandler b s i c mine) (hready : s.busReady b.toNat)
    (h : dmaHandler b.toNat c mine s.enterIsr = .fault e) : exec i s = .fault e := by
  rcases hi with ⟨rfl, rfl, rfl⟩ | ⟨rfl, rfl, rfl⟩
  · exact handlerOp_fault (body := rxHandler) hready h
  · exact handlerOp_fault (body := txHandler) hready h

/-- Where the last message of a transfer completes with no callback of its own, its handler runs the acts of the bus's
callback in ISR context, the futures as they were; a fault of theirs is the handler's. -/
theorem completingEvent.busCallback {b : Word} {s : State} {i : Instr} {c : Nat} {acts : List Act}
    (hready : s.busReady b.toNat) (hev : completingEvent b s i c)
    (hlast : (s.bus b.toNat).count.toNat ≤ (s.bus b.toNat).index.toNat + 1)
    (hmsg : (s.current b.toNat).callback = 0) (hcb : (s.bus b.toNat).callback ≠ 0)
    (hbound : s.callback (s.bus b.toNat).callback.toNat = .always acts) :
    ∃ u : State, u.isr = true ∧ (∀ f, u.fut f = s.fut f) ∧ ∀ e, runActs acts u = .fault e → exec i s = .fault e := by
  obtain ⟨mine, hch, hdone⟩ := hev.messageDone
  let v := (s.tcTaken c).ended b.toNat .transferred (s.bus b.toNat).errors
  have hframe : changesOnly [.buses, .chans, .locks] (s.tcTaken c) v := frame_ended _ _ _ _
  have hinvoke : dmaHandler b.toNat c mine s.enterIsr = invoke (s.bus b.toNat).callback (.bus b.toNat) v := by
    have hnone : invoke ((s.tcTaken c).current b.toNat).callback (.msg ((s.tcTaken c).current b.toNat)) (s.tcTaken c) =
        .next (s.tcTaken c) := if_pos hmsg
    rw [hdone, messageDone_last (s := s.tcTaken c) hlast, hnone, andThen_next, terminalSuccess_eq]
    rfl
  have hacts : v.callback (s.bus b.toNat).callback.toNat = .always acts :=
    (hframe .callbacks (by decide) _).trans hbound
  refine ⟨v.logCall (s.bus b.toNat).callback (.bus b.toNat), (hframe .control (by decide)).2.2,
    hframe .futs (by decide), fun e h => hch.exec_fault hready ?_⟩
  rw [hinvoke, invoke_always _ hcb hacts, h]

/-! ## SD timeout callbacks (44_sd_protocol.md R311) -/

/-- A callback in FG context that does not return leaves FG in it, with the rest of its acts and the frames `after`
still to come. -/
theorem fgInvoke_hang {s : State} {cb : Word} {rest : List Act} (arg : Word) (after : List Frame)
    (next : State → Res Flow) (hcb : cb ≠ 0) (h : s.callback cb.toNat = .always (.hang :: rest)) :
    fgInvoke cb arg after next s = .next (.wait .hang (.script rest :: after) (s.logCall cb (.word arg))) := by
  rw [fgInvoke, if_neg hcb, State.takeActs_always (s := s.logCall cb (.word arg)) h]
  rfl

/-- SDI.BUSYWAIT whose begin callback does not return: its window is open, and FG is in the callback. -/
theorem begins_sdiBusyWait_hang {x : Word} {rest : List Act} {s : State} (hready : s.sdReady x.toNat)
    (hcb : (s.sesCfg x.toNat).timeoutBegin ≠ 0)
    (hbound : s.callback (s.sesCfg x.toNat).timeoutBegin.toNat = .always (.hang :: rest)) :
    begins (.sdiBusyWait x) s (.busy .hang [.script rest, .busyStart x.toNat, .finish .code]) [.sess, .calls]
      (fun t => t.ses x.toNat = { s.ses x.toNat with expired := false, winOpen := true }
        ∧ t.calls = { cb := (s.sesCfg x.toNat).timeoutBegin, arg := .word s.cfg.timeoutBusy } :: s.calls) := by
  let u := s.setSes x.toNat { s.ses x.toNat with expired := false, winOpen := true }
  have hexec := (unclaimed_ready hready (startBusyWait x.toNat [.finish .code])).trans
    (congrArg enterFlow (fgInvoke_hang (s := u) s.cfg.timeoutBusy [.busyStart x.toNat, .finish .code]
      (busyLoop x.toNat [.finish .code]) hcb hbound))
  refine ⟨_, hexec, rfl, rfl, rfl, ?_, State.ses_setSes_self s x.toNat _, rfl⟩
  exact ((frame_setSes s x.toNat _).trans ((frame_logCall u _ _).trans (frame_setFg _ _))).mono (by decide)

/-- The poll that ends a busy wait whose end callback does not return leaves FG in the callback. -/
theorem resume_busyPoll_hang {i : Nat} {acts : List Act} {s : State} (hcb : (s.sesCfg i).timeoutEnd ≠ 0)
    (hbound : s.callback (s.sesCfg i).timeoutEnd.toNat = .always (.hang :: acts)) :
    resume (.busyPoll i) { code := .noError, byte := 0xFF, val := 0 } s =
      .next (.wait .hang [.script acts, .windowEnd i (Ret.ofCode .noError)]
        (s.logCall (s.sesCfg i).timeoutEnd (.word 0))) :=
  fgInvoke_hang 0 [.windowEnd i (Ret.ofCode .noError)] _ hcb hbound

/-- FG's turn at that poll. -/
theorem fgTurn_busyPoll_hang {i : Nat} {rest : List Byte} {acts : List Act} {s : State}
    (hw : s.wireFree i (s.sesBus i)) (hcb : (s.sesCfg i).timeoutEnd ≠ 0)
    (hbound : s.callback (s.sesCfg i).timeoutEnd.toNat = .always (.hang :: acts))
    (hfg : s.fg = .busy (.xchg (s.sesBus i) 0xFF) [.busyPoll i, .finish .code])
    (ha : s.answersOf (s.sesBus i) = 0xFF :: rest) :
    ∃ t, agentStep exec .fg s = .next t ∧ sentByte (s.sesBus i) 0xFF rest s t
      ∧ movedTo (.busy .hang [.script acts, .windowEnd i (Ret.ofCode .noError), .finish .code])
        [.wire, .answers, .calls] s t
      ∧ t.calls = { cb := (s.sesCfg i).timeoutEnd, arg := .word 0 } :: s.calls := by
  have hread := handsBack_xchg hfg hw ha
  have hsent := hread.toframesSent.keep (frame_logCall _ (s.sesCfg i).timeoutEnd (.word 0))
  have hturn := hread.run.trans (unwind_wait (resume_busyPoll_hang
    (s := (s.send (s.sesBus i) 0xFF).setAnswers (s.sesBus i) rest) hcb hbound))
  exact ⟨_, (fgRun_one s).symm.trans hturn, hsent.sentByte, hsent.moves _, rfl⟩

/-- Settles O27: the acts of a bus callback run in the handler (`completingEvent.busCallback`), a timeout callback that
does not return holds FG (`fgInvoke_hang`), and the frames below an ended callback go on. -/
theorem callbacksThatStop : Obligations.CallbacksThatStop := by
  refine ⟨fun b f s i c hready hev hlast hmsg hcb => ⟨fun hbound hrun => ?_, fun rest hbound => ?_⟩,
    fun x rest s hready hcb hbound => begins_sdiBusyWait_hang hready hcb hbound,
    fun i rest acts s _ hready hidle hcb hbound hfg ha =>
      fgTurn_busyPoll_hang ⟨rfl, hready, hidle⟩ hcb hbound hfg ha,
    fun k s hfg => ?_, fun i k v w s => ⟨unwind_ret rfl, ?_, ?_, unwind_ret rfl⟩⟩
  · obtain ⟨u, hisr, hfut, hfault⟩ := hev.busCallback hready hlast hmsg hcb hbound
    have hwait : callOp (.futWait f) u = .fault .waitInInterrupt :=
      waitFuture_isr ((congrArg Future.running (hfut f.toNat)).trans hrun) hisr _
    exact hfault _ (congrArg (andThen · _) hwait)
  · obtain ⟨u, -, -, hfault⟩ := hev.busCallback hready hlast hmsg hcb hbound
    exact hfault _ rfl
  · simp only [agentStep, fgTurn, hfg, performAct]
  · exact ⟨_, unwind_ask rfl, sesMoves_self _⟩
  · exact ⟨_, unwind_ask rfl, sesMoves_self _⟩

end Sys2Proof.Machine
end

section
/-! SUPPORT. Where an SD or SDI operation stops at its entry (60_exceptions.md R414, R417; 44_sd_protocol.md R310, R311;
41_spi_bus.md R181; logs 16, 17 and 46): the context, the bus's mode, a bus of another id, and a window that would
nest. -/

namespace Sys2Proof.Machine

/-! ## The context and the bus (60_exceptions.md R414, 44_sd_protocol.md R310) -/

section
variable {α : Type} {i : Nat} {buf sector count : Word} {start : State → Res Flow} {s : State}

theorem withSdSession_isr (hi : i < s.cfg.sessions.length) (hisr : s.isr = true) (k : Res α) :
    withSdSession i s k = .fault .sdInInterrupt := by
  rw [withSdSession, withSession_eq _ hi, if_pos hisr]

theorem withSdBus_mode (hmode : (s.busCfg (s.sesBus i)).mode ≠ .fullDuplex) (k : Res α) :
    withSdBus i s k = .fault .sdBusMode := if_pos hmode

theorem claimed_busy (hready : s.sdReady i) (hb : s.busy (s.sesBus i) = true)
    (hid : (s.bus (s.sesBus i)).transferId ≠ (s.sesCfg i).sdId) :
    claimed i start s = .next (s.setRet (.code .busy)) := by
  rw [claimed, withSdBus_ready hready, sdBegin, setTransferId_refused hb hid]
  rfl

theorem exec_sdInit_busy {x : Word} (hready : s.sdReady x.toNat) (hb : s.busy (s.sesBus x.toNat) = true)
    (hid : (s.bus (s.sesBus x.toNat)).transferId ≠ (s.sesCfg x.toNat).sdId) :
    exec (.sdInit x) s = .next (s.setRet (.code .busy)) := by
  refine (withSdSession_ready hready _).trans ((withSdBus_ready hready _).trans ?_)
  rw [setTransferId_refused hb hid]
  rfl

/-- A data operation whose checks pass goes on to the claim. -/
theorem dataOp_checked (hi : i < s.cfg.sessions.length) (hisr : s.isr = false) (hready : s.busReady (s.sesBus i))
    (h : dataArgs (s.ses i) buf sector count = none) : dataOp i buf sector count start s = claimed i start s := by
  rw [dataOp, withSdSession_eq hi hisr hready, h]

end

/-- What holds of every operation that comes to the claim of its card holds of SD.SETCRC and of the data operations
whose checks pass, on an initialised session. -/
theorem claiming_operations {x w y z : Word} {f : Bool} {s : State} {R : Instr → Prop}
    (hi : x.toNat < s.cfg.sessions.length) (hisr : s.isr = false) (hready : s.busReady (s.sesBus x.toNat))
    (hon : (s.ses x.toNat).initialized = true) (hR : ∀ op start, exec op s = claimed x.toNat start s → R op) :
    R (.sdSetCrc x f)
      ∧ (y ≠ 0 → w.toNat + 1 ≤ sectorCount (s.ses x.toNat) → R (.sdRead1 x w y) ∧ R (.sdWrite1 x w y))
      ∧ (y ≠ 0 → z ≠ 0 → w.toNat + z.toNat ≤ sectorCount (s.ses x.toNat) →
        R (.sdReadN x w z y) ∧ R (.sdWriteN x w z y)) := by
  refine ⟨hR _ _ ((withSdSession_eq hi hisr hready _).trans (if_neg ((Bool.not_eq_false _).mpr hon))),
    fun hy hend => ?_, fun hy hz hend => ?_⟩
  · have hargs : dataArgs (s.ses x.toNat) y w 1 = none := dataArgs_none hy (by decide) hon hend
    exact ⟨hR _ _ (dataOp_checked hi hisr hready hargs), hR _ _ (dataOp_checked hi hisr hready hargs)⟩
  · have hargs : dataArgs (s.ses x.toNat) y w z = none := dataArgs_none hy hz hon hend
    exact ⟨hR _ _ (dataOp_checked hi hisr hready hargs), hR _ _ (dataOp_checked hi hisr hready hargs)⟩

/-! ## Operations that a timeout callback issues (44_sd_protocol.md R311, 60_exceptions.md R417, log 46) -/

section
variable {op : Instr} {k : List Frame} {n : Nat} {s : State}

theorem reenters_of_window (hw : windowSession s op = some n) (hk : ∃ g ∈ k, g.session = some n) :
    reenters k op s = true := by
  simp only [reenters, hw, List.any_eq_true, beq_iff_eq]
  exact hk

theorem reenters_of_no_window (hw : windowSession s op = none) : reenters k op s = false := by
  simp only [reenters, hw]

/-- FG's entry of an operation that would open a window of a session FG is inside. -/
theorem fgTurn_enter_turnedAway (hk : ∃ g ∈ k, g.session = some n) (hw : windowSession s op = some n)
    (hfg : s.fg = .busy (.enter op) k) :
    agentStep exec .fg s = unwind k { code := .noError, byte := 0, val := 0 } (turnAway op s) := by
  simp only [agentStep, fgTurn, hfg, performAct, reenters_of_window hw hk, if_true]
  rfl

/-- FG goes on inside an operation that takes steps of its own, the callback's frames below the operation's. -/
theorem fgTurn_enter_goesOn {t : State} {q : Pending} {fs : List Frame} (hw : windowSession s op = none)
    (hfg : s.fg = .busy (.enter op) k) (hexec : exec op (s.setFg .idle) = .next t) (ht : t.fg = .busy q fs) :
    agentStep exec .fg s = .next (t.setFg (.busy q (fs ++ k))) := by
  simp only [agentStep, fgTurn, hfg, performAct, reenters_of_no_window hw, Bool.false_eq_true, if_false, hexec,
    andThen_next, ht]

/-- FG goes back to the callback's frames from an operation that ends within its entry. -/
theorem fgTurn_enter_ends {t : State} (hw : windowSession s op = none) (hfg : s.fg = .busy (.enter op) k)
    (hexec : exec op (s.setFg .idle) = .next t) (ht : t.fg = .idle) :
    agentStep exec .fg s = unwind k { code := .noError, byte := 0, val := 0 } t := by
  simp only [agentStep, fgTurn, hfg, performAct, reenters_of_no_window hw, Bool.false_eq_true, if_false, hexec,
    andThen_next, ht]
  rfl

/-- One that is not SDI.CMD ends with E_BUSY alone. -/
theorem fgTurn_enter_busy (hk : ∃ g ∈ k, g.session = some n) (hw : windowSession s op = some n)
    (haway : turnAway op s = s.setRet (.code .busy)) (hfg : s.fg = .busy (.enter op) k) :
    agentStep exec .fg s = unwind k { code := .noError, byte := 0, val := 0 } (s.setRet (.code .busy)) :=
  haway ▸ fgTurn_enter_turnedAway hk hw hfg

/-- SDI.CMD turned away ends with E_BUSY and free reply values. -/
theorem turnAway_sdiCmd (x w : Word) (index : BitVec 6) (sh : Shape) (f : Bool) (s : State) :
    (turnAway (.sdiCmd x index w sh f) s).result = .reply .busy s.drawByte.1 s.drawByte.2.drawWord.1
      ∧ changesOnly [.result, .draws] s (turnAway (.sdiCmd x index w sh f) s) :=
  ⟨result_setRet _ _, ((frame_bumpDraws s).trans ((frame_bumpDraws _).trans (frame_setRet _ _))).mono (by decide)⟩

end

/-- Settles O35: the context and the bus stop the entry (`withSdSession_isr`, `withSdBus_mode`, `claimed_busy`), and an
operation FG enters inside a callback is turned away where `windowSession` names a session of its frames. -/
theorem sdEntryStops : Obligations.SdEntryStops := by
  intro x w y z index sh f v s hi
  refine ⟨fun hisr op hop => ?_, fun hisr hready hmode => ⟨fun op hop => ?_, fun hon => ?_⟩,
    fun hready hb hid => ⟨completes_setRet (exec_sdInit_busy hready hb hid), fun hon => ?_⟩, fun k hk => ?_⟩
  · obtain ⟨m, hm⟩ : ∃ m, exec op s = withSdSession x.toNat s m := by
      simp only [List.mem_cons, List.not_mem_nil, or_false] at hop
      rcases hop with rfl | rfl | rfl | rfl | rfl | rfl | rfl | rfl | rfl | rfl | rfl | rfl | rfl | rfl <;>
        exact ⟨_, rfl⟩
    exact hm.trans (withSdSession_isr hi hisr m)
  · obtain ⟨m, hm⟩ : ∃ m, exec op s = withSdSession x.toNat s (withSdBus x.toNat s m) := by
      simp only [List.mem_cons, List.not_mem_nil, or_false] at hop
      rcases hop with rfl | rfl | rfl | rfl | rfl | rfl | rfl | rfl | rfl <;> exact ⟨_, rfl⟩
    exact hm.trans ((withSdSession_eq hi hisr hready _).trans (withSdBus_mode hmode m))
  · exact claiming_operations (R := fun op => exec op s = .fault .sdBusMode) hi hisr hready hon
      fun _ _ h => h.trans (withSdBus_mode hmode _)
  · exact claiming_operations (R := fun op => completes op s (.code .busy) [] (fun _ => True)) hi hready.2.1
      hready.2.2.2 hon fun _ _ h => completes_setRet (h.trans (claimed_busy hready hb hid))
  · intro turnedAway
    refine ⟨fun op hop => ?_, fun hfg => ?_, fun op hop hfg t hexec => ?_, fun hon => ⟨fun hy hend => ?_,
      fun hy hz hend => ?_⟩⟩
    · obtain ⟨hw, haway⟩ : windowSession s op = some x.toNat ∧ turnAway op s = s.setRet (.code .busy) := by
        simp only [List.mem_cons, List.not_mem_nil, or_false] at hop
        rcases hop with rfl | rfl | rfl | rfl | rfl | rfl | rfl <;> exact ⟨rfl, rfl⟩
      exact fgTurn_enter_busy hk hw haway
    · exact ⟨_, _, _, fgTurn_enter_turnedAway hk rfl hfg, turnAway_sdiCmd x w index .r1b f s⟩
    · have hnone : windowSession s op = none := by
        simp only [List.mem_cons, List.not_mem_nil, or_false] at hop
        rcases hop with rfl | rfl | rfl | rfl | rfl | rfl <;> rfl
      exact ⟨fun q fs => fgTurn_enter_goesOn hnone hfg hexec, fgTurn_enter_ends hnone hfg hexec⟩
    · have hargs : dataArgs (s.ses x.toNat) y w 1 = none := dataArgs_none hy (by decide) hon hend
      exact ⟨fgTurn_enter_busy hk (if_pos hargs) rfl, fgTurn_enter_busy hk (if_pos hargs) rfl⟩
    · have hargs : dataArgs (s.ses x.toNat) y w z = none := dataArgs_none hy hz hon hend
      exact ⟨fgTurn_enter_busy hk (if_pos hargs) rfl, fgTurn_enter_busy hk (if_pos hargs) rfl⟩

end Sys2Proof.Machine
end

section
/-! SUPPORT. Operations on a bus that has not been through BUS.INIT (70_reset_and_hazards.md R455, 60_exceptions.md R414;
logs 15 and 16): the guards stop there, whatever stands behind them. -/

namespace Sys2Proof.Machine

/-! ## The guards -/

section
variable {α : Type} {i : Nat} {s : State}

theorem withBus_uninitialised {b : Nat} (hb : b < s.numBuses) (hinit : (s.bus b).inited = false) (k : Res α) :
    withBus b s k = .fault .uninitialisedBus := by
  simp [withBus, hb, hinit]

theorem withCard_uninitialised (hi : i < s.cfg.sessions.length) (hb : s.sesBus i < s.numBuses)
    (hinit : (s.bus (s.sesBus i)).inited = false) (k : Res α) : withCard i s k = .fault .uninitialisedBus :=
  (withSession_eq _ hi).trans (withBus_uninitialised hb hinit k)

theorem withSdSession_uninitialised (hi : i < s.cfg.sessions.length) (hisr : s.isr = false)
    (hb : s.sesBus i < s.numBuses) (hinit : (s.bus (s.sesBus i)).inited = false) (k : Res α) :
    withSdSession i s k = .fault .uninitialisedBus := by
  rw [withSdSession, withSession_eq _ hi, hisr, if_neg Bool.false_ne_true, withBus_uninitialised hb hinit]

/-- ADP.BEGIN and ADP.SYNC come to their bus after Build and the future's check (log 15). -/
theorem beginBuilt_uninitialised {a : Nat} {ms : List Msg} {scratch : List Byte}
    (hrun : (s.fut (s.adpCfg a).fut).running = false) (hb : (s.adpCfg a).bus < s.numBuses)
    (hinit : (s.bus (s.adpCfg a).bus).inited = false) :
    beginBuilt a ms scratch s = .fault .uninitialisedBus :=
  (if_neg (by rw [hrun]; exact Bool.false_ne_true)).trans (withBus_uninitialised hb hinit _)

end

/-! ## The operations behind each guard -/

section
variable {b w y z : Word} {v : Byte} {sp : Speed} {index : BitVec 6} {sh : Shape} {f : Bool} {op : Instr} {s : State}

/-- Every BUS operation but BUS.INIT, every IRQ operation and ADP.DISPATCH begin at their bus. -/
theorem exec_eq_withBus (hop : op ∈ [Instr.busSetId b v, .busId b, .busXfer b w y, .busXmit b v w, .busWait b,
      .busStatus b, .busErrors b, .busBusy b, .busSetCb b w, .busSetTxDef b v, .busSetSpeed b sp, .irqSpi b,
      .irqDmaRx b, .irqDmaTx b, .adpDispatch b]) : ∃ k, exec op s = withBus b.toNat s k := by
  simp only [List.mem_cons, List.not_mem_nil, or_false] at hop
  rcases hop with rfl | rfl | rfl | rfl | rfl | rfl | rfl | rfl | rfl | rfl | rfl | rfl | rfl | rfl | rfl <;>
    exact ⟨_, rfl⟩

/-- A session's accessors and register copies begin at their card. -/
theorem exec_eq_withCard (hop : op ∈ [Instr.sdSectors b, .sdType b, .sdInited b, .sdBlkLen b, .sdEraseSz b, .sdCid b w,
      .sdCsd b w, .sdCrcEn b]) : ∃ k, exec op s = withCard b.toNat s k := by
  simp only [List.mem_cons, List.not_mem_nil, or_false] at hop
  rcases hop with rfl | rfl | rfl | rfl | rfl | rfl | rfl | rfl <;> exact ⟨_, rfl⟩

/-- The SD and SDI operations that exchange bytes begin at their session. -/
theorem exec_eq_withSdSession (hop : op ∈ [Instr.sdInit b, .sdRead1 b w y, .sdReadN b w z y, .sdWrite1 b w y,
      .sdWriteN b w z y, .sdSetCrc b f, .sdiCmd b index w sh f, .sdiR1Poll b, .sdiBusyWait b, .sdiRdBlk b w y f,
      .sdiWrBlk b w v, .sdiStopR b, .sdiStopW b, .sdiRdReg b index w]) : ∃ k, exec op s = withSdSession b.toNat s k := by
  simp only [List.mem_cons, List.not_mem_nil, or_false] at hop
  rcases hop with rfl | rfl | rfl | rfl | rfl | rfl | rfl | rfl | rfl | rfl | rfl | rfl | rfl | rfl <;>
    exact ⟨_, rfl⟩

end

/-- Settles O19: each operation begins at a guard of its bus (`exec_eq_withBus`, `exec_eq_withCard`,
`exec_eq_withSdSession`), and ADP.BEGIN and ADP.SYNC come to theirs in `beginBuilt`. -/
theorem uninitialisedBusFaults : Obligations.UninitialisedBusFaults := by
  intro b w y z v sp index sh f s
  refine ⟨fun hb hinit op hop => ?_, fun hi hb hinit => ⟨fun op hop => ?_, fun hisr op hop => ?_⟩,
    fun ha hb hinit => ⟨?_, fun r ms scratch hr hbuild hrun => ?_⟩⟩
  · obtain ⟨k, hexec⟩ := exec_eq_withBus hop
    exact hexec.trans (withBus_uninitialised hb hinit k)
  · obtain ⟨k, hexec⟩ := exec_eq_withCard hop
    exact hexec.trans (withCard_uninitialised hi hb hinit k)
  · obtain ⟨k, hexec⟩ := exec_eq_withSdSession hop
    exact hexec.trans (withSdSession_uninitialised hi hisr hb hinit k)
  · exact (withAdapter_eq _ ha).trans (withBus_uninitialised hb hinit _)
  · have hfault := (beginOp_built ha hr hbuild).trans (beginBuilt_uninitialised hrun hb hinit)
    exact ⟨exec_begin_fault (List.mem_cons_self ..) hfault,
      exec_begin_fault (List.mem_cons_of_mem _ (List.mem_singleton_self _)) hfault⟩

end Sys2Proof.Machine
end

section
/-! SUPPORT. The state after reset (70_reset_and_hazards.md R450; 10_state.md R33, R46, R60; logs 2, 3, 5, 6, 7 and 12):
its tables list nothing, so every record reads as its power-on value, and the invariants hold of those. -/

namespace Sys2Proof.Machine

/-! ## The invariants of machines at their power-on values -/

section
variable {s : State}

/-- Where no future runs, none is done and running (10_state.md R33). -/
theorem State.futuresOk_of_notRunning (h : ∀ f, (s.fut f).running = false) : s.futuresOk := by
  intro f ⟨_, hrun⟩
  rw [h f] at hrun
  exact Bool.false_ne_true hrun

/-- Sessions that are not initialised, with FG outside any operation, owe nothing (10_state.md R60). -/
theorem State.SessionInv.of_notInitialised (hses : ∀ i, (s.ses i).initialized = false) (hfg : s.fg = .idle) :
    s.SessionInv where
  ready i hon := by rw [hses i] at hon; exact absurd hon Bool.false_ne_true
  typed p k hbusy := by rw [hfg] at hbusy; cases hbusy

/-- Buses at power-on are IDLE and hold no channel, so the invariants of 10_state.md R46 ask nothing of the rest of the
machine but that ENV holds no lock. -/
theorem State.BusInv.of_powerOn (hbus : ∀ b, s.bus b = Bus.powerOn) (hext : ∀ c, s.extLock c = false) : s.BusInv := by
  have hidle : ∀ b, (s.bus b).phase = .idle := fun b => by rw [hbus b]; rfl
  refine ⟨fun b => ?_, fun b h => absurd (hidle b) h, fun b => ?_, fun b _ => ?_, fun b h => absurd (hidle b) h,
    fun c h => ?_, fun b h => absurd (hidle b) h⟩
  · simp [hbus b, Bus.powerOn]
  · simp [hbus b, Bus.powerOn]
  · simp [hbus b, Bus.powerOn]
  · rw [hext c] at h
    exact absurd h Bool.false_ne_true

end

/-! ## The records after reset -/

theorem State.fut_reset (f : Nat) : State.reset.fut f = Future.zero := Table.get_nil _ f
theorem State.bus_reset (b : Nat) : State.reset.bus b = Bus.powerOn := Table.get_nil _ b
theorem State.chan_reset (c : Nat) : State.reset.chan c = Chan.powerOn := Table.get_nil _ c
theorem State.lock_reset (c : Nat) : State.reset.lock c = false := Table.get_nil _ c
theorem State.extLock_reset (c : Nat) : State.reset.extLock c = false := Table.get_nil _ c
theorem State.ses_reset (i : Nat) : State.reset.ses i = Session.powerOn := Table.get_nil _ i
theorem State.adp_reset (a : Nat) : State.reset.adp a = Adapter.powerOn := Table.get_nil _ a
theorem State.answersOf_reset (b : Nat) : State.reset.answersOf b = [] := Table.get_nil _ b
theorem State.callback_reset (cb : Nat) : State.reset.callback cb = .tape [] := Table.get_nil _ cb

theorem State.tablesWf_reset : State.reset.tablesWf := by
  unfold State.tablesWf
  decide

theorem State.calm_reset : State.reset.calm := fun cb => by rw [State.callback_reset]; rfl

/-- Settles O57: the values are the power-on records, and each invariant follows from them (`State.BusInv.of_powerOn`,
`State.SessionInv.of_notInitialised`, `State.futuresOk_of_notRunning`). -/
theorem resetState : Obligations.ResetState := by
  refine ⟨State.fut_reset, fun b => ?_, fun c => ?_, State.ses_reset, State.adp_reset, rfl, rfl, rfl, rfl,
    State.answersOf_reset, State.tablesWf_reset, ?_, ?_, ?_, State.calm_reset⟩
  · rw [State.bus_reset]
    decide
  · rw [State.lock_reset, State.chan_reset]
    decide
  · exact State.futuresOk_of_notRunning fun f => congrArg Future.running (State.fut_reset f)
  · exact State.SessionInv.of_notInitialised (fun i => congrArg Session.initialized (State.ses_reset i)) rfl
  · exact State.BusInv.of_powerOn State.bus_reset State.extLock_reset

end Sys2Proof.Machine
end
